-- ==== Sys2Proof/Word.lean ====
section
/-! DEFINITION. The two word types of HUFFCORE (spec 00_scope.md R8): a byte (a symbol, a data byte, a
character) and the 32-bit value of a register of the window. Every quantity of HUFFCORE is unsigned. -/

namespace Sys2Proof

/-- A byte: an 8-bit unsigned value 0..255 (R8); a symbol is a byte (R10). -/
abbrev Byte := BitVec 8

/-- A register of the window, and a `u32` (R8, R21). -/
abbrev Word := BitVec 32

end Sys2Proof
end

