-- ==== Sys2Proof/Config.lean ====
section
/-! DEFINITION. The parameters of HUFFCORE (spec 00_scope.md R5) and the model's free values.
A value that R5 marks "fixed" is a plain definition; the one OPEN parameter and the one unspecified
read value are opaque: nothing in Lean can compute them. -/

namespace Sys2Proof.Config

/-- The identification word of the ID register (10_state.md R22). -/
def idWord : Word := 0x48460001#32

/-- MAX_CODE_LEN (R5): the longest path of a code table. -/
def maxCodeLen : Nat := 255

/-- NODE_CAPACITY (R5, R37): slots of the tree arena. -/
def nodeCapacity : Nat := 65536

/-- The last offset of the register window that a word access may use (R5 WINDOW_SIZE, R71). -/
def lastOffset : Nat := 0x3C

/-- One less than BW_CAPACITY, the parameter R5 leaves OPEN with "at least 1".
FREE VALUE (DESIGN CHOICE log 3): no body, so a claim about the reset state holds for every capacity. -/
opaque bwCapacityLessOne : Nat

/-- BW_CAPACITY: the number of finalized data bytes the packer holds before BW_CLOSE; at least 1 (R5, D22). -/
def bwCapacity : Nat := bwCapacityLessOne + 1

/-- The value of the n-th host read that 20_memory.md R89 leaves unspecified (a fresh draw per read).
FREE VALUE (DESIGN CHOICE log 4). -/
opaque unspecifiedRead : Nat → Word

/-- What BW_COUNT, a 32-bit register, reads when the packer holds this many finalized bytes and their number has no
32-bit value. R5 bounds BW_CAPACITY only from below and 10_state.md R32 states no value there.
FREE VALUE (DESIGN CHOICE log 22). -/
opaque bwCountBeyond : Nat → Word

end Sys2Proof.Config
end

