-- ==== Sys2Proof/Syntax.lean ====
section
/-! DEFINITION. The abstract syntax: the 23 commands of spec 30_encoding.md R102 (`Instr`), the registers
of the window by name (10_state.md R21), the tokens of the input port (10_state.md R42), and the lines of
a host program (30_encoding.md R106). A command word carries no operand (R100): operands are in ARG0 and
ARG1, so every constructor of `Instr` is a constant. -/

namespace Sys2Proof

/-- The commands of the opcode map, in the order of R102. -/
inductive Instr where
  /-- 0x00 NOP (R130) -/
  | nop
  /-- 0x01 CLEAR_ERROR (R131) -/
  | clearError
  /-- 0x02 SOFT_RESET (R132) -/
  | softReset
  /-- 0x10 FREQ_CLEAR (R133) -/
  | freqClear
  /-- 0x11 FREQ_WRITE (R134) -/
  | freqWrite
  /-- 0x12 FREQ_READ (R135) -/
  | freqRead
  /-- 0x20 TREE_BUILD (R161) -/
  | treeBuild
  /-- 0x21 TREE_CLEAR (R163) -/
  | treeClear
  /-- 0x22 CODE_QUERY (R164) -/
  | codeQuery
  /-- 0x23 CODE_BIT (R165) -/
  | codeBit
  /-- 0x28 TREE_SAVE (R202) -/
  | treeSave
  /-- 0x29 TREE_LOAD (R207) -/
  | treeLoad
  /-- 0x30 ENCODE_SYMBOL (R242) -/
  | encodeSymbol
  /-- 0x31 DECODE_SYMBOL (R243) -/
  | decodeSymbol
  /-- 0x32 COMPRESS (R244) -/
  | compress
  /-- 0x33 DECOMPRESS (R245) -/
  | decompress
  /-- 0x40 BW_OPEN (R283) -/
  | bwOpen
  /-- 0x41 BW_WRITE (R284) -/
  | bwWrite
  /-- 0x42 BW_CLOSE (R285) -/
  | bwClose
  /-- 0x48 BR_OPEN (R313) -/
  | brOpen
  /-- 0x49 BR_HASNEXT (R314) -/
  | brHasNext
  /-- 0x4A BR_NEXT (R315) -/
  | brNext
  /-- 0x4B BR_CLOSE (R316) -/
  | brClose
deriving DecidableEq, Repr

/-- The registers of the window (R21); `reserved k` are the offsets 0x30 + 4k of R34. -/
inductive Reg where
  | id | ctrl | status | cmd | arg0 | arg1 | result | errInfo | treeInfo | bwInfo | bwCount | brInfo
  | reserved (k : Fin 4)
deriving DecidableEq, Repr

/-- A token of the input port: a data byte, the end-of-stream marker or the error marker (R42). -/
inductive Token where
  | byte (b : Byte)
  | eos
  | err
deriving DecidableEq, Repr

/-- A host expression over the values read: constants, a register's last read value, `&` and `>>` (R106). -/
inductive HostExpr where
  | const (v : Word)
  | reg (r : Reg)
  | and (a b : HostExpr)
  | shr (a b : HostExpr)
deriving DecidableEq, Repr

/-- One line of a host program (R106). A label is the index of the line it stands before. The bus
accesses carry their offset and their width in bytes, so that an access outside R71 can be written
down (and is refused, R73). `powerOnReset` is the host's assertion of the reset input (R391). -/
inductive HostLine where
  /-- `RD`: `MemRead(a, n)` -/
  | rd (a n : Nat)
  /-- `WR`: `MemWrite(a, n, v)` -/
  | wr (a n : Nat) (v : Word)
  /-- `PUSH tok, …` -/
  | push (ts : List Token)
  /-- `OUTERR 0` / `OUTERR 1` -/
  | outErr (b : Bool)
  /-- `JMP label` -/
  | jmp (l : Nat)
  /-- `JZ expr, label` -/
  | jz (e : HostExpr) (l : Nat)
  /-- `JNZ expr, label` -/
  | jnz (e : HostExpr) (l : Nat)
  /-- the reset input is asserted (70_reset_and_hazards.md R380, R391) -/
  | powerOnReset
deriving DecidableEq, Repr

end Sys2Proof
end

