-- ==== Sys2Proof/Machine/State.lean ====
section
/-! DEFINITION. The state of HUFFCORE as plain data (spec 10_state.md R20), the faults and refusals of a
step, and the state after reset (R49). STATUS, TREE_INFO, BW_INFO, BW_COUNT and BR_INFO are views of the
items they show and are computed in Machine/Flags.lean (DEDUCED log 9). The host agent and the schedule stand
beside the machine's own items, because a step is a function of the state alone (DESIGN CHOICE log 1). -/

namespace Sys2Proof.Machine

/-- A node of TREE below the root: not present, a LEAF(s), or INTERNAL with its two child slots (R36). -/
inductive Node where
  | absent
  | leaf (s : Byte)
  | internal (zero one : Node)
deriving DecidableEq, Repr

/-- TREE (R36): EMPTY, or a root, which is always INTERNAL, with its left ("0") and right ("1") child
slots. Conditions 1 to 3 of R36 hold by this shape (DEDUCED log 8). -/
inductive Tree where
  | empty
  | root (zero one : Node)
deriving DecidableEq, Repr

/-- BW, the packer (R41). -/
structure Packer where
  /-- BW.open -/
  isOpen : Bool
  /-- BW.acc -/
  acc : Byte
  /-- BW.nbits, 0..7 -/
  nbits : Fin 8
  /-- BW.data -/
  data : List Byte
deriving DecidableEq, Repr

/-- BW when closed (R41, R49). -/
def Packer.closed : Packer := { isOpen := false, acc := 0, nbits := 0, data := [] }

/-- BR, the unpacker (R45); `none` is EOF. -/
structure Unpacker where
  /-- BR.open -/
  isOpen : Bool
  /-- BR.hdr_empty -/
  hdrEmpty : Bool
  /-- BR.pad, 0..7 -/
  pad : Fin 8
  /-- BR.cur -/
  cur : Option Byte
  /-- BR.nxt -/
  nxt : Option Byte
  /-- BR.pos, 0..7 -/
  pos : Fin 8
deriving DecidableEq, Repr

/-- BR when closed (R45, R49). -/
def Unpacker.closed : Unpacker :=
  { isOpen := false, hdrEmpty := false, pad := 0, cur := none, nxt := none, pos := 0 }

/-- A token of the output port (R43). -/
inductive OutToken where
  | byte (b : Byte)
  | close
deriving DecidableEq, Repr

/-- The errors of 60_exceptions.md R340 by name. -/
inductive ErrName where
  | invalidArgument
  | exhaustion
  | malformedCodeTable
  | missingCode
  | resourceError
  | illegalCommand
  | illegalState
  | malformedStream
  | undefinedPath
  | capacityExceeded
deriving DecidableEq, Repr

/-- One entry of the history of error entries (R341). -/
structure ErrEntry where
  name : ErrName
  info : Word
deriving DecidableEq, Repr

/-- TREE_LOAD between two InReads (42_code_table.md R207, 10_state.md R47): the symbol of the line
pair once its first line is read, the current line, the line number, the partial tree, the pairs read. -/
structure LoadState where
  sym : Option Byte
  line : List Byte
  ln : Word
  tree : Tree
  pairs : Word
deriving DecidableEq, Repr

/-- The command that waits at InOpen (20_memory.md R80). -/
inductive OpenFor where
  | load | compress | brOpen | decompress
deriving DecidableEq, Repr

/-- The command that runs BrOpen (45_bitreader.md R310). -/
inductive BrOpenFor where
  | brOpen | decompress
deriving DecidableEq, Repr

/-- The command that decodes: DECODE_SYMBOL, or DECOMPRESS with its count of symbols (43_translate.md R243, R245). -/
inductive DecodeFor where
  | single
  | stream (count : Word)
deriving DecidableEq, Repr

/-- A decode attempt at an INTERNAL node: its child slots and |p| (R240). -/
structure Descent where
  zero : Node
  one : Node
  depth : Nat
deriving DecidableEq, Repr

/-- What the bit taken just before a refill of the unpacker's window is for (R312). -/
inductive RefillFor where
  | brNext
  | decode (d : Descent) (m : DecodeFor)
deriving DecidableEq, Repr

/-- What follows when every byte of an emission has gone to OUT: TREE_SAVE (its count), BW_CLOSE (its
padding count) or COMPRESS (its byte count). -/
inductive EmitFor where
  | save (count : Word)
  | bwClose (h : Byte)
  | compress (n : Word)
deriving DecidableEq, Repr

/-- Where the engine stands (R46, R47): no command, a command accepted and not started, or the point a
running command has reached, which is always just before a port primitive or the take of a bit. -/
inductive Ctl where
  | idle
  | accepted
  /-- at InOpen -/
  | openIn (k : OpenFor)
  /-- TREE_LOAD at ReadLine's InRead -/
  | load (l : LoadState)
  /-- BrOpen at its first InRead -/
  | header (k : BrOpenFor)
  /-- BrOpen at its second InRead, with the header byte -/
  | fillCur (k : BrOpenFor) (pad : Fin 8)
  /-- BrOpen at its third InRead, with the header byte and the second read's result -/
  | fillNxt (k : BrOpenFor) (pad : Fin 8) (cur : Option Byte)
  /-- a decode attempt at an INTERNAL node, before its next bit -/
  | decode (d : Descent) (m : DecodeFor)
  /-- Next at its InRead, after bit `b` was taken -/
  | refill (b : Bool) (k : RefillFor)
  /-- DECOMPRESS at the head of its loop -/
  | symbols (count : Word)
  /-- DECOMPRESS at its OutWrite(s) -/
  | putSymbol (s : Byte) (count : Word)
  /-- COMPRESS at its InRead -/
  | compress
  /-- at an OutWrite of the first byte of `rest`, or at the end of the emission; COMPRESS at the first OutWrite of its close -/
  | emit (rest : List Byte) (k : EmitFor)
deriving DecidableEq, Repr

/-- One turn of the schedule (70_reset_and_hazards.md R392): the host's, or the engine's, which ends
after `ticks` engine steps, or when the command ends or holds (`none`). -/
inductive Turn where
  | host
  | engine (ticks : Option Nat)
deriving DecidableEq, Repr

/-- The host agent (R6, R106): its program, the line it stands at, the value last read from each register of
the window, and which errors it has read (for the duty of 70_reset_and_hazards.md R391, log 16). -/
structure HostAgent where
  prog : List HostLine
  pc : Nat
  vals : Vector Word 16
  /-- how many error entries there had been when it last read STATUS; `none` before the first read -/
  codeSeen : Option Nat
  /-- how many error entries there had been when it last read ERR_INFO exactly (with BUSY = 0, R89) -/
  infoSeen : Option Nat
deriving DecidableEq, Repr

/-- The state. The fields down to `ctl` are the machine's (R20); the rest are the model's own. -/
structure State where
  /-- CTRL.DIAG_EN (R23) -/
  diagEn : Bool
  /-- STATUS.ERR and STATUS.ERR_CODE: `none` is ERR = 0, ERR_CODE = 0 (R24) -/
  err : Option ErrName
  /-- STATUS.WR_IGNORED (R24) -/
  wrIgnored : Bool
  /-- ARG0 (R26) -/
  arg0 : Word
  /-- ARG1 (R27) -/
  arg1 : Word
  /-- RESULT (R28) -/
  result : Word
  /-- ERR_INFO (R29) -/
  errInfo : Word
  /-- FREQ (R35) -/
  freq : Vector Word 256
  /-- TREE (R36) -/
  tree : Tree
  /-- BW (R41) -/
  bw : Packer
  /-- BR (R45) -/
  br : Unpacker
  /-- IN, head first (R42) -/
  inQ : List Token
  /-- IN_OWNED (R42) -/
  inOwned : Bool
  /-- IN_TERM (R42) -/
  inTerm : Bool
  /-- IN_DRAIN, = STATUS.IN_DRAIN (R42) -/
  inDrain : Bool
  /-- OUT, oldest first (R43) -/
  out : List OutToken
  /-- OUT_OWNED (R43) -/
  outOwned : Bool
  /-- OUT_ERR, driven by the host (R43) -/
  outErr : Bool
  /-- DIAG, oldest first (R44) -/
  diag : List Byte
  /-- PENDING (R46) -/
  pending : Word
  /-- the engine's place in its command; BUSY = 0 is `idle` (R46, R47) -/
  ctl : Ctl
  /-- MODEL: the history of error entries, oldest first (R341, DESIGN CHOICE log 10) -/
  errHistory : List ErrEntry
  /-- MODEL: the parameter BW_CAPACITY (R5, DESIGN CHOICE log 3) -/
  bwCap : Nat
  /-- MODEL: how many unspecified reads were drawn (R89, DESIGN CHOICE log 4) -/
  draws : Nat
  /-- MODEL: the host agent (R6, R106, DESIGN CHOICE log 1) -/
  host : HostAgent
  /-- MODEL: the schedule still to come (R392, DESIGN CHOICE log 1) -/
  turns : List Turn
  /-- MODEL: how many engine steps the engine's present turn may take (R392, DESIGN CHOICE log 1) -/
  quantum : Option Nat
deriving DecidableEq, Repr

/-- FAULTS: none. Every error of HUFFCORE is one its own error entry takes (R341), and a hold is a state
in which nothing moves (R7, DESIGN CHOICE log 6), so the type has no value and no step ends in a fault. -/
inductive Fault where
deriving DecidableEq, Repr

/-- REFUSALS. -/
inductive Refusal where
  /-- raised by exec's arm of an instruction without a meaning; safe. No arm does. -/
  | notModelled (mnemonic : String)
  /-- raised by a host step that reads or writes the window at an offset or width 20_memory.md R73 does
  not define; safe: R73 says a model refuses such a host program (DEDUCED log 7). -/
  | undefinedAccess (a n : Nat)
deriving DecidableEq, Repr

/-- A host agent with no program. -/
def HostAgent.noProgram : HostAgent :=
  { prog := [], pc := 0, vals := Vector.replicate 16 0#32, codeSeen := none, infoSeen := none }

/-- The state after power-on reset (R49, R380). OUT_ERR, which HUFFCORE does not reset, starts low
(DESIGN CHOICE log 5); the model's own fields start empty. -/
def State.reset : State where
  diagEn := false
  err := none
  wrIgnored := false
  arg0 := 0#32
  arg1 := 0#32
  result := 0#32
  errInfo := 0#32
  freq := Vector.replicate 256 0#32
  tree := .empty
  bw := .closed
  br := .closed
  inQ := []
  inOwned := false
  inTerm := false
  inDrain := false
  out := []
  outOwned := false
  outErr := false
  diag := []
  pending := 0#32
  ctl := .idle
  errHistory := []
  bwCap := Config.bwCapacity
  draws := 0
  host := .noProgram
  turns := []
  quantum := none

/-- What a meaning and a step answer. -/
abbrev Result := Host.Outcome State Fault Refusal

end Sys2Proof.Machine
end

