-- ==== Sys2Proof/Machine/Flags.lean ====
section
/-! DEFINITION. The status bits and the words of the registers that show other items of state: CTRL, STATUS,
TREE_INFO, BW_INFO, BW_COUNT and BR_INFO (spec 10_state.md R23, R24, R30 to R33), and the error codes (60_exceptions.md R340). -/

namespace Sys2Proof.Machine

/-- STATUS.BUSY: a command is accepted, executing or holding (R24, R46). -/
def State.busy (s : State) : Bool :=
  match s.ctl with
  | .idle => false
  | _ => true

/-- The code of an error (R340). -/
def errCode : ErrName → Byte
  | .invalidArgument => 0x01
  | .exhaustion => 0x02
  | .malformedCodeTable => 0x03
  | .missingCode => 0x04
  | .resourceError => 0x05
  | .illegalCommand => 0x10
  | .illegalState => 0x11
  | .malformedStream => 0x12
  | .undefinedPath => 0x13
  | .capacityExceeded => 0x14

/-- STATUS.ERR_CODE: 0 when ERR = 0 (R24). -/
def State.errCodeField (s : State) : Byte :=
  match s.err with
  | some e => errCode e
  | none => 0

/-- STATUS.TREE_NONEMPTY: TREE != EMPTY (R24). -/
def State.treeNonempty (s : State) : Bool :=
  match s.tree with
  | .empty => false
  | .root _ _ => true

/-- The leaves at or below a node at path `p`, left before right, each with its path (42_code_table.md R200). -/
def Node.leaves : Node → List Bool → List (Byte × List Bool)
  | .absent, _ => []
  | .leaf s, p => [(s, p)]
  | .internal l r, p => l.leaves (p ++ [false]) ++ r.leaves (p ++ [true])

/-- The leaves of TREE in save order (R200): `Leaves("")`. -/
def Tree.leaves : Tree → List (Byte × List Bool)
  | .empty => []
  | .root l r => l.leaves [false] ++ r.leaves [true]

/-- CODE(s): the path of the leaf that holds `s`, or `none` (R38). -/
def Tree.code (t : Tree) (s : Byte) : Option (List Bool) := t.leaves.lookup s

/-- The largest code length, 0 for an EMPTY tree (R30). -/
def Tree.maxDepth (t : Tree) : Nat := (t.leaves.map (fun x => x.2.length)).foldl max 0

/-- CTRL as read: DIAG_EN in bit 0, reserved bits 0 (R23). -/
def ctrlWord (s : State) : Word := 0#31 ++ BitVec.ofBool s.diagEn

/-- STATUS as read: the fields of R24, bit 31 first. -/
def statusWord (s : State) : Word :=
  0#16 ++ s.errCodeField ++ 0#1 ++ BitVec.ofBool s.inDrain ++ BitVec.ofBool s.wrIgnored
    ++ BitVec.ofBool s.treeNonempty ++ BitVec.ofBool s.br.isOpen ++ BitVec.ofBool s.bw.isOpen
    ++ BitVec.ofBool s.err.isSome ++ BitVec.ofBool s.busy

/-- TREE_INFO as read: MAX_DEPTH in [23:16], LEAVES in [8:0] (R30). -/
def treeInfoWord (s : State) : Word :=
  0#8 ++ BitVec.ofNat 8 s.tree.maxDepth ++ 0#7 ++ BitVec.ofNat 9 s.tree.leaves.length

/-- BW_INFO as read: NBITS in [2:0] (R31). -/
def bwInfoWord (s : State) : Word := 0#29 ++ BitVec.ofNat 3 s.bw.nbits.val

/-- BW_COUNT as read: |BW.data| (R32), where the register's 32 bits hold it. With 2^32 or more bytes, which a large
BW_CAPACITY admits, R32 states no value, and the register reads as a free one (DESIGN CHOICE log 22). -/
def bwCountWord (s : State) : Word :=
  if s.bw.data.length < 2 ^ 32 then BitVec.ofNat 32 s.bw.data.length
  else Config.bwCountBeyond s.bw.data.length

/-- BR_INFO as read: the fields of R33, bit 31 first. -/
def brInfoWord (s : State) : Word :=
  0#21 ++ BitVec.ofBool s.br.nxt.isSome ++ BitVec.ofBool s.br.cur.isSome ++ BitVec.ofBool s.br.hdrEmpty
    ++ 0#1 ++ BitVec.ofNat 3 s.br.pad.val ++ 0#1 ++ BitVec.ofNat 3 s.br.pos.val

end Sys2Proof.Machine
end

