-- ==== Sys2Proof/Machine/CodeTree.lean ====
section
/-! DEFINITION. The code tree: the path map of spec 10_state.md R36, the tree builder's priority structure
and merge (41_tree_build.md R160, R161), and the insertion of a code-table pair (42_code_table.md R206). -/

namespace Sys2Proof.Machine

/-! ### The path map -/

/-- The node at a path below a node; `absent` where there is none (R36). -/
def Node.nodeAt : Node → List Bool → Node
  | n, [] => n
  | .internal l _, false :: p => l.nodeAt p
  | .internal _ r, true :: p => r.nodeAt p
  | .absent, _ :: _ => .absent
  | .leaf _, _ :: _ => .absent

/-- N(p): the node of TREE at a path from the root (R36); the root is INTERNAL. -/
def Tree.nodeAt : Tree → List Bool → Node
  | .empty, _ => .absent
  | .root l r, p => (Node.internal l r).nodeAt p

/-! ### The priority structure of TREE_BUILD -/

/-- An entry of Q: `(freq, seq, subtree)` with freq a u40 and seq 9 bits wide (R160). -/
structure Entry where
  freq : BitVec 40
  seq : BitVec 9
  subtree : Node
deriving DecidableEq, Repr

/-- e1 is lower than e2 (R160). -/
def Entry.lower (e1 e2 : Entry) : Bool :=
  decide (e1.freq < e2.freq) || (decide (e1.freq = e2.freq) && decide (e1.seq < e2.seq))

/-- Insert into Q, which is kept with its lowest entry first (DEDUCED log 17). -/
def Entry.insert (e : Entry) : List Entry → List Entry
  | [] => [e]
  | x :: xs => if e.lower x then e :: x :: xs else x :: Entry.insert e xs

/-- The 256 symbols in order. -/
def symbols : List Byte := (List.range 256).map (BitVec.ofNat 8)

/-- The counter of a symbol (R35). -/
def freqAt (f : Vector Word 256) (s : Byte) : Word := f[s.toNat]'s.isLt

/-- The entry that seeds the leaf of a symbol (R161). -/
def seedEntry (f : Vector Word 256) (s : Byte) : Entry :=
  { freq := (freqAt f s).zeroExtend 40, seq := s.zeroExtend 9, subtree := .leaf s }

/-- The symbols with a nonzero counter, in order (R161). -/
def presentSymbols (f : Vector Word 256) : List Byte := symbols.filter (fun s => freqAt f s ≠ 0)

/-- Q after the seeding loop (R161). -/
def seedQueue (f : Vector Word 256) : List Entry :=
  (presentSymbols f).foldl (fun q s => (seedEntry f s).insert q) []

/-- The k-th merge of the entries a (removed first: left) and b (removed second: right) (R160, R161). -/
def mergeEntry (k : Nat) (a b : Entry) : Entry :=
  { freq := a.freq + b.freq, seq := BitVec.ofNat 9 (256 + k), subtree := .internal a.subtree b.subtree }

/-- `while |Q| >= 2` merge the two lowest; at most `fuel` merges, and each merge makes Q one shorter. -/
def mergeLoop : Nat → Nat → List Entry → List Entry
  | fuel + 1, k, a :: b :: q => mergeLoop fuel (k + 1) ((mergeEntry k a b).insert q)
  | _, _, q => q

/-- The tree of the last entry's subtree: PathMap of a NODE, or the single-symbol wrap of a LEAF, whose
code is "0" (R161, R39). -/
def Node.asTree : Node → Tree
  | .absent => .empty
  | .leaf s => .root (.leaf s) .absent
  | .internal l r => .root l r

/-- The TREE that TREE_BUILD makes from the counters (R161). -/
def buildTree (f : Vector Word 256) : Tree :=
  match mergeLoop (seedQueue f).length 0 (seedQueue f) with
  | [] => .empty
  | e :: _ => e.subtree.asTree

/-! ### The insertion of TREE_LOAD -/

/-- The walk of `Insert` below a node: placeholders are created on the way, and a LEAF is installed at the
end. `none` where a LEAF is met before the end, or another node stands at the end (R206). -/
def Node.place : Node → List Bool → Byte → Option Node
  | .absent, [], s => some (.leaf s)
  | .absent, false :: p, s => (Node.absent.place p s).map (fun n => .internal n .absent)
  | .absent, true :: p, s => (Node.absent.place p s).map (fun n => .internal .absent n)
  | .leaf t, [], s => if t = s then some (.leaf t) else none
  | .leaf _, _ :: _, _ => none
  | .internal _ _, [], _ => none
  | .internal l r, false :: p, s => (l.place p s).map (fun n => .internal n r)
  | .internal l r, true :: p, s => (r.place p s).map (fun n => .internal l n)

/-- The child slots of the tree being built; none yet in an EMPTY one (R206: "start with an empty/null root"). -/
def Tree.slots : Tree → Node × Node
  | .empty => (.absent, .absent)
  | .root l r => (l, r)

/-- `Insert(p, s, ln)` (R206); `none` is its MalformedCodeTable. SEEN[s] is CODE(s) of the map being built. -/
def Tree.insert (t : Tree) (p : List Bool) (s : Byte) : Option Tree :=
  if (t.code s).any (fun q => q ≠ p) then none
  else match p with
    | [] => none
    | false :: p => (t.slots.1.place p s).map (fun n => .root n t.slots.2)
    | true :: p => (t.slots.2.place p s).map (fun n => .root t.slots.1 n)

end Sys2Proof.Machine
end

