-- ==== Sys2Proof/Decode.lean ====
section
/-! DEFINITION. The decoder, total on every word and on every list of bytes, rejecting by name (spec
30_encoding.md R100 to R105), and after it the encoder, written from the OPC column of R102. -/

namespace Sys2Proof

/-- Why a word or a list of bytes is no command. -/
inductive DecodeError where
  /-- bits [31:8] are not all zero (R103) -/
  | mbzNonzero
  /-- the OPC is one of the reserved values (R103) -/
  | reservedOpcode
  /-- fewer than the four bytes of a command word -/
  | tooShort
deriving DecidableEq, Repr

/-- The control and frequency-RAM rows of R102. -/
def opcodeRowsControl : List (Byte × Instr) :=
  [(0x00, .nop), (0x01, .clearError), (0x02, .softReset),
   (0x10, .freqClear), (0x11, .freqWrite), (0x12, .freqRead)]

/-- The tree and code-table rows of R102. -/
def opcodeRowsTree : List (Byte × Instr) :=
  [(0x20, .treeBuild), (0x21, .treeClear), (0x22, .codeQuery), (0x23, .codeBit),
   (0x28, .treeSave), (0x29, .treeLoad)]

/-- The codec, packer and unpacker rows of R102. -/
def opcodeRowsStream : List (Byte × Instr) :=
  [(0x30, .encodeSymbol), (0x31, .decodeSymbol), (0x32, .compress), (0x33, .decompress),
   (0x40, .bwOpen), (0x41, .bwWrite), (0x42, .bwClose),
   (0x48, .brOpen), (0x49, .brHasNext), (0x4A, .brNext), (0x4B, .brClose)]

/-- The opcode map of R102; an OPC not listed is reserved (R103). -/
def opcodeMap : List (Byte × Instr) := opcodeRowsControl ++ opcodeRowsTree ++ opcodeRowsStream

/-- A command word: OPC in bits [7:0], bits [31:8] must be zero (R100, R103). -/
def decode (w : Word) : Except DecodeError Instr :=
  if w.extractLsb' 8 24 ≠ 0 then .error .mbzNonzero
  else match opcodeMap.lookup (w.extractLsb' 0 8) with
    | some i => .ok i
    | none => .error .reservedOpcode

/-- The word on four byte lanes, little-endian: lane k carries bits [8k+7 : 8k] (20_memory.md R72). -/
def wordOfBytes (b0 b1 b2 b3 : Byte) : Word := b3 ++ b2 ++ b1 ++ b0

/-- The byte of lane `k` of a word (R72). -/
def byteLane (w : Word) (k : Nat) : Byte := w.extractLsb' (8 * k) 8

/-- Decode from bytes in lane order; the rest of the list is given back. -/
def decodeBytes : List Byte → Except DecodeError (Instr × List Byte)
  | b0 :: b1 :: b2 :: b3 :: rest =>
    match decode (wordOfBytes b0 b1 b2 b3) with
    | .ok i => .ok (i, rest)
    | .error e => .error e
  | _ => .error .tooShort

/-- The OPC of a command, read off the OPC column of R102. -/
def opcode : Instr → Byte
  | .nop => 0x00
  | .clearError => 0x01
  | .softReset => 0x02
  | .freqClear => 0x10
  | .freqWrite => 0x11
  | .freqRead => 0x12
  | .treeBuild => 0x20
  | .treeClear => 0x21
  | .codeQuery => 0x22
  | .codeBit => 0x23
  | .treeSave => 0x28
  | .treeLoad => 0x29
  | .encodeSymbol => 0x30
  | .decodeSymbol => 0x31
  | .compress => 0x32
  | .decompress => 0x33
  | .bwOpen => 0x40
  | .bwWrite => 0x41
  | .bwClose => 0x42
  | .brOpen => 0x48
  | .brHasNext => 0x49
  | .brNext => 0x4A
  | .brClose => 0x4B

/-- The command word of a command: MBZ zero, OPC in the low byte (R100). -/
def encode (i : Instr) : Word := (0#24 ++ opcode i : BitVec (24 + 8))

/-- The four bytes of a command word in lane order (R72). -/
def encodeBytes (i : Instr) : List Byte := (List.range 4).map (byteLane (encode i))

/-- The instruction the decoder reads from the table's bits `w`, `nbits` of them, laid out in byte
lanes (HOST interface: bit 0 is the least significant bit of the word; bits above `nbits` are 0). -/
def decodeTableWord (nbits w : Nat) : Option Instr :=
  match decodeBytes ((List.range 4).map (byteLane (BitVec.ofNat 32 (w % 2 ^ nbits)))) with
  | .ok (i, _) => some i
  | .error _ => none

end Sys2Proof
end

