-- ==== Sys2Proof/Machine/Operands.lean ====
section
/-! DEFINITION. The operand forms of spec 30_encoding.md R101. Each gives the operand, or `none` where the
check fails and the command raises InvalidArgument with the offending register. -/

namespace Sys2Proof.Machine

/-- SYM: ARG0[7:0], where ARG0[31:8] = 0 (R101). -/
def symOperand (s : State) : Option Byte :=
  if s.arg0.extractLsb' 8 24 = 0 then some (s.arg0.extractLsb' 0 8) else none

/-- BIT: ARG0, where it is 0 or 1 (R101). -/
def bitOperand (s : State) : Option Bool :=
  if s.arg0 = 0 then some false else if s.arg0 = 1 then some true else none

/-- COUNT: all of ARG1, unchecked (R101). -/
def countOperand (s : State) : Word := s.arg1

/-- INDEX: all of ARG1, checked by CODE_BIT against the code length (R101, 41_tree_build.md R165). -/
def indexOperand (s : State) : Nat := s.arg1.toNat

end Sys2Proof.Machine
end

