-- ==== Sys2Proof/Machine/Ops.lean ====
section
/-! DEFINITION. The shared operations: the end of a command, the ports (spec 20_memory.md R79 to R81), error
entry and abort (60_exceptions.md R341, R342), their exit (40_control_freq.md R131), dispatch
(30_encoding.md R109, R110), and the register window (10_state.md R21, 20_memory.md R71 to R74, R89). -/

namespace Sys2Proof.Machine

/-! ### The end of a command -/

/-- `BUSY <- 0`: the command has ended (R46); PENDING is no longer read. -/
def endCommand (s : State) : State := { s with ctl := .idle }

/-- The command completes and leaves `v` in RESULT (R28). -/
def complete (v : Word) (s : State) : State := { s with result := v, ctl := .idle }

/-! ### The ports: their opens and closes never fail (D21, U8, DEDUCED log 14) -/

/-- The result of InRead (R79): the engine holds, or a byte, or EOF, or the read failed. -/
inductive ReadResult where
  | hold
  | byte (b : Byte) (s : State)
  | eof (s : State)
  | failed (s : State)

/-- `InRead()` up to its raise: past the terminator it keeps returning EOF and takes no token (R79). -/
def inRead (s : State) : ReadResult :=
  if s.inTerm then .eof s
  else match s.inQ with
    | [] => .hold
    | .byte b :: q => .byte b { s with inQ := q }
    | .eos :: q => .eof { s with inQ := q, inTerm := true }
    | .err :: q => .failed { s with inQ := q, inTerm := true }

/-- `InOpen()` once no drain is in progress (R80). -/
def inOpen (s : State) : State := { s with inOwned := true, inTerm := false }

/-- `InRelease()` (R80). -/
def inRelease (s : State) : State :=
  if s.inOwned then { s with inDrain := s.inDrain || !s.inTerm, inOwned := false, inTerm := false } else s

/-- Whether a token is a terminator (R42). -/
def isTerminator : Token → Bool
  | .byte _ => false
  | .eos => true
  | .err => true

/-- One drain step: the head of IN is discarded, and a terminator ends the drain (R42); `none` where IN is empty. -/
def drainStep (s : State) : Option State :=
  match s.inQ with
  | [] => none
  | t :: q => some { s with inQ := q, inDrain := !isTerminator t }

/-- `OutOpen()` (R81). -/
def outOpen (s : State) : State := { s with outOwned := true }

/-- The append of `OutWrite(b)` (R81), where OUT_ERR = 0. -/
def outAppend (b : Byte) (s : State) : State := { s with out := s.out ++ [.byte b] }

/-- `OutClose()`: CLOSE is delivered even while OUT_ERR = 1 (R81). -/
def outClose (s : State) : State :=
  if s.outOwned then { s with out := s.out ++ [.close], outOwned := false } else s

/-- `DiagWrite(c)` (R44). -/
def diagWrite (c : Byte) (s : State) : State := { s with diag := s.diag ++ [c] }

/-! ### Error entry and exit -/

/-- `Abort()`: every open session ends (R342). -/
def abort (s : State) : State := { inRelease (outClose { s with bw := .closed }) with br := .closed }

/-- `raise E(info)`: error entry (R341). Abort, then ERR, ERR_CODE, ERR_INFO and the history, then BUSY <- 0;
RESULT is not written. -/
def raiseError (e : ErrName) (info : Word) (s : State) : State :=
  let a := abort s
  { a with err := some e, errInfo := info, errHistory := a.errHistory ++ [⟨e, info⟩], ctl := .idle }

/-- Error exit by CLEAR_ERROR: ERR, ERR_CODE, WR_IGNORED and ERR_INFO go to 0 (R131, R343). -/
def clearErrorState (s : State) : State := { s with err := none, wrIgnored := false, errInfo := 0 }

/-- `OutWrite(b)`: the byte goes to OUT, or ResourceError(1) is raised while OUT_ERR = 1 (R81); on success
the engine goes to `next`. -/
def outWrite (b : Byte) (next : Ctl) (s : State) : State :=
  if s.outErr then raiseError .resourceError 1 s else { outAppend b s with ctl := next }

/-- What a multi-part operation did: it goes on in `s`, or it raised and `s` is the state after error entry. -/
inductive Flow where
  | go (s : State)
  | raised (s : State)

/-- The rest `f` of an operation runs only where nothing was raised. -/
def Flow.andThen (r : Flow) (f : State → Flow) : Flow :=
  match r with
  | .go s => f s
  | .raised s => .raised s

/-- The state a last part `f` leaves, or the state after error entry. -/
def Flow.finish (r : Flow) (f : State → State) : State :=
  match r with
  | .go s => f s
  | .raised s => s

/-- `OutWrite` of each byte in turn, within one engine step (R81). -/
def outWrites : List Byte → State → Flow
  | [], s => .go s
  | b :: bs, s => if s.outErr then .raised (raiseError .resourceError 1 s) else outWrites bs (outAppend b s)

/-! ### Dispatch -/

/-- The commands that run while STATUS.ERR = 1 (R109). -/
def runsWhileErr : Instr → Bool
  | .nop | .clearError | .softReset => true
  | .freqClear | .freqWrite | .freqRead | .treeBuild | .treeClear | .codeQuery | .codeBit
  | .treeSave | .treeLoad | .encodeSymbol | .decodeSymbol | .compress | .decompress
  | .bwOpen | .bwWrite | .bwClose | .brOpen | .brHasNext | .brNext | .brClose => false

/-- The state precondition of a command (R110). -/
def admits (i : Instr) (s : State) : Bool :=
  match i with
  | .nop | .clearError | .softReset | .freqClear | .freqWrite | .freqRead | .codeQuery | .codeBit
  | .bwClose | .brClose => true
  | .treeBuild | .treeClear | .treeLoad | .compress | .decompress => !s.bw.isOpen && !s.br.isOpen
  | .treeSave | .bwOpen => !s.bw.isOpen
  | .brOpen => !s.br.isOpen
  | .encodeSymbol | .bwWrite => s.bw.isOpen
  | .decodeSymbol | .brHasNext | .brNext => s.br.isOpen

/-- `Execute(w)` for a legal word (R109): ignored while ERR = 1 unless the command runs then; IllegalState
with the OPC where its precondition is false; else its own rule. -/
def command (i : Instr) (body : State → State) (s : State) : Result :=
  .next (if s.err.isSome && !runsWhileErr i then endCommand s
    else if !admits i s then raiseError .illegalState (encode i) s
    else body s)

/-- `Execute(w)` for an illegal word (R103, R109): ignored while ERR = 1, else IllegalCommand(w). -/
def executeIllegal (w : Word) (s : State) : Result :=
  .next (if s.err.isSome then endCommand s else raiseError .illegalCommand w s)

/-- A command with a SYM operand: InvalidArgument(ARG0) where the check of R101 fails. -/
def withSym (body : Byte → State → State) (s : State) : State :=
  match symOperand s with
  | some v => body v s
  | none => raiseError .invalidArgument s.arg0 s

/-- A command with a BIT operand: InvalidArgument(ARG0) where the check of R101 fails. -/
def withBit (body : Bool → State → State) (s : State) : State :=
  match bitOperand s with
  | some b => body b s
  | none => raiseError .invalidArgument s.arg0 s

/-! ### The register window -/

/-- A register's index in the window, its offset divided by 4 (R21). -/
def regIndex : Reg → Fin 16
  | .id => 0
  | .ctrl => 1
  | .status => 2
  | .cmd => 3
  | .arg0 => 4
  | .arg1 => 5
  | .result => 6
  | .errInfo => 7
  | .treeInfo => 8
  | .bwInfo => 9
  | .bwCount => 10
  | .brInfo => 11
  | .reserved k => ⟨12 + k.val, by omega⟩

/-- A register's byte offset (R21). -/
def regOffset (r : Reg) : Nat := 4 * (regIndex r).val

/-- The registers of the window in offset order (R21, R34). -/
def windowRegs : List Reg :=
  [.id, .ctrl, .status, .cmd, .arg0, .arg1, .result, .errInfo, .treeInfo, .bwInfo, .bwCount, .brInfo,
   .reserved 0, .reserved 1, .reserved 2, .reserved 3]

/-- The register that an `n`-byte access at offset `a` reaches, or `none` where R73 defines no access. -/
def accessReg (a n : Nat) : Option Reg :=
  if n = 4 ∧ a % 4 = 0 then windowRegs[a / 4]? else none

/-- The registers whose read is unspecified while BUSY = 1 (R89). -/
def readsFreelyWhenBusy : Reg → Bool
  | .result | .errInfo | .treeInfo | .bwInfo | .bwCount | .brInfo => true
  | .id | .ctrl | .status | .cmd | .arg0 | .arg1 | .reserved _ => false

/-- A register's exact value: ID constant, CMD and the reserved words 0 (R21, R22, R25, R34). -/
def regValue (r : Reg) (s : State) : Word :=
  match r with
  | .id => Config.idWord
  | .ctrl => ctrlWord s
  | .status => statusWord s
  | .cmd => 0
  | .arg0 => s.arg0
  | .arg1 => s.arg1
  | .result => s.result
  | .errInfo => s.errInfo
  | .treeInfo => treeInfoWord s
  | .bwInfo => bwInfoWord s
  | .bwCount => bwCountWord s
  | .brInfo => brInfoWord s
  | .reserved _ => 0

/-- A host read of a register: its value, or while BUSY = 1 a fresh free value where R89 leaves it
unspecified. No register changes (R74); only the model's count of draws does. -/
def readReg (r : Reg) (s : State) : Word × State :=
  if s.busy && readsFreelyWhenBusy r then
    (Config.unspecifiedRead s.draws, { s with draws := s.draws + 1 })
  else (regValue r s, s)

/-- A host write of a register (R21, R25, R74): dropped with WR_IGNORED where BUSY = 1; else CTRL, ARG0 and
ARG1 store, and CMD is accepted. A write to any other register is dropped. -/
def writeReg (r : Reg) (v : Word) (s : State) : State :=
  match r with
  | .ctrl => if s.busy then { s with wrIgnored := true } else { s with diagEn := v.getLsbD 0 }
  | .cmd => if s.busy then { s with wrIgnored := true } else { s with pending := v, ctl := .accepted }
  | .arg0 => if s.busy then { s with wrIgnored := true } else { s with arg0 := v }
  | .arg1 => if s.busy then { s with wrIgnored := true } else { s with arg1 := v }
  | .id | .status | .result | .errInfo | .treeInfo | .bwInfo | .bwCount | .brInfo | .reserved _ => s

end Sys2Proof.Machine
end

