-- ==== Sys2Proof/Machine/TableText.lean ====
section
/-! DEFINITION. The text of a code table (spec 20_memory.md R82): the rendering of TREE_SAVE (42_code_table.md
R201) and the line checks of TREE_LOAD (R204, R205). The character values are ASCII (00_scope.md R8,
PRESUMED log 21). -/

namespace Sys2Proof.Machine

/-- LF. -/
def lf : Byte := 0x0A

/-- The character of a bit, '0' or '1' (R201, 44_bitwriter.md R282). -/
def bitChar (b : Bool) : Byte := if b then 0x31 else 0x30

/-- The character of a decimal digit 0..9. -/
def digitChar (d : Nat) : Byte := BitVec.ofNat 8 (0x30 + d)

/-- `Dec(s)`: the decimal numeral without leading zeros (R201). -/
def decimal (s : Byte) : List Byte :=
  let n := s.toNat
  if n < 10 then [digitChar n]
  else if n < 100 then [digitChar (n / 10), digitChar (n % 10)]
  else [digitChar (n / 100), digitChar (n / 10 % 10), digitChar (n % 10)]

/-- One pair: `Dec(s) LF Bits(p) LF` (R201). -/
def renderPair (x : Byte × List Bool) : List Byte := decimal x.1 ++ [lf] ++ x.2.map bitChar ++ [lf]

/-- The whole table, in save order (R200, R202). -/
def renderTree (t : Tree) : List Byte := (t.leaves.map renderPair).flatten

/-- An ASCII digit. -/
def isDigit (c : Byte) : Bool := decide (0x30 ≤ c.toNat) && decide (c.toNat ≤ 0x39)

/-- The decimal value of a string of digits. -/
def decimalValue (l : List Byte) : Nat := l.foldl (fun v c => 10 * v + (c.toNat - 0x30)) 0

/-- `ParseSymbol(L)`: not empty, digits only, value at most 255; leading zeros are accepted (R204). -/
def parseSymbol (l : List Byte) : Option Byte :=
  if !l.isEmpty && l.all isDigit && decide (decimalValue l ≤ 255) then some (BitVec.ofNat 8 (decimalValue l))
  else none

/-- The outcomes of `CheckPath(L)` (R205). -/
inductive PathCheck where
  | malformed
  | tooLong
  | ok (p : List Bool)
deriving DecidableEq, Repr

/-- `CheckPath(L)`: characters, then emptiness, then length (R205). -/
def checkPath (l : List Byte) : PathCheck :=
  if !l.all (fun c => c == 0x30 || c == 0x31) then .malformed
  else if l.isEmpty then .malformed
  else if l.length ≤ Config.maxCodeLen then .ok (l.map (fun c => c == 0x31))
  else .tooLong

end Sys2Proof.Machine
end

