-- ==== Sys2Proof/Machine/Packer.lean ====
section
/-! DEFINITION. The bit-stream packer's functions (spec 44_bitwriter.md R280 to R283) and the encode of one
symbol (43_translate.md R241). -/

namespace Sys2Proof.Machine

/-- The echo of one accepted bit, where CTRL.DIAG_EN = 1 (R282). -/
def diagEcho (b : Bool) (s : State) : State := if s.diagEn then diagWrite (bitChar b) s else s

/-- The in-progress byte with bit `b` at place BW.nbits (R280, 20_memory.md R76). -/
def accWith (w : Packer) (b : Bool) : Byte :=
  w.acc ||| ((BitVec.ofBool b).zeroExtend 8 <<< w.nbits.val)

/-- `BwWrite(b)`: the echo, then the bit; the eighth bit moves the byte to BW.data, or raises
CapacityExceeded(0) where BW.data is full (R280). -/
def bwWriteBit (b : Bool) (s : State) : Flow :=
  let s := diagEcho b s
  let acc := accWith s.bw b
  if s.bw.nbits = 7 then
    if s.bw.data.length = s.bwCap then .raised (raiseError .capacityExceeded 0 s)
    else .go { s with bw := { s.bw with acc := 0, nbits := 0, data := s.bw.data ++ [acc] } }
  else .go { s with bw := { s.bw with acc := acc, nbits := s.bw.nbits + 1 } }

/-- The bits of a string, first bit first. -/
def bwWriteBits : List Bool → State → Flow
  | [], s => .go s
  | b :: bs, s => (bwWriteBit b s).andThen (bwWriteBits bs)

/-- `EncodeSymbol(s)`: MissingCode before any bit is written, else the code root first (R241). -/
def encodeSymbolBits (v : Byte) (s : State) : Flow :=
  match s.tree.code v with
  | none => .raised (raiseError .missingCode (v.zeroExtend 32) s)
  | some p => bwWriteBits p s

/-- `BwOpen()` (R283). -/
def bwOpenSession (s : State) : State :=
  { outOpen s with bw := { isOpen := true, acc := 0, nbits := 0, data := [] } }

/-- The padding count of a session of which `n` bits stand in the last byte (R281). -/
def paddingCount (n : Fin 8) : Byte := if n = 0 then 0 else BitVec.ofNat 8 (8 - n.val)

/-- The data bytes of the closing session: BW.data, and the partial byte where there is one (R281). -/
def finalData (w : Packer) : List Byte := if w.nbits = 0 then w.data else w.data ++ [w.acc]

/-- `BwClose()` up to its first OutWrite: the partial byte is flushed, or CapacityExceeded(0) is raised where
BW.data has no room for it; then the header and the data are to be emitted. `compress` tells COMPRESS, which
leaves the byte count in RESULT, from BW_CLOSE, which leaves the header there (R281, R285, R244). -/
def bwCloseStart (compress : Bool) (s : State) : State :=
  if s.bw.nbits ≠ 0 ∧ s.bw.data.length = s.bwCap then raiseError .capacityExceeded 0 s
  else
    let h := paddingCount s.bw.nbits
    let data := finalData s.bw
    { s with
      bw := { s.bw with data := data }
      ctl := .emit (h :: data)
        (if compress then .compress (BitVec.ofNat 32 (1 + data.length)) else .bwClose h) }

/-- The end of `BwClose()`: CLOSE, and the packer is closed (R281). -/
def bwCloseEnd (s : State) : State := { outClose s with bw := .closed }

end Sys2Proof.Machine
end

