-- ==== Sys2Proof/Machine/Unpacker.lean ====
section
/-! DEFINITION. The bit-stream unpacker's functions (spec 45_bitreader.md R310 to R312, R316). -/

namespace Sys2Proof.Machine

/-- `HasNext()` (R311). -/
def hasNext (b : Unpacker) : Bool :=
  match b.cur, b.nxt with
  | none, _ => false
  | some _, none => decide (b.pos.val < 8 - b.pad.val)
  | some _, some _ => true

/-- The bits of a byte, bit 0 first (20_memory.md R76). -/
def byteBits (b : Byte) : List Bool := (List.range 8).map (fun i => b.getLsbD i)

/-- The lowest remaining bit of the current byte: `(BR.cur >> BR.pos) & 1` (R312, 20_memory.md R76). -/
def currentBit (b : Unpacker) : Bool := (b.cur.getD 0).getLsbD b.pos.val

/-- Whether the take of one more bit uses up the current byte (R312). -/
def lastOfByte (b : Unpacker) : Bool := b.pos == 7

/-- BR after a bit that does not use up the current byte (R312). -/
def advancePos (b : Unpacker) : Unpacker := { b with pos := b.pos + 1 }

/-- BR while the refill of a used-up byte is to be read: `BR.cur <- BR.nxt`, the next byte not known yet (R312, DEDUCED log 11). -/
def shiftWindow (b : Unpacker) : Unpacker := { b with cur := b.nxt, nxt := none, pos := 0 }

/-- BR after `BrOpen()` on an empty source (R310). -/
def openedEmpty : Unpacker :=
  { isOpen := true, hdrEmpty := true, pad := 0, cur := none, nxt := none, pos := 0 }

/-- BR after `BrOpen()` on a source with a header (R310). -/
def openedWith (pad : Fin 8) (cur nxt : Option Byte) : Unpacker :=
  { isOpen := true, hdrEmpty := false, pad := pad, cur := cur, nxt := nxt, pos := 0 }

/-- The padding count of a header byte, `none` where it is above 7 (R310). -/
def headerPad (h : Byte) : Option (Fin 8) := if hh : h.toNat < 8 then some ⟨h.toNat, hh⟩ else none

/-- `BrClose()` (R316). -/
def brCloseSession (s : State) : State := { inRelease s with br := .closed }

end Sys2Proof.Machine
end

