-- ==== Sys2Proof/Machine/Engine.lean ====
section
/-! DEFINITION. The engine inside a command that uses the ports: one engine step (`tick`) does at most one
port primitive (but for the close of COMPRESS, log 23), or takes one bit, and says where the command then stands; `advance` takes the engine steps
of one turn (spec 00_scope.md R6, R7, 70_reset_and_hazards.md R388, R392, DESIGN CHOICE log 2). -/

namespace Sys2Proof.Machine

/-! ### TREE_LOAD (42_code_table.md R207) -/

/-- TREE_LOAD before its first line. -/
def LoadState.start : LoadState := { sym := none, line := [], ln := 0, tree := .empty, pairs := 0 }

/-- A whole line has been read (R207): the symbol line is parsed, or the path line is checked and the pair inserted. -/
def loadLine (l : LoadState) (s : State) : State :=
  let ln := l.ln + 1
  match l.sym with
  | none =>
    match parseSymbol l.line with
    | none => raiseError .malformedCodeTable ln s
    | some v => { s with ctl := .load { l with sym := some v, line := [], ln := ln } }
  | some v =>
    match checkPath l.line with
    | .malformed => raiseError .malformedCodeTable ln s
    | .tooLong => raiseError .capacityExceeded ln s
    | .ok p =>
      match l.tree.insert p v with
      | none => raiseError .malformedCodeTable ln s
      | some t =>
        { s with ctl := .load { sym := none, line := [], ln := ln, tree := t, pairs := l.pairs + 1 } }

/-- NOLINE (R203, R207): an unpaired symbol line is malformed; else the table is complete. -/
def loadEnd (l : LoadState) (s : State) : State :=
  match l.sym with
  | some _ => raiseError .malformedCodeTable l.ln s
  | none => complete l.pairs { inRelease s with tree := l.tree }

/-- One InRead of TREE_LOAD's ReadLine (R203); `none` holds. -/
def tickLoad (l : LoadState) (s : State) : Option State :=
  match inRead s with
  | .hold => none
  | .failed s => some (raiseError .resourceError 0 s)
  | .eof s => some (if l.line.isEmpty then loadEnd l s else loadLine l s)
  | .byte c s =>
    some (if c = lf then loadLine l s else { s with ctl := .load { l with line := l.line ++ [c] } })

/-! ### The decode loop (43_translate.md R240, R245) -/

/-- A decode attempt returns symbol `v`: DECODE_SYMBOL completes, DECOMPRESS goes to its OutWrite. -/
def symbolDecoded (v : Byte) (m : DecodeFor) (s : State) : State :=
  match m with
  | .single => complete (v.zeroExtend 32) s
  | .stream n => { s with ctl := .putSymbol v n }

/-- `p <- p ++ b`: the child that bit `b` leads to (R240). -/
def descend (b : Bool) (d : Descent) (m : DecodeFor) (s : State) : State :=
  match (if b then d.one else d.zero) with
  | .absent => raiseError .undefinedPath (BitVec.ofNat 32 (d.depth + 1)) s
  | .leaf v => symbolDecoded v m s
  | .internal l r => { s with ctl := .decode { zero := l, one := r, depth := d.depth + 1 } m }

/-- The start of `DecodeAttempt()` (R240). -/
def startAttempt (m : DecodeFor) (s : State) : State :=
  match s.tree with
  | .empty => raiseError .undefinedPath 0 s
  | .root l r => { s with ctl := .decode { zero := l, one := r, depth := 0 } m }

/-- What the taken bit is for, once the window is whole again (R312). -/
def bitTaken (b : Bool) (k : RefillFor) (s : State) : State :=
  match k with
  | .brNext => complete ((BitVec.ofBool b).zeroExtend 32) s
  | .decode d m => descend b d m s

/-- `Next()` where HasNext is true: the bit is taken, and where it used up the current byte the engine goes
to the refill (R312). -/
def takeBit (k : RefillFor) (s : State) : State :=
  let b := currentBit s.br
  if lastOfByte s.br then { s with br := shiftWindow s.br, ctl := .refill b k }
  else bitTaken b k { s with br := advancePos s.br }

/-- One bit of a decode attempt at an INTERNAL node (R240). -/
def tickDecode (d : Descent) (m : DecodeFor) (s : State) : State :=
  if hasNext s.br then takeBit (.decode d m) s
  else raiseError .exhaustion (BitVec.ofNat 32 d.depth) s

/-- The InRead of a refill (R312); `none` holds. -/
def tickRefill (b : Bool) (k : RefillFor) (s : State) : Option State :=
  match inRead s with
  | .hold => none
  | .failed s => some (raiseError .resourceError 0 s)
  | .eof s => some (bitTaken b k { s with br := { s.br with nxt := none } })
  | .byte c s => some (bitTaken b k { s with br := { s.br with nxt := some c } })

/-- The head of DECOMPRESS's loop, and its end: BrClose, OutClose, RESULT (R245). -/
def tickSymbols (n : Word) (s : State) : State :=
  if hasNext s.br then startAttempt (.stream n) s
  else complete n (outClose (brCloseSession s))

/-! ### BrOpen (45_bitreader.md R310) -/

/-- The end of `BrOpen()`: BR_OPEN completes with the header, DECOMPRESS opens OUT and enters its loop (R313, R245). -/
def brOpened (k : BrOpenFor) (header : Word) (b : Unpacker) (s : State) : State :=
  match k with
  | .brOpen => complete header { s with br := b }
  | .decompress => { outOpen { s with br := b } with ctl := .symbols 0 }

/-- RESULT of BR_OPEN where the source was empty (R313). -/
def emptySourceResult : Word := 0xFFFFFFFF

/-- BrOpen's first InRead: the header (R310). -/
def tickHeader (k : BrOpenFor) (s : State) : Option State :=
  match inRead s with
  | .hold => none
  | .failed s => some (raiseError .resourceError 0 s)
  | .eof s => some (brOpened k emptySourceResult openedEmpty s)
  | .byte h s =>
    some (match headerPad h with
      | none => raiseError .malformedStream (h.zeroExtend 32) s
      | some p => { s with ctl := .fillCur k p })

/-- BrOpen's second InRead (R310). -/
def tickFillCur (k : BrOpenFor) (p : Fin 8) (s : State) : Option State :=
  match inRead s with
  | .hold => none
  | .failed s => some (raiseError .resourceError 0 s)
  | .eof s => some { s with ctl := .fillNxt k p none }
  | .byte c s => some { s with ctl := .fillNxt k p (some c) }

/-- BrOpen's third InRead, and its end (R310). -/
def tickFillNxt (k : BrOpenFor) (p : Fin 8) (cur : Option Byte) (s : State) : Option State :=
  match inRead s with
  | .hold => none
  | .failed s => some (raiseError .resourceError 0 s)
  | .eof s => some (brOpened k (BitVec.ofNat 32 p.val) (openedWith p cur none) s)
  | .byte c s => some (brOpened k (BitVec.ofNat 32 p.val) (openedWith p cur (some c)) s)

/-! ### InOpen, COMPRESS and emissions -/

/-- Where a command goes once its input session is open (R207, R244, R313, R245). -/
def afterInOpen (k : OpenFor) (s : State) : State :=
  match k with
  | .load => { inOpen s with ctl := .load .start }
  | .compress => { bwOpenSession (inOpen s) with ctl := .compress }
  | .brOpen => { inOpen s with ctl := .header .brOpen }
  | .decompress => { inOpen s with ctl := .header .decompress }

/-- `InOpen()`: while IN_DRAIN = 1 it holds, and the drain steps run (20_memory.md R80, 10_state.md R42). -/
def tickOpenIn (k : OpenFor) (s : State) : Option State :=
  if s.inDrain then drainStep s else some (afterInOpen k s)

/-- One InRead of COMPRESS, and the encode of the byte it gives (R244). -/
def tickCompress (s : State) : Option State :=
  match inRead s with
  | .hold => none
  | .failed s => some (raiseError .resourceError 0 s)
  | .eof s => some (bwCloseStart true s)
  | .byte c s => some ((encodeSymbolBits c s).finish (fun s => { s with ctl := .compress }))

/-- The end of an emission: TREE_SAVE (R202), BW_CLOSE (R285) or COMPRESS (R244). -/
def emitEnd (k : EmitFor) (s : State) : State :=
  match k with
  | .save n => complete n (outClose s)
  | .bwClose h => complete (h.zeroExtend 32) (bwCloseEnd s)
  | .compress n => complete n (inRelease (bwCloseEnd s))

/-- An engine step of an emission. TREE_SAVE and BW_CLOSE do one OutWrite, or end: the host can change OUT_ERR between two of
them, and the bytes already written stay (20_memory.md R81, 44_bitwriter.md R285, 70_reset_and_hazards.md R387). The close of
COMPRESS, from its first OutWrite to its end, is one step: on any error nothing of its stream but a CLOSE reaches OUT
(43_translate.md R244, D37), so no change of OUT_ERR comes between two of its OutWrites (DESIGN CHOICE log 23). -/
def tickEmit (rest : List Byte) (k : EmitFor) (s : State) : State :=
  match k with
  | .compress _ => (outWrites rest s).finish (emitEnd k)
  | .save _ | .bwClose _ =>
    match rest with
    | [] => emitEnd k s
    | b :: rest => outWrite b (.emit rest k) s

/-! ### One engine step, and a turn -/

/-- One step of the engine inside a running command; `none` where it holds (R7), and where no command has
been started. -/
def tick (s : State) : Option State :=
  match s.ctl with
  | .idle => none
  | .accepted => none
  | .openIn k => tickOpenIn k s
  | .load l => tickLoad l s
  | .header k => tickHeader k s
  | .fillCur k p => tickFillCur k p s
  | .fillNxt k p cur => tickFillNxt k p cur s
  | .decode d m => some (tickDecode d m s)
  | .refill b k => tickRefill b k s
  | .symbols n => some (tickSymbols n s)
  | .putSymbol v n => some (outWrite v (.symbols (n + 1)) s)
  | .compress => tickCompress s
  | .emit rest k => some (tickEmit rest k s)

/-- At most `n` engine steps, fewer where the command ends or holds first. -/
def runTicks : Nat → State → State
  | 0, s => s
  | n + 1, s =>
    match tick s with
    | none => s
    | some s' => runTicks n s'

/-- How many bytes of the unpacker's window are not EOF. -/
def windowBytes (b : Unpacker) : Nat := (if b.cur.isSome then 1 else 0) + (if b.nxt.isSome then 1 else 0)

/-- A bound on the bits still to be taken: of the window and of every token of IN. -/
def bitsAhead (s : State) : Nat := 8 * (s.inQ.length + windowBytes s.br) - s.br.pos.val

/-- The work of COMPRESS from its InRead with the tokens of IN: at most the longest code's bits, and one
step, for each token, and then the emission. -/
def compressWork (s : State) (held : Nat) : Nat := s.inQ.length * (s.tree.maxDepth + 1) + held + 4

/-- A bound on the engine steps the command can still take without a host push; every engine step makes it
smaller (70_reset_and_hazards.md R388). It is only how far `advance` looks; no effect depends on it. -/
def work (s : State) : Nat :=
  match s.ctl with
  | .idle => 0
  | .accepted => 0
  | .openIn .load => 2 * s.inQ.length + 2
  | .openIn .compress => compressWork s 0 + 1
  | .openIn .brOpen => 32 * s.inQ.length + 8
  | .openIn .decompress => 32 * s.inQ.length + 8
  | .load l => 2 * s.inQ.length + (if l.line.isEmpty then 1 else 2)
  | .header _ => 32 * s.inQ.length + 7
  | .fillCur _ _ => 32 * s.inQ.length + 6
  | .fillNxt _ _ cur => 32 * (s.inQ.length + (if cur.isSome then 1 else 0)) + 5
  | .decode _ _ => 4 * bitsAhead s + 1
  | .refill _ _ => 4 * bitsAhead s + 4
  | .symbols _ => 4 * bitsAhead s + 2
  | .putSymbol _ _ => 4 * bitsAhead s + 3
  | .compress => compressWork s (8 * s.bw.data.length + s.bw.nbits.val)
  | .emit rest _ => rest.length + 1

/-- The engine steps of one turn: as many as the schedule allows, or until the command ends or holds (R392). -/
def advance (s : State) : State :=
  match s.quantum with
  | none => runTicks (work s) s
  | some n => runTicks n s

end Sys2Proof.Machine
end

