-- ==== Sys2Proof/Machine/BitReader.lean ====
section
/-! DEFINITION. The unpacker's commands (spec 45_bitreader.md). -/

namespace Sys2Proof.Machine

/-- BR_OPEN (R313). -/
def execBrOpen (s : State) : Result := command .brOpen (fun s => advance { s with ctl := .openIn .brOpen }) s

/-- BR_HASNEXT (R314). -/
def execBrHasNext (s : State) : Result :=
  command .brHasNext (fun s => complete (if hasNext s.br then 1 else 0) s) s

/-- BR_NEXT (R315): Exhaustion(0) where no bit is left. -/
def execBrNext (s : State) : Result :=
  command .brNext (fun s =>
    if hasNext s.br then advance (takeBit .brNext s) else raiseError .exhaustion 0 s) s

/-- BR_CLOSE (R316): with the unpacker closed it completes and changes nothing. -/
def execBrClose (s : State) : Result :=
  command .brClose (fun s => if s.br.isOpen then endCommand (brCloseSession s) else endCommand s) s

end Sys2Proof.Machine
end

