-- ==== Sys2Proof/Machine/BitWriter.lean ====
section
/-! DEFINITION. The packer's commands (spec 44_bitwriter.md). -/

namespace Sys2Proof.Machine

/-- BW_OPEN (R283). -/
def execBwOpen (s : State) : Result := command .bwOpen (fun s => endCommand (bwOpenSession s)) s

/-- BW_WRITE (R284). -/
def execBwWrite (s : State) : Result :=
  command .bwWrite (withBit (fun b s => (bwWriteBit b s).finish endCommand)) s

/-- BW_CLOSE (R285): with the packer closed it completes and changes nothing. -/
def execBwClose (s : State) : Result :=
  command .bwClose (fun s => if s.bw.isOpen then advance (bwCloseStart false s) else endCommand s) s

end Sys2Proof.Machine
end

