-- ==== Sys2Proof/Machine/CodeTable.lean ====
section
/-! DEFINITION. The code-table serializer and deserializer (spec 42_code_table.md). -/

namespace Sys2Proof.Machine

/-- TREE_SAVE up to its first OutWrite: the output session is open and the whole text is to be emitted (R202). -/
def treeSaveStart (s : State) : State :=
  { outOpen s with ctl := .emit (renderTree s.tree) (.save (BitVec.ofNat 32 s.tree.leaves.length)) }

/-- TREE_SAVE (R202). -/
def execTreeSave (s : State) : Result := command .treeSave (fun s => advance (treeSaveStart s)) s

/-- TREE_LOAD up to InOpen: TREE is emptied first (R207). -/
def treeLoadStart (s : State) : State := { s with tree := .empty, ctl := .openIn .load }

/-- TREE_LOAD (R207). -/
def execTreeLoad (s : State) : Result := command .treeLoad (fun s => advance (treeLoadStart s)) s

end Sys2Proof.Machine
end

