-- ==== Sys2Proof/Machine/Codec.lean ====
section
/-! DEFINITION. The symbol codec's commands (spec 43_translate.md). -/

namespace Sys2Proof.Machine

/-- ENCODE_SYMBOL (R242). -/
def execEncodeSymbol (s : State) : Result :=
  command .encodeSymbol (withSym (fun v s =>
    (encodeSymbolBits v s).finish (fun t => complete (BitVec.ofNat 32 ((s.tree.code v).getD []).length) t))) s

/-- DECODE_SYMBOL (R243). -/
def execDecodeSymbol (s : State) : Result := command .decodeSymbol (fun s => advance (startAttempt .single s)) s

/-- COMPRESS (R244). -/
def execCompress (s : State) : Result := command .compress (fun s => advance { s with ctl := .openIn .compress }) s

/-- DECOMPRESS (R245). -/
def execDecompress (s : State) : Result :=
  command .decompress (fun s => advance { s with ctl := .openIn .decompress }) s

end Sys2Proof.Machine
end

