-- ==== Sys2Proof/Machine/Control.lean ====
section
/-! DEFINITION. The control and frequency-RAM commands (spec 40_control_freq.md). -/

namespace Sys2Proof.Machine

/-- NOP (R130). -/
def execNop (s : State) : Result := command .nop endCommand s

/-- CLEAR_ERROR (R131): ERR, ERR_CODE, WR_IGNORED and ERR_INFO to 0. -/
def execClearError (s : State) : Result := command .clearError (fun s => endCommand (clearErrorState s)) s

/-- The release of the open sessions by SOFT_RESET (R132): CLOSE without data, and the drain of an open input session. -/
def softResetRelease (s : State) : State :=
  let s := if s.bw.isOpen then outClose s else s
  if s.br.isOpen || s.inOwned then inRelease s else s

/-- The items of 10_state.md R49 at their reset values, but IN, IN_DRAIN, OUT, OUT_ERR and DIAG (R132).
The model's own fields, the history of errors among them, keep their values. -/
def softResetItems (s : State) : State :=
  { s with
    diagEn := false
    err := none
    wrIgnored := false
    arg0 := 0
    arg1 := 0
    result := 0
    errInfo := 0
    freq := Vector.replicate 256 0
    tree := .empty
    bw := .closed
    br := .closed
    inOwned := false
    inTerm := false
    outOwned := false
    pending := 0
    ctl := .idle }

/-- SOFT_RESET (R132). -/
def execSoftReset (s : State) : Result := command .softReset (fun s => softResetItems (softResetRelease s)) s

/-- FREQ_CLEAR (R133). -/
def execFreqClear (s : State) : Result :=
  command .freqClear (fun s => endCommand { s with freq := Vector.replicate 256 0 }) s

/-- FREQ[v] <- c (10_state.md R35). -/
def setFreq (v : Byte) (c : Word) (s : State) : State := { s with freq := s.freq.set v.toNat c v.isLt }

/-- FREQ_WRITE (R134). -/
def execFreqWrite (s : State) : Result :=
  command .freqWrite (withSym (fun v s => endCommand (setFreq v (countOperand s) s))) s

/-- FREQ_READ (R135). -/
def execFreqRead (s : State) : Result :=
  command .freqRead (withSym (fun v s => complete (s.freq[v.toNat]'v.isLt) s)) s

end Sys2Proof.Machine
end

