-- ==== Sys2Proof/Machine/TreeBuild.lean ====
section
/-! DEFINITION. The tree-builder commands (spec 41_tree_build.md). TREE_INFO and STATUS.TREE_NONEMPTY follow
TREE (Machine/Flags.lean). -/

namespace Sys2Proof.Machine

/-- TREE_BUILD (R161). -/
def execTreeBuild (s : State) : Result :=
  command .treeBuild (fun s =>
    complete (BitVec.ofNat 32 (seedQueue s.freq).length) { s with tree := buildTree s.freq }) s

/-- TREE_CLEAR (R163). -/
def execTreeClear (s : State) : Result := command .treeClear (fun s => endCommand { s with tree := .empty }) s

/-- CODE_QUERY (R164): the code length, 0 for an absent symbol. -/
def execCodeQuery (s : State) : Result :=
  command .codeQuery (withSym (fun v s =>
    match s.tree.code v with
    | none => complete 0 s
    | some p => complete (BitVec.ofNat 32 p.length) s)) s

/-- CODE_BIT (R165): the symbol, then its presence, then the index is checked. -/
def execCodeBit (s : State) : Result :=
  command .codeBit (withSym (fun v s =>
    match s.tree.code v with
    | none => raiseError .missingCode (v.zeroExtend 32) s
    | some p =>
      match p[indexOperand s]? with
      | none => raiseError .invalidArgument s.arg1 s
      | some b => complete ((BitVec.ofBool b).zeroExtend 32) s)) s

end Sys2Proof.Machine
end

