-- ==== Sys2Proof/Machine/Dispatch.lean ====
section
/-! DEFINITION. `exec`: what the engine does with a command word that decodes to an instruction (spec
30_encoding.md R109), one arm per instruction. -/

namespace Sys2Proof.Machine

def exec (i : Instr) (s : State) : Host.Outcome State Fault Refusal :=
  match i with
  | .nop => Sys2Proof.Machine.execNop s
  | .clearError => Sys2Proof.Machine.execClearError s
  | .softReset => Sys2Proof.Machine.execSoftReset s
  | .freqClear => Sys2Proof.Machine.execFreqClear s
  | .freqWrite => Sys2Proof.Machine.execFreqWrite s
  | .freqRead => Sys2Proof.Machine.execFreqRead s
  | .treeBuild => Sys2Proof.Machine.execTreeBuild s
  | .treeClear => Sys2Proof.Machine.execTreeClear s
  | .codeQuery => Sys2Proof.Machine.execCodeQuery s
  | .codeBit => Sys2Proof.Machine.execCodeBit s
  | .treeSave => Sys2Proof.Machine.execTreeSave s
  | .treeLoad => Sys2Proof.Machine.execTreeLoad s
  | .encodeSymbol => Sys2Proof.Machine.execEncodeSymbol s
  | .decodeSymbol => Sys2Proof.Machine.execDecodeSymbol s
  | .compress => Sys2Proof.Machine.execCompress s
  | .decompress => Sys2Proof.Machine.execDecompress s
  | .bwOpen => Sys2Proof.Machine.execBwOpen s
  | .bwWrite => Sys2Proof.Machine.execBwWrite s
  | .bwClose => Sys2Proof.Machine.execBwClose s
  | .brOpen => Sys2Proof.Machine.execBrOpen s
  | .brHasNext => Sys2Proof.Machine.execBrHasNext s
  | .brNext => Sys2Proof.Machine.execBrNext s
  | .brClose => Sys2Proof.Machine.execBrClose s

end Sys2Proof.Machine
end

