-- ==== Sys2Proof/Machine/HostSide.lean ====
section
/-! DEFINITION. The host agent's steps (spec 30_encoding.md R106, R107, 70_reset_and_hazards.md R391): one line
of its program at a time, and the pseudo-instructions as the lines they stand for. -/

namespace Sys2Proof.Machine

/-- The value of a host expression over the values last read (R106, DESIGN CHOICE log 13). -/
def hostEval (vals : Vector Word 16) : HostExpr → Word
  | .const v => v
  | .reg r => vals[regIndex r]
  | .and a b => hostEval vals a &&& hostEval vals b
  | .shr a b => hostEval vals a >>> (hostEval vals b).toNat

/-- The host goes to line `l`. -/
def hostGoto (l : Nat) (s : State) : State := { s with host := { s.host with pc := l } }

/-- The host goes to its next line. -/
def hostNext (s : State) : State := hostGoto (s.host.pc + 1) s

/-- The host has read `v` from register `r` in `s`: the value is named after the register (R106), and a read of STATUS, or an
exact one of ERR_INFO (20_memory.md R89), shows it the error entries so far (70_reset_and_hazards.md R384, log 16). -/
def noteRead (r : Reg) (v : Word) (s : State) : HostAgent :=
  { s.host with
    vals := s.host.vals.set (regIndex r) v
    codeSeen := if r = .status then some s.errHistory.length else s.host.codeSeen
    infoSeen := if r = .errInfo ∧ s.busy = false then some s.errHistory.length else s.host.infoSeen }

/-- `MemRead` by the host (R106, 20_memory.md R71). -/
def hostRead (r : Reg) (s : State) : State := { (readReg r s).2 with host := noteRead r (readReg r s).1 s }

/-- The host pushes tokens at the tail of IN (10_state.md R42, R106). -/
def pushTokens (ts : List Token) (s : State) : State := { s with inQ := s.inQ ++ ts }

/-- Power-on reset (70_reset_and_hazards.md R380, R381): every item of 10_state.md R49 at its reset value; a command
in progress is abandoned, with no Abort, no CLOSE and no drain. OUT_ERR is the host's and the model's own
fields (history, capacity, draws, host, schedule) are not HUFFCORE's: they stay (DEDUCED log 15). -/
def powerOnReset (s : State) : State :=
  { s with
    diagEn := false
    err := none
    wrIgnored := false
    arg0 := 0
    arg1 := 0
    result := 0
    errInfo := 0
    freq := Vector.replicate 256 0
    tree := .empty
    bw := .closed
    br := .closed
    inQ := []
    inOwned := false
    inTerm := false
    inDrain := false
    out := []
    outOwned := false
    diag := []
    pending := 0
    ctl := .idle }

/-- One line of the host program. An access that 20_memory.md R73 does not define is refused
(DEDUCED log 7); the other duties of R391 are not imposed here but stand in Machine/Contract.lean (DESIGN CHOICE log 16). -/
def hostLine (l : HostLine) (s : State) : Result :=
  match l with
  | .rd a n =>
    match accessReg a n with
    | none => .refused (.undefinedAccess a n)
    | some r => .next (hostNext (hostRead r s))
  | .wr a n v =>
    match accessReg a n with
    | none => .refused (.undefinedAccess a n)
    | some r => .next (hostNext (writeReg r v s))
  | .push ts => .next (hostNext (pushTokens ts s))
  | .outErr b => .next (hostNext { s with outErr := b })
  | .jmp l => .next (hostGoto l s)
  | .jz e l => .next (if hostEval s.host.vals e = 0 then hostGoto l s else hostNext s)
  | .jnz e l => .next (if hostEval s.host.vals e = 0 then hostNext s else hostGoto l s)
  | .powerOnReset => .next (hostNext (powerOnReset s))

/-- One step of the host; past its program it has none, and nothing changes (70_reset_and_hazards.md R390). -/
def hostStep (s : State) : Result :=
  match s.host.prog[s.host.pc]? with
  | none => .next s
  | some l => hostLine l s

/-- `RD REG` and `WR REG, v` by register name (R106). -/
def rdLine (r : Reg) : HostLine := .rd (regOffset r) 4

/-- `WR REG, v` (R106). -/
def wrLine (r : Reg) (v : Word) : HostLine := .wr (regOffset r) 4 v

/-- The pseudo-instruction WAIT, standing at line `at` (R107): poll STATUS until BUSY reads 0. -/
def waitLines (start : Nat) : List HostLine :=
  [rdLine .status, .jnz (.and (.reg .status) (.const 1)) start]

/-- The pseudo-instruction of a command without operands at line `start` (R107). -/
def commandLines (start : Nat) (i : Instr) : List HostLine :=
  wrLine .cmd (encode i) :: waitLines (start + 1)

/-- The pseudo-instruction of a command with one operand (SYM or BIT) at line `start` (R107). -/
def commandLines1 (start : Nat) (i : Instr) (a : Word) : List HostLine :=
  wrLine .arg0 a :: commandLines (start + 1) i

/-- The pseudo-instruction of a command with two operands at line `start` (R107). -/
def commandLines2 (start : Nat) (i : Instr) (a b : Word) : List HostLine :=
  wrLine .arg0 a :: wrLine .arg1 b :: commandLines (start + 2) i

/-- The pseudo-instruction CHECK (R107). -/
def checkLines : List HostLine := [rdLine .status]

end Sys2Proof.Machine
end

