-- ==== Sys2Proof/Machine/Turns.lean ====
section
/-! DEFINITION. Turns: what the engine does when it moves, when it can move, and which agent moves next
(spec 00_scope.md R6, R7, 10_state.md R42, 70_reset_and_hazards.md R392, DESIGN CHOICE log 1). -/

namespace Sys2Proof.Machine

/-- `Execute(PENDING)` (30_encoding.md R109): the word is decoded once, when the engine starts it (20_memory.md R87). -/
def executePending (s : State) : Result :=
  match decode s.pending with
  | .ok i => exec i s
  | .error _ => executeIllegal s.pending s

/-- An idle engine discards one token of an abandoned session, where there is one (10_state.md R42,
DEDUCED log 19). -/
def idleDrain (s : State) : Option State := if s.inDrain then drainStep s else none

/-- The engine's turn: a drain step where it has no command, the start of an accepted command, or the
engine steps of the running one. An engine that can take no step leaves the state as it is (R7). -/
def engineTurn (s : State) : Result :=
  match s.ctl with
  | .idle => .next ((idleDrain s).getD s)
  | .accepted => executePending s
  | .openIn _ | .load _ | .header _ | .fillCur _ _ | .fillNxt _ _ _ | .decode _ _ | .refill _ _
  | .symbols _ | .putSymbol _ _ | .compress | .emit _ _ => .next (advance s)

/-- Whether the engine has a step it can take (R392). -/
def engineReady (s : State) : Bool :=
  match s.ctl with
  | .idle => (idleDrain s).isSome
  | .accepted => true
  | .openIn _ | .load _ | .header _ | .fillCur _ _ | .fillNxt _ _ _ | .decode _ _ | .refill _ _
  | .symbols _ | .putSymbol _ _ | .compress | .emit _ _ => (tick s).isSome

/-- One step: the next turn of the schedule is taken; past the schedule, the engine moves where it can and
the host where it cannot, so that the engine is fair (R392, DESIGN CHOICE log 1). -/
def stepTurn (s : State) : Result :=
  match s.turns with
  | .host :: ts => hostStep { s with turns := ts }
  | .engine q :: ts => engineTurn { s with turns := ts, quantum := q }
  | [] => if engineReady s then engineTurn { s with quantum := none } else hostStep s

/-- A command word placed as an accepted CMD write places it (10_state.md R25), and the engine's turn next. -/
def placeCommand (w : Word) (s : State) : State :=
  { s with pending := w, ctl := .accepted, turns := .engine none :: s.turns }

end Sys2Proof.Machine
end

