-- ==== Sys2Proof/Machine/Step.lean ====
section
/-! DEFINITION. `step`: one step of HUFFCORE and its host (spec 70_reset_and_hazards.md R392). HUFFCORE has no program
counter and fetches no instruction (10_state.md R48): the word it executes is PENDING, which an accepted
write to CMD sets (R25). -/

namespace Sys2Proof.Machine

def step (s : State) : Host.Outcome State Fault Refusal := stepTurn s

/-- HOST interface: `s` with the command word of the `nbits` low bits of `w` accepted, so that the next step
starts it (DESIGN CHOICE log 12). -/
def State.withFetchWord (s : State) (nbits w : Nat) : State :=
  placeCommand (BitVec.ofNat 32 (w % 2 ^ nbits)) s

end Sys2Proof.Machine
end

