-- ==== Sys2Proof/WellFormed.lean ====
section
/-! DEFINITION. Well-formedness of syntax. A command has no operand field (spec 30_encoding.md R100), so
every `Instr` is well formed; what can be ill formed is a host program: a bus access that 20_memory.md R71
does not define, or a jump out of the program (R106). -/

namespace Sys2Proof

/-- Every command is well formed: the command word has no operand, immediate or mode field (R100, R105). -/
def Instr.wf : Instr → Bool := fun _ => true

/-- A bus access R71 defines: a 32-bit word access at a multiple of 4 inside the window. -/
def accessDefined (a n : Nat) : Bool := n == 4 && a % 4 == 0 && decide (a ≤ Config.lastOffset)

/-- One line of a host program of `len` lines: defined accesses (R71, R73), and jumps to a line of the
program or to its end (R106). -/
def HostLine.wf (len : Nat) : HostLine → Bool
  | .rd a n => accessDefined a n
  | .wr a n _ => accessDefined a n
  | .push _ => true
  | .outErr _ => true
  | .jmp l => decide (l ≤ len)
  | .jz _ l => decide (l ≤ len)
  | .jnz _ l => decide (l ≤ len)
  | .powerOnReset => true

/-- A host program every line of which is well formed. -/
def hostProgramWf (p : List HostLine) : Bool := p.all (HostLine.wf p.length)

end Sys2Proof
end

