-- ==== Sys2Proof/Machine/Contract.lean ====
section
/-! DEFINITION. The contract between the host and HUFFCORE (spec 70_reset_and_hazards.md R391): the duties that the "must" rows
lay on the host, the runs in which the host has no move that breaks one, and what HUFFCORE owes the host in
return (with RESULT as 30_encoding.md R108 gives it). `step` itself imposes no duty but that of 20_memory.md R73 (log 16). -/

namespace Sys2Proof.Machine

/-! ### The host's duties -/

/-- The registers a write to which has an effect (10_state.md R21). -/
def takesWrites : Reg → Bool
  | .ctrl | .cmd | .arg0 | .arg1 => true
  | .id | .status | .result | .errInfo | .treeInfo | .bwInfo | .bwCount | .brInfo | .reserved _ => false

/-- The host has read ERR_CODE, with STATUS, and ERR_INFO, exactly, since the last error entry: it read each of them when there
had been as many error entries as there are now (R384, R391). -/
def knowsError (s : State) : Bool :=
  s.host.codeSeen == some s.errHistory.length && s.host.infoSeen == some s.errHistory.length

/-- A command word by which the host recovers from an error (R391; 40_control_freq.md R131, R132). -/
def recovers (w : Word) : Bool := w == encode .clearError || w == encode .softReset

/-- The duties on a register write (R391): CTRL, ARG0, ARG1 and CMD only with BUSY = 0 (R383), and while ERR = 1 a recovery
only with ERR_CODE and ERR_INFO read (R384). -/
def writeKeepsDuty (r : Reg) (v : Word) (s : State) : Bool :=
  !(takesWrites r && s.busy) && !(r == .cmd && s.err.isSome && recovers v && !knowsError s)

/-- A line of the host program keeps the duties of R391 where the host takes it in `s`. A push, OUT_ERR and a reset are
allowed at any time; the duties about whole streams are those of `hostOwesNothing`. A defined read keeps the duty whether BUSY
is 0 or 1, as R391's row for reads says (early reads may be unspecified, R89): that R384 says the host must read RESULT,
ERR_INFO and the unit registers only after BUSY reads 0 is no duty here (DESIGN CHOICE log 16). -/
def keepsDuty (l : HostLine) (s : State) : Bool :=
  match l with
  | .rd a n => accessDefined a n
  | .wr a n v => accessDefined a n && (accessReg a n).all (fun r => writeKeepsDuty r v s)
  | .push _ | .outErr _ | .jmp _ | .jz _ _ | .jnz _ _ | .powerOnReset => true

/-- The host line that the next step takes, where it takes one (R392, log 1). -/
def State.hostLineTaken (s : State) : Option HostLine :=
  match s.turns with
  | .host :: _ => s.host.prog[s.host.pc]?
  | .engine _ :: _ => none
  | [] => if engineReady s then none else s.host.prog[s.host.pc]?

/-- The next step is no host move that breaks a duty. -/
def State.dutiful (s : State) : Bool := s.hostLineTaken.all (fun l => keepsDuty l s)

/-- The run of a host that has no move which breaks a duty (R391): every step is the model's own `step`. -/
inductive DutifulRun : State → State → Prop where
  | refl (s : State) : DutifulRun s s
  | tail {s t u : State} (run : DutifulRun s t) (duty : t.dutiful = true) (next : step t = .next u) : DutifulRun s u

/-- A run of a dutiful host from a state with no command in progress in which no further command is accepted and the host asserts
no power-on reset: what may follow the last command before the end of a run (R390), as the WAIT of R107 does. -/
inductive QuietRun : State → State → Prop where
  | refl (s : State) : QuietRun s s
  | tail {s t u : State} (run : QuietRun s t) (duty : t.dutiful = true)
      (noReset : t.hostLineTaken ≠ some .powerOnReset) (next : step t = .next u) (idle : u.ctl = .idle) : QuietRun s u

/-- The host's duties about whole streams, as they show when it has made its last move (R391, R385, R386): every stream it
pushed was read or drained through its terminator, and every stream it opened with BW_OPEN or BR_OPEN is closed. -/
def State.hostOwesNothing (s : State) : Bool :=
  s.inQ.isEmpty && !s.inDrain && !s.bw.isOpen && !s.br.isOpen

/-! ### What HUFFCORE owes -/

/-- The last token of OUT, where there is one, is a CLOSE: no output session is cut off. -/
def endsClosed (out : List OutToken) : Bool := out.getLast?.all (fun x => x == .close)

/-- R391: no command in progress, every output session closed by a CLOSE on OUT, and no input session open. -/
def State.owesNothing (s : State) : Bool := !s.busy && !s.outOwned && endsClosed s.out && !s.inOwned

/-- Where no output session is open, OUT ends with the CLOSE of the last one (10_state.md R43, 20_memory.md R81). -/
def State.outClosed (s : State) : Prop := s.outOwned = false → endsClosed s.out = true

/-! ### RESULT as the last command's rule gives it (30_encoding.md R108) -/

/-- The data bytes of the session at the head of IN, up to its terminator (10_state.md R42). -/
def sessionBytes : List Token → List Byte
  | .byte b :: q => b :: sessionBytes q
  | .eos :: _ | .err :: _ | [] => []

/-- IN after the terminator of the session at its head. -/
def afterSession : List Token → List Token
  | .byte _ :: q => afterSession q
  | .eos :: q | .err :: q => q
  | [] => []

/-- IN as the next InOpen finds it: a drain in progress takes the rest of the abandoned session first (20_memory.md R80). -/
def State.nextSession (s : State) : List Token := if s.inDrain then afterSession s.inQ else s.inQ

/-- The number of lines of a text: one for each LF, and the last one where no LF ends it (42_code_table.md R203). -/
def lineCount (l : List Byte) : Nat := l.count lf + if l.getLast?.all (fun c => c == lf) then 0 else 1

/-- The bits ahead of the unpacker: of its window from BR.pos on, and of the rest of its session in IN (10_state.md R45). -/
def State.bitsFromHere (s : State) : List Bool :=
  ((s.br.cur.toList ++ s.br.nxt.toList ++ if s.inTerm then [] else sessionBytes s.inQ).flatMap byteBits).drop s.br.pos.val

/-- The symbol operand of ARG0 (30_encoding.md R101), which a command that completed has found valid. -/
def State.sym (s : State) : Byte := s.arg0.extractLsb' 0 8

/-- R108: RESULT in `t`, where command `i`, started in `s` with every token it reads in IN, has completed. -/
def ResultRule (i : Instr) (s t : State) : Prop :=
  match i with
  | .nop | .clearError | .freqClear | .freqWrite | .treeClear | .bwOpen | .bwWrite | .brClose => t.result = s.result
  | .softReset => t.result = 0
  | .freqRead => t.result = freqAt s.freq s.sym
  | .treeBuild => t.result = BitVec.ofNat 32 t.tree.leaves.length
  | .codeQuery => t.result = BitVec.ofNat 32 ((s.tree.code s.sym).getD []).length
  | .codeBit => ∃ p b, s.tree.code s.sym = some p ∧ p[s.arg1.toNat]? = some b ∧ t.result = if b then 1 else 0
  | .treeSave => t.result = BitVec.ofNat 32 s.tree.leaves.length
  | .treeLoad => t.result = BitVec.ofNat 32 (lineCount (sessionBytes s.nextSession) / 2)
  | .encodeSymbol => ∃ p, s.tree.code s.sym = some p ∧ t.result = BitVec.ofNat 32 p.length
  | .decodeSymbol => ∃ v p, s.tree.nodeAt p = .leaf v ∧ p <+: s.bitsFromHere ∧ t.result = v.zeroExtend 32
  | .compress | .decompress =>
    ∃ bytes : List Byte, t.out = s.out ++ bytes.map .byte ++ [.close] ∧ t.result = BitVec.ofNat 32 bytes.length
  | .bwClose => t.result = if s.bw.isOpen then (paddingCount s.bw.nbits).zeroExtend 32 else s.result
  | .brOpen => t.result = ((sessionBytes s.nextSession).head?.map (fun h => h.zeroExtend 32)).getD 0xFFFFFFFF
  | .brHasNext => t.result = if hasNext s.br then 1 else 0
  | .brNext => ∃ b, s.bitsFromHere.head? = some b ∧ t.result = if b then 1 else 0

end Sys2Proof.Machine
end

