-- ==== Sys2Proof/Safety.lean ====
section
/-! DEFINITION. What counts as a good state and a finished run: the invariant `State.Inv` that every step keeps
(spec 10_state.md R36, R38, R41, R42, R45, R46, 60_exceptions.md R341 to R343), the end of a run and its
observation (70_reset_and_hazards.md R390), and what the host and HUFFCORE owe each other there (R391). -/

namespace Sys2Proof.Machine

/-! ### The units -/

/-- Every INTERNAL node at or below this one has at least one child (R36 condition 4). -/
def Node.full : Node → Bool
  | .absent => true
  | .leaf _ => true
  | .internal l r => (decide (l ≠ .absent) || decide (r ≠ .absent)) && l.full && r.full

/-- R36 conditions 4 to 6: no childless INTERNAL node, no symbol on two leaves, depth at most MAX_CODE_LEN.
Conditions 1 to 3 hold by the shape of `Tree`. -/
def Tree.wf (t : Tree) : Bool :=
  match t with
  | .empty => true
  | .root l r =>
    (Node.internal l r).full && decide (t.leaves.map Prod.fst).Nodup
      && t.leaves.all (fun x => decide (x.2.length ≤ Config.maxCodeLen))

/-- R41: closed is empty; at most BW_CAPACITY data bytes; no bit above the NBITS written ones is set. -/
def Packer.wf (cap : Nat) (w : Packer) : Bool :=
  (w.isOpen || decide (w = .closed)) && decide (w.data.length ≤ cap) && decide (w.acc.toNat < 2 ^ w.nbits.val)

/-- R45: closed is empty; an empty source has no window; after EOF comes EOF. -/
def Unpacker.wf (b : Unpacker) : Bool :=
  (b.isOpen || decide (b = .closed))
    && (!b.hdrEmpty || (b.cur.isNone && decide (b.pad = 0)))
    && (b.cur.isSome || (b.nxt.isNone && decide (b.pos = 0)))

/-! ### The engine's place and the sessions -/

/-- The command that a running engine executes. -/
def runningCommand : Ctl → Option Instr
  | .idle | .accepted => none
  | .openIn .load => some .treeLoad
  | .openIn .compress => some .compress
  | .openIn .brOpen => some .brOpen
  | .openIn .decompress => some .decompress
  | .load _ => some .treeLoad
  | .header .brOpen | .fillCur .brOpen _ | .fillNxt .brOpen _ _ => some .brOpen
  | .header .decompress | .fillCur .decompress _ | .fillNxt .decompress _ _ => some .decompress
  | .decode _ .single | .refill _ (.decode _ .single) => some .decodeSymbol
  | .decode _ (.stream _) | .refill _ (.decode _ (.stream _)) => some .decompress
  | .refill _ .brNext => some .brNext
  | .symbols _ | .putSymbol _ _ => some .decompress
  | .compress | .emit _ (.compress _) => some .compress
  | .emit _ (.save _) => some .treeSave
  | .emit _ (.bwClose _) => some .bwClose

/-- Whether the running command, rather than the packer between commands, owns the output session. -/
def commandOwnsOut : Ctl → Bool
  | .emit _ _ | .symbols _ | .putSymbol _ _ | .decode _ (.stream _) | .refill _ (.decode _ (.stream _)) => true
  | .idle | .accepted | .openIn _ | .load _ | .header _ | .fillCur _ _ | .fillNxt _ _ _
  | .decode _ .single | .refill _ .brNext | .refill _ (.decode _ .single) | .compress => false

/-- Whether the running command, rather than the unpacker between commands, owns the input session. -/
def commandOwnsIn : Ctl → Bool
  | .load _ | .header _ | .fillCur _ _ | .fillNxt _ _ _ | .compress | .emit _ (.compress _) => true
  | .idle | .accepted | .openIn _ | .decode _ _ | .refill _ _ | .symbols _ | .putSymbol _ _
  | .emit _ (.save _) | .emit _ (.bwClose _) => false

/-- Which units may be open where the engine stands (30_encoding.md R110 and the commands' pseudocode):
`(BW.open, BR.open)`, `none` where both values occur. -/
def unitsAt : Ctl → Option Bool × Option Bool
  | .idle | .accepted => (none, none)
  | .openIn .brOpen | .header .brOpen | .fillCur .brOpen _ | .fillNxt .brOpen _ _ => (none, some false)
  | .openIn .load | .openIn .compress | .openIn .decompress | .load _ => (some false, some false)
  | .header .decompress | .fillCur .decompress _ | .fillNxt .decompress _ _ => (some false, some false)
  | .decode _ .single | .refill _ .brNext | .refill _ (.decode _ .single) => (none, some true)
  | .decode _ (.stream _) | .refill _ (.decode _ (.stream _)) => (some false, some true)
  | .symbols _ | .putSymbol _ _ => (some false, some true)
  | .compress | .emit _ (.compress _) => (some true, some false)
  | .emit _ (.save _) => (some false, none)
  | .emit _ (.bwClose _) => (some true, none)

/-- A flag has the value asked for, where one is asked for. -/
def fits (want : Option Bool) (have_ : Bool) : Bool := want.all (fun w => w == have_)

/-- The decode attempt the engine stands in, where it stands in one. -/
def descentAt : Ctl → Option Descent
  | .decode d _ | .refill _ (.decode d _) => some d
  | .idle | .accepted | .openIn _ | .load _ | .header _ | .fillCur _ _ | .fillNxt _ _ _
  | .refill _ .brNext | .symbols _ | .putSymbol _ _ | .compress | .emit _ _ => none

/-- The part of the invariant that only the place in a command decides. -/
def placeOk (s : State) : Bool :=
  match s.ctl with
  | .openIn .load => decide (s.tree = .empty)
  | .load l => decide (s.tree = .empty) && l.tree.wf
  | .fillNxt _ _ cur => cur.isSome || s.inTerm
  | .refill _ _ => s.br.nxt.isNone && (s.br.cur.isSome || s.inTerm)
  | .emit _ (.compress _) => s.inTerm
  | .idle | .accepted | .openIn .compress | .openIn .brOpen | .openIn .decompress | .header _ | .fillCur _ _
  | .decode _ _ | .symbols _ | .putSymbol _ _ | .compress | .emit _ (.save _) | .emit _ (.bwClose _) => true

/-- Whether the engine stands at a refill, where the window is not whole. -/
def atRefill : Ctl → Bool
  | .refill _ _ => true
  | .idle | .accepted | .openIn _ | .load _ | .header _ | .fillCur _ _ | .fillNxt _ _ _ | .decode _ _
  | .symbols _ | .putSymbol _ _ | .compress | .emit _ _ => false

/-- The invariant of HUFFCORE: the units are well formed, a session is owned by the unit or the command that
opened it, a running command is the one in PENDING and runs only with ERR = 0, and ERR agrees with ERR_INFO
and the history. -/
structure State.Inv (s : State) : Prop where
  tree_wf : s.tree.wf = true
  bw_wf : s.bw.wf s.bwCap = true
  br_wf : s.br.wf = true
  cap_pos : 1 ≤ s.bwCap
  out_owned : s.outOwned = (s.bw.isOpen || commandOwnsOut s.ctl)
  in_owned : s.inOwned = (s.br.isOpen || commandOwnsIn s.ctl)
  units : fits (unitsAt s.ctl).1 s.bw.isOpen = true ∧ fits (unitsAt s.ctl).2 s.br.isOpen = true
  place : placeOk s = true
  term_owned : s.inTerm = true → s.inOwned = true
  drain_free : s.inDrain = true → s.inOwned = false
  window_term : s.br.isOpen = true → atRefill s.ctl = false → (s.br.nxt = none ↔ s.inTerm = true)
  running : ∀ i, runningCommand s.ctl = some i → decode s.pending = .ok i ∧ s.err = none
  descent : ∀ d, descentAt s.ctl = some d →
    ∃ p, p.length = d.depth ∧ s.tree.nodeAt p = .internal d.zero d.one
  err_none : s.err = none → s.errInfo = 0
  err_last : ∀ e, s.err = some e → s.errHistory.getLast? = some ⟨e, s.errInfo⟩

/-! ### The end of a run -/

/-- R390: the host program has no further step, BUSY = 0 and IN_DRAIN = 0. -/
def State.ended (s : State) : Bool := decide (s.host.prog.length ≤ s.host.pc) && !s.busy && !s.inDrain

/-- The observation of a run (R390). -/
structure Observation where
  regs : List Word
  freq : Vector Word 256
  tree : Tree
  inQ : List Token
  out : List OutToken
  diag : List Byte
  history : List ErrEntry
deriving DecidableEq, Repr

/-- What is observed at the end of a run (R390). -/
def State.observe (s : State) : Observation where
  regs := windowRegs.map (fun r => regValue r s)
  freq := s.freq
  tree := s.tree
  inQ := s.inQ
  out := s.out
  diag := s.diag
  history := s.errHistory

/-- R391: the host's duties at the end of a run (Machine/Contract.lean). -/
def State.hostDone (s : State) : Bool := s.ended && s.hostOwesNothing

/-- R391: what HUFFCORE owes at the end of a run whose last command was `i`, started in `s`: no command in progress, every
output session closed by a CLOSE on OUT, no input session open, and, when STATUS.ERR = 0, RESULT as the rule
of that command gives it. -/
structure Delivered (i : Instr) (s t : State) : Prop where
  sessions : t.owesNothing = true
  result : t.err = none → ResultRule i s t

end Sys2Proof.Machine
end

