-- ==== Sys2Proof/Certificates/Slice0/Obligations.lean ====
section
/-! DEFINITION. The statements for the provers. The notions a statement needs beside the model's own (the bit
string of a byte, the packed form of a bit string, the text of a list of pairs, an unordered priority
structure) are defined first, from the spec's words. -/

namespace Sys2Proof.Spec

open Sys2Proof.Machine

/-- `h, data` is the packed form of a bit string of m bits: N = ceil(m / 8), h = (8 − (m mod 8)) mod 8, and bit i
of d[j] is b[8j + i], or 0 past the end (44_bitwriter.md R286). -/
def IsPacked (bits : List Bool) (h : Byte) (data : List Byte) : Prop :=
  data.length = (bits.length + 7) / 8 ∧ h.toNat = (8 - bits.length % 8) % 8 ∧
    ∀ j d, data[j]? = some d → ∀ i, i < 8 → d.getLsbD i = bits.getD (8 * j + i) false

/-- The bits a packer holds, first bit first (10_state.md R41). -/
def heldBits (w : Packer) : List Bool := w.data.flatMap byteBits ++ (byteBits w.acc).take w.nbits.val

/-- Data bytes as tokens of IN. -/
def inBytes (l : List Byte) : List Token := l.map .byte

/-- Data bytes as tokens of OUT. -/
def outBytes (l : List Byte) : List OutToken := l.map .byte

/-- The ASCII character of a bit (44_bitwriter.md R282, 42_code_table.md R201). -/
def bitText (b : Bool) : Byte := if b then 0x31 else 0x30

/-- The codes of a byte string, one after the other (43_translate.md R241, R244). -/
def codeBits (t : Tree) (l : List Byte) : List Bool := l.flatMap (fun c => (t.code c).getD [])

/-- `Dec(s)`: the ASCII decimal numeral without leading zeros (42_code_table.md R201). -/
def dec (v : Byte) : List Byte := (Nat.toDigits 10 v.toNat).map (fun c => BitVec.ofNat 8 c.toNat)

/-- The text of a list of pairs: `Dec(s) LF Bits(p) LF` for each (42_code_table.md R201). -/
def tableText (l : List (Byte × List Bool)) : List Byte :=
  l.flatMap (fun x => dec x.1 ++ [0x0A] ++ x.2.map bitText ++ [0x0A])

/-- No symbol with two paths, no path with two symbols, no path a proper prefix of another (42_code_table.md R208). -/
def Consistent (l : List (Byte × List Bool)) : Prop :=
  ∀ x ∈ l, ∀ y ∈ l, (x.1 = y.1 → x.2 = y.2) ∧ (x.2 <+: y.2 → x = y)

/-- ERR = 0, both stream units closed, and the engine's turn not cut short (the model's schedule, log 1). -/
structure Ready (s : State) : Prop where
  err : s.err = none
  bw : s.bw.isOpen = false
  br : s.br.isOpen = false
  quantum : s.quantum = none

/-- Commands one after the other, each with ARG0 as the host wrote it before. -/
def execAll : List (Instr × Word) → State → Result
  | [], s => .next s
  | (i, a) :: rest, s =>
    match exec i { s with arg0 := a } with
    | .next t => execAll rest t
    | .fault f => .fault f
    | .refused r => .refused r

/-- The unpacker's window and IN hold the data bytes `ds` of the open session, then its EOS, then `rest`
(10_state.md R42, R45). -/
def Window (s : State) (ds : List Byte) (rest : List Token) : Prop :=
  (s.inTerm = false ∧ ∃ c n more, ds = c :: n :: more ∧ s.br.cur = some c ∧ s.br.nxt = some n ∧
    s.inQ = inBytes more ++ .eos :: rest) ∨
  (s.inTerm = true ∧ s.inQ = rest ∧ ∃ c, ds = [c] ∧ s.br.cur = some c ∧ s.br.nxt = none) ∨
  (s.inTerm = true ∧ s.inQ = rest ∧ ds = [] ∧ s.br.cur = none ∧ s.br.nxt = none)

/-- The bits of the session not yet taken: those of `ds` less the padding of its last byte, from BR.pos on
(20_memory.md R77). -/
def unread (s : State) (ds : List Byte) : List Bool :=
  ((ds.flatMap byteBits).take (8 * ds.length - s.br.pad.val)).drop s.br.pos.val

/-- An entry of Q with its exact frequency: freq, seq, subtree (41_tree_build.md R160). -/
structure QEntry where
  freq : Nat
  seq : Nat
  subtree : Node
deriving DecidableEq, Repr

/-- e1 is lower than e2 (R160). -/
def QEntry.lower (e1 e2 : QEntry) : Bool := decide (e1.freq < e2.freq ∨ e1.freq = e2.freq ∧ e1.seq < e2.seq)

/-- The lowest of an entry and a list of entries (R160). -/
def lowestOf (e : QEntry) : List QEntry → QEntry
  | [] => e
  | x :: xs => lowestOf (if x.lower e then x else e) xs

/-- `remove-min Q` of a Q in any order (R160). -/
def removeMin : List QEntry → Option (QEntry × List QEntry)
  | [] => none
  | e :: q => some (lowestOf e q, (e :: q).erase (lowestOf e q))

/-- The entry made of the first removed entry, as the left subtree, and the second, by merge number k (R161). -/
def merged (k : Nat) (a b : QEntry) : QEntry := ⟨a.freq + b.freq, 256 + k, .internal a.subtree b.subtree⟩

/-- The merge loop of R161 over a Q in any order: at most `n` merges, numbered from k. -/
def mergeAny : Nat → Nat → List QEntry → List QEntry
  | 0, _, q => q
  | n + 1, k, q =>
    match removeMin q with
    | none => q
    | some (a, q1) =>
      match removeMin q1 with
      | none => q
      | some (b, q2) => mergeAny n (k + 1) (q2 ++ [merged k a b])

/-- Q after the seeding loop (R161): an entry for each symbol whose counter is not 0. -/
def seeds (f : Vector Word 256) : List QEntry :=
  (presentSymbols f).map (fun v => ⟨(freqAt f v).toNat, v.toNat, .leaf v⟩)

/-- The TREE of R161, built with exact frequencies and a Q in any order. -/
def treeAny (f : Vector Word 256) : Tree :=
  match mergeAny 255 0 (seeds f) with
  | [] => .empty
  | e :: _ =>
    match e.subtree with
    | .absent => .empty
    | .leaf v => .root (.leaf v) .absent
    | .internal l r => .root l r

/-- The sum of a quantity over symbols. -/
def sumOver (l : List Byte) (f : Byte → Nat) : Nat := (l.map f).sum

/-- Every INTERNAL node at or below a present node has both children (10_state.md R39). -/
def strict : Node → Bool
  | .absent => false
  | .leaf _ => true
  | .internal l r => strict l && strict r

/-- The offsets of the window, each with the word a read gives (10_state.md R21, R22, R23, R25, R34). -/
def windowWords (s : State) : List (Nat × Word) :=
  [(0x00, 0x48460001), (0x04, if s.diagEn then 1 else 0), (0x08, statusWord s), (0x0C, 0), (0x10, s.arg0),
   (0x14, s.arg1), (0x18, s.result), (0x1C, s.errInfo), (0x20, treeInfoWord s), (0x24, bwInfoWord s),
   (0x28, bwCountWord s), (0x2C, brInfoWord s), (0x30, 0), (0x34, 0), (0x38, 0), (0x3C, 0)]

/-- The codes of the errors (60_exceptions.md R340). -/
def errorCodes : List (ErrName × Byte) :=
  [(.invalidArgument, 0x01), (.exhaustion, 0x02), (.malformedCodeTable, 0x03), (.missingCode, 0x04),
   (.resourceError, 0x05), (.illegalCommand, 0x10), (.illegalState, 0x11), (.malformedStream, 0x12),
   (.undefinedPath, 0x13), (.capacityExceeded, 0x14)]

/-- The commands with their state preconditions (30_encoding.md R110). -/
def preconditions (s : State) : List (Instr × Prop) :=
  [(.nop, True), (.clearError, True), (.softReset, True), (.freqClear, True), (.freqWrite, True),
   (.freqRead, True), (.codeQuery, True), (.codeBit, True), (.bwClose, True), (.brClose, True),
   (.treeBuild, s.bw.isOpen = false ∧ s.br.isOpen = false),
   (.treeClear, s.bw.isOpen = false ∧ s.br.isOpen = false),
   (.treeLoad, s.bw.isOpen = false ∧ s.br.isOpen = false),
   (.compress, s.bw.isOpen = false ∧ s.br.isOpen = false),
   (.decompress, s.bw.isOpen = false ∧ s.br.isOpen = false),
   (.treeSave, s.bw.isOpen = false), (.bwOpen, s.bw.isOpen = false), (.brOpen, s.br.isOpen = false),
   (.encodeSymbol, s.bw.isOpen = true), (.bwWrite, s.bw.isOpen = true), (.decodeSymbol, s.br.isOpen = true),
   (.brHasNext, s.br.isOpen = true), (.brNext, s.br.isOpen = true)]

/-- The illegal command words: MBZ != 0, or a reserved OPC (30_encoding.md R103). -/
def IllegalWord (w : Word) : Prop :=
  0x100 ≤ w.toNat ∨ (0x03 ≤ w.toNat ∧ w.toNat ≤ 0x0F) ∨ (0x13 ≤ w.toNat ∧ w.toNat ≤ 0x1F) ∨
    (0x24 ≤ w.toNat ∧ w.toNat ≤ 0x27) ∨ (0x2A ≤ w.toNat ∧ w.toNat ≤ 0x2F) ∨
    (0x34 ≤ w.toNat ∧ w.toNat ≤ 0x3F) ∨ (0x43 ≤ w.toNat ∧ w.toNat ≤ 0x47) ∨
    (0x4C ≤ w.toNat ∧ w.toNat ≤ 0xFF)

/-- Of the tokens `data`, EOS, `rest` of an opened session, what is left in IN once its two-byte window was filled
and `k` bits were taken, each eighth one with a refill; and whether the terminator was read (45_bitreader.md R310, R312). -/
def leftAfter (data : List Byte) (rest : List Token) (k : Nat) : List Token × Bool :=
  if 2 + k / 8 ≤ data.length then (inBytes (data.drop (2 + k / 8)) ++ .eos :: rest, false) else (rest, true)

/-- The echo of some bits, where DIAG_EN = 1 (44_bitwriter.md R282). -/
def echo (s : State) (bits : List Bool) : List Byte := s.diag ++ if s.diagEn then bits.map bitText else []

/-- The step about to be taken is a power-on reset by the host: the host's turn is next, or no schedule is left and the engine
has no step to take (log 1), and the host stands at that line. -/
def hostResets (s : State) : Prop :=
  ((∃ ts, s.turns = .host :: ts) ∨ (s.turns = [] ∧ engineReady s = false)) ∧
    s.host.prog[s.host.pc]? = some .powerOnReset

end Sys2Proof.Spec

open Sys2Proof Sys2Proof.Machine Sys2Proof.Spec

/-! ### Reset, registers and host accesses -/

/-- R380, R49: the values after power-on reset, with the log 5 choice for OUT_ERR left out. -/
def Obligations.ResetStateHoldsResetValues : Prop :=
  (∀ r, regValue r State.reset = if r = .id then 0x48460001#32 else 0#32) ∧
  (∀ v, freqAt State.reset.freq v = 0) ∧ State.reset.tree = .empty ∧
  State.reset.bw = { isOpen := false, acc := 0, nbits := 0, data := [] } ∧
  State.reset.br = { isOpen := false, hdrEmpty := false, pad := 0, cur := none, nxt := none, pos := 0 } ∧
  State.reset.inQ = [] ∧ State.reset.inOwned = false ∧ State.reset.inTerm = false ∧
  State.reset.inDrain = false ∧ State.reset.out = [] ∧ State.reset.outOwned = false ∧
  State.reset.diag = [] ∧ State.reset.busy = false ∧ State.reset.pending = 0

/-- R380, R381: the host asserts power-on reset in any state, a command in progress among them. Everything of
R49 is at its reset value, nothing is emitted, no drain is started, and the next CMD write is accepted. OUT_ERR and
the model's own fields stay (the model's choice, log 15). -/
def Obligations.PowerOnResetFromAnyState : Prop :=
  ∀ s : State, ∃ t, hostLine .powerOnReset s = .next t ∧
    t = { State.reset with
      outErr := s.outErr
      errHistory := s.errHistory
      bwCap := s.bwCap
      draws := s.draws
      turns := s.turns
      quantum := s.quantum
      host := { s.host with pc := s.host.pc + 1 } } ∧
    ∀ w, writeReg .cmd w t = { t with pending := w, ctl := .accepted }

/-- R21, R71: a word read at each offset of the window gives the register there, and changes nothing of the
machine; the reserved offsets and CMD read 0, ID its constant. The host's record of the errors it has read is the
model's own (log 16). -/
def Obligations.WindowReadsWhenIdle : Prop :=
  ∀ (s : State) (a : Nat) (v : Word), s.ctl = .idle →
    (a, v) ∈ windowWords s →
    hostLine (.rd a 4) s = .next { s with
      host := { s.host with
        pc := s.host.pc + 1
        vals := s.host.vals.setIfInBounds (a / 4) v
        codeSeen := if a = 0x08 then some s.errHistory.length else s.host.codeSeen
        infoSeen := if a = 0x1C then some s.errHistory.length else s.host.infoSeen } }

/-- R89: while BUSY = 1 six registers read a fresh free value, whatever it is (its counter is the model's own, log
4), and the others exactly; once BUSY = 0 every register reads exactly. -/
def Obligations.BusyReadsAreFreeOrExact : Prop :=
  ∀ (s : State) (r : Reg),
    (s.ctl = .idle → readReg r s = (regValue r s, s)) ∧
    (s.ctl ≠ .idle → r ∈ [.result, .errInfo, .treeInfo, .bwInfo, .bwCount, .brInfo] →
      readReg r s = (Config.unspecifiedRead s.draws, { s with draws := s.draws + 1 })) ∧
    (r ∉ [.result, .errInfo, .treeInfo, .bwInfo, .bwCount, .brInfo] → readReg r s = (regValue r s, s))

/-- R24, R340: the places of the fields of STATUS, and the code of each error. -/
def Obligations.StatusFieldPlaces : Prop :=
  ∀ s : State,
    (statusWord s).getLsbD 0 = decide (s.ctl ≠ .idle) ∧ (statusWord s).getLsbD 1 = s.err.isSome ∧
    (statusWord s).getLsbD 2 = s.bw.isOpen ∧ (statusWord s).getLsbD 3 = s.br.isOpen ∧
    (statusWord s).getLsbD 4 = decide (s.tree ≠ .empty) ∧ (statusWord s).getLsbD 5 = s.wrIgnored ∧
    (statusWord s).getLsbD 6 = s.inDrain ∧ (statusWord s).getLsbD 7 = false ∧
    (statusWord s).extractLsb' 16 16 = 0 ∧
    (s.err = none → (statusWord s).extractLsb' 8 8 = 0) ∧
    (∀ e c, s.err = some e →
      (e, c) ∈ errorCodes →
      (statusWord s).extractLsb' 8 8 = c)

/-- R30: TREE_INFO is consistent with TREE in every state that meets the invariant: LEAVES is the number of
leaves, MAX_DEPTH the largest code length, and every other bit is 0. -/
def Obligations.TreeInfoAgreesWithTree : Prop :=
  ∀ s : State, s.Inv →
    ((treeInfoWord s).extractLsb' 0 9).toNat = s.tree.leaves.length ∧ s.tree.leaves.length ≤ 256 ∧
    (∀ v p, s.tree.code v = some p → p.length ≤ ((treeInfoWord s).extractLsb' 16 8).toNat) ∧
    (s.tree ≠ .empty → ∃ v p, s.tree.code v = some p ∧
      p.length = ((treeInfoWord s).extractLsb' 16 8).toNat) ∧
    (s.tree = .empty → treeInfoWord s = 0) ∧
    (treeInfoWord s).extractLsb' 9 7 = 0 ∧ (treeInfoWord s).extractLsb' 24 8 = 0 ∧
    treeInfoWord State.reset = 0 ∧ (∀ v, writeReg .treeInfo v s = s)

/-- R31, R32, R33: BW_INFO, BW_COUNT and BR_INFO, for the packer and the unpacker as the invariant has them. Nothing is said of
BW_COUNT where the packer holds 2^32 bytes or more, a number its 32 bits cannot show (free, log 22). -/
def Obligations.UnitInfoRegisters : Prop :=
  ∀ s : State, s.Inv →
    ((bwInfoWord s).extractLsb' 0 3).toNat = s.bw.nbits.val ∧ (bwInfoWord s).extractLsb' 3 29 = 0 ∧
    (s.bw.data.length < 2 ^ 32 → (bwCountWord s).toNat = s.bw.data.length) ∧ s.bw.data.length ≤ s.bwCap ∧
    ((brInfoWord s).extractLsb' 0 3).toNat = s.br.pos.val ∧ (brInfoWord s).getLsbD 3 = false ∧
    ((brInfoWord s).extractLsb' 4 3).toNat = s.br.pad.val ∧ (brInfoWord s).getLsbD 7 = false ∧
    (s.br.hdrEmpty = true → s.br.pad = 0) ∧
    (brInfoWord s).getLsbD 8 = s.br.hdrEmpty ∧ (brInfoWord s).getLsbD 9 = s.br.cur.isSome ∧
    (brInfoWord s).getLsbD 10 = s.br.nxt.isSome ∧ (brInfoWord s).extractLsb' 11 21 = 0 ∧
    (s.br.isOpen = false → brInfoWord s = 0) ∧
    bwInfoWord State.reset = 0 ∧ bwCountWord State.reset = 0 ∧ brInfoWord State.reset = 0 ∧
    (∀ v, ∀ r ∈ [Reg.bwInfo, .bwCount, .brInfo], writeReg r v s = s)

/-- R74: what host accesses do and no more. A read changes no item of the machine (only the model's count of free
values, log 4); a write to CTRL, ARG0, ARG1 or
CMD stores, or starts a command, with BUSY = 0, and is dropped with WR_IGNORED set with BUSY = 1; a write
to another register is dropped; and every write but CMD's is idempotent. -/
def Obligations.HostAccessEffects : Prop :=
  ∀ (s : State) (r : Reg) (v : Word),
    (∃ n, (readReg r s).2 = { s with draws := n }) ∧
    (s.ctl = .idle → writeReg .cmd v s = { s with pending := v, ctl := .accepted } ∧
      writeReg .ctrl v s = { s with diagEn := v.getLsbD 0 } ∧
      writeReg .arg0 v s = { s with arg0 := v } ∧ writeReg .arg1 v s = { s with arg1 := v }) ∧
    (s.ctl ≠ .idle → r ∈ [.ctrl, .cmd, .arg0, .arg1] → writeReg r v s = { s with wrIgnored := true }) ∧
    (r ∉ [.ctrl, .cmd, .arg0, .arg1] → writeReg r v s = s) ∧
    (r ≠ .cmd → writeReg r v (writeReg r v s) = writeReg r v s)

/-- R73 (its sentence about a model): exactly the accesses that are not a word access at a multiple of 4 in
the window are refused, reads and writes alike. R391: a step of a host that keeps its duties is never refused, and none of
its writes is dropped, so WR_IGNORED stays 0 through every run of such a host (which duties those are, log 16). R384, R391: such a
host clears an error by CLEAR_ERROR or SOFT_RESET only after it read ERR_CODE and ERR_INFO since that error: it read
STATUS, and ERR_INFO with BUSY = 0, when there were as many error entries as now; its record of that changes only by
such a read, and an error raised makes one entry more. -/
def Obligations.UndefinedAccessesRefused : Prop :=
  (∀ (s : State) (a n : Nat) (v : Word),
    (¬(n = 4 ∧ a % 4 = 0 ∧ a ≤ 0x3C) →
      hostLine (.rd a n) s = .refused (.undefinedAccess a n) ∧
      hostLine (.wr a n v) s = .refused (.undefinedAccess a n)) ∧
    ((n = 4 ∧ a % 4 = 0 ∧ a ≤ 0x3C) →
      (∃ t, hostLine (.rd a n) s = .next t) ∧ (∃ t, hostLine (.wr a n v) s = .next t))) ∧
  (∀ s : State, s.dutiful = true → ∃ t, step s = .next t) ∧
  (∀ s t : State, DutifulRun s t → s.wrIgnored = false → t.wrIgnored = false) ∧
  (∀ (s : State) (w : Word), s.dutiful = true → s.hostLineTaken = some (.wr 0x0C 4 w) → w = 0x01 ∨ w = 0x02 →
    s.err ≠ none →
    s.host.codeSeen = some s.errHistory.length ∧ s.host.infoSeen = some s.errHistory.length) ∧
  (∀ s t : State, step s = .next t →
    (t.host.codeSeen ≠ s.host.codeSeen →
      s.hostLineTaken = some (.rd 0x08 4) ∧ t.host.codeSeen = some s.errHistory.length) ∧
    (t.host.infoSeen ≠ s.host.infoSeen →
      s.hostLineTaken = some (.rd 0x1C 4) ∧ s.ctl = .idle ∧ t.host.infoSeen = some s.errHistory.length) ∧
    (s.err = none → t.err ≠ none → t.errHistory.length = s.errHistory.length + 1))

/-! ### Encoding -/

/-- R100, R102, R105: a word decodes to a command exactly where it is the command's encoding. -/
def Obligations.DecodeIffEncode : Prop :=
  ∀ (w : Word) (i : Instr), decode w = .ok i ↔ w = encode i

/-- R102: the words of the opcode map, written out. -/
def Obligations.OpcodeMapWords : Prop :=
  decode 0x00000000 = .ok .nop ∧ decode 0x00000001 = .ok .clearError ∧ decode 0x00000002 = .ok .softReset ∧
  decode 0x00000010 = .ok .freqClear ∧ decode 0x00000011 = .ok .freqWrite ∧ decode 0x00000012 = .ok .freqRead ∧
  decode 0x00000020 = .ok .treeBuild ∧ decode 0x00000021 = .ok .treeClear ∧ decode 0x00000022 = .ok .codeQuery ∧
  decode 0x00000023 = .ok .codeBit ∧ decode 0x00000028 = .ok .treeSave ∧ decode 0x00000029 = .ok .treeLoad ∧
  decode 0x00000030 = .ok .encodeSymbol ∧ decode 0x00000031 = .ok .decodeSymbol ∧
  decode 0x00000032 = .ok .compress ∧ decode 0x00000033 = .ok .decompress ∧
  decode 0x00000040 = .ok .bwOpen ∧ decode 0x00000041 = .ok .bwWrite ∧ decode 0x00000042 = .ok .bwClose ∧
  decode 0x00000048 = .ok .brOpen ∧ decode 0x00000049 = .ok .brHasNext ∧ decode 0x0000004A = .ok .brNext ∧
  decode 0x0000004B = .ok .brClose

/-- R103: the illegal words are those with MBZ != 0 and those whose OPC is a reserved value. -/
def Obligations.IllegalWordsExactly : Prop :=
  ∀ w : Word, (∃ e, decode w = .error e) ↔ IllegalWord w

/-! ### Dispatch and errors -/

/-- R87, R109: a step that starts the accepted command is `exec` of the instruction PENDING decodes to, and a step
that goes on with a running command takes the engine steps of its turn. Around that the step takes the turn
off the schedule and sets the length of the engine's turn, and no more (the schedule is the model's own, log 1). -/
def Obligations.StepRunsDecodedCommand : Prop :=
  (∀ (s : State) (i : Instr), s.ctl = .accepted → decode s.pending = .ok i →
    (s.turns = [] → step s = exec i { s with quantum := none }) ∧
    (∀ q ts, s.turns = .engine q :: ts → step s = exec i { s with turns := ts, quantum := q })) ∧
  (∀ s : State, (tick s).isSome = true →
    (s.turns = [] → step s = .next (advance { s with quantum := none })) ∧
    (∀ q ts, s.turns = .engine q :: ts → step s = .next (advance { s with turns := ts, quantum := q })))

/-- R103, R109, R343: while ERR = 1 every command but NOP, CLEAR_ERROR and SOFT_RESET, and every illegal word, is
ignored: BUSY <- 0 and no other change. While ERR = 0 a step that starts an illegal word raises
IllegalCommand with the word. Such a step is the engine's turn of the schedule, or any step with no schedule left;
around the command it takes the turn off the schedule and sets the turn's length, which are the model's own (log 1). -/
def Obligations.ErrorGateAndIllegalWords : Prop :=
  (∀ (s : State) (i : Instr), s.err ≠ none → i ∉ [.nop, .clearError, .softReset] →
    exec i s = .next { s with ctl := .idle }) ∧
  (∀ s : State, s.ctl = .accepted → IllegalWord s.pending →
    (s.turns = [] →
      (s.err = none → step s = .next (raiseError .illegalCommand s.pending { s with quantum := none })) ∧
      (s.err ≠ none → step s = .next { s with ctl := .idle, quantum := none })) ∧
    (∀ q ts, s.turns = .engine q :: ts →
      (s.err = none →
        step s = .next (raiseError .illegalCommand s.pending { s with turns := ts, quantum := q })) ∧
      (s.err ≠ none → step s = .next { s with ctl := .idle, turns := ts, quantum := q })))

/-- R110: the state preconditions. Where the condition of a command is false it raises IllegalState with the OPC,
and only there. -/
def Obligations.StatePreconditions : Prop :=
  ∀ (s : State) (i : Instr) (c : Prop), s.err = none →
    (i, c) ∈ preconditions s →
    (¬c → exec i s = .next (raiseError .illegalState ((opcode i).zeroExtend 32) s)) ∧
    (c → ∀ t, exec i s = .next t → t.err ≠ some .illegalState)

/-- R342, and R341's raise: every error ends every open session. The packer's bytes are discarded, CLOSE goes to an
owned output session, an owned input session is released and drained where its terminator is unread, the
unpacker is closed, and nothing else changes but ERR, its code and detail, the history and BUSY. -/
def Obligations.AbortReleasesEverySession : Prop :=
  ∀ s : State,
    abort s = { s with
      bw := { isOpen := false, acc := 0, nbits := 0, data := [] }
      br := { isOpen := false, hdrEmpty := false, pad := 0, cur := none, nxt := none, pos := 0 }
      out := if s.outOwned then s.out ++ [.close] else s.out
      outOwned := false
      inDrain := s.inDrain || (s.inOwned && !s.inTerm)
      inTerm := if s.inOwned then false else s.inTerm
      inOwned := false } ∧
    ∀ e v, raiseError e v s = { abort s with
      err := some e, errInfo := v, errHistory := s.errHistory ++ [⟨e, v⟩], ctl := .idle }

/-- R28, R341, R342, for every command: one that raises has ended, leaves RESULT, FREQ, CTRL, ARG0 and ARG1 as they
were, leaves no session open, sets ERR once and adds exactly its own entry to the history. R108: one that completes, with a
whole turn and every token it reads in IN (log 1), leaves RESULT as the table of R108 says. -/
def Obligations.RaisingCommandAbortsOnce : Prop :=
  (∀ (s t : State) (i : Instr) (e : ErrName), s.err = none → exec i s = .next t → t.err = some e →
    t.ctl = .idle ∧ t.result = s.result ∧ t.freq = s.freq ∧ t.diagEn = s.diagEn ∧ t.arg0 = s.arg0 ∧
    t.arg1 = s.arg1 ∧ t.bw = .closed ∧ t.br = .closed ∧ t.outOwned = false ∧ t.inOwned = false ∧
    t.errHistory = s.errHistory ++ [⟨e, t.errInfo⟩]) ∧
  (∀ (s t : State) (i : Instr), s.quantum = none → exec i s = .next t → t.ctl = .idle → t.err = none →
    ResultRule i s t)

/-! ### Control and frequency RAM -/

/-- R130, R131, R132: NOP, CLEAR_ERROR and SOFT_RESET, in every state. Over SOFT_RESET the model's own fields, the history of errors
among them (the model's choice, log 10), stay. -/
def Obligations.ControlCommands : Prop :=
  encode .nop = 0x00000000 ∧ encode .clearError = 0x00000001 ∧ encode .softReset = 0x00000002 ∧
  ∀ s : State, exec .nop s = .next { s with ctl := .idle } ∧
    exec .clearError s = .next { s with err := none, wrIgnored := false, errInfo := 0, ctl := .idle } ∧
    exec .softReset s = .next { s with
      diagEn := false, err := none, wrIgnored := false, arg0 := 0, arg1 := 0, result := 0, errInfo := 0
      freq := Vector.replicate 256 0, tree := .empty
      bw := { isOpen := false, acc := 0, nbits := 0, data := [] }
      br := { isOpen := false, hdrEmpty := false, pad := 0, cur := none, nxt := none, pos := 0 }
      inOwned := false, inTerm := false, outOwned := false, pending := 0, ctl := .idle
      out := if s.bw.isOpen && s.outOwned then s.out ++ [.close] else s.out
      inDrain := s.inDrain || (s.inOwned && !s.inTerm) }

/-- R133, R134, R135: the frequency RAM's commands with ERR = 0: every counter cleared; the one counter written, or
read, and nothing else; InvalidArgument(ARG0) where ARG0 > 255. -/
def Obligations.FrequencyCommands : Prop :=
  encode .freqClear = 0x00000010 ∧ encode .freqWrite = 0x00000011 ∧ encode .freqRead = 0x00000012 ∧
  ∀ s : State, s.err = none →
    (∃ f, exec .freqClear s = .next { s with freq := f, ctl := .idle } ∧ ∀ v, freqAt f v = 0) ∧
    (∀ v : Byte, s.arg0 = v.zeroExtend 32 →
      (∃ f, exec .freqWrite s = .next { s with freq := f, ctl := .idle } ∧
        ∀ u, freqAt f u = if u = v then s.arg1 else freqAt s.freq u) ∧
      exec .freqRead s = .next { s with result := freqAt s.freq v, ctl := .idle }) ∧
    (255 < s.arg0.toNat →
      exec .freqWrite s = .next (raiseError .invalidArgument s.arg0 s) ∧
      exec .freqRead s = .next (raiseError .invalidArgument s.arg0 s))

/-! ### Tree builder -/

/-- R161: TREE_BUILD completes wherever its precondition holds; RESULT is the number of nonzero counters, and
nothing but TREE and RESULT changes. Which TREE, the next statements say. -/
def Obligations.TreeBuildCompletes : Prop :=
  ∀ s : State, s.err = none → s.bw.isOpen = false → s.br.isOpen = false →
    exec .treeBuild s = .next { s with
      tree := buildTree s.freq
      result := BitVec.ofNat 32 (symbols.countP (fun v => freqAt s.freq v ≠ 0))
      ctl := .idle }

/-- R160, R161: the tree built with the ordered Q of u40 frequencies is the tree of the algorithm over a Q in any
order, whose `remove-min` looks for the lowest entry, with exact sums: no frequency and no seq wraps. -/
def Obligations.BuildTreeIsTheMergeOfAnyQueue : Prop :=
  ∀ f : Vector Word 256, buildTree f = treeAny f

/-- R39, R161: no symbol gives EMPTY; one gives the wrap with code "0"; two or more give a strictly binary tree. -/
def Obligations.BuiltTreeShape : Prop :=
  ∀ f : Vector Word 256,
    (presentSymbols f = [] → buildTree f = .empty) ∧
    (∀ v, presentSymbols f = [v] → buildTree f = .root (.leaf v) .absent) ∧
    (2 ≤ (presentSymbols f).length → ∃ l r, buildTree f = .root l r ∧ strict l = true ∧ strict r = true)

/-- R162 (1) to (3), R36: exactly the symbols with a nonzero counter have a code, no code is a prefix of another
symbol's, no code is empty, and no code is longer than 255. -/
def Obligations.BuiltCodesArePrefixFree : Prop :=
  ∀ f : Vector Word 256,
    (∀ v, (buildTree f).code v ≠ none ↔ freqAt f v ≠ 0) ∧
    (∀ u v p q, (buildTree f).code u = some p → (buildTree f).code v = some q → p <+: q → u = v) ∧
    (∀ v p, (buildTree f).code v = some p → p ≠ [] ∧ p.length ≤ 255)

/-- R162 (5): for two or more symbols the weight of the built code is minimal among all prefix codes for FREQ. -/
def Obligations.BuiltTreeIsOptimal : Prop :=
  ∀ (f : Vector Word 256) (c : Byte → List Bool), 2 ≤ (presentSymbols f).length →
    (∀ u ∈ presentSymbols f, ∀ v ∈ presentSymbols f, c u <+: c v → u = v) →
    sumOver (presentSymbols f) (fun v => (freqAt f v).toNat * (((buildTree f).code v).getD []).length) ≤
      sumOver (presentSymbols f) (fun v => (freqAt f v).toNat * (c v).length)

/-- R163: TREE_CLEAR. -/
def Obligations.TreeClearEmptiesTree : Prop :=
  encode .treeClear = 0x00000021 ∧
  ∀ s : State, s.err = none → s.bw.isOpen = false → s.br.isOpen = false →
    ∃ t, exec .treeClear s = .next t ∧ t = { s with tree := .empty, ctl := .idle } ∧
      treeInfoWord t = 0 ∧ (statusWord t).getLsbD 4 = false

/-- R164: CODE_QUERY gives the code length, or 0 for an absent symbol, which no present symbol gives where TREE meets
R36; InvalidArgument(ARG0) where ARG0 > 255. -/
def Obligations.CodeQueryGivesDepth : Prop :=
  encode .codeQuery = 0x00000022 ∧
  ∀ s : State, s.err = none →
    (255 < s.arg0.toNat → exec .codeQuery s = .next (raiseError .invalidArgument s.arg0 s)) ∧
    (∀ v : Byte, s.arg0 = v.zeroExtend 32 →
      (s.tree.code v = none → exec .codeQuery s = .next { s with result := 0, ctl := .idle }) ∧
      (∀ p, s.tree.code v = some p →
        exec .codeQuery s = .next { s with result := BitVec.ofNat 32 p.length, ctl := .idle } ∧
        (s.tree.wf = true → 1 ≤ p.length ∧ p.length ≤ 255)))

/-- R165: CODE_BIT: the symbol check, MissingCode, the index check, and then the bit of the path. -/
def Obligations.CodeBitGivesPathBit : Prop :=
  encode .codeBit = 0x00000023 ∧
  ∀ s : State, s.err = none →
    (255 < s.arg0.toNat → exec .codeBit s = .next (raiseError .invalidArgument s.arg0 s)) ∧
    (∀ v : Byte, s.arg0 = v.zeroExtend 32 →
      (s.tree.code v = none → exec .codeBit s = .next (raiseError .missingCode (v.zeroExtend 32) s)) ∧
      (∀ p, s.tree.code v = some p → p.length ≤ s.arg1.toNat →
        exec .codeBit s = .next (raiseError .invalidArgument s.arg1 s)) ∧
      (∀ p b, s.tree.code v = some p → p[s.arg1.toNat]? = some b →
        exec .codeBit s = .next { s with result := if b then 1 else 0, ctl := .idle }))

/-! ### Code table -/

/-- R200, R36, R38: the save order lists exactly the leaves of N, each once at its own path, and left before
right at every node. -/
def Obligations.LeavesInDepthFirstOrder : Prop :=
  ∀ t : Tree,
    (∀ v p, (v, p) ∈ t.leaves ↔ t.nodeAt p = .leaf v) ∧
    t.leaves.Pairwise (fun x y => ∃ q a b, x.2 = q ++ false :: a ∧ y.2 = q ++ true :: b)

/-- R202, R81, R387: TREE_SAVE. At each OutWrite of it, the first or a later one, OUT_ERR = 1 raises ResourceError(1), and the
bytes already written stay (one engine step each, log 2); with OUT_ERR = 0 the byte is appended. With OUT_ERR = 0 throughout the text of the leaves and CLOSE go to OUT; with OUT_ERR = 1 and a tree with
a leaf it raises ResourceError(1) and only CLOSE goes to OUT; a tree without a leaf (EMPTY) gives only CLOSE. -/
def Obligations.TreeSaveWritesTable : Prop :=
  (∀ s : State, s.err = none → s.bw.isOpen = false → s.quantum = none →
    (s.outErr = false → exec .treeSave s = .next { s with
      out := s.out ++ outBytes (tableText s.tree.leaves) ++ [.close]
      outOwned := false
      result := BitVec.ofNat 32 s.tree.leaves.length
      ctl := .idle }) ∧
    (s.outErr = true → s.tree.leaves ≠ [] →
      exec .treeSave s = .next (raiseError .resourceError 1 { s with outOwned := true })) ∧
    (s.tree.leaves = [] → exec .treeSave s = .next { s with
      out := s.out ++ [.close], outOwned := false, result := 0, ctl := .idle })) ∧
  (∀ (s : State) (b : Byte) (rest : List Byte) (n : Word), s.ctl = .emit (b :: rest) (.save n) →
    (s.outErr = true → tick s = some (raiseError .resourceError 1 s)) ∧
    (s.outErr = false → tick s = some { s with out := s.out ++ [.byte b], ctl := .emit rest (.save n) }))

/-- R209: TREE_LOAD of the bytes TREE_SAVE writes for T completes with TREE = T exactly, EMPTY included. -/
def Obligations.SaveThenLoadGivesSameTree : Prop :=
  ∀ (s u : State) (rest : List Token) (bytes : List Byte), s.tree.wf = true →
    s.err = none → s.bw.isOpen = false → s.quantum = none → s.outErr = false →
    Ready u → u.inDrain = false → u.inQ = inBytes bytes ++ .eos :: rest →
    (∃ t, exec .treeSave s = .next t ∧ t.out = s.out ++ outBytes bytes ++ [.close]) →
    exec .treeLoad u = .next { u with
      tree := s.tree, inQ := rest, inOwned := false, inTerm := false
      result := BitVec.ofNat 32 s.tree.leaves.length, ctl := .idle }

/-- R206, R207, R208: TREE_LOAD of the text of a list of pairs, each path 1 to 255 bits long, completes exactly where
the pairs are consistent; the TREE then has exactly these pairs as its leaves and meets R36, so it depends
only on the set of pairs; else MalformedCodeTable leaves TREE = EMPTY. -/
def Obligations.LoadDependsOnlyOnThePairs : Prop :=
  (∀ (s : State) (l : List (Byte × List Bool)) (rest : List Token), Ready s → s.inDrain = false →
    (∀ x ∈ l, x.2 ≠ [] ∧ x.2.length ≤ 255) → s.inQ = inBytes (tableText l) ++ .eos :: rest →
    (Consistent l → ∃ T : Tree, exec .treeLoad s = .next { s with
        tree := T, inQ := rest, inOwned := false, inTerm := false
        result := BitVec.ofNat 32 l.length, ctl := .idle } ∧
      T.wf = true ∧ ∀ x, x ∈ T.leaves ↔ x ∈ l) ∧
    (¬Consistent l → ∃ t, exec .treeLoad s = .next t ∧ t.ctl = .idle ∧
      t.err = some .malformedCodeTable ∧ t.tree = .empty)) ∧
  (∀ T U : Tree, T.wf = true → U.wf = true → (∀ x, x ∈ T.leaves ↔ x ∈ U.leaves) → T = U)

/-- R207, D20: whatever IN holds, a TREE_LOAD that raises leaves TREE = EMPTY, and while it holds for input TREE is
EMPTY too. -/
def Obligations.FailedLoadLeavesTreeEmpty : Prop :=
  ∀ s t : State, s.err = none → s.bw.isOpen = false → s.br.isOpen = false →
    exec .treeLoad s = .next t → (t.err ≠ none ∨ t.ctl ≠ .idle) → t.tree = .empty

/-- R203 to R205, R207: how TREE_LOAD reads its lines and what it does with each of them, the end of the table included; `ln` is the
number of the line before it. First a whole symbol line, a whole path line (R206: a pair that collides raises MalformedCodeTable
with the path line's number, any other is inserted); then each token at an InRead of TREE_LOAD (one
engine step each, log 2): a byte, LF, ERR, and the terminator, which ends a last line without LF, leaves an
unpaired symbol line (MalformedCodeTable with that line's number) or completes; and then whole commands, where the first
pair that collides with those before it is reported by the number of its path line. -/
def Obligations.TableLineChecks : Prop :=
  (∀ (s : State) (l : LoadState),
    (l.sym = none →
      (∀ v : Byte, l.line ≠ [] → (∀ c ∈ l.line, 0x30 ≤ c.toNat ∧ c.toNat ≤ 0x39) →
        Nat.ofDigits 10 (l.line.reverse.map (fun c => c.toNat - 0x30)) = v.toNat →
        loadLine l s = { s with ctl := .load { l with sym := some v, line := [], ln := l.ln + 1 } }) ∧
      ((l.line = [] ∨ (∃ c ∈ l.line, c.toNat < 0x30 ∨ 0x39 < c.toNat) ∨
          255 < Nat.ofDigits 10 (l.line.reverse.map (fun c => c.toNat - 0x30))) →
        loadLine l s = raiseError .malformedCodeTable (l.ln + 1) s)) ∧
    (l.sym ≠ none →
      ((l.line = [] ∨ ∃ c ∈ l.line, c ≠ 0x30 ∧ c ≠ 0x31) →
        loadLine l s = raiseError .malformedCodeTable (l.ln + 1) s) ∧
      ((∀ c ∈ l.line, c = 0x30 ∨ c = 0x31) → 255 < l.line.length →
        loadLine l s = raiseError .capacityExceeded (l.ln + 1) s)) ∧
    (∀ (v : Byte) (p : List Bool), l.sym = some v → l.line = p.map bitText → p ≠ [] → p.length ≤ 255 →
      (l.tree.insert p v = none → loadLine l s = raiseError .malformedCodeTable (l.ln + 1) s) ∧
      (∀ T, l.tree.insert p v = some T → loadLine l s =
        { s with ctl := .load { sym := none, line := [], ln := l.ln + 1, tree := T, pairs := l.pairs + 1 } }))) ∧
  (∀ (s : State) (l : LoadState) (q : List Token), s.ctl = .load l → s.inOwned = true →
    (s.inTerm = false →
      (∀ c : Byte, s.inQ = .byte c :: q → c ≠ 0x0A →
        tick s = some { s with inQ := q, ctl := .load { l with line := l.line ++ [c] } }) ∧
      (s.inQ = .byte 0x0A :: q → tick s = some (loadLine l { s with inQ := q })) ∧
      (s.inQ = .err :: q → tick s = some (raiseError .resourceError 0 { s with inQ := q, inTerm := true }))) ∧
    (∀ u : State, (s.inTerm = false ∧ s.inQ = .eos :: q ∧ u = { s with inQ := q, inTerm := true } ∨
        s.inTerm = true ∧ u = s) →
      (l.line ≠ [] → tick s = some (loadLine l u)) ∧
      (l.line = [] → l.sym ≠ none → tick s = some (raiseError .malformedCodeTable l.ln u)) ∧
      (l.line = [] → l.sym = none → tick s = some { u with
        inOwned := false, inTerm := false, tree := l.tree, result := l.pairs, ctl := .idle }))) ∧
  (∀ (s : State) (l : List (Byte × List Bool)) (x : Byte × List Bool) (rest : List Token), Ready s →
    s.inDrain = false → (∀ y ∈ l, y.2 ≠ [] ∧ y.2.length ≤ 255) → Consistent l →
    ((s.inQ = inBytes (tableText l ++ dec x.1) ++ .eos :: rest ∨
        s.inQ = inBytes (tableText l ++ dec x.1 ++ [0x0A]) ++ .eos :: rest) →
      exec .treeLoad s = .next (raiseError .malformedCodeTable (BitVec.ofNat 32 (2 * l.length + 1))
        { s with tree := .empty, inQ := rest, inOwned := true, inTerm := true })) ∧
    (s.inQ = inBytes (tableText l ++ dec x.1 ++ [0x0A] ++ x.2.map bitText) ++ .eos :: rest →
      x.2 ≠ [] → x.2.length ≤ 255 → Consistent (l ++ [x]) →
      exec .treeLoad s = exec .treeLoad { s with inQ := inBytes (tableText (l ++ [x])) ++ .eos :: rest }) ∧
    (∀ q, s.inQ = inBytes (tableText (l ++ [x])) ++ q → x.2 ≠ [] → x.2.length ≤ 255 → ¬Consistent (l ++ [x]) →
      exec .treeLoad s = .next (raiseError .malformedCodeTable (BitVec.ofNat 32 (2 * (l.length + 1)))
        { s with tree := .empty, inQ := q, inOwned := true, inTerm := false })) ∧
    (∀ n, n ≤ (tableText l).length → s.inQ = inBytes ((tableText l).take n) ++ .err :: rest →
      exec .treeLoad s = .next (raiseError .resourceError 0
        { s with tree := .empty, inQ := rest, inOwned := true, inTerm := true })))

/-! ### Packer -/

/-- R283: BW_OPEN. -/
def Obligations.BwOpenOpensPacker : Prop :=
  encode .bwOpen = 0x00000040 ∧
  ∀ s : State, s.err = none → s.bw.isOpen = false →
    exec .bwOpen s = .next { s with
      bw := { isOpen := true, acc := 0, nbits := 0, data := [] }, outOwned := true, ctl := .idle }

/-- R280, R282, R284: BW_WRITE: InvalidArgument(ARG0) where ARG0 > 1, with no echo; else the echo where DIAG_EN = 1,
and then the bit goes into the byte, or finishes it, or raises CapacityExceeded(0) where the buffer is full. -/
def Obligations.BwWriteAddsOneBit : Prop :=
  encode .bwWrite = 0x00000041 ∧
  ∀ s : State, s.err = none → s.bw.isOpen = true →
    (1 < s.arg0.toNat → exec .bwWrite s = .next (raiseError .invalidArgument s.arg0 s)) ∧
    (∀ (b : Bool) (d : List Byte), s.arg0 = (if b then 1 else 0) →
      d = s.diag ++ (if s.diagEn then [bitText b] else []) →
      (s.bw.nbits ≠ 7 → exec .bwWrite s = .next { s with
        diag := d
        bw := { s.bw with acc := s.bw.acc ||| ((if b then 1#8 else 0#8) <<< s.bw.nbits.val), nbits := s.bw.nbits + 1 }
        ctl := .idle }) ∧
      (s.bw.nbits = 7 → s.bw.data.length ≠ s.bwCap → exec .bwWrite s = .next { s with
        diag := d
        bw := { s.bw with acc := 0, nbits := 0, data := s.bw.data ++ [s.bw.acc ||| (if b then 0x80#8 else 0#8)] }
        ctl := .idle }) ∧
      (s.bw.nbits = 7 → s.bw.data.length = s.bwCap →
        exec .bwWrite s = .next (raiseError .capacityExceeded 0 { s with diag := d })))

/-- R281, R285: BW_CLOSE: nothing with the packer closed; else the header, the data with the partial byte, and
CLOSE; CapacityExceeded(0) where the partial byte has no room; ResourceError(1) where OUT_ERR = 1. R81, R387: at each OutWrite of
it, the first or a later one, OUT_ERR = 1 raises ResourceError(1), and the bytes already written stay (one engine
step each, log 2); with OUT_ERR = 0 the byte is appended. -/
def Obligations.BwCloseWritesStream : Prop :=
  (∀ s : State, s.err = none → s.quantum = none →
    (s.bw.isOpen = false → exec .bwClose s = .next { s with ctl := .idle }) ∧
    (s.bw.isOpen = true → s.bw.nbits ≠ 0 → s.bw.data.length = s.bwCap →
      exec .bwClose s = .next (raiseError .capacityExceeded 0 s)) ∧
    (s.bw.isOpen = true → (s.bw.nbits = 0 ∨ s.bw.data.length ≠ s.bwCap) → s.outErr = true →
      exec .bwClose s = .next (raiseError .resourceError 1 s)) ∧
    (s.bw.isOpen = true → (s.bw.nbits = 0 ∨ s.bw.data.length ≠ s.bwCap) → s.outErr = false →
      exec .bwClose s = .next { s with
        out := s.out ++ outBytes (BitVec.ofNat 8 ((8 - s.bw.nbits.val) % 8) ::
            (s.bw.data ++ if s.bw.nbits = 0 then [] else [s.bw.acc])) ++
          (if s.outOwned then [.close] else [])
        outOwned := false
        bw := { isOpen := false, acc := 0, nbits := 0, data := [] }
        result := BitVec.ofNat 32 ((8 - s.bw.nbits.val) % 8)
        ctl := .idle })) ∧
  (∀ (s : State) (b : Byte) (rest : List Byte) (h : Byte), s.ctl = .emit (b :: rest) (.bwClose h) →
    (s.outErr = true → tick s = some (raiseError .resourceError 1 s)) ∧
    (s.outErr = false → tick s = some { s with out := s.out ++ [.byte b], ctl := .emit rest (.bwClose h) }))

/-- R286: a whole packer session, BW_OPEN, a BW_WRITE for each bit and BW_CLOSE, writes exactly the packed form of
the bits and CLOSE, wherever the packer has room for them. -/
def Obligations.PackerSessionOutput : Prop :=
  ∀ (s : State) (bits : List Bool), s.err = none → s.bw.isOpen = false → s.quantum = none →
    s.outErr = false → (bits.length + 7) / 8 ≤ s.bwCap →
    ∃ h data, IsPacked bits h data ∧
      execAll ((.bwOpen, 0) :: bits.map (fun b => (.bwWrite, if b then 1 else 0)) ++ [(.bwClose, 0)]) s =
        .next { s with
          arg0 := 0
          out := s.out ++ outBytes (h :: data) ++ [.close]
          outOwned := false
          bw := { isOpen := false, acc := 0, nbits := 0, data := [] }
          diag := s.diag ++ (if s.diagEn then bits.map bitText else [])
          result := h.zeroExtend 32
          ctl := .idle }

/-- R282: the diagnostic echo never changes OUT, BW or any error: with DIAG_EN cleared and DIAG emptied, before and
after, every command does the same. -/
def Obligations.DiagEchoChangesNothingElse : Prop :=
  ∀ (s t : State) (i : Instr), exec i s = .next t →
    exec i { s with diagEn := false, diag := [] } = .next { t with diagEn := false, diag := [] }

/-! ### Unpacker -/

/-- R310, R313: BR_OPEN for every start of a session: an empty source, a header above 7, a header and no, one or
two further bytes, a failed read at each of the three InReads, and a hold at each of them. -/
def Obligations.BrOpenReadsHeaderAndWindow : Prop :=
  ∀ (s : State) (h c n : Byte) (q : List Token), s.err = none → s.br.isOpen = false → s.inDrain = false →
    s.quantum = none →
    (s.inQ = .eos :: q → exec .brOpen s = .next { s with
      inQ := q, inOwned := true, inTerm := true, result := 0xFFFFFFFF, ctl := .idle
      br := { isOpen := true, hdrEmpty := true, pad := 0, cur := none, nxt := none, pos := 0 } }) ∧
    (s.inQ = .byte h :: q → 7 < h.toNat → exec .brOpen s =
      .next (raiseError .malformedStream (h.zeroExtend 32) { s with inQ := q, inOwned := true, inTerm := false })) ∧
    (∀ pad : Fin 8, h.toNat = pad.val →
      (s.inQ = .byte h :: .eos :: q → exec .brOpen s = .next { s with
        inQ := q, inOwned := true, inTerm := true, result := h.zeroExtend 32, ctl := .idle
        br := { isOpen := true, hdrEmpty := false, pad := pad, cur := none, nxt := none, pos := 0 } }) ∧
      (s.inQ = .byte h :: .byte c :: .eos :: q → exec .brOpen s = .next { s with
        inQ := q, inOwned := true, inTerm := true, result := h.zeroExtend 32, ctl := .idle
        br := { isOpen := true, hdrEmpty := false, pad := pad, cur := some c, nxt := none, pos := 0 } }) ∧
      (s.inQ = .byte h :: .byte c :: .byte n :: q → exec .brOpen s = .next { s with
        inQ := q, inOwned := true, inTerm := false, result := h.zeroExtend 32, ctl := .idle
        br := { isOpen := true, hdrEmpty := false, pad := pad, cur := some c, nxt := some n, pos := 0 } })) ∧
    ((s.inQ = .err :: q ∨ h.toNat ≤ 7 ∧ (s.inQ = .byte h :: .err :: q ∨ s.inQ = .byte h :: .byte c :: .err :: q)) →
      exec .brOpen s = .next (raiseError .resourceError 0 { s with inQ := q, inOwned := true, inTerm := true })) ∧
    ((s.inQ = [] ∨ h.toNat ≤ 7 ∧ (s.inQ = [.byte h] ∨ s.inQ = [.byte h, .byte c])) →
      ∃ k, k ≠ .idle ∧ exec .brOpen s = .next { s with inQ := [], inOwned := true, inTerm := false, ctl := k })

/-- R311, R314: BR_HASNEXT, which changes only RESULT. -/
def Obligations.BrHasNextTellsWhetherABitRemains : Prop :=
  encode .brHasNext = 0x00000049 ∧
  ∀ s : State, s.err = none → s.br.isOpen = true →
    exec .brHasNext s = .next { s with
      result := if s.br.cur ≠ none ∧ (s.br.nxt ≠ none ∨ s.br.pos.val < 8 - s.br.pad.val) then 1 else 0
      ctl := .idle }

/-- R312, R315: BR_NEXT: Exhaustion(0) where no bit remains; else the lowest remaining bit, and after the eighth
bit of a byte the window moves on by one InRead, which past the terminator gives EOF. -/
def Obligations.BrNextTakesOneBit : Prop :=
  encode .brNext = 0x0000004A ∧
  ∀ (s : State) (c n : Byte) (q : List Token), s.err = none → s.br.isOpen = true → s.quantum = none →
    ((s.br.cur = none ∨ (s.br.nxt = none ∧ 8 - s.br.pad.val ≤ s.br.pos.val)) →
      exec .brNext s = .next (raiseError .exhaustion 0 s)) ∧
    (s.br.cur = some c → (s.br.nxt ≠ none ∨ s.br.pos.val < 8 - s.br.pad.val) →
      (s.br.pos ≠ 7 → exec .brNext s = .next { s with
        br := { s.br with pos := s.br.pos + 1 }
        result := if c.getLsbD s.br.pos.val then 1 else 0, ctl := .idle }) ∧
      (s.br.pos = 7 → s.inTerm = true → exec .brNext s = .next { s with
        br := { s.br with cur := s.br.nxt, nxt := none, pos := 0 }
        result := if c.getLsbD 7 then 1 else 0, ctl := .idle }) ∧
      (s.br.pos = 7 → s.inTerm = false → s.inQ = .byte n :: q → exec .brNext s = .next { s with
        br := { s.br with cur := s.br.nxt, nxt := some n, pos := 0 }, inQ := q
        result := if c.getLsbD 7 then 1 else 0, ctl := .idle }) ∧
      (s.br.pos = 7 → s.inTerm = false → s.inQ = .eos :: q → exec .brNext s = .next { s with
        br := { s.br with cur := s.br.nxt, nxt := none, pos := 0 }, inQ := q, inTerm := true
        result := if c.getLsbD 7 then 1 else 0, ctl := .idle }) ∧
      (s.br.pos = 7 → s.inTerm = false → s.inQ = .err :: q → exec .brNext s =
        .next (raiseError .resourceError 0 { s with inQ := q, inTerm := true })) ∧
      (s.br.pos = 7 → s.inTerm = false → s.inQ = [] → ∃ t, exec .brNext s = .next t ∧ t.busy = true ∧
        t.result = s.result ∧ t.inQ = []))

/-- R316: BR_CLOSE: nothing with the unpacker closed; else the input session is released, with a drain where its
terminator is unread, and the unpacker is closed. -/
def Obligations.BrCloseReleasesSession : Prop :=
  encode .brClose = 0x0000004B ∧
  ∀ s : State, s.err = none →
    (s.br.isOpen = false → exec .brClose s = .next { s with ctl := .idle }) ∧
    (s.br.isOpen = true → exec .brClose s = .next { s with
      br := { isOpen := false, hdrEmpty := false, pad := 0, cur := none, nxt := none, pos := 0 }
      inDrain := s.inDrain || (s.inOwned && !s.inTerm)
      inTerm := if s.inOwned then false else s.inTerm
      inOwned := false
      ctl := .idle })

/-- R317: an unpacker opened on the packed form of m bits gives each bit in turn, with BR_HASNEXT 1 before each and
0 after the last, and then BR_NEXT raises Exhaustion(0). -/
def Obligations.UnpackerReadsBackThePackedBits : Prop :=
  ∀ (s : State) (bits : List Bool) (h : Byte) (data : List Byte) (rest : List Token),
    s.err = none → s.br.isOpen = false → s.inDrain = false → s.quantum = none →
    IsPacked bits h data → s.inQ = inBytes (h :: data) ++ .eos :: rest →
    ∃ ts : Nat → State, exec .brOpen s = .next (ts 0) ∧ (ts 0).result = h.zeroExtend 32 ∧
      (∀ i b, bits[i]? = some b →
        exec .brHasNext (ts i) = .next { ts i with result := 1, ctl := .idle } ∧
        exec .brNext (ts i) = .next (ts (i + 1)) ∧ (ts (i + 1)).result = if b then 1 else 0) ∧
      exec .brHasNext (ts bits.length) = .next { ts bits.length with result := 0, ctl := .idle } ∧
      exec .brNext (ts bits.length) = .next (raiseError .exhaustion 0 (ts bits.length)) ∧
      (ts bits.length).inQ = rest

/-! ### Symbol codec -/

/-- R241, R242: ENCODE_SYMBOL: InvalidArgument(ARG0) where ARG0 > 255; MissingCode before any bit; else every bit of
the code goes to the packer, root first, with the echo, and nothing else changes but RESULT; where the packer
has no room for a finished byte CapacityExceeded(0) is raised at the bit that finishes it, which is still echoed. -/
def Obligations.EncodeSymbolWritesItsCode : Prop :=
  encode .encodeSymbol = 0x00000030 ∧
  ∀ s : State, s.err = none → s.bw.isOpen = true →
    (255 < s.arg0.toNat → exec .encodeSymbol s = .next (raiseError .invalidArgument s.arg0 s)) ∧
    (∀ v : Byte, s.arg0 = v.zeroExtend 32 → s.tree.code v = none →
      exec .encodeSymbol s = .next (raiseError .missingCode (v.zeroExtend 32) s)) ∧
    (∀ (v : Byte) (p : List Bool), s.arg0 = v.zeroExtend 32 → s.tree.code v = some p → s.bw.wf s.bwCap = true →
      ((heldBits s.bw ++ p).length / 8 ≤ s.bwCap →
        ∃ w, exec .encodeSymbol s = .next { s with
            bw := w
            diag := s.diag ++ (if s.diagEn then p.map bitText else [])
            result := BitVec.ofNat 32 p.length
            ctl := .idle } ∧
          w.isOpen = true ∧ w.wf s.bwCap = true ∧ heldBits w = heldBits s.bw ++ p) ∧
      (s.bwCap < (heldBits s.bw ++ p).length / 8 →
        exec .encodeSymbol s = .next (raiseError .capacityExceeded 0 { s with
          diag := s.diag ++ (if s.diagEn then
            (p.take (8 * (s.bwCap + 1) - (heldBits s.bw).length)).map bitText else []) })))

/-- R240, R243: DECODE_SYMBOL where the unread bits begin with the code of `v`: RESULT is `v`, exactly the code's
bits are taken, and nothing outside the unpacker and its input session changes. -/
def Obligations.DecodeSymbolTakesOneCode : Prop :=
  ∀ (s : State) (v : Byte) (p more : List Bool) (ds : List Byte) (rest : List Token),
    s.err = none → s.br.isOpen = true → s.quantum = none → s.tree.code v = some p → Window s ds rest →
    unread s ds = p ++ more →
    ∃ b q tm ds', exec .decodeSymbol s = .next { s with
        br := b, inQ := q, inTerm := tm, result := v.zeroExtend 32, ctl := .idle } ∧
      b.isOpen = true ∧ b.pad = s.br.pad ∧ ds' <:+ ds ∧ Window { s with br := b, inQ := q, inTerm := tm } ds' rest ∧
      unread { s with br := b, inQ := q, inTerm := tm } ds' = more

/-- R240, R243, R312: the errors of a decode attempt, with the length of the path as the detail of the first three:
UndefinedPath(0) with an EMPTY tree; Exhaustion where the bits end at an INTERNAL node; UndefinedPath where a bit leads to
no node, with exactly the bits up to that one taken from the window and IN; ResourceError(0) where the refill after
a bit taken at an INTERNAL node meets an ERR. -/
def Obligations.DecodeSymbolErrors : Prop :=
  ∀ s : State, s.err = none → s.br.isOpen = true → s.quantum = none →
    (s.tree = .empty → exec .decodeSymbol s = .next (raiseError .undefinedPath 0 s)) ∧
    (∀ (p : List Bool) (l r : Node) (ds : List Byte) (rest : List Token),
      Window s ds rest → s.tree.nodeAt p = .internal l r →
      (unread s ds = p → exec .decodeSymbol s = .next (raiseError .exhaustion (BitVec.ofNat 32 p.length)
        { s with inQ := rest, inTerm := true })) ∧
      (∀ b more, unread s ds = p ++ b :: more → s.tree.nodeAt (p ++ [b]) = .absent →
        ∃ u q tm ds', exec .decodeSymbol s = .next (raiseError .undefinedPath (BitVec.ofNat 32 (p.length + 1))
            { s with inQ := q, inTerm := tm }) ∧
          u.pad = s.br.pad ∧ ds' <:+ ds ∧ Window { s with br := u, inQ := q, inTerm := tm } ds' rest ∧
          unread { s with br := u, inQ := q, inTerm := tm } ds' = more)) ∧
    (∀ (c n : Byte) (more : List Byte) (rest : List Token) (p : List Bool) (b : Bool) (l r : Node),
      s.br.cur = some c → s.br.nxt = some n → s.inTerm = false → s.inQ = inBytes more ++ .err :: rest →
      ((c :: n :: more).dropLast.flatMap byteBits).drop s.br.pos.val = p ++ [b] →
      s.tree.nodeAt p = .internal l r →
      exec .decodeSymbol s = .next (raiseError .resourceError 0 { s with inQ := rest, inTerm := true }))

/-- R244, R286: COMPRESS of a byte string every byte of which has a code writes the packed form of the codes and
CLOSE; RESULT is the number of bytes written; nothing else changes but the echo. An empty string, and
any TREE for it, are included. -/
def Obligations.CompressWritesPackedCodes : Prop :=
  ∀ (s : State) (l : List Byte) (rest : List Token), Ready s → s.inDrain = false → s.outErr = false →
    s.inQ = inBytes l ++ .eos :: rest → (∀ c ∈ l, s.tree.code c ≠ none) →
    ((codeBits s.tree l).length + 7) / 8 ≤ s.bwCap →
    ∃ h data, IsPacked (codeBits s.tree l) h data ∧ exec .compress s = .next { s with
      inQ := rest, inOwned := false, inTerm := false
      out := s.out ++ outBytes (h :: data) ++ [.close]
      outOwned := false
      bw := { isOpen := false, acc := 0, nbits := 0, data := [] }
      diag := s.diag ++ (if s.diagEn then (codeBits s.tree l).map bitText else [])
      result := BitVec.ofNat 32 (1 + data.length)
      ctl := .idle }

/-- R244, R241, R280, R281, R342, D9, D37: a COMPRESS that raises lets nothing of the compressed stream reach OUT except a CLOSE, in its
first turn, however long, and in every later step, whenever the host changes OUT_ERR (its close is one engine step,
log 23); until it ends OUT is as it was. And
which error it raises, with which detail and with which bits echoed: MissingCode(c) at the first byte without a code;
ResourceError(0) at an ERR; CapacityExceeded(0) at the bit that finishes a byte the packer has no room for, or at the close
for its partial byte; ResourceError(1) at the close with OUT_ERR = 1. -/
def Obligations.FailedCompressWritesOnlyClose : Prop :=
  (∀ s t : State, s.err = none → s.bw.isOpen = false → s.br.isOpen = false → exec .compress s = .next t →
    (t.err ≠ none → t.out = s.out ++ [.close]) ∧ (t.ctl ≠ .idle → t.out = s.out)) ∧
  (∀ s t : State, s.Inv → runningCommand s.ctl = some .compress → step s = .next t → ¬hostResets s →
    (t.err ≠ none → t.out = s.out ++ [.close]) ∧ (t.ctl ≠ .idle → t.out = s.out)) ∧
  (∀ (s : State) (l : List Byte) (c : Byte) (q : List Token) (bits : List Bool), Ready s → s.inDrain = false →
    (∀ x ∈ l, s.tree.code x ≠ none) → bits = codeBits s.tree l → bits.length / 8 ≤ s.bwCap →
    (s.inQ = inBytes l ++ .byte c :: q → s.tree.code c = none →
      exec .compress s = .next (raiseError .missingCode (c.zeroExtend 32)
        { s with inQ := q, inOwned := true, inTerm := false, outOwned := true, diag := echo s bits })) ∧
    (∀ p, s.inQ = inBytes l ++ .byte c :: q → s.tree.code c = some p → s.bwCap < (bits ++ p).length / 8 →
      exec .compress s = .next (raiseError .capacityExceeded 0
        { s with inQ := q, inOwned := true, inTerm := false, outOwned := true
                 diag := echo s ((bits ++ p).take (8 * (s.bwCap + 1))) })) ∧
    (s.inQ = inBytes l ++ .err :: q →
      exec .compress s = .next (raiseError .resourceError 0
        { s with inQ := q, inOwned := true, inTerm := true, outOwned := true, diag := echo s bits })) ∧
    (s.inQ = inBytes l ++ .eos :: q → s.bwCap < (bits.length + 7) / 8 →
      exec .compress s = .next (raiseError .capacityExceeded 0
        { s with inQ := q, inOwned := true, inTerm := true, outOwned := true, diag := echo s bits })) ∧
    (s.inQ = inBytes l ++ .eos :: q → (bits.length + 7) / 8 ≤ s.bwCap → s.outErr = true →
      exec .compress s = .next (raiseError .resourceError 1
        { s with inQ := q, inOwned := true, inTerm := true, outOwned := true, diag := echo s bits })))

/-- R245, D40: DECOMPRESS of the packed form of the codes of a byte string writes the byte string and CLOSE; RESULT is
the number of symbols; nothing else changes. A source of only a header byte, 0 to 7, and an empty source are included,
with any TREE and any OUT_ERR (they write no byte). -/
def Obligations.DecompressWritesTheSymbols : Prop :=
  ∀ (s : State) (l : List Byte) (h : Byte) (data : List Byte) (rest : List Token),
    Ready s → s.inDrain = false → (∀ c ∈ l, s.tree.code c ≠ none) → (l ≠ [] → s.outErr = false) →
    (IsPacked (codeBits s.tree l) h data ∧ s.inQ = inBytes (h :: data) ++ .eos :: rest ∨
      l = [] ∧ h.toNat ≤ 7 ∧ s.inQ = .byte h :: .eos :: rest ∨ l = [] ∧ s.inQ = .eos :: rest) →
    exec .decompress s = .next { s with
      inQ := rest, inOwned := false, inTerm := false
      out := s.out ++ outBytes l ++ [.close]
      outOwned := false
      br := { isOpen := false, hdrEmpty := false, pad := 0, cur := none, nxt := none, pos := 0 }
      result := BitVec.ofNat 32 l.length
      ctl := .idle }

/-- R245, R310, R312, R240, D37: the errors of DECOMPRESS. While it opens the session, before OUT is opened: MalformedStream(h) for
a header above 7, and ResourceError(0) at each of the three reads. After the symbols `l`, whose bytes stay on OUT before the
CLOSE: Exhaustion where the bits end at an INTERNAL node; UndefinedPath where a bit leads to no node (with 0
where TREE is EMPTY); ResourceError(0) where a refill meets ERR. And ResourceError(1) where OUT_ERR = 1: at the first symbol, and, by
R81 and R387, at the OutWrite of any later one, with the bytes already written left on OUT (one engine step each, log 2);
with OUT_ERR = 0 that OutWrite appends the symbol and counts it. -/
def Obligations.DecompressErrors : Prop :=
  (∀ (s : State) (v : Byte) (n : Word), s.ctl = .putSymbol v n →
    (s.outErr = true → tick s = some (raiseError .resourceError 1 s)) ∧
    (s.outErr = false → tick s = some { s with out := s.out ++ [.byte v], ctl := .symbols (n + 1) })) ∧
  ∀ (s : State) (l : List Byte) (h c : Byte) (data : List Byte) (q rest : List Token) (p : List Bool) (a b : Node),
    Ready s → s.inDrain = false →
    (s.inQ = .byte h :: q → 7 < h.toNat → exec .decompress s =
      .next (raiseError .malformedStream (h.zeroExtend 32) { s with inQ := q, inOwned := true, inTerm := false })) ∧
    ((s.inQ = .err :: q ∨ h.toNat ≤ 7 ∧ (s.inQ = .byte h :: .err :: q ∨ s.inQ = .byte h :: .byte c :: .err :: q)) →
      exec .decompress s =
        .next (raiseError .resourceError 0 { s with inQ := q, inOwned := true, inTerm := true })) ∧
    ((∀ x ∈ l, s.tree.code x ≠ none) → s.outErr = false →
      (s.inQ = inBytes (h :: data) ++ .eos :: rest → s.tree.nodeAt p = .internal a b →
        (IsPacked (codeBits s.tree l ++ p) h data → p ≠ [] →
          exec .decompress s = .next (raiseError .exhaustion (BitVec.ofNat 32 p.length) { s with
            inQ := rest, inOwned := true, inTerm := true, outOwned := true, out := s.out ++ outBytes l })) ∧
        (∀ x more k, IsPacked (codeBits s.tree l ++ p ++ x :: more) h data → s.tree.nodeAt (p ++ [x]) = .absent →
          k = (codeBits s.tree l ++ p).length + 1 →
          exec .decompress s = .next (raiseError .undefinedPath (BitVec.ofNat 32 (p.length + 1)) { s with
            inQ := (leftAfter data rest k).1, inOwned := true, inTerm := (leftAfter data rest k).2
            outOwned := true, out := s.out ++ outBytes l }))) ∧
      (∀ x, s.inQ = inBytes (h :: data) ++ .err :: rest → h.toNat ≤ 7 → 2 ≤ data.length →
        data.dropLast.flatMap byteBits = codeBits s.tree l ++ p ++ [x] → s.tree.nodeAt p = .internal a b →
        exec .decompress s = .next (raiseError .resourceError 0 { s with
          inQ := rest, inOwned := true, inTerm := true, outOwned := true, out := s.out ++ outBytes l }))) ∧
    (s.inQ = inBytes (h :: data) ++ .eos :: rest →
      (∀ x more, s.tree = .empty → IsPacked (x :: more) h data →
        exec .decompress s = .next (raiseError .undefinedPath 0 { s with
          inQ := (leftAfter data rest 0).1, inOwned := true, inTerm := (leftAfter data rest 0).2
          outOwned := true })) ∧
      (∀ more, s.tree.code c = some p → IsPacked (p ++ more) h data → s.outErr = true →
        exec .decompress s = .next (raiseError .resourceError 1 { s with
          inQ := (leftAfter data rest p.length).1, inOwned := true, inTerm := (leftAfter data rest p.length).2
          outOwned := true })))

/-- R246: where COMPRESS of a byte string completes and writes the bytes C, DECOMPRESS of C with the same TREE, in
any state ready for it, writes the byte string back; C packs as many bits as the codes of the bytes are long. -/
def Obligations.CompressThenDecompressRoundTrip : Prop :=
  ∀ (s t u : State) (l c : List Byte) (rest rest' : List Token),
    Ready s → s.inDrain = false → s.inQ = inBytes l ++ .eos :: rest → exec .compress s = .next t →
    t.err = none → t.out = s.out ++ outBytes c ++ [.close] →
    Ready u → u.inDrain = false → u.outErr = false → u.tree = s.tree → u.inQ = inBytes c ++ .eos :: rest' →
    (∃ v, exec .decompress u = .next v ∧ v.ctl = .idle ∧ v.err = none ∧ v.inQ = rest' ∧
      v.out = u.out ++ outBytes l ++ [.close] ∧ v.result = BitVec.ofNat 32 l.length) ∧
    (∃ h data bits, c = h :: data ∧ IsPacked bits h data ∧
      bits.length = (l.map (fun x => ((s.tree.code x).getD []).length)).sum)

/-! ### Whole-machine rules -/

/-- The invariant holds after reset, and OUT, which is empty, is cut off nowhere (R391). -/
def Obligations.ResetMeetsInvariant : Prop := State.reset.Inv ∧ State.reset.outClosed

/-- Every step, the engine's or the host's, keeps the invariant: TREE meets R36, a closed packer and unpacker are
empty (R41, R45), BW.data fits BW_CAPACITY (R5), each session belongs to the unit or command that opened it
(R80, R81), a running command is the one in PENDING and runs only with ERR = 0 (R109), a decode attempt
stands at an INTERNAL node of TREE (R240), and ERR_INFO agrees with ERR and the history (R341). And with it every step keeps
that OUT ends with a CLOSE wherever no output session is open (R81, R391). -/
def Obligations.EveryStepKeepsInvariant : Prop :=
  ∀ s t : State, s.Inv → step s = .next t → t.Inv ∧ (s.outClosed → t.outClosed)

/-- R343: an error stays, with its detail, through every step but the start of CLEAR_ERROR or SOFT_RESET and the step
that is a power-on reset by the host. -/
def Obligations.ErrorStaysUntilCleared : Prop :=
  ∀ (s t : State) (e : ErrName), s.Inv → s.err = some e → step s = .next t →
    (t.err = some e ∧ t.errInfo = s.errInfo) ∨
    (t.err = none ∧ t.errInfo = 0 ∧
      ((s.ctl = .accepted ∧ (s.pending = 0x01 ∨ s.pending = 0x02)) ∨ hostResets s))

/-- R35, R36: FREQ changes only by FREQ_CLEAR, FREQ_WRITE and SOFT_RESET, TREE only by TREE_BUILD, TREE_CLEAR,
TREE_LOAD and SOFT_RESET, or by the step that is a power-on reset by the host. -/
def Obligations.OnlyTheirCommandsChangeFreqAndTree : Prop :=
  ∀ s t : State, s.Inv → step s = .next t → ¬hostResets s →
    (t.freq = s.freq ∨ (s.ctl = .accepted ∧ s.pending ∈ [0x02#32, 0x10#32, 0x11#32])) ∧
    (t.tree = s.tree ∨ (s.ctl ≠ .idle ∧ s.pending ∈ [0x02#32, 0x20#32, 0x21#32, 0x29#32]))

/-- R43, R44, R84: OUT and DIAG only grow, but for the step that is a power-on reset by the host. R341: the history of errors only grows; that it
does so over SOFT_RESET and power-on reset too is the model's choice (log 10: R341 does not say what clears it). -/
def Obligations.OutputsAndHistoryOnlyGrow : Prop :=
  ∀ s t : State, step s = .next t →
    s.errHistory <+: t.errHistory ∧ (hostResets s ∨ (s.out <+: t.out ∧ s.diag <+: t.diag))

/-- R7, R388: given its whole turn (log 1), every command ends, or stands at an InRead or InOpen with IN empty: it never
holds while there is a token to take. R391: at the end of a run of a host that keeps its duties (as log 16 reads them),
HUFFCORE owes it nothing: BUSY = 0, every output session is closed by a CLOSE, no input session is open, and where the last
command completed in its turn RESULT is as the rule of that command gives it, after whatever such a host does
between that and the end of the run without a further command or a power-on reset (a WAIT of R107 among it). -/
def Obligations.CommandsEndOrWaitForInput : Prop :=
  (∀ (s : State) (i : Instr), s.quantum = none →
    ∃ t, exec i s = .next t ∧ (t.ctl = .idle ∨ (t.inQ = [] ∧ tick t = none))) ∧
  (∀ s t : State, DutifulRun s t → s.Inv → s.outClosed → t.hostDone = true → t.owesNothing = true) ∧
  (∀ (s t u : State) (i : Instr), s.Inv → s.outClosed → s.ctl = .accepted → s.quantum = none →
    exec i s = .next t → t.ctl = .idle → QuietRun t u → u.hostDone = true →
    Delivered i s u ∧ u.result = t.result ∧ u.err = t.err ∧ (t.err = none → ResultRule i s t))

/-- R385, R392: when tokens are pushed does not matter. What a command does with tokens pushed before it starts, it
does where they come while it holds and the engine then moves on. -/
def Obligations.LatePushesMakeNoDifference : Prop :=
  ∀ (s t : State) (i : Instr) (ts : List Token), s.quantum = none → exec i s = .next t →
    exec i (pushTokens ts s) = .next (advance (pushTokens ts t))

/-- R392: how the engine's steps are cut into turns makes no difference. A command cut short after any number of
engine steps and then given a whole turn does what it does in one turn (turns are the model's own, log 1). -/
def Obligations.CutTurnsMakeNoDifference : Prop :=
  ∀ (s t : State) (i : Instr) (n : Nat), exec i { s with quantum := some n } = .next t →
    exec i { s with quantum := none } = .next (advance { t with quantum := none })

/-- R42, R80: an idle engine (with no schedule left, log 1) drains an abandoned session token by token through its
terminator and stops there; a command at InOpen starts as if the rest of that session had never been in IN. -/
def Obligations.DrainDiscardsTheAbandonedSession : Prop :=
  ∀ (s : State) (l : List Byte) (e : Token) (rest : List Token), s.inDrain = true → (e = .eos ∨ e = .err) →
    s.inQ = inBytes l ++ e :: rest →
    (s.ctl = .idle → s.turns = [] →
      Sys2Proof.core.run (l.length + 1) s = .next { s with inQ := rest, inDrain := false, quantum := none }) ∧
    (∀ i ∈ [Instr.treeLoad, .compress, .brOpen, .decompress], Ready s →
      exec i s = exec i { s with inQ := rest, inDrain := false })
end

