-- ==== Sys2Proof/Laws/Contract.lean ====
section
/-! SUPPORT. What the notions of Machine/Contract.lean say, in the forms proofs use them: the step that is a host line, runs of a
dutiful host, the session at the head of IN, and OUT after a CLOSE. -/

namespace Sys2Proof.Machine

/-- A step that takes a host line is that line, with the turn off the schedule (70_reset_and_hazards.md R392, log 1). -/
theorem step_hostLineTaken {s : State} {l : HostLine} (h : s.hostLineTaken = some l) :
    step s = hostLine l { s with turns := s.turns.tail } := by
  unfold State.hostLineTaken at h
  unfold step stepTurn
  rcases ht : s.turns with _ | ⟨t, ts⟩
  · rw [ht] at h
    have hs : { s with turns := [] } = s := by rw [← ht]
    cases hr : engineReady s
    · simp only [hr, Bool.false_eq_true, if_false] at h
      simp [hostStep, h, hs]
    · simp [hr] at h
  · rw [ht] at h
    cases t
    · simp only at h
      simp [hostStep, h]
    · simp at h

/-- What every step keeps holds at the end of a run of a dutiful host where it holds at its start. -/
theorem DutifulRun.keeps {P : State → Prop} (hP : ∀ s t, P s → step s = .next t → P t) {s t : State}
    (run : DutifulRun s t) (h : P s) : P t := by
  induction run with
  | refl => exact h
  | tail _ _ next ih => exact hP _ _ ih next

/-- A quiet run is a run of a dutiful host. -/
theorem QuietRun.dutifulRun {s t : State} (run : QuietRun s t) : DutifulRun s t := by
  induction run with
  | refl => exact .refl _
  | tail _ duty _ next _ ih => exact .tail ih duty next

/-- A quiet run that starts with no command in progress ends so. -/
theorem QuietRun.idle {s t : State} (run : QuietRun s t) (h : s.ctl = .idle) : t.ctl = .idle := by
  cases run with
  | refl => exact h
  | tail _ _ _ _ idle => exact idle

/-- What every step from a state with no command in progress keeps, but a power-on reset, holds at the end of a quiet run. -/
theorem QuietRun.keeps {P : State → Prop}
    (hP : ∀ s t, P s → s.ctl = .idle → s.hostLineTaken ≠ some .powerOnReset → step s = .next t → P t) {s t : State}
    (run : QuietRun s t) (hi : s.ctl = .idle) (h : P s) : P t := by
  induction run with
  | refl => exact h
  | tail run _ noReset next _ ih => exact hP _ _ ih (run.idle hi) noReset next

/-- A defined access reaches a register (20_memory.md R71, R73). -/
theorem accessReg_of_accessDefined {a n : Nat} (h : accessDefined a n = true) : ∃ r, accessReg a n = some r := by
  simp [accessDefined, Config.lastOffset] at h
  obtain ⟨⟨rfl, h4⟩, ha⟩ := h
  have hl : a / 4 < windowRegs.length := by have := of_decide_eq_true ha; change a / 4 < 16; omega
  exact ⟨windowRegs[a / 4], by simp [accessReg, h4, List.getElem?_eq_getElem hl]⟩

@[simp] theorem sessionBytes_append_eos (l : List Byte) (q : List Token) :
    sessionBytes (l.map .byte ++ .eos :: q) = l := by
  induction l with
  | nil => rfl
  | cons b l ih => simpa [sessionBytes] using ih

@[simp] theorem sessionBytes_append_err (l : List Byte) (q : List Token) :
    sessionBytes (l.map .byte ++ .err :: q) = l := by
  induction l with
  | nil => rfl
  | cons b l ih => simpa [sessionBytes] using ih

@[simp] theorem endsClosed_append_close (out : List OutToken) : endsClosed (out ++ [.close]) = true := by
  simp [endsClosed]

@[simp] theorem endsClosed_nil : endsClosed [] = true := rfl

end Sys2Proof.Machine
end

