-- ==== Sys2Proof/Laws/State.lean ====
section
/-! SUPPORT. One lemma per field of State for each named update of Machine/Ops.lean, so that no later proof unfolds
a record update; for error entry and abort, also the whole state they leave in closed form. -/

namespace Sys2Proof.Machine

/-! ### `endCommand` -/

section
variable (s : State)

@[simp] theorem endCommand_diagEn : (endCommand s).diagEn = s.diagEn := rfl
@[simp] theorem endCommand_err : (endCommand s).err = s.err := rfl
@[simp] theorem endCommand_wrIgnored : (endCommand s).wrIgnored = s.wrIgnored := rfl
@[simp] theorem endCommand_arg0 : (endCommand s).arg0 = s.arg0 := rfl
@[simp] theorem endCommand_arg1 : (endCommand s).arg1 = s.arg1 := rfl
@[simp] theorem endCommand_result : (endCommand s).result = s.result := rfl
@[simp] theorem endCommand_errInfo : (endCommand s).errInfo = s.errInfo := rfl
@[simp] theorem endCommand_freq : (endCommand s).freq = s.freq := rfl
@[simp] theorem endCommand_tree : (endCommand s).tree = s.tree := rfl
@[simp] theorem endCommand_bw : (endCommand s).bw = s.bw := rfl
@[simp] theorem endCommand_br : (endCommand s).br = s.br := rfl
@[simp] theorem endCommand_inQ : (endCommand s).inQ = s.inQ := rfl
@[simp] theorem endCommand_inOwned : (endCommand s).inOwned = s.inOwned := rfl
@[simp] theorem endCommand_inTerm : (endCommand s).inTerm = s.inTerm := rfl
@[simp] theorem endCommand_inDrain : (endCommand s).inDrain = s.inDrain := rfl
@[simp] theorem endCommand_out : (endCommand s).out = s.out := rfl
@[simp] theorem endCommand_outOwned : (endCommand s).outOwned = s.outOwned := rfl
@[simp] theorem endCommand_outErr : (endCommand s).outErr = s.outErr := rfl
@[simp] theorem endCommand_diag : (endCommand s).diag = s.diag := rfl
@[simp] theorem endCommand_pending : (endCommand s).pending = s.pending := rfl
@[simp] theorem endCommand_ctl : (endCommand s).ctl = .idle := rfl
@[simp] theorem endCommand_errHistory : (endCommand s).errHistory = s.errHistory := rfl
@[simp] theorem endCommand_bwCap : (endCommand s).bwCap = s.bwCap := rfl
@[simp] theorem endCommand_draws : (endCommand s).draws = s.draws := rfl
@[simp] theorem endCommand_host : (endCommand s).host = s.host := rfl
@[simp] theorem endCommand_turns : (endCommand s).turns = s.turns := rfl
@[simp] theorem endCommand_quantum : (endCommand s).quantum = s.quantum := rfl

end

/-! ### `complete` -/

section
variable (v : Word) (s : State)

@[simp] theorem complete_diagEn : (complete v s).diagEn = s.diagEn := rfl
@[simp] theorem complete_err : (complete v s).err = s.err := rfl
@[simp] theorem complete_wrIgnored : (complete v s).wrIgnored = s.wrIgnored := rfl
@[simp] theorem complete_arg0 : (complete v s).arg0 = s.arg0 := rfl
@[simp] theorem complete_arg1 : (complete v s).arg1 = s.arg1 := rfl
@[simp] theorem complete_result : (complete v s).result = v := rfl
@[simp] theorem complete_errInfo : (complete v s).errInfo = s.errInfo := rfl
@[simp] theorem complete_freq : (complete v s).freq = s.freq := rfl
@[simp] theorem complete_tree : (complete v s).tree = s.tree := rfl
@[simp] theorem complete_bw : (complete v s).bw = s.bw := rfl
@[simp] theorem complete_br : (complete v s).br = s.br := rfl
@[simp] theorem complete_inQ : (complete v s).inQ = s.inQ := rfl
@[simp] theorem complete_inOwned : (complete v s).inOwned = s.inOwned := rfl
@[simp] theorem complete_inTerm : (complete v s).inTerm = s.inTerm := rfl
@[simp] theorem complete_inDrain : (complete v s).inDrain = s.inDrain := rfl
@[simp] theorem complete_out : (complete v s).out = s.out := rfl
@[simp] theorem complete_outOwned : (complete v s).outOwned = s.outOwned := rfl
@[simp] theorem complete_outErr : (complete v s).outErr = s.outErr := rfl
@[simp] theorem complete_diag : (complete v s).diag = s.diag := rfl
@[simp] theorem complete_pending : (complete v s).pending = s.pending := rfl
@[simp] theorem complete_ctl : (complete v s).ctl = .idle := rfl
@[simp] theorem complete_errHistory : (complete v s).errHistory = s.errHistory := rfl
@[simp] theorem complete_bwCap : (complete v s).bwCap = s.bwCap := rfl
@[simp] theorem complete_draws : (complete v s).draws = s.draws := rfl
@[simp] theorem complete_host : (complete v s).host = s.host := rfl
@[simp] theorem complete_turns : (complete v s).turns = s.turns := rfl
@[simp] theorem complete_quantum : (complete v s).quantum = s.quantum := rfl

end

/-! ### `inOpen` -/

section
variable (s : State)

@[simp] theorem inOpen_diagEn : (inOpen s).diagEn = s.diagEn := rfl
@[simp] theorem inOpen_err : (inOpen s).err = s.err := rfl
@[simp] theorem inOpen_wrIgnored : (inOpen s).wrIgnored = s.wrIgnored := rfl
@[simp] theorem inOpen_arg0 : (inOpen s).arg0 = s.arg0 := rfl
@[simp] theorem inOpen_arg1 : (inOpen s).arg1 = s.arg1 := rfl
@[simp] theorem inOpen_result : (inOpen s).result = s.result := rfl
@[simp] theorem inOpen_errInfo : (inOpen s).errInfo = s.errInfo := rfl
@[simp] theorem inOpen_freq : (inOpen s).freq = s.freq := rfl
@[simp] theorem inOpen_tree : (inOpen s).tree = s.tree := rfl
@[simp] theorem inOpen_bw : (inOpen s).bw = s.bw := rfl
@[simp] theorem inOpen_br : (inOpen s).br = s.br := rfl
@[simp] theorem inOpen_inQ : (inOpen s).inQ = s.inQ := rfl
@[simp] theorem inOpen_inOwned : (inOpen s).inOwned = true := rfl
@[simp] theorem inOpen_inTerm : (inOpen s).inTerm = false := rfl
@[simp] theorem inOpen_inDrain : (inOpen s).inDrain = s.inDrain := rfl
@[simp] theorem inOpen_out : (inOpen s).out = s.out := rfl
@[simp] theorem inOpen_outOwned : (inOpen s).outOwned = s.outOwned := rfl
@[simp] theorem inOpen_outErr : (inOpen s).outErr = s.outErr := rfl
@[simp] theorem inOpen_diag : (inOpen s).diag = s.diag := rfl
@[simp] theorem inOpen_pending : (inOpen s).pending = s.pending := rfl
@[simp] theorem inOpen_ctl : (inOpen s).ctl = s.ctl := rfl
@[simp] theorem inOpen_errHistory : (inOpen s).errHistory = s.errHistory := rfl
@[simp] theorem inOpen_bwCap : (inOpen s).bwCap = s.bwCap := rfl
@[simp] theorem inOpen_draws : (inOpen s).draws = s.draws := rfl
@[simp] theorem inOpen_host : (inOpen s).host = s.host := rfl
@[simp] theorem inOpen_turns : (inOpen s).turns = s.turns := rfl
@[simp] theorem inOpen_quantum : (inOpen s).quantum = s.quantum := rfl

end

/-! ### `outOpen` -/

section
variable (s : State)

@[simp] theorem outOpen_diagEn : (outOpen s).diagEn = s.diagEn := rfl
@[simp] theorem outOpen_err : (outOpen s).err = s.err := rfl
@[simp] theorem outOpen_wrIgnored : (outOpen s).wrIgnored = s.wrIgnored := rfl
@[simp] theorem outOpen_arg0 : (outOpen s).arg0 = s.arg0 := rfl
@[simp] theorem outOpen_arg1 : (outOpen s).arg1 = s.arg1 := rfl
@[simp] theorem outOpen_result : (outOpen s).result = s.result := rfl
@[simp] theorem outOpen_errInfo : (outOpen s).errInfo = s.errInfo := rfl
@[simp] theorem outOpen_freq : (outOpen s).freq = s.freq := rfl
@[simp] theorem outOpen_tree : (outOpen s).tree = s.tree := rfl
@[simp] theorem outOpen_bw : (outOpen s).bw = s.bw := rfl
@[simp] theorem outOpen_br : (outOpen s).br = s.br := rfl
@[simp] theorem outOpen_inQ : (outOpen s).inQ = s.inQ := rfl
@[simp] theorem outOpen_inOwned : (outOpen s).inOwned = s.inOwned := rfl
@[simp] theorem outOpen_inTerm : (outOpen s).inTerm = s.inTerm := rfl
@[simp] theorem outOpen_inDrain : (outOpen s).inDrain = s.inDrain := rfl
@[simp] theorem outOpen_out : (outOpen s).out = s.out := rfl
@[simp] theorem outOpen_outOwned : (outOpen s).outOwned = true := rfl
@[simp] theorem outOpen_outErr : (outOpen s).outErr = s.outErr := rfl
@[simp] theorem outOpen_diag : (outOpen s).diag = s.diag := rfl
@[simp] theorem outOpen_pending : (outOpen s).pending = s.pending := rfl
@[simp] theorem outOpen_ctl : (outOpen s).ctl = s.ctl := rfl
@[simp] theorem outOpen_errHistory : (outOpen s).errHistory = s.errHistory := rfl
@[simp] theorem outOpen_bwCap : (outOpen s).bwCap = s.bwCap := rfl
@[simp] theorem outOpen_draws : (outOpen s).draws = s.draws := rfl
@[simp] theorem outOpen_host : (outOpen s).host = s.host := rfl
@[simp] theorem outOpen_turns : (outOpen s).turns = s.turns := rfl
@[simp] theorem outOpen_quantum : (outOpen s).quantum = s.quantum := rfl

end

/-! ### `outAppend` -/

section
variable (b : Byte) (s : State)

@[simp] theorem outAppend_diagEn : (outAppend b s).diagEn = s.diagEn := rfl
@[simp] theorem outAppend_err : (outAppend b s).err = s.err := rfl
@[simp] theorem outAppend_wrIgnored : (outAppend b s).wrIgnored = s.wrIgnored := rfl
@[simp] theorem outAppend_arg0 : (outAppend b s).arg0 = s.arg0 := rfl
@[simp] theorem outAppend_arg1 : (outAppend b s).arg1 = s.arg1 := rfl
@[simp] theorem outAppend_result : (outAppend b s).result = s.result := rfl
@[simp] theorem outAppend_errInfo : (outAppend b s).errInfo = s.errInfo := rfl
@[simp] theorem outAppend_freq : (outAppend b s).freq = s.freq := rfl
@[simp] theorem outAppend_tree : (outAppend b s).tree = s.tree := rfl
@[simp] theorem outAppend_bw : (outAppend b s).bw = s.bw := rfl
@[simp] theorem outAppend_br : (outAppend b s).br = s.br := rfl
@[simp] theorem outAppend_inQ : (outAppend b s).inQ = s.inQ := rfl
@[simp] theorem outAppend_inOwned : (outAppend b s).inOwned = s.inOwned := rfl
@[simp] theorem outAppend_inTerm : (outAppend b s).inTerm = s.inTerm := rfl
@[simp] theorem outAppend_inDrain : (outAppend b s).inDrain = s.inDrain := rfl
@[simp] theorem outAppend_out : (outAppend b s).out = s.out ++ [.byte b] := rfl
@[simp] theorem outAppend_outOwned : (outAppend b s).outOwned = s.outOwned := rfl
@[simp] theorem outAppend_outErr : (outAppend b s).outErr = s.outErr := rfl
@[simp] theorem outAppend_diag : (outAppend b s).diag = s.diag := rfl
@[simp] theorem outAppend_pending : (outAppend b s).pending = s.pending := rfl
@[simp] theorem outAppend_ctl : (outAppend b s).ctl = s.ctl := rfl
@[simp] theorem outAppend_errHistory : (outAppend b s).errHistory = s.errHistory := rfl
@[simp] theorem outAppend_bwCap : (outAppend b s).bwCap = s.bwCap := rfl
@[simp] theorem outAppend_draws : (outAppend b s).draws = s.draws := rfl
@[simp] theorem outAppend_host : (outAppend b s).host = s.host := rfl
@[simp] theorem outAppend_turns : (outAppend b s).turns = s.turns := rfl
@[simp] theorem outAppend_quantum : (outAppend b s).quantum = s.quantum := rfl

end

/-! ### `diagWrite` -/

section
variable (c : Byte) (s : State)

@[simp] theorem diagWrite_diagEn : (diagWrite c s).diagEn = s.diagEn := rfl
@[simp] theorem diagWrite_err : (diagWrite c s).err = s.err := rfl
@[simp] theorem diagWrite_wrIgnored : (diagWrite c s).wrIgnored = s.wrIgnored := rfl
@[simp] theorem diagWrite_arg0 : (diagWrite c s).arg0 = s.arg0 := rfl
@[simp] theorem diagWrite_arg1 : (diagWrite c s).arg1 = s.arg1 := rfl
@[simp] theorem diagWrite_result : (diagWrite c s).result = s.result := rfl
@[simp] theorem diagWrite_errInfo : (diagWrite c s).errInfo = s.errInfo := rfl
@[simp] theorem diagWrite_freq : (diagWrite c s).freq = s.freq := rfl
@[simp] theorem diagWrite_tree : (diagWrite c s).tree = s.tree := rfl
@[simp] theorem diagWrite_bw : (diagWrite c s).bw = s.bw := rfl
@[simp] theorem diagWrite_br : (diagWrite c s).br = s.br := rfl
@[simp] theorem diagWrite_inQ : (diagWrite c s).inQ = s.inQ := rfl
@[simp] theorem diagWrite_inOwned : (diagWrite c s).inOwned = s.inOwned := rfl
@[simp] theorem diagWrite_inTerm : (diagWrite c s).inTerm = s.inTerm := rfl
@[simp] theorem diagWrite_inDrain : (diagWrite c s).inDrain = s.inDrain := rfl
@[simp] theorem diagWrite_out : (diagWrite c s).out = s.out := rfl
@[simp] theorem diagWrite_outOwned : (diagWrite c s).outOwned = s.outOwned := rfl
@[simp] theorem diagWrite_outErr : (diagWrite c s).outErr = s.outErr := rfl
@[simp] theorem diagWrite_diag : (diagWrite c s).diag = s.diag ++ [c] := rfl
@[simp] theorem diagWrite_pending : (diagWrite c s).pending = s.pending := rfl
@[simp] theorem diagWrite_ctl : (diagWrite c s).ctl = s.ctl := rfl
@[simp] theorem diagWrite_errHistory : (diagWrite c s).errHistory = s.errHistory := rfl
@[simp] theorem diagWrite_bwCap : (diagWrite c s).bwCap = s.bwCap := rfl
@[simp] theorem diagWrite_draws : (diagWrite c s).draws = s.draws := rfl
@[simp] theorem diagWrite_host : (diagWrite c s).host = s.host := rfl
@[simp] theorem diagWrite_turns : (diagWrite c s).turns = s.turns := rfl
@[simp] theorem diagWrite_quantum : (diagWrite c s).quantum = s.quantum := rfl

end

/-! ### `inRelease` -/

section
variable (s : State)

@[simp] theorem inRelease_diagEn : (inRelease s).diagEn = s.diagEn := by unfold inRelease; split <;> rfl
@[simp] theorem inRelease_err : (inRelease s).err = s.err := by unfold inRelease; split <;> rfl
@[simp] theorem inRelease_wrIgnored : (inRelease s).wrIgnored = s.wrIgnored := by unfold inRelease; split <;> rfl
@[simp] theorem inRelease_arg0 : (inRelease s).arg0 = s.arg0 := by unfold inRelease; split <;> rfl
@[simp] theorem inRelease_arg1 : (inRelease s).arg1 = s.arg1 := by unfold inRelease; split <;> rfl
@[simp] theorem inRelease_result : (inRelease s).result = s.result := by unfold inRelease; split <;> rfl
@[simp] theorem inRelease_errInfo : (inRelease s).errInfo = s.errInfo := by unfold inRelease; split <;> rfl
@[simp] theorem inRelease_freq : (inRelease s).freq = s.freq := by unfold inRelease; split <;> rfl
@[simp] theorem inRelease_tree : (inRelease s).tree = s.tree := by unfold inRelease; split <;> rfl
@[simp] theorem inRelease_bw : (inRelease s).bw = s.bw := by unfold inRelease; split <;> rfl
@[simp] theorem inRelease_br : (inRelease s).br = s.br := by unfold inRelease; split <;> rfl
@[simp] theorem inRelease_inQ : (inRelease s).inQ = s.inQ := by unfold inRelease; split <;> rfl
@[simp] theorem inRelease_inOwned : (inRelease s).inOwned = false := by unfold inRelease; cases h : s.inOwned <;> simp [h]
@[simp] theorem inRelease_inTerm : (inRelease s).inTerm = (!s.inOwned && s.inTerm) := by unfold inRelease; cases h : s.inOwned <;> simp [h]
@[simp] theorem inRelease_inDrain : (inRelease s).inDrain = (s.inDrain || (s.inOwned && !s.inTerm)) := by unfold inRelease; cases h : s.inOwned <;> simp [h]
@[simp] theorem inRelease_out : (inRelease s).out = s.out := by unfold inRelease; split <;> rfl
@[simp] theorem inRelease_outOwned : (inRelease s).outOwned = s.outOwned := by unfold inRelease; split <;> rfl
@[simp] theorem inRelease_outErr : (inRelease s).outErr = s.outErr := by unfold inRelease; split <;> rfl
@[simp] theorem inRelease_diag : (inRelease s).diag = s.diag := by unfold inRelease; split <;> rfl
@[simp] theorem inRelease_pending : (inRelease s).pending = s.pending := by unfold inRelease; split <;> rfl
@[simp] theorem inRelease_ctl : (inRelease s).ctl = s.ctl := by unfold inRelease; split <;> rfl
@[simp] theorem inRelease_errHistory : (inRelease s).errHistory = s.errHistory := by unfold inRelease; split <;> rfl
@[simp] theorem inRelease_bwCap : (inRelease s).bwCap = s.bwCap := by unfold inRelease; split <;> rfl
@[simp] theorem inRelease_draws : (inRelease s).draws = s.draws := by unfold inRelease; split <;> rfl
@[simp] theorem inRelease_host : (inRelease s).host = s.host := by unfold inRelease; split <;> rfl
@[simp] theorem inRelease_turns : (inRelease s).turns = s.turns := by unfold inRelease; split <;> rfl
@[simp] theorem inRelease_quantum : (inRelease s).quantum = s.quantum := by unfold inRelease; split <;> rfl

end

/-! ### `outClose` -/

section
variable (s : State)

@[simp] theorem outClose_diagEn : (outClose s).diagEn = s.diagEn := by unfold outClose; split <;> rfl
@[simp] theorem outClose_err : (outClose s).err = s.err := by unfold outClose; split <;> rfl
@[simp] theorem outClose_wrIgnored : (outClose s).wrIgnored = s.wrIgnored := by unfold outClose; split <;> rfl
@[simp] theorem outClose_arg0 : (outClose s).arg0 = s.arg0 := by unfold outClose; split <;> rfl
@[simp] theorem outClose_arg1 : (outClose s).arg1 = s.arg1 := by unfold outClose; split <;> rfl
@[simp] theorem outClose_result : (outClose s).result = s.result := by unfold outClose; split <;> rfl
@[simp] theorem outClose_errInfo : (outClose s).errInfo = s.errInfo := by unfold outClose; split <;> rfl
@[simp] theorem outClose_freq : (outClose s).freq = s.freq := by unfold outClose; split <;> rfl
@[simp] theorem outClose_tree : (outClose s).tree = s.tree := by unfold outClose; split <;> rfl
@[simp] theorem outClose_bw : (outClose s).bw = s.bw := by unfold outClose; split <;> rfl
@[simp] theorem outClose_br : (outClose s).br = s.br := by unfold outClose; split <;> rfl
@[simp] theorem outClose_inQ : (outClose s).inQ = s.inQ := by unfold outClose; split <;> rfl
@[simp] theorem outClose_inOwned : (outClose s).inOwned = s.inOwned := by unfold outClose; split <;> rfl
@[simp] theorem outClose_inTerm : (outClose s).inTerm = s.inTerm := by unfold outClose; split <;> rfl
@[simp] theorem outClose_inDrain : (outClose s).inDrain = s.inDrain := by unfold outClose; split <;> rfl
@[simp] theorem outClose_out : (outClose s).out = s.out ++ (if s.outOwned then [.close] else []) := by unfold outClose; cases h : s.outOwned <;> simp [h]
@[simp] theorem outClose_outOwned : (outClose s).outOwned = false := by unfold outClose; cases h : s.outOwned <;> simp [h]
@[simp] theorem outClose_outErr : (outClose s).outErr = s.outErr := by unfold outClose; split <;> rfl
@[simp] theorem outClose_diag : (outClose s).diag = s.diag := by unfold outClose; split <;> rfl
@[simp] theorem outClose_pending : (outClose s).pending = s.pending := by unfold outClose; split <;> rfl
@[simp] theorem outClose_ctl : (outClose s).ctl = s.ctl := by unfold outClose; split <;> rfl
@[simp] theorem outClose_errHistory : (outClose s).errHistory = s.errHistory := by unfold outClose; split <;> rfl
@[simp] theorem outClose_bwCap : (outClose s).bwCap = s.bwCap := by unfold outClose; split <;> rfl
@[simp] theorem outClose_draws : (outClose s).draws = s.draws := by unfold outClose; split <;> rfl
@[simp] theorem outClose_host : (outClose s).host = s.host := by unfold outClose; split <;> rfl
@[simp] theorem outClose_turns : (outClose s).turns = s.turns := by unfold outClose; split <;> rfl
@[simp] theorem outClose_quantum : (outClose s).quantum = s.quantum := by unfold outClose; split <;> rfl

end

/-! ### `abort` -/

section
variable (s : State)

@[simp] theorem abort_diagEn : (abort s).diagEn = s.diagEn := by simp [abort]
@[simp] theorem abort_err : (abort s).err = s.err := by simp [abort]
@[simp] theorem abort_wrIgnored : (abort s).wrIgnored = s.wrIgnored := by simp [abort]
@[simp] theorem abort_arg0 : (abort s).arg0 = s.arg0 := by simp [abort]
@[simp] theorem abort_arg1 : (abort s).arg1 = s.arg1 := by simp [abort]
@[simp] theorem abort_result : (abort s).result = s.result := by simp [abort]
@[simp] theorem abort_errInfo : (abort s).errInfo = s.errInfo := by simp [abort]
@[simp] theorem abort_freq : (abort s).freq = s.freq := by simp [abort]
@[simp] theorem abort_tree : (abort s).tree = s.tree := by simp [abort]
@[simp] theorem abort_bw : (abort s).bw = .closed := by simp [abort]
@[simp] theorem abort_br : (abort s).br = .closed := by simp [abort]
@[simp] theorem abort_inQ : (abort s).inQ = s.inQ := by simp [abort]
@[simp] theorem abort_inOwned : (abort s).inOwned = false := by simp [abort]
@[simp] theorem abort_inTerm : (abort s).inTerm = (!s.inOwned && s.inTerm) := by simp [abort]
@[simp] theorem abort_inDrain : (abort s).inDrain = (s.inDrain || (s.inOwned && !s.inTerm)) := by simp [abort]
@[simp] theorem abort_out : (abort s).out = s.out ++ (if s.outOwned then [.close] else []) := by simp [abort]
@[simp] theorem abort_outOwned : (abort s).outOwned = false := by simp [abort]
@[simp] theorem abort_outErr : (abort s).outErr = s.outErr := by simp [abort]
@[simp] theorem abort_diag : (abort s).diag = s.diag := by simp [abort]
@[simp] theorem abort_pending : (abort s).pending = s.pending := by simp [abort]
@[simp] theorem abort_ctl : (abort s).ctl = s.ctl := by simp [abort]
@[simp] theorem abort_errHistory : (abort s).errHistory = s.errHistory := by simp [abort]
@[simp] theorem abort_bwCap : (abort s).bwCap = s.bwCap := by simp [abort]
@[simp] theorem abort_draws : (abort s).draws = s.draws := by simp [abort]
@[simp] theorem abort_host : (abort s).host = s.host := by simp [abort]
@[simp] theorem abort_turns : (abort s).turns = s.turns := by simp [abort]
@[simp] theorem abort_quantum : (abort s).quantum = s.quantum := by simp [abort]

end

/-! ### `raiseError` -/

section
variable (e : ErrName) (info : Word) (s : State)

@[simp] theorem raiseError_diagEn : (raiseError e info s).diagEn = s.diagEn := by simp [raiseError]
@[simp] theorem raiseError_err : (raiseError e info s).err = some e := by simp [raiseError]
@[simp] theorem raiseError_wrIgnored : (raiseError e info s).wrIgnored = s.wrIgnored := by simp [raiseError]
@[simp] theorem raiseError_arg0 : (raiseError e info s).arg0 = s.arg0 := by simp [raiseError]
@[simp] theorem raiseError_arg1 : (raiseError e info s).arg1 = s.arg1 := by simp [raiseError]
@[simp] theorem raiseError_result : (raiseError e info s).result = s.result := by simp [raiseError]
@[simp] theorem raiseError_errInfo : (raiseError e info s).errInfo = info := by simp [raiseError]
@[simp] theorem raiseError_freq : (raiseError e info s).freq = s.freq := by simp [raiseError]
@[simp] theorem raiseError_tree : (raiseError e info s).tree = s.tree := by simp [raiseError]
@[simp] theorem raiseError_bw : (raiseError e info s).bw = .closed := by simp [raiseError]
@[simp] theorem raiseError_br : (raiseError e info s).br = .closed := by simp [raiseError]
@[simp] theorem raiseError_inQ : (raiseError e info s).inQ = s.inQ := by simp [raiseError]
@[simp] theorem raiseError_inOwned : (raiseError e info s).inOwned = false := by simp [raiseError]
@[simp] theorem raiseError_inTerm : (raiseError e info s).inTerm = (!s.inOwned && s.inTerm) := by simp [raiseError]
@[simp] theorem raiseError_inDrain : (raiseError e info s).inDrain = (s.inDrain || (s.inOwned && !s.inTerm)) := by simp [raiseError]
@[simp] theorem raiseError_out : (raiseError e info s).out = s.out ++ (if s.outOwned then [.close] else []) := by simp [raiseError]
@[simp] theorem raiseError_outOwned : (raiseError e info s).outOwned = false := by simp [raiseError]
@[simp] theorem raiseError_outErr : (raiseError e info s).outErr = s.outErr := by simp [raiseError]
@[simp] theorem raiseError_diag : (raiseError e info s).diag = s.diag := by simp [raiseError]
@[simp] theorem raiseError_pending : (raiseError e info s).pending = s.pending := by simp [raiseError]
@[simp] theorem raiseError_ctl : (raiseError e info s).ctl = .idle := by simp [raiseError]
@[simp] theorem raiseError_errHistory : (raiseError e info s).errHistory = s.errHistory ++ [⟨e, info⟩] := by simp [raiseError]
@[simp] theorem raiseError_bwCap : (raiseError e info s).bwCap = s.bwCap := by simp [raiseError]
@[simp] theorem raiseError_draws : (raiseError e info s).draws = s.draws := by simp [raiseError]
@[simp] theorem raiseError_host : (raiseError e info s).host = s.host := by simp [raiseError]
@[simp] theorem raiseError_turns : (raiseError e info s).turns = s.turns := by simp [raiseError]
@[simp] theorem raiseError_quantum : (raiseError e info s).quantum = s.quantum := by simp [raiseError]

end

/-- What error entry leaves, in closed form (60_exceptions.md R341, R342). -/
theorem raiseError_closed_form (e : ErrName) (info : Word) (s : State) :
    raiseError e info s =
      { s with
        err := some e
        errInfo := info
        errHistory := s.errHistory ++ [⟨e, info⟩]
        ctl := .idle
        bw := .closed
        br := .closed
        out := s.out ++ (if s.outOwned then [.close] else [])
        outOwned := false
        inDrain := s.inDrain || (s.inOwned && !s.inTerm)
        inOwned := false
        inTerm := !s.inOwned && s.inTerm } := by
  cases s; simp only [raiseError, abort, inRelease, outClose]
  split <;> split <;> simp_all

end Sys2Proof.Machine
end

