-- ==== Sys2Proof/Laws/Ops.lean ====
section
/-! SUPPORT. What each shared operation of Machine/Ops.lean and Machine/Packer.lean can do, said once. -/

namespace Sys2Proof.Machine

/-- InRead: it holds on an empty IN, gives EOF past the terminator, or takes the head of IN (20_memory.md R79). -/
theorem inRead_cases (s : State) :
    (inRead s = .hold ∧ s.inTerm = false ∧ s.inQ = []) ∨
    (inRead s = .eof s ∧ s.inTerm = true) ∨
    (∃ b q, inRead s = .byte b { s with inQ := q } ∧ s.inTerm = false ∧ s.inQ = .byte b :: q) ∨
    (∃ q, inRead s = .eof { s with inQ := q, inTerm := true } ∧ s.inTerm = false ∧ s.inQ = .eos :: q) ∨
    (∃ q, inRead s = .failed { s with inQ := q, inTerm := true } ∧ s.inTerm = false ∧ s.inQ = .err :: q) := by
  unfold inRead
  cases ht : s.inTerm
  · rcases hq : s.inQ with _ | ⟨t, q⟩
    · simp
    · cases t <;> simp
  · simp


/-- A drain step takes the head of IN, and ends the drain where it is a terminator (10_state.md R42). -/
theorem drainStep_cases {s s' : State} (h : drainStep s = some s') :
    ∃ t q, s.inQ = t :: q ∧ s' = { s with inQ := q, inDrain := !isTerminator t } := by
  unfold drainStep at h
  cases hq : s.inQ with
  | nil => simp [hq] at h
  | cons t q => rw [hq] at h; exact ⟨t, q, rfl, (Option.some.inj h).symm⟩

/-- OutWrite: the byte is appended and the engine goes on, or ResourceError(1) while OUT_ERR = 1 (20_memory.md R81). -/
theorem outWrite_cases (b : Byte) (c : Ctl) (s : State) :
    (s.outErr = false ∧ outWrite b c s = { s with out := s.out ++ [.byte b], ctl := c }) ∨
    (s.outErr = true ∧ outWrite b c s = raiseError .resourceError 1 s) := by
  unfold outWrite outAppend
  cases h : s.outErr <;> simp

/-- OutWrite of a list of bytes in one step: all of them are appended, or ResourceError(1) is raised before the first one
(20_memory.md R81). -/
theorem outWrites_cases (bs : List Byte) (s : State) :
    ((s.outErr = false ∨ bs = []) ∧ outWrites bs s = .go { s with out := s.out ++ bs.map .byte }) ∨
    (s.outErr = true ∧ bs ≠ [] ∧ outWrites bs s = .raised (raiseError .resourceError 1 s)) := by
  have nil : ∀ s, outWrites [] s = .go { s with out := s.out ++ ([] : List Byte).map .byte } := fun s => by
    simp only [outWrites, List.map_nil, List.append_nil]
  by_cases h : s.outErr = true
  · cases bs with
    | nil => exact .inl ⟨.inr rfl, nil s⟩
    | cons b bs => exact .inr ⟨h, by simp, by simp [outWrites, h]⟩
  · refine .inl ⟨.inl (by simpa using h), ?_⟩
    induction bs generalizing s with
    | nil => exact nil s
    | cons b bs ih => rw [outWrites, if_neg h, ih _ (by simpa using h)]; simp [outAppend]

/-- Dispatch of a legal word: ignored, IllegalState, or the command's own rule (30_encoding.md R109, R110). -/
theorem command_cases (i : Instr) (body : State → State) (s : State) :
    (s.err.isSome = true ∧ runsWhileErr i = false ∧ command i body s = .next (endCommand s)) ∨
    ((s.err = none ∨ runsWhileErr i = true) ∧ admits i s = false ∧
      command i body s = .next (raiseError .illegalState (encode i) s)) ∨
    ((s.err = none ∨ runsWhileErr i = true) ∧ admits i s = true ∧ command i body s = .next (body s)) := by
  unfold command
  cases he : s.err <;> cases hr : runsWhileErr i <;> cases ha : admits i s <;> simp

/-- A command whose gate and precondition let it run does what its body does. -/
theorem command_run {i : Instr} {body : State → State} {s : State} (he : s.err = none)
    (ha : admits i s = true) : command i body s = .next (body s) := by
  simp [command, he, ha]

/-- BwWrite: one more bit in the byte, a finished byte in BW.data, or CapacityExceeded(0) (44_bitwriter.md R280);
the echo comes first (R282). -/
theorem bwWriteBit_cases (b : Bool) (s : State) :
    (s.bw.nbits ≠ 7 ∧ bwWriteBit b s = .go { diagEcho b s with
        bw := { s.bw with acc := accWith s.bw b, nbits := s.bw.nbits + 1 } }) ∨
    (s.bw.nbits = 7 ∧ s.bw.data.length ≠ s.bwCap ∧ bwWriteBit b s = .go { diagEcho b s with
        bw := { s.bw with acc := 0, nbits := 0, data := s.bw.data ++ [accWith s.bw b] } }) ∨
    (s.bw.nbits = 7 ∧ s.bw.data.length = s.bwCap ∧
      bwWriteBit b s = .raised (raiseError .capacityExceeded 0 (diagEcho b s))) := by
  have hb : (diagEcho b s).bw = s.bw := by unfold diagEcho; split <;> simp
  have hc : (diagEcho b s).bwCap = s.bwCap := by unfold diagEcho; split <;> simp
  unfold bwWriteBit
  simp only [hb, hc]
  by_cases h : s.bw.nbits = 7 <;> by_cases h' : s.bw.data.length = s.bwCap <;> simp [h, h']

end Sys2Proof.Machine
end

