-- ==== Sys2Proof/Laws/Engine.lean ====
section
/-! SUPPORT. The engine: its steps make `work` smaller, so a whole turn ends (spec 70_reset_and_hazards.md R388);
what an engine step leaves alone; and how a turn unfolds into its steps. -/

namespace Sys2Proof.Machine


theorem foldl_max_ge (l : List Nat) (a : Nat) : a ≤ l.foldl max a ∧ ∀ x ∈ l, x ≤ l.foldl max a := by
  induction l generalizing a with
  | nil => simp
  | cons y l ih =>
    have h := ih (max a y)
    simp only [List.foldl_cons, List.mem_cons, forall_eq_or_imp]
    exact ⟨by omega, by omega, h.2⟩

theorem code_length_le_maxDepth {t : Tree} {v : Byte} {p : List Bool} (h : t.code v = some p) :
    p.length ≤ t.maxDepth := by
  have hm : (v, p) ∈ t.leaves := by
    unfold Tree.code at h
    rw [List.lookup_eq_some_iff] at h
    obtain ⟨l₁, l₂, h, -⟩ := h
    rw [h]; simp
  exact (foldl_max_ge (t.leaves.map (fun x => x.2.length)) 0).2 _ (List.mem_map.2 ⟨_, hm, rfl⟩)

theorem work_idle {s : State} (h : s.ctl = .idle) : work s = 0 := by simp [work, h]

@[simp] theorem work_complete (v : Word) (s : State) : work (complete v s) = 0 := work_idle rfl

@[simp] theorem work_raiseError (e : ErrName) (v : Word) (s : State) : work (raiseError e v s) = 0 :=
  work_idle rfl

theorem work_loadEnd (l : LoadState) (s : State) : work (loadEnd l s) = 0 := by
  unfold loadEnd; split <;> simp

theorem work_loadLine (l : LoadState) (s : State) : work (loadLine l s) ≤ 2 * s.inQ.length + 1 := by
  unfold loadLine
  repeat' split
  all_goals simp
  all_goals simp [work]

theorem work_load {s : State} {l : LoadState} (h : s.ctl = .load l) :
    work s = 2 * s.inQ.length + (if l.line.isEmpty then 1 else 2) := by simp [work, h]

theorem bwWriteBits_work (p : List Bool) (s : State) :
    match bwWriteBits p s with
    | .go t => t.inQ = s.inQ ∧ t.tree = s.tree ∧
        8 * t.bw.data.length + t.bw.nbits.val = 8 * s.bw.data.length + s.bw.nbits.val + p.length
    | .raised t => t.ctl = .idle := by
  induction p generalizing s with
  | nil => simp [bwWriteBits]
  | cons b p ih =>
    have key : match bwWriteBit b s with
        | .go t => t.inQ = s.inQ ∧ t.tree = s.tree ∧
            8 * t.bw.data.length + t.bw.nbits.val = 8 * s.bw.data.length + s.bw.nbits.val + 1
        | .raised t => t.ctl = .idle := by
      unfold bwWriteBit diagEcho
      have h7 := s.bw.nbits.isLt
      by_cases h : s.bw.nbits = 7
      · by_cases hc : s.bw.data.length = s.bwCap <;> cases hd : s.diagEn <;> simp [h, hc] <;> omega
      · have : s.bw.nbits.val ≠ 7 := fun e => h (Fin.ext e)
        have h2 : (s.bw.nbits + 1).val = s.bw.nbits.val + 1 := by
          rw [Fin.val_add]; simp; omega
        cases hd : s.diagEn <;> simp [h, h2] <;> omega
    unfold bwWriteBits
    cases hb : bwWriteBit b s with
    | go t =>
      rw [hb] at key
      have := ih t
      simp only [Flow.andThen]
      cases ht : bwWriteBits p t with
      | go u => rw [ht] at this; simp_all; omega
      | raised u => rw [ht] at this; simpa using this
    | raised t => rw [hb] at key; simpa [Flow.andThen] using key

theorem work_bitTaken (b : Bool) (k : RefillFor) (s : State) : work (bitTaken b k s) ≤ 4 * bitsAhead s + 3 := by
  unfold bitTaken
  cases k with
  | brNext => simp
  | decode d m =>
    simp only [descend]
    cases hn : (if b then d.one else d.zero) with
    | absent => simp
    | leaf v => cases m <;> simp [symbolDecoded, work, bitsAhead]
    | internal l r => simp [work, bitsAhead]

theorem work_takeBit (k : RefillFor) (s : State) (h : hasNext s.br = true) :
    work (takeBit k s) ≤ 4 * bitsAhead s := by
  unfold takeBit
  have hc : ∃ c, s.br.cur = some c := by
    unfold hasNext at h; cases hc : s.br.cur with
    | none => simp [hc] at h
    | some c => exact ⟨c, rfl⟩
  obtain ⟨c, hc⟩ := hc
  have hp := s.br.pos.isLt
  by_cases hl : s.br.pos = 7
  · simp [lastOfByte, hl, work, bitsAhead, shiftWindow, windowBytes, hc]
    omega
  · have : s.br.pos.val ≠ 7 := fun e => hl (Fin.ext e)
    have h2 : (s.br.pos + 1).val = s.br.pos.val + 1 := by rw [Fin.val_add]; simp; omega
    have hb : lastOfByte s.br = false := by simp [lastOfByte, hl]
    rw [hb]
    refine le_trans (work_bitTaken _ _ _) ?_
    simp [bitsAhead, advancePos, windowBytes, hc, h2]
    omega

@[simp] theorem work_emitEnd (k : EmitFor) (s : State) : work (emitEnd k s) = 0 := by cases k <;> exact work_idle rfl

/-- An engine step of an emission: its end, with the bytes that were left (of an emission that is not COMPRESS's, none);
one byte of such an emission; or ResourceError(1), with none of the bytes that were left written. -/
theorem tickEmit_cases (rest : List Byte) (k : EmitFor) (s : State) :
    ((s.outErr = false ∨ rest = []) ∧ tickEmit rest k s = emitEnd k { s with out := s.out ++ rest.map .byte }) ∨
    (∃ b r, rest = b :: r ∧ (∀ n, k ≠ .compress n) ∧ s.outErr = false ∧
      tickEmit rest k s = { s with out := s.out ++ [.byte b], ctl := .emit r k }) ∨
    (s.outErr = true ∧ rest ≠ [] ∧ tickEmit rest k s = raiseError .resourceError 1 s) := by
  cases k with
  | compress n =>
    rcases outWrites_cases rest s with ⟨h, h'⟩ | ⟨h, hr, h'⟩
    · exact .inl ⟨h, by simp only [tickEmit, h', Flow.finish]⟩
    · exact .inr (.inr ⟨h, hr, by simp only [tickEmit, h', Flow.finish]⟩)
  | _ =>
    cases rest with
    | nil => exact .inl ⟨.inr rfl, by simp only [tickEmit, List.map_nil, List.append_nil]⟩
    | cons b r =>
      rcases outWrite_cases b (.emit r _) s with ⟨h, h'⟩ | ⟨h, h'⟩
      · exact .inr (.inl ⟨b, r, rfl, by simp, h, h'⟩)
      · exact .inr (.inr ⟨h, by simp, h'⟩)

theorem work_tick {s s' : State} (h : tick s = some s') : work s' < work s := by
  unfold tick at h
  cases hc : s.ctl with
  | idle => simp [hc] at h
  | accepted => simp [hc] at h
  | openIn k =>
    simp only [hc, tickOpenIn] at h
    split at h
    · unfold drainStep at h
      cases hq : s.inQ with
      | nil => simp [hq] at h
      | cons t q =>
        simp [hq] at h
        subst h
        cases k <;> simp [work, hc, hq, compressWork]
    · simp at h; subst h
      cases k <;> simp [afterInOpen, work, hc, bwOpenSession, compressWork, LoadState.start]
  | load l =>
    simp only [hc, tickLoad] at h
    have hw := work_load hc
    have hl : 1 ≤ (if l.line.isEmpty then 1 else 2) := by split <;> omega
    rcases inRead_cases s with ⟨h1, -, -⟩ | ⟨h1, -⟩ | ⟨b, q, h1, -, hq⟩ | ⟨q, h1, -, hq⟩ | ⟨q, h1, -, hq⟩ <;>
      rw [h1] at h <;> simp only [Option.some.injEq, reduceCtorEq] at h <;> subst h
    · cases he : l.line.isEmpty with
      | true => simp [work_loadEnd]; omega
      | false =>
        rw [he] at hw
        have := work_loadLine l s
        simp at hw ⊢; omega
    · rw [hq, List.length_cons] at hw
      split
      · have := work_loadLine l { s with inQ := q }
        simp at this ⊢; omega
      · rw [work_load (l := { l with line := l.line ++ [b] }) rfl]
        simp; omega
    · rw [hq, List.length_cons] at hw
      have := work_loadLine l { s with inQ := q, inTerm := true }
      split
      · simp [work_loadEnd]; omega
      · simp at this ⊢; omega
    · simp; omega
  | header k =>
    simp only [hc, tickHeader] at h
    rcases inRead_cases s with ⟨h1, -, -⟩ | ⟨h1, -⟩ | ⟨b, q, h1, -, hq⟩ | ⟨q, h1, -, hq⟩ | ⟨q, h1, -, hq⟩ <;>
      rw [h1] at h <;> simp at h <;> subst h
    · cases k <;> simp [brOpened, work, hc, bitsAhead, windowBytes, openedEmpty]; omega
    · cases headerPad b <;> simp [work, hc, hq]
    · cases k <;> simp [brOpened, work, hc, bitsAhead, windowBytes, openedEmpty, hq]; omega
    · simp [work, hc]
  | fillCur k p =>
    simp only [hc, tickFillCur] at h
    rcases inRead_cases s with ⟨h1, -, -⟩ | ⟨h1, -⟩ | ⟨b, q, h1, -, hq⟩ | ⟨q, h1, -, hq⟩ | ⟨q, h1, -, hq⟩ <;>
      rw [h1] at h <;> simp at h <;> subst h <;> simp [work, *]
  | fillNxt k p c =>
    simp only [hc, tickFillNxt] at h
    rcases inRead_cases s with ⟨h1, -, -⟩ | ⟨h1, -⟩ | ⟨b, q, h1, -, hq⟩ | ⟨q, h1, -, hq⟩ | ⟨q, h1, -, hq⟩ <;>
      rw [h1] at h <;> simp at h <;> subst h <;> cases k <;>
      simp [brOpened, work, *, bitsAhead, windowBytes, openedWith] <;> omega
  | decode d m =>
    simp only [hc, tickDecode] at h
    cases hn : hasNext s.br with
    | true =>
      simp [hn] at h
      subst h
      refine lt_of_le_of_lt (work_takeBit _ _ hn) ?_
      simp [work, hc]
    | false => simp [hn] at h; subst h; simp [work, hc]
  | refill b k =>
    simp only [hc, tickRefill] at h
    rcases inRead_cases s with ⟨h1, -, -⟩ | ⟨h1, -⟩ | ⟨c, q, h1, -, hq⟩ | ⟨q, h1, -, hq⟩ | ⟨q, h1, -, hq⟩ <;>
      rw [h1] at h <;> simp at h <;> subst h
    · refine lt_of_le_of_lt (work_bitTaken _ _ _) ?_
      simp [work, hc, bitsAhead, windowBytes]; omega
    · refine lt_of_le_of_lt (work_bitTaken _ _ _) ?_
      simp [work, hc, bitsAhead, windowBytes, hq]; omega
    · refine lt_of_le_of_lt (work_bitTaken _ _ _) ?_
      simp [work, hc, bitsAhead, windowBytes, hq]; omega
    · simp [work, hc]
  | symbols n =>
    simp only [hc, tickSymbols] at h
    cases hn : hasNext s.br with
    | true =>
      simp [hn] at h
      subst h
      unfold startAttempt
      cases s.tree <;> simp [work, hc, bitsAhead]
    | false => simp [hn] at h; subst h; simp [work, hc]
  | putSymbol v n =>
    simp [hc] at h; subst h
    unfold outWrite; split <;> simp [work, hc, bitsAhead]
  | compress =>
    simp only [hc, tickCompress] at h
    have hclose : ∀ s : State, work (bwCloseStart true s) ≤ 8 * s.bw.data.length + s.bw.nbits.val + 3 := by
      intro s
      unfold bwCloseStart
      split
      · simp
      · by_cases h0 : s.bw.nbits = 0
        · simp [work, finalData, h0]; omega
        · have : s.bw.nbits.val ≠ 0 := fun e => h0 (Fin.ext e)
          simp [work, finalData, h0]; omega
    rcases inRead_cases s with ⟨h1, -, -⟩ | ⟨h1, -⟩ | ⟨c, q, h1, -, hq⟩ | ⟨q, h1, -, hq⟩ | ⟨q, h1, -, hq⟩ <;>
      rw [h1] at h <;> simp at h <;> subst h
    · refine lt_of_le_of_lt (hclose _) ?_; simp [work, hc, compressWork]
    · unfold encodeSymbolBits
      simp only
      cases hco : s.tree.code c with
      | none => simp [Flow.finish, work, hc, compressWork]
      | some p =>
        have hlen := code_length_le_maxDepth hco
        have := bwWriteBits_work p { s with inQ := q }
        simp only
        cases hw : bwWriteBits p { s with inQ := q } with
        | go t =>
          rw [hw] at this
          simp at this
          simp [Flow.finish, work, hc, compressWork, this, hq]
          nlinarith
        | raised t =>
          rw [hw] at this
          simp at this
          simp [Flow.finish, work, hc, this, compressWork]
    · refine lt_of_le_of_lt (hclose _) ?_; simp [work, hc, compressWork]
    · simp [work, hc, compressWork]
  | emit rest k =>
    simp only [hc, Option.some.injEq] at h
    subst h
    rcases tickEmit_cases rest k s with ⟨-, hu⟩ | ⟨b, r, rfl, -, -, hu⟩ | ⟨-, -, hu⟩ <;> rw [hu]
    · rw [work_emitEnd]; simp [work, hc]
    · simp [work, hc]
    · rw [work_raiseError]; simp [work, hc]

/-! ### What an engine step leaves alone -/

/-- The items no engine step inside a command changes: the host's, the model's own, and FREQ, CTRL, ARG0, ARG1,
PENDING, OUT_ERR and WR_IGNORED. -/
structure SameEnv (s t : State) : Prop where
  diagEn : t.diagEn = s.diagEn
  wrIgnored : t.wrIgnored = s.wrIgnored
  arg0 : t.arg0 = s.arg0
  arg1 : t.arg1 = s.arg1
  freq : t.freq = s.freq
  outErr : t.outErr = s.outErr
  pending : t.pending = s.pending
  bwCap : t.bwCap = s.bwCap
  draws : t.draws = s.draws
  host : t.host = s.host
  turns : t.turns = s.turns
  quantum : t.quantum = s.quantum

theorem SameEnv.refl (s : State) : SameEnv s s := by constructor <;> rfl

theorem SameEnv.trans {s t u : State} (h : SameEnv s t) (k : SameEnv t u) : SameEnv s u := by
  constructor
  · exact k.diagEn.trans h.diagEn
  · exact k.wrIgnored.trans h.wrIgnored
  · exact k.arg0.trans h.arg0
  · exact k.arg1.trans h.arg1
  · exact k.freq.trans h.freq
  · exact k.outErr.trans h.outErr
  · exact k.pending.trans h.pending
  · exact k.bwCap.trans h.bwCap
  · exact k.draws.trans h.draws
  · exact k.host.trans h.host
  · exact k.turns.trans h.turns
  · exact k.quantum.trans h.quantum

theorem sameEnv_raiseError (e : ErrName) (v : Word) (s : State) : SameEnv s (raiseError e v s) := by
  constructor <;> simp

theorem sameEnv_complete (v : Word) (s : State) : SameEnv s (complete v s) := by constructor <;> rfl

theorem sameEnv_diagEcho (b : Bool) (s : State) : SameEnv s (diagEcho b s) := by
  unfold diagEcho; split <;> constructor <;> simp

theorem sameEnv_inRelease (s : State) : SameEnv s (inRelease s) := by constructor <;> simp

theorem sameEnv_outClose (s : State) : SameEnv s (outClose s) := by constructor <;> simp

theorem sameEnv_outWrite (b : Byte) (c : Ctl) (s : State) : SameEnv s (outWrite b c s) := by
  rcases outWrite_cases b c s with ⟨-, h⟩ | ⟨-, h⟩ <;> rw [h]
  · constructor <;> rfl
  · exact sameEnv_raiseError _ _ _

theorem sameEnv_bwWriteBit (b : Bool) (s t : State)
    (h : bwWriteBit b s = .go t ∨ bwWriteBit b s = .raised t) : SameEnv s t := by
  have he := sameEnv_diagEcho b s
  rcases bwWriteBit_cases b s with ⟨-, h'⟩ | ⟨-, -, h'⟩ | ⟨-, -, h'⟩ <;> rw [h'] at h <;> simp at h <;>
    subst h
  · exact he.trans (by constructor <;> rfl)
  · exact he.trans (by constructor <;> rfl)
  · exact he.trans (sameEnv_raiseError _ _ _)

theorem sameEnv_bwWriteBits (p : List Bool) (s t : State)
    (h : bwWriteBits p s = .go t ∨ bwWriteBits p s = .raised t) : SameEnv s t := by
  induction p generalizing s with
  | nil => simp [bwWriteBits] at h; subst h; exact .refl _
  | cons b p ih =>
    unfold bwWriteBits at h
    cases hb : bwWriteBit b s with
    | go u => rw [hb] at h; exact (sameEnv_bwWriteBit b s u (.inl hb)).trans (ih u h)
    | raised u =>
      rw [hb] at h; simp [Flow.andThen] at h; subst h
      exact sameEnv_bwWriteBit b s u (.inr hb)

theorem sameEnv_encodeSymbolBits (v : Byte) (s t : State)
    (h : encodeSymbolBits v s = .go t ∨ encodeSymbolBits v s = .raised t) : SameEnv s t := by
  unfold encodeSymbolBits at h
  cases hc : s.tree.code v with
  | none => simp [hc] at h; subst h; exact sameEnv_raiseError _ _ _
  | some p => rw [hc] at h; exact sameEnv_bwWriteBits p s t h

theorem sameEnv_loadLine (l : LoadState) (s : State) : SameEnv s (loadLine l s) := by
  unfold loadLine
  repeat' split
  all_goals first | exact sameEnv_raiseError _ _ _ | (constructor <;> rfl)

theorem sameEnv_loadEnd (l : LoadState) (s : State) : SameEnv s (loadEnd l s) := by
  unfold loadEnd
  split
  · exact sameEnv_raiseError _ _ _
  · constructor <;> simp

theorem sameEnv_bitTaken (b : Bool) (k : RefillFor) (s : State) : SameEnv s (bitTaken b k s) := by
  cases k with
  | brNext => exact sameEnv_complete _ _
  | decode d m =>
    simp only [bitTaken, descend]
    cases (if b then d.one else d.zero) with
    | absent => exact sameEnv_raiseError _ _ _
    | leaf v => cases m <;> constructor <;> rfl
    | internal l r => constructor <;> rfl

theorem sameEnv_takeBit (k : RefillFor) (s : State) : SameEnv s (takeBit k s) := by
  simp only [takeBit]
  split
  · constructor <;> rfl
  · exact (SameEnv.trans (t := { s with br := advancePos s.br }) (by constructor <;> rfl) (sameEnv_bitTaken _ _ _))

theorem sameEnv_brOpened (k : BrOpenFor) (v : Word) (b : Unpacker) (s : State) :
    SameEnv s (brOpened k v b s) := by cases k <;> constructor <;> rfl

theorem sameEnv_bwCloseStart (c : Bool) (s : State) : SameEnv s (bwCloseStart c s) := by
  unfold bwCloseStart
  split
  · exact sameEnv_raiseError _ _ _
  · constructor <;> rfl

theorem sameEnv_emitEnd (k : EmitFor) (s : State) : SameEnv s (emitEnd k s) := by
  cases k <;> constructor <;> simp [emitEnd, bwCloseEnd]

/-- An engine step inside a command changes none of the items of `SameEnv`. -/
theorem sameEnv_tick {s t : State} (h : tick s = some t) : SameEnv s t := by
  have hq : ∀ q, SameEnv s { s with inQ := q } := fun q => by constructor <;> rfl
  have ht : ∀ q, SameEnv s { s with inQ := q, inTerm := true } := fun q => by constructor <;> rfl
  unfold tick at h
  cases hc : s.ctl with
  | idle => simp [hc] at h
  | accepted => simp [hc] at h
  | openIn k =>
    simp only [hc, tickOpenIn] at h
    split at h
    · obtain ⟨u, q, -, rfl⟩ := drainStep_cases h
      constructor <;> rfl
    · obtain rfl := Option.some.inj h
      cases k <;> constructor <;> rfl
  | load l =>
    simp only [hc, tickLoad] at h
    rcases inRead_cases s with ⟨h1, -, -⟩ | ⟨h1, -⟩ | ⟨b, q, h1, -, -⟩ | ⟨q, h1, -, -⟩ | ⟨q, h1, -, -⟩ <;>
      rw [h1] at h <;> simp only [Option.some.injEq, reduceCtorEq] at h <;> subst h
    · split
      · exact sameEnv_loadEnd _ _
      · exact sameEnv_loadLine _ _
    · refine (hq q).trans ?_
      split
      · exact sameEnv_loadLine _ _
      · constructor <;> rfl
    · refine (ht q).trans ?_
      split
      · exact sameEnv_loadEnd _ _
      · exact sameEnv_loadLine _ _
    · exact (ht q).trans (sameEnv_raiseError _ _ _)
  | header k =>
    simp only [hc, tickHeader] at h
    rcases inRead_cases s with ⟨h1, -, -⟩ | ⟨h1, -⟩ | ⟨b, q, h1, -, -⟩ | ⟨q, h1, -, -⟩ | ⟨q, h1, -, -⟩ <;>
      rw [h1] at h <;> simp only [Option.some.injEq, reduceCtorEq] at h <;> subst h
    · exact sameEnv_brOpened _ _ _ _
    · refine (hq q).trans ?_
      cases headerPad b
      · exact sameEnv_raiseError _ _ _
      · constructor <;> rfl
    · exact (ht q).trans (sameEnv_brOpened _ _ _ _)
    · exact (ht q).trans (sameEnv_raiseError _ _ _)
  | fillCur k p =>
    simp only [hc, tickFillCur] at h
    rcases inRead_cases s with ⟨h1, -, -⟩ | ⟨h1, -⟩ | ⟨b, q, h1, -, -⟩ | ⟨q, h1, -, -⟩ | ⟨q, h1, -, -⟩ <;>
      rw [h1] at h <;> simp only [Option.some.injEq, reduceCtorEq] at h <;> subst h
    · constructor <;> rfl
    · exact (hq q).trans (by constructor <;> rfl)
    · exact (ht q).trans (by constructor <;> rfl)
    · exact (ht q).trans (sameEnv_raiseError _ _ _)
  | fillNxt k p c =>
    simp only [hc, tickFillNxt] at h
    rcases inRead_cases s with ⟨h1, -, -⟩ | ⟨h1, -⟩ | ⟨b, q, h1, -, -⟩ | ⟨q, h1, -, -⟩ | ⟨q, h1, -, -⟩ <;>
      rw [h1] at h <;> simp only [Option.some.injEq, reduceCtorEq] at h <;> subst h
    · exact sameEnv_brOpened _ _ _ _
    · exact (hq q).trans (sameEnv_brOpened _ _ _ _)
    · exact (ht q).trans (sameEnv_brOpened _ _ _ _)
    · exact (ht q).trans (sameEnv_raiseError _ _ _)
  | decode d m =>
    simp only [hc, tickDecode, Option.some.injEq] at h
    subst h
    split
    · exact sameEnv_takeBit _ _
    · exact sameEnv_raiseError _ _ _
  | refill b k =>
    simp only [hc, tickRefill] at h
    rcases inRead_cases s with ⟨h1, -, -⟩ | ⟨h1, -⟩ | ⟨c, q, h1, -, -⟩ | ⟨q, h1, -, -⟩ | ⟨q, h1, -, -⟩ <;>
      rw [h1] at h <;> simp only [Option.some.injEq, reduceCtorEq] at h <;> subst h
    · exact SameEnv.trans (t := { s with br := { s.br with nxt := none } }) (by constructor <;> rfl)
        (sameEnv_bitTaken _ _ _)
    · exact SameEnv.trans (t := { s with inQ := q, br := { s.br with nxt := some c } }) (by constructor <;> rfl)
        (sameEnv_bitTaken _ _ _)
    · exact SameEnv.trans (t := { s with inQ := q, inTerm := true, br := { s.br with nxt := none } })
        (by constructor <;> rfl) (sameEnv_bitTaken _ _ _)
    · exact (ht q).trans (sameEnv_raiseError _ _ _)
  | symbols n =>
    simp only [hc, tickSymbols, Option.some.injEq] at h
    subst h
    split
    · unfold startAttempt
      cases s.tree
      · exact sameEnv_raiseError _ _ _
      · constructor <;> rfl
    · constructor <;> simp [brCloseSession]
  | putSymbol v n =>
    simp only [hc, Option.some.injEq] at h
    subst h
    exact sameEnv_outWrite _ _ _
  | compress =>
    simp only [hc, tickCompress] at h
    rcases inRead_cases s with ⟨h1, -, -⟩ | ⟨h1, -⟩ | ⟨c, q, h1, -, -⟩ | ⟨q, h1, -, -⟩ | ⟨q, h1, -, -⟩ <;>
      rw [h1] at h <;> simp only [Option.some.injEq, reduceCtorEq] at h <;> subst h
    · exact sameEnv_bwCloseStart _ _
    · refine (hq q).trans ?_
      cases he : encodeSymbolBits c { s with inQ := q } with
      | go t => exact (sameEnv_encodeSymbolBits c _ t (.inl he)).trans (by constructor <;> rfl)
      | raised t => exact sameEnv_encodeSymbolBits c _ t (.inr he)
    · exact (ht q).trans (sameEnv_bwCloseStart _ _)
    · exact (ht q).trans (sameEnv_raiseError _ _ _)
  | emit rest k =>
    simp only [hc, Option.some.injEq] at h
    subst h
    rcases tickEmit_cases rest k s with ⟨-, hu⟩ | ⟨b, r, rfl, -, -, hu⟩ | ⟨-, -, hu⟩ <;> rw [hu]
    · exact SameEnv.trans (t := { s with out := s.out ++ rest.map .byte }) (by constructor <;> rfl) (sameEnv_emitEnd _ _)
    · constructor <;> rfl
    · exact sameEnv_raiseError _ _ _

/-! ### A turn -/

/-- With steps enough for the work ahead, more steps change nothing. -/
theorem runTicks_enough {n m : Nat} {s : State} (hn : work s ≤ n) (hm : work s ≤ m) :
    runTicks n s = runTicks m s := by
  induction n generalizing m s with
  | zero =>
    cases ht : tick s with
    | none => cases m <;> simp [runTicks, ht]
    | some t => have := work_tick ht; omega
  | succ n ih =>
    cases ht : tick s with
    | none => cases m <;> simp [runTicks, ht]
    | some t =>
      have hw := work_tick ht
      cases m with
      | zero => omega
      | succ m => simp only [runTicks, ht]; exact ih (by omega) (by omega)

/-- A whole turn where the engine has no step: it changes nothing (R7). -/
theorem advance_hold {s : State} (hq : s.quantum = none) (ht : tick s = none) : advance s = s := by
  simp only [advance, hq]
  cases work s <;> simp [runTicks, ht]

/-- A whole turn is its first engine step and then the rest of the turn. -/
theorem advance_tick {s t : State} (hq : s.quantum = none) (ht : tick s = some t) : advance s = advance t := by
  have hw := work_tick ht
  have hqt : t.quantum = none := (sameEnv_tick ht).quantum.trans hq
  simp only [advance, hq, hqt]
  obtain ⟨n, hn⟩ : ∃ n, work s = n + 1 := ⟨work s - 1, by omega⟩
  rw [hn]
  simp only [runTicks, ht]
  exact runTicks_enough (by omega) le_rfl

/-- A whole turn ends where the engine has no step: the command has ended, or it holds (R388). -/
theorem tick_advance {s : State} (hq : s.quantum = none) : tick (advance s) = none := by
  have key : ∀ n s, work s ≤ n → tick (runTicks n s) = none := by
    intro n
    induction n with
    | zero =>
      intro s hs
      cases ht : tick s with
      | none => simpa [runTicks] using ht
      | some t => have := work_tick ht; omega
    | succ n ih =>
      intro s hs
      cases ht : tick s with
      | none => simpa [runTicks, ht] using ht
      | some t => have := work_tick ht; simp only [runTicks, ht]; exact ih t (by omega)
  simp only [advance, hq]
  exact key _ s le_rfl

theorem sameEnv_runTicks (n : Nat) (s : State) : SameEnv s (runTicks n s) := by
  induction n generalizing s with
  | zero => exact .refl s
  | succ n ih =>
    cases ht : tick s with
    | none => simpa [runTicks, ht] using SameEnv.refl s
    | some t => simpa [runTicks, ht] using (sameEnv_tick ht).trans (ih t)

/-- A turn changes none of the items of `SameEnv`. -/
theorem sameEnv_advance (s : State) : SameEnv s (advance s) := by
  unfold advance; split <;> exact sameEnv_runTicks _ _

/-- What every engine step keeps, a turn keeps. -/
theorem advance_keeps {P : State → Prop} (hP : ∀ s t, P s → tick s = some t → P t) {s : State} (h : P s) :
    P (advance s) := by
  have key : ∀ n s, P s → P (runTicks n s) := by
    intro n
    induction n with
    | zero => exact fun s h => h
    | succ n ih =>
      intro s h
      cases ht : tick s with
      | none => simpa [runTicks, ht] using h
      | some t => simp only [runTicks, ht]; exact ih t (hP s t h ht)
  unfold advance
  split <;> exact key _ s h

end Sys2Proof.Machine
end

