-- ==== Sys2Proof/Laws/PerInstr.lean ====
section
/-! SUPPORT. Facts about every instruction as syntax, one lemma per constructor. -/

namespace Sys2Proof.Laws.Encoding

/-- The instruction is well formed, its word has MBZ = 0 and its OPC in the low byte, and its word and its four
bytes decode to it (spec 30_encoding.md R100, R102). -/
def Statement (i : Instr) : Prop :=
  i.wf = true ∧ (encode i).extractLsb' 8 24 = 0 ∧ (encode i).extractLsb' 0 8 = opcode i ∧
    decode (encode i) = .ok i ∧ decodeBytes (encodeBytes i) = .ok (i, [])

theorem nop : Statement .nop := ⟨rfl, rfl, rfl, rfl, rfl⟩
theorem clearError : Statement .clearError := ⟨rfl, rfl, rfl, rfl, rfl⟩
theorem softReset : Statement .softReset := ⟨rfl, rfl, rfl, rfl, rfl⟩
theorem freqClear : Statement .freqClear := ⟨rfl, rfl, rfl, rfl, rfl⟩
theorem freqWrite : Statement .freqWrite := ⟨rfl, rfl, rfl, rfl, rfl⟩
theorem freqRead : Statement .freqRead := ⟨rfl, rfl, rfl, rfl, rfl⟩
theorem treeBuild : Statement .treeBuild := ⟨rfl, rfl, rfl, rfl, rfl⟩
theorem treeClear : Statement .treeClear := ⟨rfl, rfl, rfl, rfl, rfl⟩
theorem codeQuery : Statement .codeQuery := ⟨rfl, rfl, rfl, rfl, rfl⟩
theorem codeBit : Statement .codeBit := ⟨rfl, rfl, rfl, rfl, rfl⟩
theorem treeSave : Statement .treeSave := ⟨rfl, rfl, rfl, rfl, rfl⟩
theorem treeLoad : Statement .treeLoad := ⟨rfl, rfl, rfl, rfl, rfl⟩
theorem encodeSymbol : Statement .encodeSymbol := ⟨rfl, rfl, rfl, rfl, rfl⟩
theorem decodeSymbol : Statement .decodeSymbol := ⟨rfl, rfl, rfl, rfl, rfl⟩
theorem compress : Statement .compress := ⟨rfl, rfl, rfl, rfl, rfl⟩
theorem decompress : Statement .decompress := ⟨rfl, rfl, rfl, rfl, rfl⟩
theorem bwOpen : Statement .bwOpen := ⟨rfl, rfl, rfl, rfl, rfl⟩
theorem bwWrite : Statement .bwWrite := ⟨rfl, rfl, rfl, rfl, rfl⟩
theorem bwClose : Statement .bwClose := ⟨rfl, rfl, rfl, rfl, rfl⟩
theorem brOpen : Statement .brOpen := ⟨rfl, rfl, rfl, rfl, rfl⟩
theorem brHasNext : Statement .brHasNext := ⟨rfl, rfl, rfl, rfl, rfl⟩
theorem brNext : Statement .brNext := ⟨rfl, rfl, rfl, rfl, rfl⟩
theorem brClose : Statement .brClose := ⟨rfl, rfl, rfl, rfl, rfl⟩

end Sys2Proof.Laws.Encoding
end

