-- ==== Sys2Proof/Tests/Slice0.lean ====
section
/-! SUPPORT. Tests. The expected results are the spec's own: 95_test_vectors.md, and the examples that stand in the
rules. After the tests, one witness for each obligation that has hypotheses. -/

namespace Sys2Proof.Tests

open Sys2Proof Sys2Proof.Machine Sys2Proof.Spec

/-! ### Helpers -/

/-- The state after reset with a known packer capacity. -/
def ready : State := { State.reset with bwCap := 4 }

/-- The tree of the example of 41_tree_build.md R161. -/
def abraTree : Tree :=
  .root (.leaf 97) (.internal (.internal (.leaf 99) (.leaf 100)) (.internal (.leaf 98) (.leaf 114)))

/-- `ready` with that tree. -/
def abra : State := { ready with tree := abraTree }

/-- The counters of the example of R161. -/
def abraFreq : Vector Word 256 :=
  ((((State.reset.freq.set 97 5).set 98 2).set 99 1).set 100 1).set 114 2

/-- The table text of that tree (42_code_table.md R202): "97\n0\n99\n100\n100\n101\n98\n110\n114\n111\n". -/
def abraText : List Byte :=
  [0x39, 0x37, 10, 0x30, 10, 0x39, 0x39, 10, 0x31, 0x30, 0x30, 10, 0x31, 0x30, 0x30, 10, 0x31, 0x30, 0x31, 10,
   0x39, 0x38, 10, 0x31, 0x31, 0x30, 10, 0x31, 0x31, 0x34, 10, 0x31, 0x31, 0x31, 10]

/-- The reordered text of 42_code_table.md R207: "114\n111\n98\n110\n100\n101\n99\n100\n97\n0\n". -/
def abraTextReordered : List Byte :=
  [0x31, 0x31, 0x34, 10, 0x31, 0x31, 0x31, 10, 0x39, 0x38, 10, 0x31, 0x31, 0x30, 10, 0x31, 0x30, 0x30, 10,
   0x31, 0x30, 0x31, 10, 0x39, 0x39, 10, 0x31, 0x30, 0x30, 10, 0x39, 0x37, 10, 0x30, 10]

/-- The bytes of "abracadabra". -/
def abracadabra : List Byte := [97, 98, 114, 97, 99, 97, 100, 97, 98, 114, 97]

/-- A state with an open packer. -/
def packing (n : Fin 8) (acc : Byte) (data : List Byte) (s : State) : State :=
  { s with bw := { isOpen := true, acc := acc, nbits := n, data := data }, outOwned := true }

/-- A state with an open unpacker whose terminator has been read. -/
def lastByte (pad pos : Fin 8) (c : Byte) (s : State) : State :=
  { s with
    br := { isOpen := true, hdrEmpty := false, pad := pad, cur := some c, nxt := none, pos := pos }
    inOwned := true
    inTerm := true }

/-- A state with an open unpacker whose terminator is still to be read. -/
def midStream (pos : Fin 8) (c n : Byte) (q : List Token) (s : State) : State :=
  { s with
    br := { isOpen := true, hdrEmpty := false, pad := 0, cur := some c, nxt := some n, pos := pos }
    inOwned := true
    inQ := q }

/-- The command ends in a next state that satisfies `p`. -/
def ends (i : Instr) (s : State) (p : State → Bool) : Bool :=
  match exec i s with
  | .next t => p t
  | .fault _ => false
  | .refused _ => false

/-! ### Well-formedness: each check refuses an ill-formed line -/

theorem test_wf_accepts : hostProgramWf
    [.wr 0x0C 4 0, .rd 0x08 4, .push [.eos], .outErr true, .jz (.reg .status) 6, .jmp 0] = true := by decide
theorem test_wf_rd_misaligned : HostLine.wf 1 (.rd 0x0A 4) = false := by decide
theorem test_wf_rd_narrow : HostLine.wf 1 (.rd 0x08 2) = false := by decide
theorem test_wf_rd_outside : HostLine.wf 1 (.rd 0x40 4) = false := by decide
theorem test_wf_wr_misaligned : HostLine.wf 1 (.wr 0x0D 4 0) = false := by decide
theorem test_wf_wr_narrow : HostLine.wf 1 (.wr 0x0C 1 0) = false := by decide
theorem test_wf_wr_outside : HostLine.wf 1 (.wr 0x40 4 0) = false := by decide
theorem test_wf_jmp_outside : HostLine.wf 1 (.jmp 2) = false := by decide
theorem test_wf_jz_outside : HostLine.wf 1 (.jz (.reg .status) 2) = false := by decide
theorem test_wf_jnz_outside : HostLine.wf 1 (.jnz (.reg .status) 2) = false := by decide
theorem test_wf_program_refused : hostProgramWf [.push [.eos], .rd 0x40 4] = false := by decide

/-! ### Decoding: the words of 30_encoding.md R100 and R102 (OPC in bits [7:0], the rest 0) -/

theorem test_decode_control : decodeTableWord 32 0x00 = some .nop ∧ decodeTableWord 32 0x01 = some .clearError ∧
    decodeTableWord 32 0x02 = some .softReset := by decide
theorem test_decode_freq : decodeTableWord 32 0x10 = some .freqClear ∧ decodeTableWord 32 0x11 = some .freqWrite ∧
    decodeTableWord 32 0x12 = some .freqRead := by decide
theorem test_decode_tree : decodeTableWord 32 0x20 = some .treeBuild ∧ decodeTableWord 32 0x21 = some .treeClear ∧
    decodeTableWord 32 0x22 = some .codeQuery ∧ decodeTableWord 32 0x23 = some .codeBit := by decide
theorem test_decode_table : decodeTableWord 32 0x28 = some .treeSave ∧
    decodeTableWord 32 0x29 = some .treeLoad := by decide
theorem test_decode_codec : decodeTableWord 32 0x30 = some .encodeSymbol ∧
    decodeTableWord 32 0x31 = some .decodeSymbol ∧ decodeTableWord 32 0x32 = some .compress ∧
    decodeTableWord 32 0x33 = some .decompress := by decide
theorem test_decode_packer : decodeTableWord 32 0x40 = some .bwOpen ∧ decodeTableWord 32 0x41 = some .bwWrite ∧
    decodeTableWord 32 0x42 = some .bwClose := by decide
theorem test_decode_unpacker : decodeTableWord 32 0x48 = some .brOpen ∧ decodeTableWord 32 0x49 = some .brHasNext ∧
    decodeTableWord 32 0x4A = some .brNext ∧ decodeTableWord 32 0x4B = some .brClose := by decide
/-- The word of COMPRESS bit by bit, bit 31 first (R100: `000000000000000000000000oooooooo`). -/
theorem test_decode_bits : decode 0b00000000000000000000000000110010 = .ok .compress := by rfl
theorem test_decode_reserved : decodeTableWord 32 0x03 = none ∧ decodeTableWord 32 0x4C = none ∧
    decodeTableWord 32 0xFF = none := by decide
theorem test_decode_mbz : decode 0x00000100 = .error .mbzNonzero ∧ decode 0x80000032 = .error .mbzNonzero := by
  exact ⟨rfl, rfl⟩
theorem test_decode_bytes : decodeBytes [0x32, 0, 0, 0, 0x7F] = .ok (.compress, [0x7F]) ∧
    decodeBytes [0x32, 0, 0] = .error .tooShort := by exact ⟨rfl, rfl⟩

/-! ### Control and frequency RAM (40_control_freq.md) -/

/-- R130's example. -/
theorem test_nop : ends .nop { ready with result := 7 } (fun t => t.result == 7 && !t.busy) = true := by decide
/-- R131's example: STATUS = 0x00000402. -/
theorem test_clear_error : statusWord { ready with err := some .missingCode } = 0x402 ∧
    ends .clearError { ready with err := some .missingCode, errInfo := 120 }
      (fun t => statusWord t == 0 && t.errInfo == 0) = true := by decide
/-- R132's example: one CLOSE, no data byte, STATUS = 0. -/
theorem test_soft_reset : ends .softReset (packing 3 5 [] ready)
    (fun t => t.out == [OutToken.close] && statusWord t == 0) = true := by decide
/-- R133's example. -/
theorem test_freq_clear : ends .freqClear { ready with freq := ready.freq.set 65 9 }
    (fun t => freqAt t.freq 65 == 0) = true := by decide +kernel
/-- R134's examples. -/
theorem test_freq_write : ends .freqWrite { ready with arg0 := 97, arg1 := 5 }
    (fun t => freqAt t.freq 97 == 5 && freqAt t.freq 98 == 0) = true := by decide +kernel
theorem test_freq_write_checks : ends .freqWrite { ready with arg0 := 0x100 }
    (fun t => t.err == some .invalidArgument && t.errInfo == 0x100) = true := by decide
/-- R135's example. -/
theorem test_freq_read : ends .freqRead { ready with freq := ready.freq.set 97 5, arg0 := 97 }
    (fun t => t.result == 5) = true := by decide +kernel

/-! ### Tree builder (41_tree_build.md) -/

/-- R161's example. -/
theorem test_tree_build : ends .treeBuild { ready with freq := abraFreq }
    (fun t => t.tree == abraTree && t.result == 5 && treeInfoWord t == 0x00030005) = true := by decide +kernel
/-- The symbols that occur in `abraFreq`. -/
theorem present_abra : presentSymbols abraFreq = [97, 98, 99, 100, 114] := by
  simp only [presentSymbols, freqAt, abraFreq, State.reset, Vector.getElem_set, Vector.getElem_replicate]
  decide +kernel

/-- The symbols that occur where one counter is not zero. -/
theorem present_single : presentSymbols (State.reset.freq.set 255 0xFFFFFFFF) = [255] := by
  simp only [presentSymbols, freqAt, State.reset, Vector.getElem_set, Vector.getElem_replicate]
  decide +kernel

/-- R161: exactly one nonzero counter. -/
theorem test_tree_build_single :
    buildTree (State.reset.freq.set 255 0xFFFFFFFF) = .root (.leaf 255) .absent := by
  simp only [buildTree, seedQueue, present_single]
  decide +kernel

/-- R163's example. -/
theorem test_tree_clear : ends .treeClear abra (fun t => treeInfoWord t == 0 && t.tree == .empty) = true := by decide
/-- R164's examples. -/
theorem test_code_query : ends .codeQuery { abra with arg0 := 99 } (fun t => t.result == 3) = true := by decide
theorem test_code_query_absent : ends .codeQuery { abra with arg0 := 120, result := 9 }
    (fun t => t.result == 0) = true := by decide
/-- R165's examples. -/
theorem test_code_bit : ends .codeBit { abra with arg0 := 98, arg1 := 0 } (fun t => t.result == 1) = true ∧
    ends .codeBit { abra with arg0 := 98, arg1 := 2, result := 9 } (fun t => t.result == 0) = true := by decide
theorem test_code_bit_index : ends .codeBit { abra with arg0 := 98, arg1 := 3 }
    (fun t => t.err == some .invalidArgument && t.errInfo == 3) = true := by decide

/-! ### Code table (42_code_table.md) -/

/-- R202's example. -/
theorem test_tree_save : ends .treeSave abra
    (fun t => t.out == outBytes abraText ++ [OutToken.close] && t.result == 5) = true := by decide +kernel
/-- R202, R342: OUT_ERR. -/
theorem test_tree_save_out_err : ends .treeSave { abra with outErr := true }
    (fun t => t.out == [OutToken.close] && statusWord t == 0x512 && t.errInfo == 1) = true := by decide +kernel
/-- R207's example, and the malformed table of 95_test_vectors.md 1.8. -/
theorem test_tree_load : ends .treeLoad { ready with inQ := inBytes abraTextReordered ++ [Token.eos] }
    (fun t => t.tree == abraTree && t.result == 5) = true := by decide +kernel
theorem test_tree_load_malformed : ends .treeLoad { abra with inQ := inBytes [0x32, 10, 0x30, 0x31, 0x78, 10] ++ [Token.eos] }
    (fun t => t.err == some .malformedCodeTable && t.errInfo == 2 && t.tree == .empty) = true := by decide +kernel

/-! ### Symbol codec (43_translate.md) -/

/-- R242's example. -/
theorem test_encode_symbol : ends .encodeSymbol (packing 0 0 [] { abra with arg0 := 98 })
    (fun t => t.bw.nbits == 3 && t.bw.acc == 3 && t.result == 3) = true := by decide
theorem test_encode_symbol_missing : ends .encodeSymbol (packing 3 5 [] { abra with arg0 := 120 })
    (fun t => t.err == some .missingCode && t.errInfo == 120 && t.out == [OutToken.close]) = true := by decide
/-- R243's example: the first two symbols of 0x01, 0x76, 0x51, 0x3B. -/
theorem test_decode_symbol : ends .decodeSymbol (midStream 0 0x76 0x51 [.byte 0x3B, .eos] abra)
    (fun t => t.result == 97 && t.br.pos == 1) = true := by decide +kernel
theorem test_decode_symbol_next : ends .decodeSymbol (midStream 1 0x76 0x51 [.byte 0x3B, .eos] abra)
    (fun t => t.result == 98 && t.br.pos == 4) = true := by decide +kernel
/-- R244's example and its corner case of an empty input. -/
theorem test_compress : ends .compress { abra with inQ := inBytes abracadabra ++ [Token.eos] }
    (fun t => t.out == outBytes [0x01, 0x76, 0x51, 0x3B] ++ [OutToken.close] && t.result == 4) = true := by decide +kernel
theorem test_compress_empty : ends .compress { ready with inQ := [.eos] }
    (fun t => t.out == [.byte 0, .close] && t.result == 1) = true := by decide +kernel
/-- R245's examples. -/
theorem test_decompress : ends .decompress { abra with inQ := inBytes [0x01, 0x76, 0x51, 0x3B] ++ [Token.eos] }
    (fun t => t.out == outBytes abracadabra ++ [OutToken.close] && t.result == 11) = true := by decide +kernel
theorem test_decompress_truncated : ends .decompress { abra with inQ := inBytes [0x06, 0x01] ++ [Token.eos] }
    (fun t => t.err == some .exhaustion && t.errInfo == 2) = true := by decide +kernel

/-! ### Packer (44_bitwriter.md) -/

/-- R283's example. -/
theorem test_bw_open : ends .bwOpen ready
    (fun t => statusWord t == 4 && bwInfoWord t == 0 && bwCountWord t == 0 && t.out == []) = true := by decide
/-- R284's example, its third bit, and the check of the BIT operand. -/
theorem test_bw_write : ends .bwWrite (packing 2 1 [] { ready with arg0 := 1 })
    (fun t => t.bw.acc == 5 && bwInfoWord t == 3 && bwCountWord t == 0) = true := by decide
theorem test_bw_write_checks : ends .bwWrite (packing 2 1 [] { ready with arg0 := 2, diagEn := true })
    (fun t => t.err == some .invalidArgument && t.errInfo == 2 && t.diag == []) = true := by decide
/-- R285's example: 1, 0, 1, 1, 0, 0, 0, 1, 1. -/
theorem test_bw_close : ends .bwClose (packing 1 1 [0x8D] ready)
    (fun t => t.out == [.byte 7, .byte 0x8D, .byte 1, .close] && t.result == 7) = true := by decide +kernel
/-- R244, D37, log 23: the close of COMPRESS writes all of its bytes, or only CLOSE. -/
theorem test_compress_close : (match tick (packing 0 0 [5] { ready with ctl := .emit [0, 5] (.compress 2) }) with
    | some t => t.out == [.byte 0, .byte 5, .close] && t.result == 2
    | none => false) = true ∧
    (match tick (packing 0 0 [5] { ready with outErr := true, ctl := .emit [0, 5] (.compress 2) }) with
    | some t => t.out == [.close] && t.err == some .resourceError && t.errInfo == 1
    | none => false) = true := by decide
/-- R285: OUT_ERR raised between two OutWrites of BW_CLOSE leaves the byte written. -/
theorem test_bw_close_out_err : (match tick (packing 0 0 [5] { ready with outErr := true, ctl := .emit [5] (.bwClose 0), out := [.byte 0] }) with
    | some t => t.out == [.byte 0, .close] && t.err == some .resourceError
    | none => false) = true := by decide
theorem test_bw_close_no_bits : ends .bwClose (packing 0 0 [] { ready with result := 9 })
    (fun t => t.out == [.byte 0, .close] && t.result == 0) = true := by decide +kernel

/-! ### Unpacker (45_bitreader.md) -/

/-- R313's example. -/
theorem test_br_open : ends .brOpen { ready with inQ := inBytes [7, 0x8D, 1] ++ [Token.eos] }
    (fun t => t.result == 7 && brInfoWord t == 0x670 && t.inQ == [.eos]) = true := by decide +kernel
theorem test_br_open_empty : ends .brOpen { ready with inQ := [.eos] }
    (fun t => t.result == 0xFFFFFFFF && brInfoWord t == 0x100) = true := by decide +kernel
/-- R314's example: after nine reads. -/
theorem test_br_has_next : ends .brHasNext (lastByte 7 1 1 { ready with result := 9 })
    (fun t => t.result == 0) = true := by decide
/-- R315's corner case: 0x07, 0xFF gives exactly one bit. -/
theorem test_br_next : ends .brNext (lastByte 7 0 0xFF ready)
    (fun t => t.result == 1 && t.br.pos == 1) = true := by decide +kernel
theorem test_br_next_exhausted : ends .brNext (lastByte 7 1 0xFF ready)
    (fun t => t.err == some .exhaustion && t.errInfo == 0) = true := by decide +kernel
/-- R316's example: the EOS is unread. -/
theorem test_br_close : ends .brClose (midStream 0 0xA5 0x3C [.eos] ready)
    (fun t => statusWord t == 0x40 && t.inQ == [.eos]) = true := by decide

/-! ### Dispatch, the host and the schedule -/

/-- R109, R110: BW_WRITE with the packer closed. -/
theorem test_illegal_state : ends .bwWrite ready
    (fun t => t.err == some .illegalState && t.errInfo == 0x41) = true := by decide
/-- R103: the illegal word 0x00000100. -/
theorem test_illegal_word : (match step (ready.withFetchWord 32 0x100) with
    | .next t => t.err == some .illegalCommand && t.errInfo == 0x100 && !t.busy
    | _ => false) = true := by decide
/-- The word of FREQ_READ placed as a CMD write places it runs in the next step, from reset. -/
theorem test_fetch_word : (match step (State.reset.withFetchWord 32 0x12) with
    | .next t => t.result == 0 && !t.busy && t.err == none
    | _ => false) = true := by decide +kernel
/-- R21, R24: a write while BUSY = 1 is dropped and sets WR_IGNORED. -/
theorem test_write_while_busy : writeReg .arg0 5 { ready with ctl := .accepted } =
    { ready with ctl := .accepted, wrIgnored := true } := by rfl
/-- R107: the pseudo-instruction CODE_BIT 98, 2. -/
theorem test_expansion : commandLines2 0 .codeBit 98 2 =
    [.wr 0x10 4 98, .wr 0x14 4 2, .wr 0x0C 4 0x23, .rd 0x08 4, .jnz (.and (.reg .status) (.const 1)) 3] := by decide

/-! ### Witnesses: the hypotheses of the obligations can be met -/

/-- A state with an error raised and recorded. -/
def inError : State :=
  { ready with err := some .missingCode, errInfo := 120, errHistory := [⟨.missingCode, 120⟩] }

/-- A state in the middle of DECODE_SYMBOL, holding at its refill. -/
def holding : State :=
  { ready with
    tree := .root (.leaf 0x41) (.internal (.leaf 0x42) (.leaf 0x43))
    br := { isOpen := true, hdrEmpty := false, pad := 0, cur := some 0xFF, nxt := none, pos := 0 }
    inOwned := true
    pending := 0x31
    ctl := .refill true (.decode { zero := .leaf 0x41, one := .internal (.leaf 0x42) (.leaf 0x43), depth := 0 } .single) }

/-- The bits 1, 0, 1, 1, 0, 0, 0, 1, 1 of 95_test_vectors.md 1.6. -/
def nineBits : List Bool := [true, false, true, true, false, false, false, true, true]

theorem isPacked_nineBits : IsPacked nineBits 7 [0x8D, 1] := by
  refine ⟨by decide, by decide, fun j d hj i hi => ?_⟩
  match j, hj with
  | 0, hj => obtain rfl := Option.some.inj hj; interval_cases i <;> decide
  | 1, hj => obtain rfl := Option.some.inj hj; interval_cases i <;> decide
  | j + 2, hj => simp at hj

/-- The packed form of 1 to 8 bits is one byte. -/
theorem isPacked_one {bits : List Bool} {h d : Byte} (hl : 1 = (bits.length + 7) / 8)
    (hh : h.toNat = (8 - bits.length % 8) % 8) (hb : ∀ i : Fin 8, d.getLsbD i = bits.getD i false) : IsPacked bits h [d] := by
  refine ⟨hl, hh, fun j e hj i hi => ?_⟩
  match j, hj with
  | 0, hj => obtain rfl := Option.some.inj hj; simpa using hb ⟨i, hi⟩
  | j + 1, hj => simp at hj

theorem isPacked_none : IsPacked [] 0 [] := ⟨by decide, by decide, fun j d hj => by simp at hj⟩

theorem witness_Ready : Ready ready ∧ Ready abra := ⟨⟨rfl, rfl, rfl, rfl⟩, ⟨rfl, rfl, rfl, rfl⟩⟩

theorem witness_WindowReadsWhenIdle : ready.ctl = .idle ∧ (0x00, 0x48460001) ∈ windowWords ready ∧
    (0x3C, 0) ∈ windowWords ready := by decide

theorem witness_BusyReadsAreFreeOrExact : ready.ctl = .idle ∧ holding.ctl ≠ .idle ∧
    Reg.brInfo ∈ [Reg.result, .errInfo, .treeInfo, .bwInfo, .bwCount, .brInfo] ∧
    Reg.arg1 ∉ [Reg.result, .errInfo, .treeInfo, .bwInfo, .bwCount, .brInfo] := by decide

theorem witness_StatusFieldPlaces : ready.err = none ∧ inError.err = some .missingCode ∧
    (ErrName.missingCode, 0x04) ∈ errorCodes ∧ (ErrName.capacityExceeded, 0x14) ∈ errorCodes := by decide

theorem witness_HostAccessEffects : ready.ctl = .idle ∧ holding.ctl ≠ .idle ∧
    Reg.ctrl ∈ [Reg.ctrl, .cmd, .arg0, .arg1] ∧ Reg.reserved 3 ∉ [Reg.ctrl, .cmd, .arg0, .arg1] ∧
    Reg.arg1 ≠ .cmd := by decide

theorem witness_UndefinedAccessesRefused : ¬(2 = 4 ∧ 0x3C % 4 = 0 ∧ 0x3C ≤ 0x3C) ∧
    ¬(4 = 4 ∧ 0x3D % 4 = 0 ∧ 0x3D ≤ 0x3C) ∧ ¬(4 = 4 ∧ 0x40 % 4 = 0 ∧ 0x40 ≤ 0x3C) ∧
    (4 = 4 ∧ 0x3C % 4 = 0 ∧ 0x3C ≤ 0x3C) := by decide

/-- R383: a write of CMD waits for BUSY = 0. -/
theorem test_duty_busy : keepsDuty (wrLine .cmd 0) ready = true ∧ keepsDuty (wrLine .cmd 0) holding = false ∧
    keepsDuty (rdLine .status) holding = true ∧ keepsDuty (.rd 0x08 2) ready = false := by decide
/-- R384: ERR_CODE and ERR_INFO are read before CLEAR_ERROR, and values read before the error do not count. -/
theorem test_duty_recover : keepsDuty (wrLine .cmd 1) inError = false ∧
    keepsDuty (wrLine .cmd 1) (hostRead .errInfo (hostRead .status inError)) = true ∧
    keepsDuty (wrLine .cmd 1) (hostRead .status inError) = false ∧
    keepsDuty (wrLine .cmd 1) (hostRead .errInfo inError) = false ∧
    keepsDuty (wrLine .cmd 1) (raiseError .missingCode 120 (hostRead .errInfo (hostRead .status inError))) = false ∧
    keepsDuty (wrLine .cmd 1) { hostRead .errInfo { hostRead .status inError with ctl := .accepted } with ctl := .idle } =
      false := by decide +kernel

/-- A host that stands at one line. -/
def hostAt (l : HostLine) (s : State) : State := { s with host := { s.host with prog := [l] } }

/-- A run of one step of a dutiful host. -/
theorem dutifulRun_push : ∃ t : State, DutifulRun (hostAt (.push []) ready) t ∧ t.hostDone = true :=
  ⟨_, .tail (.refl _) rfl rfl, rfl⟩

theorem witness_DutifulHost : (hostAt (wrLine .cmd 0x32) ready).dutiful = true ∧ ready.wrIgnored = false ∧
    (∃ t : State, DutifulRun (hostAt (.push []) ready) t ∧ t.hostDone = true) ∧
    (hostAt (wrLine .cmd 0x02) (hostRead .errInfo (hostRead .status inError))).dutiful = true ∧
    (hostAt (wrLine .cmd 0x02) inError).hostLineTaken = some (.wr 0x0C 4 0x02) ∧ inError.err ≠ none ∧
    (∃ t : State, step (hostAt (rdLine .status) inError) = .next t ∧ t.host.codeSeen ≠ inError.host.codeSeen) ∧
    (∃ t : State, step (hostAt (rdLine .errInfo) inError) = .next t ∧ t.host.infoSeen ≠ inError.host.infoSeen) ∧
    ∃ t : State, step (ready.withFetchWord 32 0x41) = .next t ∧ t.err ≠ none :=
  ⟨by decide, rfl, dutifulRun_push, by decide, rfl, by decide, ⟨_, rfl, by decide⟩, ⟨_, rfl, by decide⟩, _, rfl, by decide⟩

theorem witness_StepRunsDecodedCommand :
    (ready.withFetchWord 32 0x32).ctl = .accepted ∧ decode (ready.withFetchWord 32 0x32).pending = .ok .compress ∧
    (ready.withFetchWord 32 0x32).turns = [.engine none] ∧
    { ready.withFetchWord 32 0x32 with turns := [] }.turns = [] ∧
    (tick { holding with inQ := [.eos] }).isSome = true := ⟨rfl, rfl, rfl, rfl, by decide⟩

theorem witness_ErrorGateAndIllegalWords : inError.err ≠ none ∧ Instr.bwWrite ∉ [Instr.nop, .clearError, .softReset] ∧
    { ready with ctl := .accepted, pending := 0x4C }.turns = [] ∧
    (ready.withFetchWord 32 0x4C).ctl = .accepted ∧ (ready.withFetchWord 32 0x4C).turns = .engine none :: [] ∧
    IllegalWord 0x4C ∧ IllegalWord 0x100 ∧
    IllegalWord 0x03 ∧ IllegalWord 0xFF ∧ ¬IllegalWord 0x4B ∧ ¬IllegalWord 0x02 := by
  refine ⟨by decide, by decide, rfl, rfl, rfl, ?_, ?_, ?_, ?_, ?_, ?_⟩ <;> simp [IllegalWord]

theorem witness_StatePreconditions : ready.err = none ∧ (Instr.bwClose, True) ∈ preconditions ready ∧
    (Instr.brNext, ready.br.isOpen = true) ∈ preconditions ready ∧ ¬(ready.br.isOpen = true) ∧
    (lastByte 0 0 1 ready).br.isOpen = true := by
  refine ⟨rfl, ?_, ?_, by decide, rfl⟩ <;> simp [preconditions]

theorem witness_RaisingCommandAbortsOnce : ready.err = none ∧
    (∃ t : State, exec .bwWrite ready = .next t ∧ t.err = some .illegalState) ∧ ready.quantum = none ∧
    ∃ t : State, exec .compress { ready with inQ := [.eos] } = .next t ∧ t.ctl = .idle ∧ t.err = none :=
  ⟨rfl, ⟨_, rfl, by decide⟩, rfl, _, rfl, by decide +kernel, by decide +kernel⟩

theorem witness_FrequencyCommands : ready.err = none ∧
    { ready with arg0 := 255 }.arg0 = (255 : Byte).zeroExtend 32 ∧ 255 < { ready with arg0 := 256 }.arg0.toNat := by
  decide

theorem witness_TreeBuildCompletes : ready.err = none ∧ ready.bw.isOpen = false ∧ ready.br.isOpen = false := by decide

theorem witness_BuiltTreeShape : presentSymbols State.reset.freq = [] ∧
    presentSymbols (State.reset.freq.set 255 0xFFFFFFFF) = [255] ∧ 2 ≤ (presentSymbols abraFreq).length := by
  refine ⟨?_, present_single, by rw [present_abra]; decide⟩
  simp only [presentSymbols, freqAt, State.reset, Vector.getElem_replicate]
  decide +kernel

theorem witness_BuiltCodesArePrefixFree : (buildTree abraFreq).code 97 = some [false] ∧ [false] <+: [false] := by
  refine ⟨?_, List.prefix_rfl⟩
  simp only [buildTree, seedQueue, present_abra]
  decide +kernel

theorem witness_BuiltTreeIsOptimal : 2 ≤ (presentSymbols abraFreq).length ∧
    ∀ u ∈ presentSymbols abraFreq, ∀ v ∈ presentSymbols abraFreq, byteBits u <+: byteBits v → u = v := by
  rw [present_abra]
  decide +kernel

theorem witness_TreeClearEmptiesTree : abra.err = none ∧ abra.bw.isOpen = false ∧ abra.br.isOpen = false := by decide

theorem witness_CodeQueryGivesDepth : 255 < { abra with arg0 := 256 }.arg0.toNat ∧
    { abra with arg0 := 97 }.arg0 = (97 : Byte).zeroExtend 32 ∧ abra.tree.code 97 = some [false] ∧
    abra.tree.code 255 = none ∧ abra.tree.wf = true ∧ abra.err = none := by decide

theorem witness_CodeBitGivesPathBit : abra.err = none ∧ 255 < { abra with arg0 := 256 }.arg0.toNat ∧
    { abra with arg0 := 98 }.arg0 = (98 : Byte).zeroExtend 32 ∧ abra.tree.code 120 = none ∧
    abra.tree.code 98 = some [true, true, false] ∧
    [true, true, false].length ≤ { abra with arg1 := 3 }.arg1.toNat ∧
    [true, true, false][{ abra with arg1 := 2 }.arg1.toNat]? = some false := by decide

theorem witness_TreeSaveWritesTable : abra.err = none ∧ abra.bw.isOpen = false ∧ abra.quantum = none ∧
    abra.outErr = false ∧ { abra with outErr := true }.outErr = true ∧ abra.tree.leaves ≠ [] ∧
    ready.tree.leaves = [] := by decide

/-- The running states at a later OutWrite of TREE_SAVE, BW_CLOSE and DECOMPRESS, with OUT_ERR 1 and 0. -/
theorem witness_LaterOutWrites : { abra with ctl := .emit [10] (.save 5) }.ctl = .emit (10 :: []) (.save 5) ∧
    { abra with ctl := .emit [1] (.bwClose 7) }.ctl = .emit (1 :: []) (.bwClose 7) ∧
    { abra with ctl := .putSymbol 97 3 }.ctl = .putSymbol 97 3 ∧ { abra with outErr := true }.outErr = true ∧
    abra.outErr = false := ⟨rfl, rfl, rfl, rfl, rfl⟩

theorem witness_SaveThenLoadGivesSameTree : abra.tree.wf = true ∧ abra.outErr = false ∧
    Ready { ready with inQ := inBytes abraText ++ [Token.eos] } ∧
    ∃ t : State, exec .treeSave abra = .next t ∧ t.out = abra.out ++ outBytes abraText ++ [OutToken.close] :=
  ⟨by decide, rfl, ⟨rfl, rfl, rfl, rfl⟩, _, rfl, by decide +kernel⟩

theorem witness_LoadDependsOnlyOnThePairs :
    Ready { ready with inQ := inBytes (tableText [(65, [false])]) ++ [Token.eos] } ∧ ready.inDrain = false ∧
    Consistent [(65, [false]), (66, [true]), (65, [false])] ∧ ¬Consistent [(65, [false]), (66, [false, true])] ∧
    (∀ x ∈ [((65 : Byte), [false])], x.2 ≠ [] ∧ x.2.length ≤ 255) ∧ abraTree.wf = true := by
  refine ⟨⟨rfl, rfl, rfl, rfl⟩, rfl, ?_, ?_, by decide, by decide⟩ <;> unfold Consistent <;> decide

theorem witness_FailedLoadLeavesTreeEmpty : abra.err = none ∧ abra.bw.isOpen = false ∧ abra.br.isOpen = false ∧
    (∃ t : State, exec .treeLoad { abra with inQ := [.err] } = .next t ∧ t.err ≠ none) ∧
    (∃ t : State, exec .treeLoad abra = .next t ∧ t.ctl ≠ .idle) :=
  ⟨rfl, rfl, rfl, ⟨_, rfl, by decide +kernel⟩, ⟨_, rfl, by decide +kernel⟩⟩

theorem witness_TableLineChecks :
    (∀ c ∈ [(0x30 : Byte), 0x32, 0x35, 0x35], 0x30 ≤ c.toNat ∧ c.toNat ≤ 0x39) ∧
    Nat.ofDigits 10 ([(0x30 : Byte), 0x32, 0x35, 0x35].reverse.map (fun c => c.toNat - 0x30)) = (255 : Byte).toNat ∧
    255 < Nat.ofDigits 10 ([(0x32 : Byte), 0x35, 0x36].reverse.map (fun c => c.toNat - 0x30)) ∧
    LoadState.start.sym = none ∧ LoadState.start.line = [] ∧ { LoadState.start with sym := some 1 }.sym ≠ none ∧
    (∃ c ∈ [(0x78 : Byte)], c ≠ 0x30 ∧ c ≠ 0x31) ∧ (∀ c ∈ List.replicate 256 (0x30 : Byte), c = 0x30 ∨ c = 0x31) ∧
    255 < (List.replicate 256 (0x30 : Byte)).length := by
  refine ⟨by decide, by simp [Nat.ofDigits], by simp [Nat.ofDigits], rfl, rfl, by decide, by decide, ?_, ?_⟩
  case refine_2 => rw [List.length_replicate]; decide
  exact fun c hc => .inl (List.eq_of_mem_replicate hc)

/-- The end of a table: R207's unpaired symbol line "65", a last line without LF, an ERR, and the states they stand in. -/
theorem witness_TableEnd : { ready with ctl := .load .start }.ctl = .load .start ∧
    { ready with inOwned := true }.inOwned = true ∧ ready.inTerm = false ∧ (0x30 : Byte) ≠ 0x0A ∧
    LoadState.start.line = [] ∧ { LoadState.start with line := [0x36] }.line ≠ [] ∧
    Ready { ready with inQ := inBytes (tableText [] ++ dec 65) ++ .eos :: [] } ∧ ready.inDrain = false ∧
    (∀ y ∈ ([] : List (Byte × List Bool)), y.2 ≠ [] ∧ y.2.length ≤ 255) ∧ Consistent [] ∧
    Consistent ([] ++ [((65 : Byte), [false])]) ∧ dec 65 = [0x36, 0x35] ∧ 0 ≤ (tableText []).length := by
  refine ⟨rfl, rfl, rfl, by decide, rfl, by decide, ⟨rfl, rfl, rfl, rfl⟩, rfl, by decide, ?_, ?_, ?_, by decide⟩
  · unfold Consistent; decide
  · unfold Consistent; decide
  · decide +kernel

/-- R206, and 95_test_vectors.md 2.4: 65 at 0 and then 66 at 0 collide; a pair that does not. -/
theorem witness_TableCollision : { LoadState.start with sym := some 66, line := [0x30] }.line = [false].map bitText ∧
    (Tree.root (.leaf 65) .absent).insert [false] 66 = none ∧
    (Tree.root (.leaf 65) .absent).insert [true] 66 = some (.root (.leaf 65) (.leaf 66)) ∧
    Consistent [((65 : Byte), [false])] ∧ ¬Consistent ([((65 : Byte), [false])] ++ [(66, [false])]) := by
  refine ⟨rfl, by decide, by decide, ?_, ?_⟩ <;> unfold Consistent <;> decide

/-- 95_test_vectors.md 2.4: the collision is in line 4. -/
theorem test_tree_load_collision : ends .treeLoad { ready with inQ := inBytes [0x36, 0x35, 10, 0x30, 10, 0x36, 0x36, 10, 0x30, 10] ++ [Token.eos] }
    (fun t => t.err == some .malformedCodeTable && t.errInfo == 4) = true := by decide +kernel
/-- R207: an odd number of lines, the last one without LF. -/
theorem test_tree_load_unpaired : ends .treeLoad { abra with inQ := inBytes [0x36, 0x35, 10, 0x30, 10, 0x36, 0x36] ++ [Token.eos] }
    (fun t => t.err == some .malformedCodeTable && t.errInfo == 3 && t.tree == .empty) = true := by decide +kernel
/-- R203: the last line need not end with LF. -/
theorem test_tree_load_no_lf : ends .treeLoad { ready with inQ := inBytes [0x36, 0x35, 10, 0x30] ++ [Token.eos] }
    (fun t => t.err == none && t.result == 1 && t.tree == .root (.leaf 65) .absent) = true := by decide +kernel

theorem witness_BwOpenOpensPacker : ready.err = none ∧ ready.bw.isOpen = false := by decide

theorem witness_BwWriteAddsOneBit : (packing 6 0 [] ready).err = none ∧ (packing 6 0 [] ready).bw.isOpen = true ∧
    1 < (packing 6 0 [] { ready with arg0 := 2 }).arg0.toNat ∧ (packing 6 0 [] { ready with arg0 := 1 }).arg0 = 1 ∧
    (packing 6 0 [] ready).bw.nbits ≠ 7 ∧ (packing 7 0 [] ready).bw.nbits = 7 ∧
    (packing 7 0 [1, 2, 3] ready).bw.data.length ≠ (packing 7 0 [1, 2, 3] ready).bwCap ∧
    (packing 7 0 [1, 2, 3, 4] ready).bw.data.length = (packing 7 0 [1, 2, 3, 4] ready).bwCap := by decide

theorem witness_BwCloseWritesStream : ready.err = none ∧ ready.quantum = none ∧ ready.bw.isOpen = false ∧
    (packing 1 1 [1, 2, 3, 4] ready).bw.isOpen = true ∧ (packing 1 1 [1, 2, 3, 4] ready).bw.nbits ≠ 0 ∧
    (packing 1 1 [1, 2, 3, 4] ready).bw.data.length = (packing 1 1 [1, 2, 3, 4] ready).bwCap ∧
    (packing 0 0 [1, 2, 3, 4] ready).bw.nbits = 0 ∧ (packing 1 1 [1, 2, 3] ready).bw.data.length ≠ ready.bwCap ∧
    (packing 0 0 [] { ready with outErr := true }).outErr = true ∧ ready.outErr = false := by decide

theorem witness_PackerSessionOutput : ready.err = none ∧ ready.bw.isOpen = false ∧ ready.quantum = none ∧
    ready.outErr = false ∧ (nineBits.length + 7) / 8 ≤ ready.bwCap ∧
    ((List.replicate 32 true).length + 7) / 8 ≤ ready.bwCap := by decide

theorem witness_DiagEchoChangesNothingElse :
    ∃ t : State, exec .bwWrite (packing 0 0 [] { ready with diagEn := true }) = .next t ∧ t.diag = [0x30] :=
  ⟨_, rfl, by decide⟩

theorem witness_BrOpenReadsHeaderAndWindow : ready.err = none ∧ ready.br.isOpen = false ∧ ready.inDrain = false ∧
    ready.quantum = none ∧ 7 < (8 : Byte).toNat ∧ (7 : Byte).toNat = (7 : Fin 8).val ∧
    { ready with inQ := inBytes [7, 1] ++ [Token.eos] }.inQ = [Token.byte 7, .byte 1, .eos] ∧ ready.inQ = [] := by decide

theorem witness_BrHasNextTellsWhetherABitRemains :
    (lastByte 7 0 1 ready).err = none ∧ (lastByte 7 0 1 ready).br.isOpen = true := by decide

theorem witness_BrNextTakesOneBit : (lastByte 7 1 1 ready).err = none ∧ (lastByte 7 1 1 ready).br.isOpen = true ∧
    (lastByte 7 1 1 ready).quantum = none ∧
    ((lastByte 7 1 1 ready).br.nxt = none ∧
      8 - (lastByte 7 1 1 ready).br.pad.val ≤ (lastByte 7 1 1 ready).br.pos.val) ∧
    (lastByte 7 0 1 ready).br.pos.val < 8 - (lastByte 7 0 1 ready).br.pad.val ∧
    (lastByte 7 0 1 ready).br.cur = some 1 ∧ (lastByte 0 6 1 ready).br.pos ≠ 7 ∧
    (lastByte 0 7 1 ready).br.pos.val < 8 - (lastByte 0 7 1 ready).br.pad.val ∧ (lastByte 0 7 1 ready).br.pos = 7 ∧
    (lastByte 0 7 1 ready).inTerm = true ∧ (midStream 7 1 2 [.byte 3] ready).br.nxt ≠ none ∧
    (midStream 7 1 2 [.byte 3] ready).br.pos = 7 ∧ (midStream 7 1 2 [.byte 3] ready).inTerm = false ∧
    (midStream 7 1 2 [.eos] ready).inQ = [.eos] ∧ (midStream 7 1 2 [.err] ready).inQ = [.err] ∧
    (midStream 7 1 2 [] ready).inQ = [] := by decide

theorem witness_BrCloseReleasesSession : ready.err = none ∧ ready.br.isOpen = false ∧
    (midStream 0 1 2 [.eos] ready).br.isOpen = true := by decide

theorem witness_UnpackerReadsBackThePackedBits : ready.err = none ∧ ready.br.isOpen = false ∧ ready.inDrain = false ∧
    ready.quantum = none ∧ IsPacked nineBits 7 [0x8D, 1] ∧ IsPacked [] 0 [] ∧
    { ready with inQ := [.byte 7, .byte 0x8D, .byte 1, .eos] }.inQ = inBytes (7 :: [0x8D, 1]) ++ Token.eos :: [] :=
  ⟨rfl, rfl, rfl, rfl, isPacked_nineBits, isPacked_none, rfl⟩

theorem witness_EncodeSymbolWritesItsCode : (packing 7 0 [1, 2, 3] abra).err = none ∧
    (packing 7 0 [1, 2, 3] abra).bw.isOpen = true ∧ (packing 7 0 [1, 2, 3] abra).bw.wf 4 = true ∧
    255 < { abra with arg0 := 256 }.arg0.toNat ∧ { abra with arg0 := 98 }.arg0 = (98 : Byte).zeroExtend 32 ∧
    abra.tree.code 120 = none ∧ abra.tree.code 98 = some [true, true, false] ∧
    (heldBits (packing 7 0 [1, 2, 3] abra).bw ++ [true, true, false]).length / 8 ≤ abra.bwCap ∧
    abra.bwCap < (heldBits (packing 7 0 [1, 2, 3, 4] abra).bw ++ [true, true, false]).length / 8 := by decide

theorem witness_DecodeSymbolTakesOneCode : (lastByte 7 0 0 abra).err = none ∧ (lastByte 7 0 0 abra).br.isOpen = true ∧
    (lastByte 7 0 0 abra).quantum = none ∧ (lastByte 7 0 0 abra).tree.code 97 = some [false] ∧
    Window (lastByte 7 0 0 abra) [0] [] ∧ unread (lastByte 7 0 0 abra) [0] = [false] ++ [] ∧
    Window (midStream 0 0x76 0x51 [.byte 0x3B, .eos] abra) [0x76, 0x51, 0x3B] [] :=
  ⟨rfl, rfl, rfl, by decide, .inr (.inl ⟨rfl, rfl, 0, rfl, rfl, rfl⟩), by decide,
    .inl ⟨rfl, 0x76, 0x51, [0x3B], rfl, rfl, rfl, rfl⟩⟩

theorem witness_DecodeSymbolErrors : (lastByte 6 0 1 abra).err = none ∧ (lastByte 6 0 1 abra).br.isOpen = true ∧
    (lastByte 6 0 1 abra).quantum = none ∧ (lastByte 0 0 1 ready).tree = .empty ∧
    Window (lastByte 6 0 1 abra) [1] [] ∧
    abraTree.nodeAt [true, false] = .internal (.leaf 99) (.leaf 100) ∧
    unread (lastByte 6 0 1 abra) [1] = [true, false] ∧
    unread (lastByte 7 0 1 { ready with tree := .root (.leaf 65) .absent }) [1] = [] ++ true :: [] ∧
    (Tree.root (.leaf 65) .absent).nodeAt ([] ++ [true]) = .absent ∧
    (Tree.root (.leaf 65) .absent).nodeAt [] = .internal (.leaf 65) .absent ∧
    (midStream 6 0x40 2 [.err] abra).inQ = inBytes [] ++ .err :: [] ∧
    (([0x40, 2] : List Byte).dropLast.flatMap byteBits).drop 6 = [true] ++ [false] ∧
    abraTree.nodeAt [true] = .internal (.internal (.leaf 99) (.leaf 100)) (.internal (.leaf 98) (.leaf 114)) :=
  ⟨rfl, rfl, rfl, rfl, .inr (.inl ⟨rfl, rfl, 1, rfl, rfl, rfl⟩), rfl, by decide, by decide, rfl, rfl, rfl, by decide, rfl⟩

theorem witness_CompressWritesPackedCodes : Ready { abra with inQ := inBytes abracadabra ++ [Token.eos] } ∧
    abra.inDrain = false ∧ abra.outErr = false ∧ (∀ c ∈ abracadabra, abra.tree.code c ≠ none) ∧
    ((codeBits abra.tree abracadabra).length + 7) / 8 ≤ abra.bwCap :=
  ⟨⟨rfl, rfl, rfl, rfl⟩, rfl, rfl, by decide, by decide⟩

/-- COMPRESS before its close, with OUT_ERR = 1. -/
def closing : State :=
  packing 0 0 [5] { ready with outErr := true, inOwned := true, inTerm := true, pending := 0x32, ctl := .emit [0, 5] (.compress 2) }

theorem closing_inv : closing.Inv where
  tree_wf := by decide
  bw_wf := by decide
  br_wf := by decide
  cap_pos := by decide
  out_owned := by decide
  in_owned := by decide
  units := by decide
  place := by decide
  term_owned := by decide
  drain_free := by decide
  window_term := by decide
  running := by intro i h; obtain rfl := Option.some.inj h; exact ⟨rfl, rfl⟩
  descent := by intro d h; simp [closing, packing, descentAt] at h
  err_none := by decide
  err_last := by intro e h; simp [closing, packing, ready, State.reset] at h

theorem witness_FailedCompressWritesOnlyClose : abra.err = none ∧ abra.bw.isOpen = false ∧ abra.br.isOpen = false ∧
    (∃ t : State, exec .compress { abra with inQ := [.byte 97, .byte 120] } = .next t ∧ t.err ≠ none) ∧
    (∃ t : State, exec .compress { abra with inQ := [.byte 97] } = .next t ∧ t.ctl ≠ .idle) ∧
    closing.Inv ∧ runningCommand closing.ctl = some .compress ∧ ¬hostResets closing ∧
    (∃ t : State, step closing = .next t ∧ t.err ≠ none) ∧
    ∃ t : State, step { closing with turns := [.host] } = .next t ∧ t.ctl ≠ .idle :=
  ⟨rfl, rfl, rfl, ⟨_, rfl, by decide +kernel⟩, ⟨_, rfl, by decide +kernel⟩, closing_inv, rfl,
    fun h => by simp [hostResets, closing, packing, ready, State.reset, HostAgent.noProgram] at h,
    ⟨_, rfl, by decide +kernel⟩, _, rfl, by decide⟩

/-- Each error of COMPRESS, at the bounds of its condition: 8 bits where the packer holds 1 byte, and 15 and one more
code; 9 bits and EOS; 8 bits and EOS. -/
theorem witness_CompressErrors : Ready { abra with bwCap := 1, inQ := inBytes [97, 98] ++ .byte 120 :: [] } ∧
    abra.inDrain = false ∧ (∀ x ∈ [(97 : Byte), 98], abra.tree.code x ≠ none) ∧ abra.tree.code 120 = none ∧
    (codeBits abra.tree [98, 98, 98, 98, 98]).length = 15 ∧ 15 / 8 ≤ 1 ∧ abra.tree.code 97 = some [false] ∧
    1 < (codeBits abra.tree [98, 98, 98, 98, 98] ++ [false]).length / 8 ∧
    (codeBits abra.tree [98, 98, 98]).length = 9 ∧ 9 / 8 ≤ 1 ∧ 1 < (9 + 7) / 8 ∧
    ((codeBits abra.tree [98, 98, 97, 97]).length + 7) / 8 ≤ 1 ∧ { abra with outErr := true }.outErr = true :=
  ⟨⟨rfl, rfl, rfl, rfl⟩, rfl, by decide, by decide, by decide, by decide, by decide, by decide, by decide, by decide,
    by decide, by decide, rfl⟩

/-- R245's example, as an error that leaves OUT with its CLOSE only, and the packed form it stands for. -/
theorem witness_DecompressErrors :
    Ready { abra with inQ := inBytes (6 :: [1]) ++ .eos :: [] } ∧ abra.inDrain = false ∧ 7 < (8 : Byte).toNat ∧
    (7 : Byte).toNat ≤ 7 ∧ (∀ x ∈ ([] : List Byte), abra.tree.code x ≠ none) ∧ abra.outErr = false ∧
    abra.tree.nodeAt [true, false] = .internal (.leaf 99) (.leaf 100) ∧
    IsPacked (codeBits abra.tree [] ++ [true, false]) 6 [1] ∧
    (Tree.root (.leaf 65) .absent).nodeAt [] = .internal (.leaf 65) .absent ∧
    (Tree.root (.leaf 65) .absent).nodeAt ([] ++ [true]) = .absent ∧
    IsPacked (codeBits (.root (.leaf 65) .absent) [] ++ [] ++ true :: [false]) 6 [1] ∧
    Ready { abra with inQ := inBytes (0 :: [0xDB, 0]) ++ .err :: [] } ∧ 2 ≤ [0xDB#8, 0x00#8].length ∧
    [0xDB#8, 0x00#8].dropLast.flatMap byteBits = codeBits abra.tree [98, 98] ++ [true] ++ [true] ∧
    abra.tree.nodeAt [true] = .internal (.internal (.leaf 99) (.leaf 100)) (.internal (.leaf 98) (.leaf 114)) ∧
    { abra with outErr := true }.outErr = true ∧ abra.tree.code 97 = some [false] ∧ ready.tree = .empty ∧
    IsPacked ([false] ++ []) 7 [0] ∧ Ready { abra with outErr := true } :=
  ⟨⟨rfl, rfl, rfl, rfl⟩, rfl, by decide, by decide, by decide, rfl, rfl, isPacked_one (by decide) (by decide) (by decide), rfl,
    rfl, isPacked_one (by decide) (by decide) (by decide), ⟨rfl, rfl, rfl, rfl⟩, by decide, by decide, rfl, rfl, by decide, rfl,
    isPacked_one (by decide) (by decide) (by decide), ⟨rfl, rfl, rfl, rfl⟩⟩

/-- D37: the bytes decoded before an error stay on OUT. -/
theorem test_decompress_refill_error : ends .decompress { abra with inQ := inBytes [0, 0xDB, 0] ++ [Token.err] }
    (fun t => t.out == [.byte 98, .byte 98, .close] && t.err == some .resourceError && t.errInfo == 0) = true := by
  decide +kernel

theorem witness_DecompressWritesTheSymbols :
    Ready { abra with inQ := inBytes (7 :: [0]) ++ [Token.eos] } ∧ abra.inDrain = false ∧ abra.outErr = false ∧
    (∀ c ∈ [(97 : Byte)], abra.tree.code c ≠ none) ∧ IsPacked (codeBits abra.tree [97]) 7 [0] ∧
    { ready with inQ := [Token.eos] }.inQ = .eos :: [] ∧ (7 : Byte).toNat ≤ 7 ∧
    { ready with inQ := [.byte 7, .eos] }.inQ = .byte 7 :: .eos :: [] :=
  ⟨⟨rfl, rfl, rfl, rfl⟩, rfl, rfl, by decide, isPacked_one (by decide) (by decide) (by decide), rfl, by decide, rfl⟩

theorem witness_CompressThenDecompressRoundTrip :
    Ready { abra with inQ := inBytes abracadabra ++ [Token.eos] } ∧ abra.inDrain = false ∧ abra.outErr = false ∧
    Ready { abra with inQ := inBytes [1, 0x76, 0x51, 0x3B] ++ [Token.eos] } ∧
    ∃ t : State, exec .compress { abra with inQ := inBytes abracadabra ++ [Token.eos] } = .next t ∧ t.err = none ∧
      t.out = abra.out ++ outBytes [1, 0x76, 0x51, 0x3B] ++ [OutToken.close] :=
  ⟨⟨rfl, rfl, rfl, rfl⟩, rfl, rfl, ⟨rfl, rfl, rfl, rfl⟩, _, rfl, by decide +kernel, by decide +kernel⟩

theorem inError_inv : inError.Inv where
  tree_wf := by decide
  bw_wf := by decide
  br_wf := by decide
  cap_pos := by decide
  out_owned := by decide
  in_owned := by decide
  units := by decide
  place := by decide
  term_owned := by decide
  drain_free := by decide
  window_term := by decide
  running := by intro i h; simp [inError, ready, State.reset, runningCommand] at h
  descent := by intro d h; simp [inError, ready, State.reset, descentAt] at h
  err_none := by decide
  err_last := by intro e h; obtain rfl := Option.some.inj h; rfl

theorem holding_inv : holding.Inv where
  tree_wf := by decide
  bw_wf := by decide
  br_wf := by decide
  cap_pos := by decide
  out_owned := by decide
  in_owned := by decide
  units := by decide
  place := by decide
  term_owned := by decide
  drain_free := by decide
  window_term := by decide
  running := by intro i h; obtain rfl := Option.some.inj h; exact ⟨rfl, rfl⟩
  descent := by intro d h; obtain rfl := Option.some.inj h; exact ⟨[], rfl, rfl⟩
  err_none := by decide
  err_last := by intro e h; simp [holding, ready, State.reset] at h

theorem witness_TreeInfoAgreesWithTree : holding.Inv ∧ inError.Inv ∧ holding.tree ≠ .empty ∧
    inError.tree = .empty ∧ holding.tree.code 0x41 = some [false] :=
  ⟨holding_inv, inError_inv, by decide, rfl, by decide⟩

theorem witness_UnitInfoRegisters : holding.Inv ∧ inError.Inv ∧ inError.br.isOpen = false :=
  ⟨holding_inv, inError_inv, rfl⟩

theorem witness_EveryStepKeepsInvariant : holding.Inv ∧ (∃ t : State, step { holding with inQ := [.byte 5] } = .next t) ∧
    inError.Inv ∧ (∃ t : State, step inError = .next t) ∧ inError.outClosed :=
  ⟨holding_inv, ⟨_, rfl⟩, inError_inv, ⟨_, rfl⟩, fun _ => rfl⟩

theorem witness_ErrorStaysUntilCleared : inError.Inv ∧ inError.err = some .missingCode ∧
    (∃ t : State, step inError = .next t) ∧ hostResets (hostAt .powerOnReset inError) ∧
    ¬hostResets (hostAt .powerOnReset (inError.withFetchWord 32 0x32)) :=
  ⟨inError_inv, rfl, ⟨_, rfl⟩, ⟨.inr ⟨rfl, rfl⟩, rfl⟩, fun h => by
    simp [hostResets, hostAt, State.withFetchWord, placeCommand] at h⟩

theorem witness_OnlyTheirCommandsChangeFreqAndTree : holding.Inv ∧ (∃ t : State, step holding = .next t) ∧
    ¬hostResets holding := ⟨holding_inv, ⟨_, rfl⟩, fun h => by simp [hostResets, holding, ready, State.reset, HostAgent.noProgram] at h⟩

theorem witness_OutputsAndHistoryOnlyGrow : ∃ t : State, step holding = .next t := ⟨_, rfl⟩

theorem readyAccepted_inv : { ready with ctl := .accepted }.Inv where
  tree_wf := by decide
  bw_wf := by decide
  br_wf := by decide
  cap_pos := by decide
  out_owned := by decide
  in_owned := by decide
  units := by decide
  place := by decide
  term_owned := by decide
  drain_free := by decide
  window_term := by decide
  running := by intro i h; simp [runningCommand] at h
  descent := by intro d h; simp [descentAt] at h
  err_none := by decide
  err_last := by intro e h; simp [ready, State.reset] at h

/-- A command accepted, and the host in the WAIT of R107 after it. -/
def waiting : State :=
  { ready with ctl := .accepted, pending := 0x28, host := { HostAgent.noProgram with prog := waitLines 0 } }

theorem waiting_inv : waiting.Inv where
  tree_wf := by decide
  bw_wf := by decide
  br_wf := by decide
  cap_pos := by decide
  out_owned := by decide
  in_owned := by decide
  units := by decide
  place := by decide
  term_owned := by decide
  drain_free := by decide
  window_term := by decide
  running := by intro i h; simp [waiting, runningCommand] at h
  descent := by intro d h; simp [waiting, descentAt] at h
  err_none := by decide
  err_last := by intro e h; simp [waiting, ready, State.reset] at h

theorem witness_CommandsEndOrWaitForInput : ready.quantum = none ∧
    (∃ t : State, DutifulRun (hostAt (.push []) ready) t ∧ t.hostDone = true) ∧ ready.outClosed ∧
    { ready with ctl := .accepted }.Inv ∧
    (∃ t : State, exec .treeSave { ready with ctl := .accepted } = .next t ∧ t.hostDone = true) ∧ waiting.Inv ∧
    ∃ t u : State, exec .treeSave waiting = .next t ∧ t.ctl = .idle ∧ QuietRun t u ∧ u.hostDone = true :=
  ⟨rfl, dutifulRun_push, fun _ => rfl, readyAccepted_inv, ⟨_, rfl, by decide +kernel⟩, waiting_inv, _, _, rfl, rfl,
    .tail (.tail (.refl _) (by decide +kernel) (by decide +kernel) rfl rfl) (by decide +kernel) (by decide +kernel) rfl rfl,
    by decide +kernel⟩

theorem witness_LatePushesMakeNoDifference : ready.quantum = none ∧
    ∃ t : State, exec .brOpen { ready with inQ := [.byte 7] } = .next t ∧ t.busy = true := ⟨rfl, _, rfl, by decide +kernel⟩

theorem witness_CutTurnsMakeNoDifference :
    ∃ t : State, exec .treeSave { abra with quantum := some 3 } = .next t ∧ t.busy = true := ⟨_, rfl, by decide +kernel⟩

theorem witness_DrainDiscardsTheAbandonedSession :
    { ready with inDrain := true, inQ := [.byte 1, .eos, .byte 2] }.inQ = inBytes [1] ++ Token.eos :: [.byte 2] ∧
    { ready with inDrain := true }.ctl = .idle ∧ { ready with inDrain := true }.turns = [] ∧
    Ready { ready with inDrain := true, inQ := [.byte 1, .eos, .byte 2] } ∧
    Instr.decompress ∈ [Instr.treeLoad, .compress, .brOpen, .decompress] :=
  ⟨rfl, rfl, rfl, ⟨rfl, rfl, rfl, rfl⟩, by decide⟩

end Sys2Proof.Tests
end

section
/-! PROOFS. The leaves of a well-formed TREE (spec 10_state.md R36, R38): how many there are, how deep they lie, and
that CODE finds each of them. -/

namespace Sys2Proof.Machine

/-- R36 conditions 4 to 6 for a TREE with a root. -/
theorem Tree.wf_root_iff {l r : Node} : (Tree.root l r).wf = true ↔
    (Node.internal l r).full = true ∧ ((Tree.root l r).leaves.map Prod.fst).Nodup ∧
      ∀ x ∈ (Tree.root l r).leaves, x.2.length ≤ Config.maxCodeLen := by
  simp [Tree.wf, and_assoc]

theorem Tree.symbols_nodup_of_wf {t : Tree} (h : t.wf = true) : (t.leaves.map Prod.fst).Nodup := by
  cases t with
  | empty => exact .nil
  | root l r => exact (Tree.wf_root_iff.1 h).2.1

theorem Tree.path_length_le_of_wf {t : Tree} (h : t.wf = true) {x : Byte × List Bool} (hx : x ∈ t.leaves) :
    x.2.length ≤ Config.maxCodeLen := by
  cases t with
  | empty => cases hx
  | root l r => exact (Tree.wf_root_iff.1 h).2.2 x hx

/-- No symbol stands on two leaves, so there are at most as many leaves as bytes. -/
theorem Tree.leaves_length_le_of_wf {t : Tree} (h : t.wf = true) : t.leaves.length ≤ 256 := by
  have hcard : Fintype.card Byte = 256 := by
    rw [Fintype.card_congr BitVec.equivFin.toEquiv, Fintype.card_fin]; rfl
  simpa [hcard] using (Tree.symbols_nodup_of_wf h).length_le_card

/-- A node that is present, without a childless INTERNAL node at or below it, has a leaf at or below it. -/
theorem Node.leaves_ne_nil_of_full {n : Node} (h : n.full = true) (hn : n ≠ .absent) (p : List Bool) :
    n.leaves p ≠ [] := by
  induction n generalizing p with
  | absent => exact absurd rfl hn
  | leaf s => exact List.cons_ne_nil _ _
  | internal l r ihl ihr =>
    simp only [Node.full, Bool.and_eq_true, Bool.or_eq_true, decide_eq_true_eq] at h
    obtain ⟨⟨hl | hr, hlf⟩, hrf⟩ := h
    · exact List.append_ne_nil_of_left_ne_nil (ihl hlf hl _) _
    · exact List.append_ne_nil_of_right_ne_nil _ (ihr hrf hr _)

theorem Tree.leaves_ne_nil_of_wf {t : Tree} (h : t.wf = true) (ht : t ≠ .empty) : t.leaves ≠ [] := by
  cases t with
  | empty => exact absurd rfl ht
  | root l r => exact Node.leaves_ne_nil_of_full (Tree.wf_root_iff.1 h).1 (by simp) []

/-- The first leaf of a symbol is its only one, so CODE gives the path of any leaf that holds it (R38). -/
theorem Tree.code_of_mem_leaves {t : Tree} (h : t.wf = true) {v : Byte} {p : List Bool} (hm : (v, p) ∈ t.leaves) :
    t.code v = some p := by
  obtain ⟨l₁, l₂, hl⟩ := List.append_of_mem hm
  have hnd := Tree.symbols_nodup_of_wf h
  rw [hl, List.map_append, List.map_cons, List.nodup_middle, List.nodup_cons] at hnd
  refine List.lookup_eq_some_iff.2 ⟨l₁, l₂, hl, fun x hx => bne_iff_ne.2 fun hv => hnd.1 ?_⟩
  exact List.mem_append_left _ (List.mem_map.2 ⟨x, hx, hv.symm⟩)

/-- The largest code length of a TREE with a leaf is attained (R30). -/
theorem Tree.exists_leaf_length_eq_maxDepth {t : Tree} (h : t.leaves ≠ []) :
    ∃ x ∈ t.leaves, x.2.length = t.maxDepth := by
  have hmax : (t.leaves.map fun x => x.2.length).max? = some t.maxDepth := by
    obtain ⟨x, xs, hx⟩ := List.exists_cons_of_ne_nil h
    rw [Tree.maxDepth, hx, List.map_cons, List.max?_cons', List.foldl_cons, Nat.zero_max]
  exact List.mem_map.1 (List.max?_mem hmax)

theorem Tree.exists_code_length_eq_maxDepth {t : Tree} (h : t.wf = true) (ht : t ≠ .empty) :
    ∃ v p, t.code v = some p ∧ p.length = t.maxDepth := by
  obtain ⟨⟨v, p⟩, hm, hd⟩ := Tree.exists_leaf_length_eq_maxDepth (Tree.leaves_ne_nil_of_wf h ht)
  exact ⟨v, p, Tree.code_of_mem_leaves h hm, hd⟩

theorem Tree.maxDepth_le_of_wf {t : Tree} (h : t.wf = true) : t.maxDepth ≤ Config.maxCodeLen := by
  by_cases hl : t.leaves = []
  · simp [Tree.maxDepth, hl]
  · obtain ⟨x, hx, hd⟩ := Tree.exists_leaf_length_eq_maxDepth hl
    exact hd ▸ Tree.path_length_le_of_wf h hx

end Sys2Proof.Machine
end

section
/-! PROOFS. TREE_INFO, BW_INFO, BW_COUNT and BR_INFO, field by field (spec 10_state.md R30 to R33). A field is read off
the concatenation by dropping the parts below it. -/

namespace Sys2Proof.Machine

/-- A host write of a register that is not CTRL, CMD, ARG0 or ARG1 changes nothing (20_memory.md R74). -/
theorem writeReg_eq_self {r : Reg} (h : r ∉ [Reg.ctrl, .cmd, .arg0, .arg1]) (v : Word) (s : State) :
    writeReg r v s = s := by
  cases r with
  | ctrl | cmd | arg0 | arg1 => simp at h
  | id | status | result | errInfo | treeInfo | bwInfo | bwCount | brInfo | reserved => rfl

/-! ### TREE_INFO -/

theorem treeInfoWord_leaves {s : State} (h : s.tree.wf = true) :
    ((treeInfoWord s).extractLsb' 0 9).toNat = s.tree.leaves.length := by
  have hn := Tree.leaves_length_le_of_wf h
  rw [treeInfoWord, BitVec.extractLsb'_append_eq_right, BitVec.toNat_ofNat, Nat.mod_eq_of_lt (by omega)]

theorem treeInfoWord_maxDepth {s : State} (h : s.tree.wf = true) :
    ((treeInfoWord s).extractLsb' 16 8).toNat = s.tree.maxDepth := by
  have hd : s.tree.maxDepth ≤ 255 := Tree.maxDepth_le_of_wf h
  rw [treeInfoWord, BitVec.extractLsb'_append_eq_of_le (by decide), BitVec.extractLsb'_append_eq_of_le (by decide),
    BitVec.extractLsb'_append_eq_right, BitVec.toNat_ofNat, Nat.mod_eq_of_lt (by omega)]

theorem treeInfoWord_reserved (s : State) :
    (treeInfoWord s).extractLsb' 9 7 = 0 ∧ (treeInfoWord s).extractLsb' 24 8 = 0 := by
  constructor
  · rw [treeInfoWord, BitVec.extractLsb'_append_eq_of_le (by decide), BitVec.extractLsb'_append_eq_right]; rfl
  · rw [treeInfoWord, BitVec.extractLsb'_append_eq_of_le (by decide), BitVec.extractLsb'_append_eq_of_le (by decide),
      BitVec.extractLsb'_append_eq_left]; rfl

theorem treeInfoWord_of_empty {s : State} (h : s.tree = .empty) : treeInfoWord s = 0 := by
  rw [treeInfoWord, h]; rfl

/-! ### BW_INFO and BW_COUNT -/

/-- R41: closed is empty; at most BW_CAPACITY bytes; no bit above the NBITS written ones is set. -/
theorem Packer.wf_iff {cap : Nat} {w : Packer} : w.wf cap = true ↔
    (w.isOpen = false → w = .closed) ∧ w.data.length ≤ cap ∧ w.acc.toNat < 2 ^ w.nbits.val := by
  simp [Packer.wf, or_iff_not_imp_left, and_assoc]

theorem bwInfoWord_nbits (s : State) : ((bwInfoWord s).extractLsb' 0 3).toNat = s.bw.nbits.val := by
  rw [bwInfoWord, BitVec.extractLsb'_append_eq_right, BitVec.toNat_ofNat, Nat.mod_eq_of_lt s.bw.nbits.isLt]

theorem bwInfoWord_reserved (s : State) : (bwInfoWord s).extractLsb' 3 29 = 0 :=
  BitVec.extractLsb'_append_eq_left

theorem bwCountWord_toNat {s : State} (h : s.bw.data.length < 2 ^ 32) :
    (bwCountWord s).toNat = s.bw.data.length := by
  rw [bwCountWord, if_pos h, BitVec.toNat_ofNat, Nat.mod_eq_of_lt h]

/-! ### BR_INFO -/

/-- R45: closed is empty; an empty source has no window and no padding; after EOF comes EOF. -/
theorem Unpacker.wf_iff {b : Unpacker} : b.wf = true ↔
    (b.isOpen = false → b = .closed) ∧ (b.hdrEmpty = true → b.cur = none ∧ b.pad = 0) ∧
      (b.cur = none → b.nxt = none ∧ b.pos = 0) := by
  simp [Unpacker.wf, or_iff_not_imp_left, and_assoc]

theorem brInfoWord_pos (s : State) : ((brInfoWord s).extractLsb' 0 3).toNat = s.br.pos.val := by
  rw [brInfoWord, BitVec.extractLsb'_append_eq_right, BitVec.toNat_ofNat, Nat.mod_eq_of_lt s.br.pos.isLt]

theorem brInfoWord_pad (s : State) : ((brInfoWord s).extractLsb' 4 3).toNat = s.br.pad.val := by
  rw [brInfoWord, BitVec.extractLsb'_append_eq_of_le (by decide), BitVec.extractLsb'_append_eq_of_le (by decide),
    BitVec.extractLsb'_append_eq_right, BitVec.toNat_ofNat, Nat.mod_eq_of_lt s.br.pad.isLt]

/-- The three flags of BR_INFO. -/
theorem brInfoWord_flags (s : State) :
    (brInfoWord s).getLsbD 8 = s.br.hdrEmpty ∧ (brInfoWord s).getLsbD 9 = s.br.cur.isSome ∧
      (brInfoWord s).getLsbD 10 = s.br.nxt.isSome := by
  simp only [brInfoWord, BitVec.getLsbD_append]
  simp

theorem brInfoWord_reserved (s : State) :
    (brInfoWord s).getLsbD 3 = false ∧ (brInfoWord s).getLsbD 7 = false ∧ (brInfoWord s).extractLsb' 11 21 = 0 := by
  refine ⟨?_, ?_, ?_⟩
  · simp only [brInfoWord, BitVec.getLsbD_append]; simp
  · simp only [brInfoWord, BitVec.getLsbD_append]; simp
  · rw [brInfoWord]
    iterate 6 rw [BitVec.extractLsb'_append_eq_of_le (by decide)]
    exact BitVec.extractLsb'_append_eq_left

theorem brInfoWord_of_closed {s : State} (h : s.br = .closed) : brInfoWord s = 0 := by
  rw [brInfoWord, h]; rfl

end Sys2Proof.Machine
end

section
/-! PROOFS. The statements about the registers that show TREE, the packer and the unpacker (spec 10_state.md R30 to
R33). -/

namespace Sys2Proof.Machine

/-- Settles O6: a well-formed TREE has at most 256 leaves, at depths up to 255, so both numbers fit their fields, and
CODE finds the leaf at the largest depth. -/
theorem treeInfoAgreesWithTree : Obligations.TreeInfoAgreesWithTree := by
  intro s hs
  have hwf := hs.tree_wf
  obtain ⟨hmid, hhigh⟩ := treeInfoWord_reserved s
  refine ⟨treeInfoWord_leaves hwf, Tree.leaves_length_le_of_wf hwf, ?_, ?_, treeInfoWord_of_empty, hmid, hhigh,
    treeInfoWord_of_empty rfl, fun v => writeReg_eq_self (by decide) v s⟩
  · rw [treeInfoWord_maxDepth hwf]
    exact fun v p hp => code_length_le_maxDepth hp
  · rw [treeInfoWord_maxDepth hwf]
    exact Tree.exists_code_length_eq_maxDepth hwf

/-- Settles O7: each field at its place, with the bounds and the closed unpacker from the invariant. -/
theorem unitInfoRegisters : Obligations.UnitInfoRegisters := by
  intro s hs
  obtain ⟨-, hcap, -⟩ := Packer.wf_iff.1 hs.bw_wf
  obtain ⟨hclosed, hempty, -⟩ := Unpacker.wf_iff.1 hs.br_wf
  obtain ⟨hhdr, hcur, hnxt⟩ := brInfoWord_flags s
  obtain ⟨h3, h7, hhigh⟩ := brInfoWord_reserved s
  have hreadOnly : ∀ r ∈ [Reg.bwInfo, .bwCount, .brInfo], r ∉ [Reg.ctrl, .cmd, .arg0, .arg1] := by decide
  exact ⟨bwInfoWord_nbits s, bwInfoWord_reserved s, bwCountWord_toNat, hcap,
    brInfoWord_pos s, h3, brInfoWord_pad s, h7, fun h => (hempty h).2, hhdr, hcur, hnxt, hhigh,
    fun h => brInfoWord_of_closed (hclosed h), rfl, rfl, brInfoWord_of_closed rfl,
    fun v r hr => writeReg_eq_self (hreadOnly r hr) v s⟩

end Sys2Proof.Machine
end

section
/-! PROOFS. Host register accesses, by BUSY and by register (spec 20_memory.md R74, R89). -/

namespace Sys2Proof.Machine

theorem State.busy_eq_false_iff {s : State} : s.busy = false ↔ s.ctl = .idle := by
  unfold State.busy
  cases s.ctl <;> simp

theorem State.busy_eq_true_iff {s : State} : s.busy = true ↔ s.ctl ≠ .idle := by
  rw [← Bool.not_eq_false, State.busy_eq_false_iff]

/-! ### Reads -/

/-- The six registers of R89. -/
theorem readsFreelyWhenBusy_iff {r : Reg} : readsFreelyWhenBusy r = true ↔
    r ∈ [Reg.result, .errInfo, .treeInfo, .bwInfo, .bwCount, .brInfo] := by
  cases r <;> simp [readsFreelyWhenBusy]

/-- With BUSY = 0 every register reads exactly (R89). -/
theorem readReg_of_idle {s : State} (h : s.ctl = .idle) (r : Reg) : readReg r s = (regValue r s, s) := by
  simp [readReg, State.busy_eq_false_iff.2 h]

/-- A register outside R89's six reads exactly whatever BUSY is. -/
theorem readReg_of_not_mem {r : Reg} (h : r ∉ [Reg.result, .errInfo, .treeInfo, .bwInfo, .bwCount, .brInfo])
    (s : State) : readReg r s = (regValue r s, s) := by
  simp [readReg, Bool.eq_false_iff.2 (mt readsFreelyWhenBusy_iff.1 h)]

/-- With BUSY = 1 each read of one of R89's six registers draws the next free value. -/
theorem readReg_of_busy {s : State} {r : Reg} (h : s.ctl ≠ .idle)
    (hr : r ∈ [Reg.result, .errInfo, .treeInfo, .bwInfo, .bwCount, .brInfo]) :
    readReg r s = (Config.unspecifiedRead s.draws, { s with draws := s.draws + 1 }) := by
  simp [readReg, State.busy_eq_true_iff.2 h, readsFreelyWhenBusy_iff.2 hr]

/-- A read changes at most the model's count of draws (R74). -/
theorem readReg_state (r : Reg) (s : State) : ∃ n, (readReg r s).2 = { s with draws := n } := by
  by_cases hs : s.ctl = .idle
  · exact ⟨s.draws, by rw [readReg_of_idle hs]⟩
  · by_cases hr : r ∈ [Reg.result, .errInfo, .treeInfo, .bwInfo, .bwCount, .brInfo]
    · exact ⟨s.draws + 1, by rw [readReg_of_busy hs hr]⟩
    · exact ⟨s.draws, by rw [readReg_of_not_mem hr]⟩

/-! ### Writes -/

theorem writeReg_cmd_of_idle {s : State} (h : s.ctl = .idle) (v : Word) :
    writeReg .cmd v s = { s with pending := v, ctl := .accepted } := by
  simp [writeReg, State.busy_eq_false_iff.2 h]

theorem writeReg_ctrl_of_idle {s : State} (h : s.ctl = .idle) (v : Word) :
    writeReg .ctrl v s = { s with diagEn := v.getLsbD 0 } := by
  simp [writeReg, State.busy_eq_false_iff.2 h]

theorem writeReg_arg0_of_idle {s : State} (h : s.ctl = .idle) (v : Word) :
    writeReg .arg0 v s = { s with arg0 := v } := by
  simp [writeReg, State.busy_eq_false_iff.2 h]

theorem writeReg_arg1_of_idle {s : State} (h : s.ctl = .idle) (v : Word) :
    writeReg .arg1 v s = { s with arg1 := v } := by
  simp [writeReg, State.busy_eq_false_iff.2 h]

/-- With BUSY = 1 a write of CTRL, CMD, ARG0 or ARG1 is dropped and sets WR_IGNORED (R74). -/
theorem writeReg_of_busy {s : State} {r : Reg} (h : s.ctl ≠ .idle) (hr : r ∈ [Reg.ctrl, .cmd, .arg0, .arg1])
    (v : Word) : writeReg r v s = { s with wrIgnored := true } := by
  have hb := State.busy_eq_true_iff.2 h
  cases r with
  | ctrl | cmd | arg0 | arg1 => exact if_pos hb
  | id | status | result | errInfo | treeInfo | bwInfo | bwCount | brInfo | reserved => simp at hr

/-- Only a write of CMD changes BUSY. -/
theorem writeReg_ctl {r : Reg} (h : r ≠ .cmd) (v : Word) (s : State) : (writeReg r v s).ctl = s.ctl := by
  cases r with
  | cmd => exact absurd rfl h
  | ctrl | arg0 | arg1 => simp only [writeReg]; split <;> rfl
  | id | status | result | errInfo | treeInfo | bwInfo | bwCount | brInfo | reserved => rfl

/-- The same write again meets the same BUSY, so it has the same effect; CMD's does not (R74). -/
theorem writeReg_writeReg {r : Reg} (hcmd : r ≠ .cmd) (v : Word) (s : State) :
    writeReg r v (writeReg r v s) = writeReg r v s := by
  have hctl := writeReg_ctl hcmd v s
  by_cases hr : r ∈ [Reg.ctrl, .cmd, .arg0, .arg1]
  · by_cases hs : s.ctl = .idle
    · have hs' := hctl.trans hs
      obtain rfl | rfl | rfl : r = .ctrl ∨ r = .arg0 ∨ r = .arg1 := by simpa [hcmd] using hr
      · rw [writeReg_ctrl_of_idle hs', writeReg_ctrl_of_idle hs]
      · rw [writeReg_arg0_of_idle hs', writeReg_arg0_of_idle hs]
      · rw [writeReg_arg1_of_idle hs', writeReg_arg1_of_idle hs]
    · rw [writeReg_of_busy (hctl.trans_ne hs) hr, writeReg_of_busy hs hr]
  · rw [writeReg_eq_self hr, writeReg_eq_self hr]

end Sys2Proof.Machine
end

section
/-! PROOFS. The statements about the host's reads and writes (spec 20_memory.md R74, R89). -/

namespace Sys2Proof.Machine

/-- Settles O4: the read of a register by BUSY and by R89's six registers. -/
theorem busyReadsAreFreeOrExact : Obligations.BusyReadsAreFreeOrExact :=
  fun s r => ⟨fun hs => readReg_of_idle hs r, readReg_of_busy, fun hr => readReg_of_not_mem hr s⟩

/-- Settles O8: the effect of each access by BUSY and by register. -/
theorem hostAccessEffects : Obligations.HostAccessEffects :=
  fun s r v => ⟨readReg_state r s,
    fun hs => ⟨writeReg_cmd_of_idle hs v, writeReg_ctrl_of_idle hs v, writeReg_arg0_of_idle hs v,
      writeReg_arg1_of_idle hs v⟩,
    fun hs hr => writeReg_of_busy hs hr v, fun hr => writeReg_eq_self hr v s, fun hr => writeReg_writeReg hr v s⟩

end Sys2Proof.Machine
end

section
/-! PROOFS. Where IllegalState is raised (spec 30_encoding.md R109, R110): at dispatch only. No command's own rule, and
no engine step inside a command, raises it, so a state without it stays without it. -/

namespace Sys2Proof.Machine

/-! ### The parts of an engine step -/

theorem inRead_byte_err {s t : State} {b : Byte} (h : inRead s = .byte b t) : t.err = s.err := by
  rcases inRead_cases s with ⟨hr, -⟩ | ⟨hr, -⟩ | ⟨_, _, hr, -⟩ | ⟨_, hr, -⟩ | ⟨_, hr, -⟩ <;>
    (rw [hr] at h; cases h <;> rfl)

theorem inRead_eof_err {s t : State} (h : inRead s = .eof t) : t.err = s.err := by
  rcases inRead_cases s with ⟨hr, -⟩ | ⟨hr, -⟩ | ⟨_, _, hr, -⟩ | ⟨_, hr, -⟩ | ⟨_, hr, -⟩ <;>
    (rw [hr] at h; cases h <;> rfl)

/-- What follows a sequence of two parts follows the second part after the first. -/
theorem Flow.finish_andThen (r : Flow) (g : State → Flow) (f : State → State) :
    (r.andThen g).finish f = r.finish fun s => (g s).finish f := by
  cases r <;> rfl

section
variable {s : State} (h : s.err ≠ some .illegalState)
include h

theorem loadLine_err_ne_illegalState (l : LoadState) : (loadLine l s).err ≠ some .illegalState := by
  unfold loadLine
  repeat' split
  all_goals simp [h]

theorem loadEnd_err_ne_illegalState (l : LoadState) : (loadEnd l s).err ≠ some .illegalState := by
  unfold loadEnd
  split <;> simp [h]

theorem startAttempt_err_ne_illegalState (m : DecodeFor) : (startAttempt m s).err ≠ some .illegalState := by
  unfold startAttempt
  split <;> simp [h]

theorem descend_err_ne_illegalState (b : Bool) (d : Descent) (m : DecodeFor) :
    (descend b d m s).err ≠ some .illegalState := by
  unfold descend
  split
  · simp
  · cases m <;> simp [symbolDecoded, h]
  · exact h

theorem bitTaken_err_ne_illegalState (b : Bool) (k : RefillFor) : (bitTaken b k s).err ≠ some .illegalState := by
  cases k with
  | brNext => simpa [bitTaken] using h
  | decode d m => exact descend_err_ne_illegalState h b d m

theorem takeBit_err_ne_illegalState (k : RefillFor) : (takeBit k s).err ≠ some .illegalState := by
  simp only [takeBit]
  split
  · exact h
  · exact bitTaken_err_ne_illegalState (by exact h) _ k

theorem brOpened_err_ne_illegalState (k : BrOpenFor) (v : Word) (b : Unpacker) :
    (brOpened k v b s).err ≠ some .illegalState := by
  cases k <;> simpa [brOpened] using h

theorem bwCloseStart_err_ne_illegalState (c : Bool) : (bwCloseStart c s).err ≠ some .illegalState := by
  unfold bwCloseStart
  split
  · simp
  · exact h

theorem emitEnd_err_ne_illegalState (k : EmitFor) : (emitEnd k s).err ≠ some .illegalState := by
  cases k <;> simpa [emitEnd, bwCloseEnd] using h

theorem tickEmit_err_ne_illegalState (rest : List Byte) (k : EmitFor) :
    (tickEmit rest k s).err ≠ some .illegalState := by
  rcases tickEmit_cases rest k s with ⟨-, ht⟩ | ⟨b, r, -, -, -, ht⟩ | ⟨-, -, ht⟩ <;> rw [ht]
  · exact emitEnd_err_ne_illegalState (by exact h) k
  · exact h
  · simp

theorem outWrite_err_ne_illegalState (b : Byte) (c : Ctl) : (outWrite b c s).err ≠ some .illegalState := by
  rcases outWrite_cases b c s with ⟨-, ht⟩ | ⟨-, ht⟩ <;> rw [ht]
  · exact h
  · simp

end

/-! ### The bits of the packer -/

section
variable {f : State → State} (hf : ∀ t, t.err ≠ some .illegalState → (f t).err ≠ some .illegalState)
  {s : State} (h : s.err ≠ some .illegalState)
include hf h

theorem bwWriteBit_finish_err_ne_illegalState (b : Bool) :
    ((bwWriteBit b s).finish f).err ≠ some .illegalState := by
  have hecho : (diagEcho b s).err ≠ some .illegalState := by
    unfold diagEcho
    split <;> simpa using h
  rcases bwWriteBit_cases b s with ⟨-, ht⟩ | ⟨-, -, ht⟩ | ⟨-, -, ht⟩ <;> rw [ht]
  · exact hf _ hecho
  · exact hf _ hecho
  · simp [Flow.finish]

theorem bwWriteBits_finish_err_ne_illegalState (p : List Bool) :
    ((bwWriteBits p s).finish f).err ≠ some .illegalState := by
  induction p generalizing s with
  | nil => exact hf s h
  | cons b p ih =>
    rw [bwWriteBits, Flow.finish_andThen]
    exact bwWriteBit_finish_err_ne_illegalState (fun _ => ih) h b

theorem encodeSymbolBits_finish_err_ne_illegalState (v : Byte) :
    ((encodeSymbolBits v s).finish f).err ≠ some .illegalState := by
  unfold encodeSymbolBits
  split
  · simp [Flow.finish]
  · exact bwWriteBits_finish_err_ne_illegalState hf h _

end

/-! ### An engine step, and a turn -/

section
variable {s t : State} (h : s.err ≠ some .illegalState)
include h

theorem tickOpenIn_err_ne_illegalState {k : OpenFor} (ht : tickOpenIn k s = some t) :
    t.err ≠ some .illegalState := by
  unfold tickOpenIn at ht
  split at ht
  · obtain ⟨_, _, -, rfl⟩ := drainStep_cases ht
    exact h
  · cases ht
    cases k <;> simpa [afterInOpen, bwOpenSession] using h

theorem tickLoad_err_ne_illegalState {l : LoadState} (ht : tickLoad l s = some t) :
    t.err ≠ some .illegalState := by
  unfold tickLoad at ht
  split at ht <;> cases ht
  next => simp
  next hr =>
    rw [← inRead_eof_err hr] at h
    split
    · exact loadEnd_err_ne_illegalState h l
    · exact loadLine_err_ne_illegalState h l
  next hr =>
    rw [← inRead_byte_err hr] at h
    split
    · exact loadLine_err_ne_illegalState h l
    · exact h

theorem tickHeader_err_ne_illegalState {k : BrOpenFor} (ht : tickHeader k s = some t) :
    t.err ≠ some .illegalState := by
  unfold tickHeader at ht
  split at ht <;> cases ht
  next => simp
  next hr => exact brOpened_err_ne_illegalState (inRead_eof_err hr ▸ h) k _ _
  next hr =>
    rw [← inRead_byte_err hr] at h
    split
    · simp
    · exact h

theorem tickFillCur_err_ne_illegalState {k : BrOpenFor} {p : Fin 8} (ht : tickFillCur k p s = some t) :
    t.err ≠ some .illegalState := by
  unfold tickFillCur at ht
  split at ht <;> cases ht
  next => simp
  next hr => exact inRead_eof_err hr ▸ h
  next hr => exact inRead_byte_err hr ▸ h

theorem tickFillNxt_err_ne_illegalState {k : BrOpenFor} {p : Fin 8} {c : Option Byte}
    (ht : tickFillNxt k p c s = some t) : t.err ≠ some .illegalState := by
  unfold tickFillNxt at ht
  split at ht <;> cases ht
  next => simp
  next hr => exact brOpened_err_ne_illegalState (inRead_eof_err hr ▸ h) k _ _
  next hr => exact brOpened_err_ne_illegalState (inRead_byte_err hr ▸ h) k _ _

theorem tickRefill_err_ne_illegalState {b : Bool} {k : RefillFor} (ht : tickRefill b k s = some t) :
    t.err ≠ some .illegalState := by
  unfold tickRefill at ht
  split at ht <;> cases ht
  next => simp
  next hr =>
    rw [← inRead_eof_err hr] at h
    exact bitTaken_err_ne_illegalState (by exact h) b k
  next hr =>
    rw [← inRead_byte_err hr] at h
    exact bitTaken_err_ne_illegalState (by exact h) b k

theorem tickCompress_err_ne_illegalState (ht : tickCompress s = some t) : t.err ≠ some .illegalState := by
  unfold tickCompress at ht
  split at ht <;> cases ht
  next => simp
  next hr => exact bwCloseStart_err_ne_illegalState (inRead_eof_err hr ▸ h) true
  next hr => exact encodeSymbolBits_finish_err_ne_illegalState (fun _ hu => by exact hu) (inRead_byte_err hr ▸ h) _

theorem tickDecode_err_ne_illegalState (d : Descent) (m : DecodeFor) :
    (tickDecode d m s).err ≠ some .illegalState := by
  unfold tickDecode
  split
  · exact takeBit_err_ne_illegalState h _
  · simp

theorem tickSymbols_err_ne_illegalState (n : Word) : (tickSymbols n s).err ≠ some .illegalState := by
  unfold tickSymbols
  split
  · exact startAttempt_err_ne_illegalState h _
  · simpa [brCloseSession] using h

/-- IllegalState is no error of an engine step: it is raised before a command's own rule runs (R109). -/
theorem tick_err_ne_illegalState (ht : tick s = some t) : t.err ≠ some .illegalState := by
  unfold tick at ht
  cases hc : s.ctl <;> rw [hc] at ht
  case idle | accepted => cases ht
  case openIn k => exact tickOpenIn_err_ne_illegalState h ht
  case load l => exact tickLoad_err_ne_illegalState h ht
  case header k => exact tickHeader_err_ne_illegalState h ht
  case fillCur k p => exact tickFillCur_err_ne_illegalState h ht
  case fillNxt k p c => exact tickFillNxt_err_ne_illegalState h ht
  case decode d m => cases ht; exact tickDecode_err_ne_illegalState h d m
  case refill b k => exact tickRefill_err_ne_illegalState h ht
  case symbols n => cases ht; exact tickSymbols_err_ne_illegalState h n
  case putSymbol v n => cases ht; exact outWrite_err_ne_illegalState h v _
  case compress => exact tickCompress_err_ne_illegalState h ht
  case emit rest k => cases ht; exact tickEmit_err_ne_illegalState h rest k

theorem advance_err_ne_illegalState : (advance s).err ≠ some .illegalState :=
  advance_keeps (P := fun u => u.err ≠ some .illegalState) (fun _ _ => tick_err_ne_illegalState) h

end

/-! ### Dispatch -/

section
variable {s : State}

theorem withSym_err_ne_illegalState {body : Byte → State → State}
    (hb : ∀ v, (body v s).err ≠ some .illegalState) : (withSym body s).err ≠ some .illegalState := by
  unfold withSym
  split
  · exact hb _
  · simp

theorem withBit_err_ne_illegalState {body : Bool → State → State}
    (hb : ∀ b, (body b s).err ≠ some .illegalState) : (withBit body s).err ≠ some .illegalState := by
  unfold withBit
  split
  · exact hb _
  · simp

end

/-- Every command is dispatched with a rule of its own, and that rule does not raise IllegalState (R109, R110). -/
theorem exec_eq_command (i : Instr) : ∃ body : State → State, (∀ s, exec i s = command i body s) ∧
    ∀ s, s.err ≠ some .illegalState → (body s).err ≠ some .illegalState := by
  cases i with
  | nop | freqClear | treeBuild | treeClear | brHasNext => exact ⟨_, fun _ => rfl, fun s h => by simpa using h⟩
  | clearError => exact ⟨_, fun _ => rfl, fun s h => by simp [clearErrorState]⟩
  | softReset => exact ⟨_, fun _ => rfl, fun s h => by simp [softResetItems]⟩
  | bwOpen => exact ⟨_, fun _ => rfl, fun s h => by simpa [bwOpenSession] using h⟩
  | freqWrite => exact ⟨_, fun _ => rfl, fun s h => withSym_err_ne_illegalState fun _ => by simpa [setFreq] using h⟩
  | freqRead => exact ⟨_, fun _ => rfl, fun s h => withSym_err_ne_illegalState fun _ => by simpa using h⟩
  | codeQuery =>
    refine ⟨_, fun _ => rfl, fun s h => withSym_err_ne_illegalState fun v => ?_⟩
    split <;> simpa using h
  | codeBit =>
    refine ⟨_, fun _ => rfl, fun s h => withSym_err_ne_illegalState fun v => ?_⟩
    split
    · simp
    · split <;> simp [h]
  | treeSave | treeLoad | compress | decompress | brOpen =>
    exact ⟨_, fun _ => rfl, fun s h => advance_err_ne_illegalState h⟩
  | encodeSymbol =>
    exact ⟨_, fun _ => rfl, fun s h => withSym_err_ne_illegalState fun v =>
      encodeSymbolBits_finish_err_ne_illegalState (fun _ hu => by exact hu) h v⟩
  | decodeSymbol =>
    exact ⟨_, fun _ => rfl, fun s h => advance_err_ne_illegalState (startAttempt_err_ne_illegalState h _)⟩
  | bwWrite =>
    exact ⟨_, fun _ => rfl, fun s h => withBit_err_ne_illegalState fun b =>
      bwWriteBit_finish_err_ne_illegalState (fun _ hu => by exact hu) h b⟩
  | bwClose =>
    refine ⟨_, fun _ => rfl, fun s h => ?_⟩
    split
    · exact advance_err_ne_illegalState (bwCloseStart_err_ne_illegalState h false)
    · exact h
  | brNext =>
    refine ⟨_, fun _ => rfl, fun s h => ?_⟩
    split
    · exact advance_err_ne_illegalState (takeBit_err_ne_illegalState h _)
    · simp
  | brClose =>
    refine ⟨_, fun _ => rfl, fun s h => ?_⟩
    split <;> simpa [brCloseSession] using h

/-- A command word is its OPC with MBZ = 0 above it (R100). -/
theorem encode_eq_zeroExtend_opcode (i : Instr) : encode i = (opcode i).zeroExtend 32 :=
  (BitVec.setWidth_eq_append (by decide)).symm

/-- `admits` decides the preconditions of R110's table. -/
theorem admits_iff_of_mem_preconditions {s : State} {i : Instr} {c : Prop} (h : (i, c) ∈ Spec.preconditions s) :
    admits i s = true ↔ c := by
  have rows : ∀ p ∈ Spec.preconditions s, (admits p.1 s = true ↔ p.2) := by
    simp [Spec.preconditions, admits]
  exact rows _ h

end Sys2Proof.Machine
end

section
/-! PROOFS. The statement about the state preconditions of the commands (spec 30_encoding.md R110). -/

namespace Sys2Proof.Machine

/-- Settles O15: dispatch raises IllegalState exactly where the precondition is false, and nothing after it does. -/
theorem statePreconditions : Obligations.StatePreconditions := by
  intro s i c herr hc
  obtain ⟨body, hexec, hbody⟩ := exec_eq_command i
  have hadm := admits_iff_of_mem_preconditions hc
  constructor
  · intro hfalse
    rw [hexec, ← encode_eq_zeroExtend_opcode]
    simp [command, herr, mt hadm.1 hfalse]
  · intro htrue t ht
    rw [hexec, command_run herr (hadm.2 htrue)] at ht
    cases ht
    exact hbody s (by simp [herr])

end Sys2Proof.Machine
end

section
/-! PROOFS. The SYM operand (spec 30_encoding.md R101), and the reads and updates of FREQ (10_state.md R35). -/

namespace Sys2Proof.Machine

/-! ### The SYM operand -/

theorem symOperand_of_byte {s : State} {v : Byte} (h : s.arg0 = v.zeroExtend 32) : symOperand s = some v := by
  have hsplit : s.arg0 = (0 : BitVec 24) ++ v := h.trans (BitVec.setWidth_eq_append (by decide))
  have hhigh : s.arg0.extractLsb' 8 24 = 0 := hsplit ▸ BitVec.extractLsb'_append_eq_left
  have hlow : s.arg0.extractLsb' 0 8 = v := hsplit ▸ BitVec.extractLsb'_append_eq_right
  rw [symOperand, if_pos hhigh, hlow]

/-- A register above 255 has a bit set in [31:8]. -/
theorem symOperand_of_gt {s : State} (h : 255 < s.arg0.toNat) : symOperand s = none := by
  have hhigh : s.arg0.extractLsb' 8 24 ≠ 0 := fun h0 => by
    have hz := congrArg BitVec.toNat h0
    simp only [BitVec.extractLsb'_toNat, Nat.shiftRight_eq_div_pow, BitVec.ofNat_eq_ofNat, BitVec.toNat_ofNat] at hz
    omega
  exact if_neg hhigh

section
variable {s : State} {i : Instr} (body : Byte → State → State)

/-- A command with a SYM operand, where ARG0 holds a symbol. -/
theorem command_withSym_of_byte (herr : s.err = none) (hadm : admits i s = true) {v : Byte}
    (h : s.arg0 = v.zeroExtend 32) : command i (withSym body) s = .next (body v s) := by
  rw [command_run herr hadm, withSym, symOperand_of_byte h]

/-- A command with a SYM operand, where ARG0 holds none. -/
theorem command_withSym_of_gt (herr : s.err = none) (hadm : admits i s = true) (h : 255 < s.arg0.toNat) :
    command i (withSym body) s = .next (raiseError .invalidArgument s.arg0 s) := by
  rw [command_run herr hadm, withSym, symOperand_of_gt h]

end

/-! ### The counters -/

@[simp] theorem freqAt_replicate (c : Word) (v : Byte) : freqAt (Vector.replicate 256 c) v = c :=
  Vector.getElem_replicate _

theorem freqAt_set (f : Vector Word 256) (v u : Byte) (c : Word) :
    freqAt (f.set v.toNat c v.isLt) u = if u = v then c else freqAt f u := by
  simp only [freqAt, Vector.getElem_set, BitVec.toNat_inj, eq_comm (a := v)]

end Sys2Proof.Machine
end

section
/-! PROOFS. The statement about the frequency commands (spec 40_control_freq.md R133 to R135). -/

namespace Sys2Proof.Machine

/-- Settles O19: none of the three commands has a state precondition, so with ERR = 0 its own rule runs; FREQ_WRITE
and FREQ_READ split on whether ARG0 holds a symbol. -/
theorem frequencyCommands : Obligations.FrequencyCommands := by
  refine ⟨rfl, rfl, rfl, fun s herr => ⟨?clear, fun v hv => ⟨?write, ?read⟩, fun hgt => ⟨?writeRaise, ?readRaise⟩⟩⟩
  case clear =>
    refine ⟨Vector.replicate 256 0, ?_, freqAt_replicate 0⟩
    rw [exec, execFreqClear, command_run herr rfl]
    rfl
  case write => exact ⟨_, command_withSym_of_byte _ herr rfl hv, fun u => freqAt_set s.freq v u s.arg1⟩
  case read => exact command_withSym_of_byte _ herr rfl hv
  case writeRaise => exact command_withSym_of_gt _ herr rfl hgt
  case readRaise => exact command_withSym_of_gt _ herr rfl hgt

end Sys2Proof.Machine
end

section
/-! PROOFS. CODE and STATUS.TREE_NONEMPTY as the tree builder's commands show them (spec 10_state.md R24, R36, R38). -/

namespace Sys2Proof.Machine

/-- CODE gives the path of a leaf of TREE (R38). -/
theorem Tree.mem_leaves_of_code {t : Tree} {v : Byte} {p : List Bool} (h : t.code v = some p) : (v, p) ∈ t.leaves := by
  obtain ⟨l₁, l₂, hl, -⟩ := List.lookup_eq_some_iff.1 h
  exact hl ▸ List.mem_append_right l₁ List.mem_cons_self

/-- A leaf's path goes through every node above it (R36). -/
theorem Node.prefix_of_mem_leaves {n : Node} {p : List Bool} {x : Byte × List Bool} (h : x ∈ n.leaves p) :
    p <+: x.2 := by
  induction n generalizing p with
  | absent => cases h
  | leaf s => exact List.mem_singleton.1 h ▸ List.prefix_rfl
  | internal l r ihl ihr =>
    rcases List.mem_append.1 h with hl | hr
    · exact (List.prefix_append p _).trans (ihl hl)
    · exact (List.prefix_append p _).trans (ihr hr)

/-- The root is INTERNAL, so a leaf lies at least one bit below it (R36, R38). -/
theorem Tree.one_le_path_length {t : Tree} {x : Byte × List Bool} (h : x ∈ t.leaves) : 1 ≤ x.2.length := by
  cases t with
  | empty => cases h
  | root l r =>
    rcases List.mem_append.1 h with hl | hr
    · exact (Node.prefix_of_mem_leaves hl).length_le
    · exact (Node.prefix_of_mem_leaves hr).length_le

theorem statusWord_treeNonempty (s : State) : (statusWord s).getLsbD 4 = s.treeNonempty := by
  simp only [statusWord, BitVec.getLsbD_append]
  simp

end Sys2Proof.Machine
end

section
/-! PROOFS. The statements about TREE_CLEAR, CODE_QUERY and CODE_BIT (spec 41_tree_build.md R163 to R165). -/

namespace Sys2Proof.Machine

/-- Settles O25: with both units closed TREE_CLEAR's own rule runs, and the two views of TREE follow. -/
theorem treeClearEmptiesTree : Obligations.TreeClearEmptiesTree := by
  refine ⟨rfl, fun s herr hbw hbr => ⟨{ s with tree := .empty, ctl := .idle }, ?run, rfl, treeInfoWord_of_empty rfl,
    statusWord_treeNonempty _⟩⟩
  case run =>
    have hadm : admits .treeClear s = true := by simp [admits, hbw, hbr]
    rw [exec, execTreeClear, command_run herr hadm]
    rfl

/-- Settles O26: CODE_QUERY's rule splits on whether the symbol has a code, which is the path of a leaf below the
root. -/
theorem codeQueryGivesDepth : Obligations.CodeQueryGivesDepth := by
  refine ⟨rfl, fun s herr => ⟨command_withSym_of_gt _ herr rfl, fun v hv => ?_⟩⟩
  rw [exec, execCodeQuery, command_withSym_of_byte _ herr rfl hv]
  refine ⟨fun hnone => ?absent, fun p hp => ⟨?present, fun hwf => ?bounds⟩⟩
  case absent => rw [hnone]; rfl
  case present => rw [hp]; rfl
  case bounds =>
    have hleaf := Tree.mem_leaves_of_code hp
    exact ⟨Tree.one_le_path_length hleaf, Tree.path_length_le_of_wf hwf hleaf⟩

/-- Settles O27: CODE_BIT's rule splits on whether the symbol has a code, and then on whether the code has a bit at
the index. -/
theorem codeBitGivesPathBit : Obligations.CodeBitGivesPathBit := by
  refine ⟨rfl, fun s herr => ⟨command_withSym_of_gt _ herr rfl, fun v hv => ?_⟩⟩
  rw [exec, execCodeBit, command_withSym_of_byte _ herr rfl hv]
  refine ⟨fun hnone => ?absent, fun p hp hlen => ?beyond, fun p b hp hb => ?bit⟩
  case absent => rw [hnone]
  case beyond =>
    have hidx : p[indexOperand s]? = none := List.getElem?_eq_none hlen
    simp only [hp, hidx]
  case bit =>
    have hidx : p[indexOperand s]? = some b := hb
    simp only [hp, hidx]
    cases b <;> rfl

end Sys2Proof.Machine
end

section
/-! PROOFS. The text of a code table is read back (spec 42_code_table.md R201, R204, R205): the numeral of a symbol by
ParseSymbol, the characters of a path by CheckPath, and neither of them holds an LF. -/

namespace Sys2Proof.Machine

/-! ### The numeral of a symbol -/

theorem digitChar_toNat {d : Nat} (h : d < 10) : (digitChar d).toNat = 0x30 + d := by
  simp only [digitChar, BitVec.toNat_ofNat]
  omega

theorem isDigit_digitChar {d : Nat} (h : d < 10) : isDigit (digitChar d) = true := by
  simp only [isDigit, digitChar_toNat h, Bool.and_eq_true, decide_eq_true_eq]
  omega

/-- The one, two or three digits of a numeral (R201). -/
theorem decimal_cases (v : Byte) :
    (v.toNat < 10 ∧ decimal v = [digitChar v.toNat]) ∨
    (v.toNat < 100 ∧ decimal v = [digitChar (v.toNat / 10), digitChar (v.toNat % 10)]) ∨
    decimal v = [digitChar (v.toNat / 100), digitChar (v.toNat / 10 % 10), digitChar (v.toNat % 10)] := by
  unfold decimal
  by_cases h10 : v.toNat < 10
  · exact .inl ⟨h10, if_pos h10⟩
  · by_cases h100 : v.toNat < 100
    · exact .inr (.inl ⟨h100, by simp only [h10, h100, if_true, if_false]⟩)
    · exact .inr (.inr (by simp only [h10, h100, if_false]))

theorem decimal_ne_nil (v : Byte) : decimal v ≠ [] := by
  rcases decimal_cases v with ⟨-, h⟩ | ⟨-, h⟩ | h <;> simp [h]

theorem isDigit_of_mem_decimal {v c : Byte} (h : c ∈ decimal v) : isDigit c = true := by
  have hv := v.isLt
  have digits : ∃ d, d < 10 ∧ c = digitChar d := by
    rcases decimal_cases v with ⟨h10, hd⟩ | ⟨h100, hd⟩ | hd <;> rw [hd] at h <;>
      simp only [List.mem_cons, List.not_mem_nil, or_false] at h
    · exact ⟨_, h10, h⟩
    · rcases h with rfl | rfl <;> exact ⟨_, by omega, rfl⟩
    · rcases h with rfl | rfl | rfl <;> exact ⟨_, by omega, rfl⟩
  obtain ⟨d, hd, rfl⟩ := digits
  exact isDigit_digitChar hd

theorem decimalValue_decimal (v : Byte) : decimalValue (decimal v) = v.toNat := by
  have hv := v.isLt
  rcases decimal_cases v with ⟨h10, hd⟩ | ⟨h100, hd⟩ | hd <;> rw [hd] <;>
    simp only [decimalValue, List.foldl_cons, List.foldl_nil]
  · rw [digitChar_toNat h10]
    omega
  · rw [digitChar_toNat (by omega), digitChar_toNat (by omega)]
    omega
  · rw [digitChar_toNat (by omega), digitChar_toNat (by omega), digitChar_toNat (by omega)]
    omega

theorem parseSymbol_decimal (v : Byte) : parseSymbol (decimal v) = some v := by
  have hle : v.toNat ≤ 255 := Nat.le_of_lt_succ v.isLt
  have hdigits : (decimal v).all isDigit = true := List.all_eq_true.2 fun _ => isDigit_of_mem_decimal
  simp [parseSymbol, decimal_ne_nil, hdigits, decimalValue_decimal, hle]

theorem lf_not_mem_decimal (v : Byte) : lf ∉ decimal v := fun h =>
  absurd (isDigit_of_mem_decimal h) (by decide)

/-! ### The characters of a path -/

theorem lf_not_mem_map_bitChar (p : List Bool) : lf ∉ p.map bitChar := by
  have hne : ∀ b, bitChar b ≠ lf := by decide
  intro h
  obtain ⟨b, -, hb⟩ := List.mem_map.1 h
  exact hne b hb

theorem checkPath_map_bitChar {p : List Bool} (hne : p ≠ []) (hlen : p.length ≤ Config.maxCodeLen) :
    checkPath (p.map bitChar) = .ok p := by
  have hchar : ∀ b, (bitChar b == 0x30 || bitChar b == 0x31) = true ∧ (bitChar b == 0x31) = b := by decide
  have hchars : (p.map bitChar).all (fun c => c == 0x30 || c == 0x31) = true :=
    List.all_eq_true.2 (List.forall_mem_map.2 fun b _ => (hchar b).1)
  have hback : (p.map bitChar).map (fun c => c == 0x31) = p := by
    rw [List.map_map]
    exact List.map_id'' (fun b => (hchar b).2) p
  rw [checkPath, hchars, hback]
  simp [hne, hlen]

end Sys2Proof.Machine
end

section
/-! PROOFS. The insertion of TREE_LOAD (spec 42_code_table.md R206): what a walk adds to the leaves, and that the leaves of
a well-formed TREE, inserted in save order, build it again (R200, R209). -/

namespace Sys2Proof.Machine

/-! ### The walk below a node -/

/-- A walk that succeeds adds the leaf at the end of its path, and no other. -/
theorem Node.mem_leaves_of_place {n m : Node} {p : List Bool} {v : Byte} (h : n.place p v = some m)
    (q : List Bool) (x : Byte × List Bool) : x ∈ m.leaves q ↔ x ∈ n.leaves q ∨ x = (v, q ++ p) := by
  induction p generalizing n m q with
  | nil =>
    cases n with
    | absent => cases h; simp [Node.leaves]
    | leaf t =>
      obtain ⟨rfl, hm⟩ := Option.ite_none_right_eq_some.1 h
      cases hm
      simp [Node.leaves]
    | internal l r => cases h
  | cons b p ih =>
    cases n with
    | leaf t => cases h
    | absent | internal l r =>
      cases b <;>
      · obtain ⟨k, hk, rfl⟩ := Option.map_eq_some_iff.1 h
        simp only [Node.leaves, List.mem_append, ih hk, List.append_assoc, List.singleton_append]
        tauto

/-- The walks of a list of pairs, one after the other. -/
def Node.placeAll (n : Node) (xs : List (Byte × List Bool)) : Option Node :=
  xs.foldlM (fun n x => n.place x.2 x.1) n

theorem Node.placeAll_append (n : Node) (xs ys : List (Byte × List Bool)) :
    n.placeAll (xs ++ ys) = (n.placeAll xs).bind (fun m => m.placeAll ys) :=
  List.foldlM_append ..

/-- A pair of the subtree that bit `b` leads to. -/
def underBit (b : Bool) (x : Byte × List Bool) : Byte × List Bool := (x.1, b :: x.2)

/-- Walks that all begin with bit `b` change only the child that `b` leads to; `f` puts that child in its node. -/
theorem Node.placeAll_underBit {f : Node → Node} {b : Bool}
    (hf : ∀ n p v, (f n).place (b :: p) v = (n.place p v).map f) (n : Node) (xs : List (Byte × List Bool)) :
    (f n).placeAll (xs.map (underBit b)) = (n.placeAll xs).map f := by
  induction xs generalizing n with
  | nil => rfl
  | cons x xs ih =>
    simp only [Node.placeAll, List.map_cons, List.foldlM_cons, underBit, hf] at ih ⊢
    cases n.place x.2 x.1 with
    | none => rfl
    | some m => exact ih m

theorem Node.placeAll_underBit_false (l r : Node) (xs : List (Byte × List Bool)) :
    (Node.internal l r).placeAll (xs.map (underBit false)) = (l.placeAll xs).map (fun n => .internal n r) :=
  Node.placeAll_underBit (f := fun n => .internal n r) (fun _ _ _ => rfl) l xs

theorem Node.placeAll_underBit_true (l r : Node) (xs : List (Byte × List Bool)) :
    (Node.internal l r).placeAll (xs.map (underBit true)) = (r.placeAll xs).map (fun n => .internal l n) :=
  Node.placeAll_underBit (f := fun n => .internal l n) (fun _ _ _ => rfl) r xs

/-- The first walk of at least one bit makes an INTERNAL node of a place where none is. -/
theorem Node.placeAll_absent {xs : List (Byte × List Bool)} (hne : xs ≠ []) (hp : ∀ x ∈ xs, x.2 ≠ []) :
    Node.absent.placeAll xs = (Node.internal .absent .absent).placeAll xs := by
  obtain ⟨⟨v, p⟩, xs, rfl⟩ := List.exists_cons_of_ne_nil hne
  obtain ⟨b, p, rfl⟩ := List.exists_cons_of_ne_nil (hp _ List.mem_cons_self)
  cases b <;> rfl

/-- The leaves of a node at a path `p ++ q` are those it has at `q`, with `p` before each path. -/
theorem Node.leaves_append (n : Node) (p q : List Bool) :
    n.leaves (p ++ q) = (n.leaves q).map (fun x => (x.1, p ++ x.2)) := by
  induction n generalizing q with
  | absent => rfl
  | leaf v => rfl
  | internal l r ihl ihr => simp only [Node.leaves, List.append_assoc, ihl, ihr, List.map_append]

theorem Node.leaves_internal (l r : Node) : (Node.internal l r).leaves [] =
    (l.leaves []).map (underBit false) ++ (r.leaves []).map (underBit true) :=
  congrArg₂ _ (l.leaves_append [false] []) (r.leaves_append [true] [])

/-- The leaves of a node without a childless INTERNAL node at or below it build it again. -/
theorem Node.placeAll_leaves {n : Node} (h : n.full = true) : Node.absent.placeAll (n.leaves []) = some n := by
  induction n with
  | absent | leaf v => rfl
  | internal l r ihl ihr =>
    have hne := Node.leaves_ne_nil_of_full h (by simp) []
    simp only [Node.full, Bool.and_eq_true] at h
    obtain ⟨⟨-, hl⟩, hr⟩ := h
    have hpaths : ∀ x ∈ (Node.internal l r).leaves [], x.2 ≠ [] := fun x hx =>
      List.ne_nil_of_length_pos (Tree.one_le_path_length (t := .root l r) hx)
    rw [Node.placeAll_absent hne hpaths, Node.leaves_internal, Node.placeAll_append, Node.placeAll_underBit_false,
      ihl hl]
    simp [Node.placeAll_underBit_true, ihr hr]

/-! ### Insert, and a list of pairs -/

/-- The root of TREE as a node; absent where TREE = EMPTY. -/
def Tree.node : Tree → Node
  | .empty => .absent
  | .root l r => .internal l r

theorem Tree.node_leaves (t : Tree) : t.node.leaves [] = t.leaves := by cases t <;> rfl

theorem Tree.node_asTree (t : Tree) : t.node.asTree = t := by cases t <;> rfl

/-- A walk of at least one bit leaves an INTERNAL node where it began, so that node is the root of a TREE. -/
theorem Node.asTree_node_of_place {n m : Node} {b : Bool} {p : List Bool} {v : Byte}
    (h : n.place (b :: p) v = some m) : m.asTree.node = m := by
  cases n with
  | leaf t => cases h
  | absent | internal l r =>
    cases b <;>
    · obtain ⟨k, -, rfl⟩ := Option.map_eq_some_iff.1 h
      rfl

/-- `Insert` of a symbol that has no code yet is the walk from the root (R206). -/
theorem Tree.insert_of_code_none {t : Tree} {v : Byte} (h : t.code v = none) (b : Bool) (p : List Bool) :
    t.insert (b :: p) v = (t.node.place (b :: p) v).map Node.asTree := by
  cases t <;> cases b <;> simp [Tree.insert, h, Tree.node, Tree.slots, Node.place, Function.comp_def, Node.asTree]

theorem Tree.code_eq_none_iff {t : Tree} {v : Byte} : t.code v = none ↔ ∀ x ∈ t.leaves, v ≠ x.1 := by
  simp [Tree.code, List.lookup_eq_none_iff]

/-- `Insert` of each pair of a list in turn (R207). -/
def Tree.insertAll (t : Tree) (xs : List (Byte × List Bool)) : Option Tree :=
  xs.foldlM (fun t x => t.insert x.2 x.1) t

/-- Pairs whose symbols differ and have no code yet are inserted by their walks from the root (R206). -/
theorem Tree.insertAll_eq_placeAll {t : Tree} {xs : List (Byte × List Bool)} (hp : ∀ x ∈ xs, x.2 ≠ [])
    (hnd : (xs.map Prod.fst).Nodup) (hcode : ∀ x ∈ xs, t.code x.1 = none) :
    t.insertAll xs = (t.node.placeAll xs).map Node.asTree := by
  induction xs generalizing t with
  | nil => exact congrArg some t.node_asTree.symm
  | cons x xs ih =>
    obtain ⟨v, p⟩ := x
    obtain ⟨b, p, rfl⟩ := List.exists_cons_of_ne_nil (hp _ List.mem_cons_self)
    have hv := hcode _ List.mem_cons_self
    rw [List.map_cons, List.nodup_cons] at hnd
    simp only [Tree.insertAll, Node.placeAll, List.foldlM_cons, Tree.insert_of_code_none hv] at ih ⊢
    cases hm : t.node.place (b :: p) v with
    | none => rfl
    | some m =>
      have hnode := Node.asTree_node_of_place hm
      have hrest : ∀ x ∈ xs, m.asTree.code x.1 = none := fun x hx => by
        refine Tree.code_eq_none_iff.2 fun y hy => ?_
        rw [← Tree.node_leaves, hnode, Node.mem_leaves_of_place hm, Tree.node_leaves] at hy
        rcases hy with hy | rfl
        · exact Tree.code_eq_none_iff.1 (hcode x (List.mem_cons_of_mem _ hx)) y hy
        · exact fun heq => hnd.1 (List.mem_map.2 ⟨x, hx, heq⟩)
      have htail := ih (fun x hx => hp x (List.mem_cons_of_mem _ hx)) hnd.2 hrest
      rw [hnode] at htail
      exact htail

/-- The leaves of a well-formed TREE in save order, inserted into an EMPTY one, build it again (R209). -/
theorem Tree.insertAll_leaves {t : Tree} (h : t.wf = true) : Tree.empty.insertAll t.leaves = some t := by
  have hpaths : ∀ x ∈ t.leaves, x.2 ≠ [] := fun x hx => List.ne_nil_of_length_pos (Tree.one_le_path_length hx)
  have hfull : t.node.full = true := by
    cases t with
    | empty => rfl
    | root l r => exact (Tree.wf_root_iff.1 h).1
  rw [Tree.insertAll_eq_placeAll hpaths (Tree.symbols_nodup_of_wf h) (fun _ _ => rfl), ← Tree.node_leaves]
  exact (congrArg _ (Node.placeAll_leaves hfull)).trans (congrArg some t.node_asTree)

end Sys2Proof.Machine
end

section
/-! PROOFS. Whole turns of TREE_SAVE and TREE_LOAD (spec 42_code_table.md R202, R203, R207): the emission of a text, and the
lines and line pairs that TREE_LOAD reads. -/

namespace Sys2Proof.Machine

/-! ### The emission of TREE_SAVE -/

/-- With OUT_ERR = 0 every byte that is left goes to OUT, and then CLOSE (R202, 20_memory.md R81). -/
theorem advance_emit_save {s : State} {bytes : List Byte} {n : Word} (hc : s.ctl = .emit bytes (.save n))
    (hq : s.quantum = none) (herr : s.outErr = false) (hown : s.outOwned = true) :
    advance s = { s with
      out := s.out ++ Spec.outBytes bytes ++ [.close], outOwned := false, result := n, ctl := .idle } := by
  induction bytes generalizing s with
  | nil =>
    have ht : tick s = some (complete n (outClose s)) := by simp only [tick, hc, tickEmit, emitEnd]
    rw [advance_tick hq ht, advance_hold (by simpa using hq) rfl]
    simp [complete, outClose, hown, Spec.outBytes]
  | cons b bytes ih =>
    have ht : tick s = some { s with out := s.out ++ [.byte b], ctl := .emit bytes (.save n) } := by
      simp [tick, hc, tickEmit, outWrite, herr, outAppend]
    rw [advance_tick hq ht]
    exact Eq.trans (ih rfl hq herr hown) (by simp [Spec.outBytes])

/-- TREE_SAVE with OUT_ERR = 0 (R202). -/
theorem exec_treeSave {s : State} (herr : s.err = none) (hbw : s.bw.isOpen = false) (hq : s.quantum = none)
    (hout : s.outErr = false) : exec .treeSave s = .next { s with
      out := s.out ++ Spec.outBytes (renderTree s.tree) ++ [.close], outOwned := false
      result := BitVec.ofNat 32 s.tree.leaves.length, ctl := .idle } := by
  have hadm : admits .treeSave s = true := by simp [admits, hbw]
  rw [exec, execTreeSave, command_run herr hadm, advance_emit_save (s := treeSaveStart s) rfl hq hout rfl]
  rfl

/-! ### The lines of TREE_LOAD -/

/-- A state in which TREE_LOAD stands at an InRead: the place in its table, and IN. -/
def State.loading (s : State) (l : LoadState) (q : List Token) : State := { s with inQ := q, ctl := .load l }

/-- TREE_LOAD between two line pairs: the number of the last line, the partial tree, the pairs read (R207). -/
def LoadState.between (ln : Word) (t : Tree) (pairs : Word) : LoadState :=
  { sym := none, line := [], ln := ln, tree := t, pairs := pairs }

section
variable {s : State} {l : LoadState} {q : List Token}

theorem loadLine_of_symbol {v : Byte} (hsym : l.sym = none) (hline : parseSymbol l.line = some v) :
    loadLine l (s.loading l q) = s.loading { l with sym := some v, line := [], ln := l.ln + 1 } q := by
  simp only [loadLine, hsym, hline, State.loading]

theorem loadLine_of_path {v : Byte} {p : List Bool} {t : Tree} (hsym : l.sym = some v)
    (hline : checkPath l.line = .ok p) (hins : l.tree.insert p v = some t) :
    loadLine l (s.loading l q) = s.loading (.between (l.ln + 1) t (l.pairs + 1)) q := by
  simp only [loadLine, hsym, hline, hins, State.loading, LoadState.between]

/-- An InRead inside a line (R203). -/
theorem tick_loading_byte {c : Byte} (ht : s.inTerm = false) (hc : c ≠ lf) :
    tick (s.loading l (.byte c :: q)) = some (s.loading { l with line := l.line ++ [c] } q) := by
  simp [State.loading, tick, tickLoad, inRead, ht, hc]

/-- The InRead at the end of a line (R203). -/
theorem tick_loading_lf (ht : s.inTerm = false) :
    tick (s.loading l (.byte lf :: q)) = some (loadLine l (s.loading l q)) := by
  simp [State.loading, tick, tickLoad, inRead, ht]

end

section
variable {s : State} (hq : s.quantum = none) (ht : s.inTerm = false)
include hq ht

/-- A whole turn reads the rest `w` of a line, its LF included (R203). -/
theorem advance_loading_line (l : LoadState) {w : List Byte} (hw : lf ∉ w) (q : List Token) :
    advance (s.loading l (Spec.inBytes (w ++ [lf]) ++ q)) =
      advance (loadLine { l with line := l.line ++ w } (s.loading { l with line := l.line ++ w } q)) := by
  induction w generalizing l with
  | nil =>
    rw [List.append_nil]
    exact advance_tick hq (tick_loading_lf ht)
  | cons c w ih =>
    rw [List.mem_cons, not_or] at hw
    obtain ⟨hne, hw⟩ := hw
    refine Eq.trans (advance_tick hq (tick_loading_byte ht (Ne.symm hne))) ?_
    simpa [Spec.inBytes] using ih { l with line := l.line ++ [c] } hw

/-- A whole turn reads one rendered pair and inserts it (R206, R207). -/
theorem advance_loading_pair {t t' : Tree} {x : Byte × List Bool} (hne : x.2 ≠ [])
    (hlen : x.2.length ≤ Config.maxCodeLen) (hins : t.insert x.2 x.1 = some t') (ln pairs : Word) (q : List Token) :
    advance (s.loading (.between ln t pairs) (Spec.inBytes (renderPair x) ++ q)) =
      advance (s.loading (.between (ln + 1 + 1) t' (pairs + 1)) q) := by
  obtain ⟨v, p⟩ := x
  have hlines : Spec.inBytes (renderPair (v, p)) ++ q =
      Spec.inBytes (decimal v ++ [lf]) ++ (Spec.inBytes (p.map bitChar ++ [lf]) ++ q) := by
    simp [renderPair, Spec.inBytes]
  rw [hlines, advance_loading_line hq ht _ (lf_not_mem_decimal v), loadLine_of_symbol rfl (parseSymbol_decimal v),
    advance_loading_line hq ht _ (lf_not_mem_map_bitChar p),
    loadLine_of_path rfl (checkPath_map_bitChar hne hlen) hins]
  rfl

/-- A whole turn reads the text of a list of pairs and inserts each of them (R206, R207). -/
theorem advance_loading_pairs {t t' : Tree} {xs : List (Byte × List Bool)}
    (hpath : ∀ x ∈ xs, x.2 ≠ [] ∧ x.2.length ≤ Config.maxCodeLen) (hins : t.insertAll xs = some t')
    (ln pairs : Word) (q : List Token) :
    advance (s.loading (.between ln t pairs) (Spec.inBytes (xs.map renderPair).flatten ++ q)) =
      advance (s.loading
        (.between (ln + BitVec.ofNat 32 (2 * xs.length)) t' (pairs + BitVec.ofNat 32 xs.length)) q) := by
  induction xs generalizing ln pairs t with
  | nil =>
    cases hins
    simp [Spec.inBytes]
  | cons x xs ih =>
    obtain ⟨t₁, hx, hxs⟩ := Option.bind_eq_some_iff.1 hins
    obtain ⟨hne, hlen⟩ := hpath x List.mem_cons_self
    have htext : Spec.inBytes ((x :: xs).map renderPair).flatten ++ q =
        Spec.inBytes (renderPair x) ++ (Spec.inBytes (xs.map renderPair).flatten ++ q) := by
      simp [Spec.inBytes]
    have hln : ln + 1 + 1 + BitVec.ofNat 32 (2 * xs.length) = ln + BitVec.ofNat 32 (2 * (x :: xs).length) := by
      rw [List.length_cons]
      bv_omega
    have hpairs : pairs + 1 + BitVec.ofNat 32 xs.length = pairs + BitVec.ofNat 32 (x :: xs).length := by
      rw [List.length_cons]
      bv_omega
    rw [htext, advance_loading_pair hq ht hne hlen hx,
      ih (fun y hy => hpath y (List.mem_cons_of_mem _ hy)) hxs, hln, hpairs]

/-- At the terminator, after whole line pairs, TREE_LOAD completes (R207). -/
theorem advance_loading_eos (hown : s.inOwned = true) (ln pairs : Word) (t : Tree) (q : List Token) :
    advance (s.loading (.between ln t pairs) (.eos :: q)) = { s with
      tree := t, inQ := q, inOwned := false, inTerm := false, result := pairs, ctl := .idle } := by
  refine Eq.trans (advance_tick hq (t := { s with
    tree := t, inQ := q, inOwned := false, inTerm := false, result := pairs, ctl := .idle }) ?_) (advance_hold hq rfl)
  simp [State.loading, LoadState.between, tick, tickLoad, inRead, ht, loadEnd, inRelease, hown, complete]

end

/-- TREE_LOAD at its first InRead: TREE is emptied and the input session open (R207). -/
def treeLoadOpened (s : State) : State := inOpen { s with tree := .empty }

/-- Where no drain is in progress, InOpen does not hold (R207, 20_memory.md R80). -/
theorem advance_treeLoadStart {s : State} (hq : s.quantum = none) (hdrain : s.inDrain = false) :
    advance (treeLoadStart s) = advance ((treeLoadOpened s).loading (.between 0 .empty 0) s.inQ) :=
  advance_tick hq (if_neg (c := s.inDrain = true) (by simp [hdrain]))

/-- TREE_LOAD of the text of pairs that can all be inserted (R207). -/
theorem exec_treeLoad {s : State} {t : Tree} {xs : List (Byte × List Bool)} {q : List Token} (hs : Spec.Ready s)
    (hdrain : s.inDrain = false) (hin : s.inQ = Spec.inBytes (xs.map renderPair).flatten ++ .eos :: q)
    (hpath : ∀ x ∈ xs, x.2 ≠ [] ∧ x.2.length ≤ Config.maxCodeLen) (hins : Tree.empty.insertAll xs = some t) :
    exec .treeLoad s = .next { s with
      tree := t, inQ := q, inOwned := false, inTerm := false
      result := BitVec.ofNat 32 xs.length, ctl := .idle } := by
  have hadm : admits .treeLoad s = true := by simp [admits, hs.bw, hs.br]
  have hq : (treeLoadOpened s).quantum = none := hs.quantum
  rw [exec, execTreeLoad, command_run hs.err hadm, advance_treeLoadStart hs.quantum hdrain, hin,
    advance_loading_pairs hq rfl hpath hins, advance_loading_eos hq rfl rfl]
  simp [treeLoadOpened, inOpen]

end Sys2Proof.Machine
end

section
/-! PROOFS. The statement about TREE_LOAD of what TREE_SAVE wrote (spec 42_code_table.md R209). -/

namespace Sys2Proof.Machine

theorem outBytes_injective : Function.Injective Spec.outBytes :=
  List.map_injective_iff.2 fun _ _ => OutToken.byte.inj

/-- Settles O30: TREE_SAVE writes the leaves in save order; TREE_LOAD reads those pairs back, and their insertion in
that order builds the TREE they came from. -/
theorem saveThenLoadGivesSameTree : Obligations.SaveThenLoadGivesSameTree := by
  rintro s u rest bytes hwf herr hbw hq hout hu hdrain hin ⟨t, hsave, ht⟩
  have hbytes : bytes = renderTree s.tree := by
    rw [exec_treeSave herr hbw hq hout] at hsave
    cases hsave
    exact outBytes_injective (List.append_cancel_left (List.append_cancel_right ht)).symm
  subst hbytes
  exact exec_treeLoad hu hdrain hin
    (fun x hx => ⟨List.ne_nil_of_length_pos (Tree.one_le_path_length hx), Tree.path_length_le_of_wf hwf hx⟩)
    (Tree.insertAll_leaves hwf)

end Sys2Proof.Machine
end

section
/-! PROOFS. The bits of data bytes, and the packed form of a bit string (spec 20_memory.md R76, 44_bitwriter.md R286). -/

namespace Sys2Proof.Machine

@[simp] theorem length_byteBits (b : Byte) : (byteBits b).length = 8 := by
  simp [byteBits]

theorem getElem?_byteBits (b : Byte) {i : Nat} (h : i < 8) : (byteBits b)[i]? = some (b.getLsbD i) := by
  simp [byteBits, h]

/-- The lowest `n` bits of a byte. -/
theorem take_byteBits (b : Byte) {n : Nat} (h : n ≤ 8) :
    (byteBits b).take n = (List.range n).map (fun i => b.getLsbD i) := by
  rw [byteBits, ← List.map_take, List.take_range, Nat.min_eq_left h]

@[simp] theorem length_flatMap_byteBits (ds : List Byte) : (ds.flatMap byteBits).length = 8 * ds.length := by
  simp [List.length_flatMap, Nat.mul_comm]

/-- Bit `i` of byte `j` stands at place `8j + i` (R286). -/
theorem getElem?_flatMap_byteBits (ds : List Byte) (j : Nat) {i : Nat} (h : i < 8) :
    (ds.flatMap byteBits)[8 * j + i]? = ds[j]?.map (fun d => d.getLsbD i) := by
  induction ds generalizing j with
  | nil => simp
  | cons d ds ih =>
    rw [List.flatMap_cons]
    cases j with
    | zero =>
      rw [Nat.mul_zero, Nat.zero_add, List.getElem?_append_left (by rwa [length_byteBits]), getElem?_byteBits d h]
      rfl
    | succ j =>
      rw [List.getElem?_append_right (by rw [length_byteBits]; omega), length_byteBits, List.getElem?_cons_succ,
        ← ih, show 8 * (j + 1) + i - 8 = 8 * j + i by omega]

/-- A bit string with `n` zeros after it. -/
theorem getElem?_append_replicate_false (bits : List Bool) {n k : Nat} (h : k < bits.length + n) :
    (bits ++ List.replicate n false)[k]? = some (bits.getD k false) := by
  by_cases hk : k < bits.length
  · rw [List.getElem?_append_left hk, List.getD_eq_getElem _ _ hk, List.getElem?_eq_getElem hk]
  · rw [List.getElem?_append_right (by omega), List.getElem?_replicate, if_pos (by omega),
      List.getD_eq_default _ _ (by omega)]

/-- The bits of the packed form are the bit string and as many zeros as its header says, at most seven (R286). -/
theorem isPacked_iff {bits : List Bool} {h : Byte} {data : List Byte} : Spec.IsPacked bits h data ↔
    data.flatMap byteBits = bits ++ List.replicate h.toNat false ∧ h.toNat < 8 := by
  constructor
  · rintro ⟨hlen, hpad, hbits⟩
    have htotal : 8 * data.length = bits.length + h.toNat := by omega
    refine ⟨List.ext_getElem? fun k => ?_, by omega⟩
    by_cases hk : k < bits.length + h.toNat
    · obtain ⟨d, hd⟩ : ∃ d, data[k / 8]? = some d := ⟨_, List.getElem?_eq_getElem (by omega)⟩
      have hki : 8 * (k / 8) + k % 8 = k := by omega
      have hbyte := getElem?_flatMap_byteBits data (k / 8) (i := k % 8) (by omega)
      rw [hd, Option.map_some, hbits _ _ hd _ (by omega), hki] at hbyte
      rw [hbyte, getElem?_append_replicate_false _ hk]
    · rw [List.getElem?_eq_none (by simp; omega), List.getElem?_eq_none (by simp; omega)]
  · rintro ⟨heq, hlt⟩
    have htotal : 8 * data.length = bits.length + h.toNat := by
      rw [← length_flatMap_byteBits, heq, List.length_append, List.length_replicate]
    refine ⟨by omega, by omega, fun j d hd i hi => ?_⟩
    have hj : j < data.length := (List.getElem?_eq_some_iff.1 hd).1
    have hbyte := getElem?_flatMap_byteBits data j hi
    rw [hd, heq, getElem?_append_replicate_false _ (by omega)] at hbyte
    exact (Option.some.inj hbyte).symm

end Sys2Proof.Machine
end

section
/-! PROOFS. CODE as a path of the path map (spec 10_state.md R36, R38). -/

namespace Sys2Proof.Machine

@[simp] theorem Node.nodeAt_nil (n : Node) : n.nodeAt [] = n := by
  cases n <;> rfl

theorem Node.nodeAt_internal_cons (l r : Node) (b : Bool) (p : List Bool) :
    (Node.internal l r).nodeAt (b :: p) = (if b then r else l).nodeAt p := by
  cases b <;> rfl

theorem Node.nodeAt_of_mem_leaves {n : Node} {v : Byte} {p : List Bool} (h : (v, p) ∈ n.leaves []) :
    n.nodeAt p = .leaf v := by
  induction n generalizing p with
  | absent => cases h
  | leaf u => cases List.mem_singleton.1 h; rfl
  | internal l r ihl ihr =>
    rw [Node.leaves_internal] at h
    rcases List.mem_append.1 h with h | h
    · obtain ⟨x, hx, he⟩ := List.mem_map.1 h
      cases he
      exact ihl hx
    · obtain ⟨x, hx, he⟩ := List.mem_map.1 h
      cases he
      exact ihr hx

/-- The path that CODE gives leads to a leaf that holds the symbol (R38). -/
theorem Tree.nodeAt_of_code {t : Tree} {v : Byte} {p : List Bool} (h : t.code v = some p) : t.nodeAt p = .leaf v := by
  have hm := Tree.mem_leaves_of_code h
  cases t with
  | empty => cases hm
  | root l r => exact Node.nodeAt_of_mem_leaves (n := .internal l r) hm

end Sys2Proof.Machine
end

section
/-! PROOFS. The packer as a bit string (spec 10_state.md R41, 44_bitwriter.md R280, R281, R286). -/

namespace Sys2Proof.Machine

/-- A byte is below `2^n` where no bit at place `n` or above is set. -/
theorem byte_lt_two_pow_iff {b : Byte} {n : Nat} : b.toNat < 2 ^ n ↔ ∀ i, n ≤ i → b.getLsbD i = false :=
  ⟨fun h _ hi => Nat.testBit_lt_two_pow (h.trans_le (Nat.pow_le_pow_right Nat.two_pos hi)),
    fun h => Nat.lt_pow_two_of_testBit _ h⟩

theorem val_add_one_of_ne_seven {n : Fin 8} (h : n ≠ 7) : (n + 1).val = n.val + 1 :=
  Fin.val_add_one_of_lt (Fin.lt_last_iff_ne_last.2 h)

theorem getLsbD_accWith (w : Packer) (b : Bool) {i : Nat} (h : i < 8) :
    (accWith w b).getLsbD i = (w.acc.getLsbD i || (decide (i = w.nbits.val) && b)) := by
  rw [accWith, BitVec.getLsbD_or, BitVec.getLsbD_shiftLeft, BitVec.zeroExtend_eq_setWidth, BitVec.getLsbD_setWidth,
    BitVec.getLsbD_ofBool]
  grind

/-- The bits written to the present byte, and one more. -/
theorem take_byteBits_accWith {w : Packer} (b : Bool) (hacc : w.acc.toNat < 2 ^ w.nbits.val) :
    (byteBits (accWith w b)).take (w.nbits.val + 1) = (byteBits w.acc).take w.nbits.val ++ [b] := by
  have hn := w.nbits.isLt
  have hbit := byte_lt_two_pow_iff.1 hacc _ le_rfl
  rw [take_byteBits _ hn, take_byteBits _ hn.le, List.range_succ, List.map_append, List.map_singleton,
    getLsbD_accWith w b hn, hbit]
  congr 1
  · refine List.map_congr_left fun i hi => ?_
    have hi := List.mem_range.1 hi
    rw [getLsbD_accWith w b (by omega), decide_eq_false (by omega), Bool.false_and, Bool.or_false]
  · simp

/-- The packer after one more bit, where its buffer has room (R280). -/
def Packer.push (w : Packer) (b : Bool) : Packer :=
  if w.nbits = 7 then { w with acc := 0, nbits := 0, data := w.data ++ [accWith w b] }
  else { w with acc := accWith w b, nbits := w.nbits + 1 }

/-- A pushed bit comes after the bits held, and no bit above the written ones is set (R41). -/
theorem Packer.heldBits_push {w : Packer} (b : Bool) (hacc : w.acc.toNat < 2 ^ w.nbits.val) :
    Spec.heldBits (w.push b) = Spec.heldBits w ++ [b] ∧ (w.push b).acc.toNat < 2 ^ (w.push b).nbits.val := by
  have hbyte := take_byteBits_accWith b hacc
  unfold Packer.push
  split
  next h7 =>
    rw [h7] at hbyte
    rw [List.take_of_length_le (by simp)] at hbyte
    simp [Spec.heldBits, h7, hbyte]
  next h7 =>
    rw [← val_add_one_of_ne_seven h7] at hbyte
    refine ⟨by simp [Spec.heldBits, hbyte], byte_lt_two_pow_iff.2 fun i hi => ?_⟩
    have hval := val_add_one_of_ne_seven h7
    by_cases h8 : i < 8
    · simp only at hi
      rw [getLsbD_accWith w b h8, byte_lt_two_pow_iff.1 hacc i (by omega), decide_eq_false (by omega)]
      rfl
    · exact BitVec.getLsbD_of_ge _ _ (by omega)

/-- The packer after a bit string. -/
def Packer.pushAll (w : Packer) (bits : List Bool) : Packer := bits.foldl Packer.push w

theorem Packer.heldBits_pushAll {w : Packer} (bits : List Bool) (hacc : w.acc.toNat < 2 ^ w.nbits.val) :
    Spec.heldBits (w.pushAll bits) = Spec.heldBits w ++ bits ∧
      (w.pushAll bits).acc.toNat < 2 ^ (w.pushAll bits).nbits.val := by
  induction bits generalizing w with
  | nil => exact ⟨(List.append_nil _).symm, hacc⟩
  | cons b bits ih =>
    obtain ⟨hheld, hacc'⟩ := Packer.heldBits_push b hacc
    obtain ⟨hheld', hacc''⟩ := ih hacc'
    refine ⟨?_, hacc''⟩
    rw [hheld, List.append_assoc] at hheld'
    exact hheld'

theorem paddingCount_toNat (n : Fin 8) : (paddingCount n).toNat = (8 - n.val) % 8 := by
  decide +revert

/-- At the close of the packer its header and its data bytes are the packed form of the bits it holds (R281, R286). -/
theorem Packer.isPacked_finalData {w : Packer} (hacc : w.acc.toNat < 2 ^ w.nbits.val) :
    Spec.IsPacked (Spec.heldBits w) (paddingCount w.nbits) (finalData w) := by
  have hn := w.nbits.isLt
  refine isPacked_iff.2 ⟨?_, by rw [paddingCount_toNat]; omega⟩
  rw [paddingCount_toNat, Spec.heldBits, finalData]
  by_cases h0 : w.nbits = 0
  · simp [h0]
  · have hpos : w.nbits.val ≠ 0 := fun e => h0 (Fin.ext e)
    have hzeros : (byteBits w.acc).drop w.nbits.val = List.replicate (8 - w.nbits.val) false := by
      refine List.eq_replicate_iff.2 ⟨by simp, fun x hx => ?_⟩
      obtain ⟨i, hi, rfl⟩ := List.getElem_of_mem hx
      rw [List.getElem_drop]
      simp only [byteBits, List.getElem_map, List.getElem_range]
      exact byte_lt_two_pow_iff.1 hacc _ (by omega)
    rw [if_neg h0, List.flatMap_append, List.append_assoc, Nat.mod_eq_of_lt (by omega), ← hzeros, List.take_append_drop]
    simp

/-- The packer of a session just opened (R283). -/
def Packer.opened : Packer := { isOpen := true, acc := 0, nbits := 0, data := [] }

/-- A session of a bit string gives its packed form (R286). -/
theorem isPacked_pushAll_opened (bits : List Bool) : Spec.IsPacked bits
    (paddingCount (Packer.opened.pushAll bits).nbits) (finalData (Packer.opened.pushAll bits)) := by
  obtain ⟨hheld, hacc⟩ := Packer.heldBits_pushAll (w := .opened) bits Nat.one_pos
  have hbits : Spec.heldBits (Packer.opened.pushAll bits) = bits := hheld
  have hpacked := Packer.isPacked_finalData hacc
  rwa [hbits] at hpacked

end Sys2Proof.Machine
end

section
/-! PROOFS. Whole turns of COMPRESS that raise nothing (spec 43_translate.md R241, R244). -/

namespace Sys2Proof.Machine

/-! ### The bits of the codes -/

/-- The state after BwWrite of each bit of a string, its echo included, where the buffer has room (R280, R282). -/
def State.packed (s : State) (bits : List Bool) : State :=
  { s with bw := s.bw.pushAll bits, diag := Spec.echo s bits }

@[simp] theorem State.packed_nil (s : State) : s.packed [] = s := by
  simp [State.packed, Packer.pushAll, Spec.echo]

theorem State.packed_append (s : State) (p q : List Bool) : s.packed (p ++ q) = (s.packed p).packed q := by
  cases hd : s.diagEn <;> simp [State.packed, Packer.pushAll, Spec.echo, hd]

theorem bwWriteBit_packed_or_raised (b : Bool) (s : State) :
    bwWriteBit b s = .go (s.packed [b]) ∨ ∃ u, bwWriteBit b s = .raised (raiseError .capacityExceeded 0 u) := by
  have hecho : ∀ w, { diagEcho b s with bw := w } = { s with bw := w, diag := Spec.echo s [b] } := fun w => by
    cases hd : s.diagEn <;> simp [diagEcho, Spec.echo, diagWrite, bitChar, Spec.bitText, hd]
  rcases bwWriteBit_cases b s with ⟨h7, hw⟩ | ⟨h7, -, hw⟩ | ⟨-, -, hw⟩
  · exact .inl (by simp [hw, hecho, State.packed, Packer.pushAll, Packer.push, h7])
  · exact .inl (by simp [hw, hecho, State.packed, Packer.pushAll, Packer.push, h7])
  · exact .inr ⟨_, hw⟩

theorem bwWriteBits_packed_or_raised (p : List Bool) (s : State) :
    bwWriteBits p s = .go (s.packed p) ∨ ∃ u, bwWriteBits p s = .raised (raiseError .capacityExceeded 0 u) := by
  induction p generalizing s with
  | nil => exact .inl (by rw [State.packed_nil]; rfl)
  | cons b p ih =>
    rw [bwWriteBits]
    rcases bwWriteBit_packed_or_raised b s with hb | ⟨u, hb⟩ <;> rw [hb]
    · rw [show s.packed (b :: p) = (s.packed [b]).packed p from s.packed_append [b] p]
      exact ih _
    · exact .inr ⟨u, rfl⟩

/-- EncodeSymbol writes the code of its symbol, or raises (R241). -/
theorem encodeSymbolBits_packed_or_raised (v : Byte) (s : State) :
    (∃ p, s.tree.code v = some p ∧ encodeSymbolBits v s = .go (s.packed p)) ∨
      ∃ e i u, encodeSymbolBits v s = .raised (raiseError e i u) := by
  unfold encodeSymbolBits
  cases s.tree.code v with
  | none => exact .inr ⟨_, _, _, rfl⟩
  | some p => exact (bwWriteBits_packed_or_raised p s).imp (fun h => ⟨p, rfl, h⟩) (fun ⟨u, h⟩ => ⟨_, _, u, h⟩)

/-! ### The turn -/

/-- A whole turn leaves a state in which an error was raised as it is (60_exceptions.md R341). -/
theorem advance_raiseError_err {e : ErrName} {i : Word} {u : State} : (advance (raiseError e i u)).err = some e := by
  have hstay : advance (raiseError e i u) = raiseError e i u := by
    have hwork := work_raiseError e i u
    cases hq : (raiseError e i u).quantum with
    | none => exact advance_hold hq rfl
    | some n => simp only [advance, hq]; cases n <;> rfl
  rw [hstay, raiseError_err]

/-- COMPRESS at an InRead: whether the terminator was read, and its tokens of IN (R244). -/
def State.compressing (s : State) (term : Bool) (q : List Token) : State :=
  { s with inTerm := term, inQ := q, ctl := .compress }

/-- A turn of COMPRESS that raises nothing has packed the codes of its bytes when it comes to the close (R244). -/
theorem advance_compressing {s : State} {l : List Byte} {rest : List Token} (hq : s.quantum = none)
    (herr : (advance (s.compressing false (Spec.inBytes l ++ .eos :: rest))).err = none) :
    (∀ c ∈ l, s.tree.code c ≠ none) ∧ advance (s.compressing false (Spec.inBytes l ++ .eos :: rest)) =
      advance (bwCloseStart true ((s.packed (Spec.codeBits s.tree l)).compressing true rest)) := by
  induction l generalizing s with
  | nil =>
    refine ⟨by simp, ?_⟩
    rw [Spec.codeBits, List.flatMap_nil, State.packed_nil]
    exact advance_tick hq (by simp [tick, State.compressing, tickCompress, inRead, Spec.inBytes])
  | cons c l ih =>
    have htick : tick (s.compressing false (Spec.inBytes (c :: l) ++ .eos :: rest)) =
        some ((encodeSymbolBits c (s.compressing false (Spec.inBytes l ++ .eos :: rest))).finish
          fun t => { t with ctl := .compress }) := by
      simp [tick, State.compressing, tickCompress, inRead, Spec.inBytes]
    rw [advance_tick (s := s.compressing _ _) hq htick] at herr ⊢
    rcases encodeSymbolBits_packed_or_raised c (s.compressing false (Spec.inBytes l ++ .eos :: rest)) with
      ⟨p, hcode, he⟩ | ⟨e, i, u, he⟩ <;> rw [he] at herr ⊢
    · have hcode : s.tree.code c = some p := hcode
      obtain ⟨hcodes, hadv⟩ := ih (s := s.packed p) hq herr
      refine ⟨List.forall_mem_cons.2 ⟨by simp [hcode], hcodes⟩, hadv.trans ?_⟩
      have hbits : Spec.codeBits s.tree (c :: l) = p ++ Spec.codeBits s.tree l := by
        simp [Spec.codeBits, hcode]
      rw [hbits, State.packed_append]
      rfl
    · exact absurd herr (by simp [Flow.finish, advance_raiseError_err])

/-- An emission of COMPRESS that raises nothing writes all its bytes and CLOSE (R244, R281). -/
theorem advance_emit_compress {s : State} {bytes : List Byte} {n : Word} (hc : s.ctl = .emit bytes (.compress n))
    (herr : (advance s).err = none) (hq : s.quantum = none) (hown : s.outOwned = true) (hin : s.inOwned = true)
    (hterm : s.inTerm = true) :
    advance s = { s with
      inOwned := false, inTerm := false
      out := s.out ++ Spec.outBytes bytes ++ [.close], outOwned := false
      bw := .closed, result := n, ctl := .idle } := by
  have htick : tick s = some (tickEmit bytes (.compress n) s) := by simp only [tick, hc]
  rw [advance_tick hq htick] at herr ⊢
  rcases tickEmit_cases bytes (.compress n) s with ⟨-, ht⟩ | ⟨b, r, -, hk, -⟩ | ⟨-, -, ht⟩
  · rw [ht, advance_hold (by simpa [emitEnd, bwCloseEnd, complete] using hq) rfl]
    simp [emitEnd, complete, inRelease, bwCloseEnd, outClose, hown, hin, hterm, Spec.outBytes]
  · exact absurd rfl (hk n)
  · exact absurd herr (by simp [ht, advance_raiseError_err])

/-- A close of COMPRESS that raises nothing writes the header, the data and CLOSE (R244, R281). -/
theorem advance_bwCloseStart_compress {s : State} (herr : (advance (bwCloseStart true s)).err = none)
    (hq : s.quantum = none) (hown : s.outOwned = true) (hin : s.inOwned = true) (hterm : s.inTerm = true) :
    advance (bwCloseStart true s) = { s with
      inOwned := false, inTerm := false
      out := s.out ++ Spec.outBytes (paddingCount s.bw.nbits :: finalData s.bw) ++ [.close], outOwned := false
      bw := .closed
      result := BitVec.ofNat 32 (1 + (finalData s.bw).length), ctl := .idle } := by
  unfold bwCloseStart at herr ⊢
  split at herr
  · exact absurd herr (by simp [advance_raiseError_err])
  next hroom =>
    rw [if_neg hroom]
    exact advance_emit_compress rfl herr hq hown hin hterm

/-- COMPRESS at its first InRead: both sessions are open (R244). -/
def compressOpened (s : State) : State := bwOpenSession (inOpen s)

@[simp] theorem compressOpened_tree (s : State) : (compressOpened s).tree = s.tree := rfl

/-- COMPRESS of a byte string that raises nothing: every byte has a code, and the packed form of the codes goes to
OUT (R244). -/
theorem exec_compress_of_err_none {s t : State} {l : List Byte} {rest : List Token} (hs : Spec.Ready s)
    (hdrain : s.inDrain = false) (hin : s.inQ = Spec.inBytes l ++ .eos :: rest) (hexec : exec .compress s = .next t)
    (herr : t.err = none) :
    (∀ c ∈ l, s.tree.code c ≠ none) ∧ ∃ h data, Spec.IsPacked (Spec.codeBits s.tree l) h data ∧ t = { s with
      inQ := rest, inOwned := false, inTerm := false
      out := s.out ++ Spec.outBytes (h :: data) ++ [.close], outOwned := false
      bw := .closed, diag := Spec.echo s (Spec.codeBits s.tree l)
      result := BitVec.ofNat 32 (1 + data.length), ctl := .idle } := by
  have hadm : admits .compress s = true := by simp [admits, hs.bw, hs.br]
  have hopen : advance { s with ctl := .openIn .compress } =
      advance ((compressOpened s).compressing false (Spec.inBytes l ++ .eos :: rest)) := by
    rw [← hin]
    exact advance_tick hs.quantum (if_neg (c := s.inDrain = true) (by simp [hdrain]))
  rw [exec, execCompress, command_run hs.err hadm, hopen] at hexec
  obtain rfl := Host.Outcome.next.inj hexec
  have hq : (compressOpened s).quantum = none := hs.quantum
  obtain ⟨hcodes, hadv⟩ := advance_compressing hq herr
  rw [hadv] at herr ⊢
  have hpacked := isPacked_pushAll_opened (Spec.codeBits s.tree l)
  refine ⟨hcodes, _, _, hpacked, (advance_bwCloseStart_compress herr hq rfl rfl rfl).trans ?_⟩
  have hecho : Spec.echo (compressOpened s) (Spec.codeBits s.tree l) = Spec.echo s (Spec.codeBits s.tree l) := rfl
  simp only [State.packed, State.compressing, compressOpened_tree, hecho]
  rfl

end Sys2Proof.Machine
end

section
/-! PROOFS. The unpacker over the data bytes of a session (spec 10_state.md R42, R45, 45_bitreader.md R310 to R312). -/

namespace Sys2Proof.Machine

/-! ### The window and the bits left -/

/-- The bits of the data bytes `ds`, less the `pad` padding bits of the last one, from place `pos` on (20_memory.md R77). -/
def bitsLeft (pad pos : Fin 8) (ds : List Byte) : List Bool :=
  ((ds.flatMap byteBits).take (8 * ds.length - pad.val)).drop pos.val

/-- The engine at place `c` of a command, with the unpacker's window and IN over the data bytes `ds`, EOS and
`rest` (10_state.md R42, R45). -/
def State.reading (s : State) (pos : Fin 8) (ds : List Byte) (rest : List Token) (c : Ctl) : State :=
  { s with
    br := { s.br with cur := ds[0]?, nxt := ds[1]?, pos := pos }
    inQ := if ds.length < 2 then rest else Spec.inBytes (ds.drop 2) ++ .eos :: rest
    inTerm := decide (ds.length < 2)
    ctl := c }

section
variable (s : State) (pos : Fin 8) (ds : List Byte) (rest : List Token) (c : Ctl)

theorem window_reading : Spec.Window (s.reading pos ds rest c) ds rest := by
  match ds with
  | [] => exact .inr (.inr ⟨rfl, rfl, rfl, rfl, rfl⟩)
  | [d] => exact .inr (.inl ⟨rfl, rfl, d, rfl, rfl, rfl⟩)
  | d :: e :: more => exact .inl ⟨by simp [State.reading], d, e, more, rfl, rfl, rfl, by simp [State.reading]⟩

@[simp] theorem reading_quantum : (s.reading pos ds rest c).quantum = s.quantum := rfl

theorem unread_reading : Spec.unread (s.reading pos ds rest c) ds = bitsLeft s.br.pad pos ds := rfl

end

theorem length_bitsLeft (pad pos : Fin 8) (ds : List Byte) :
    (bitsLeft pad pos ds).length = 8 * ds.length - pad.val - pos.val := by
  rw [bitsLeft, List.length_drop, List.length_take, length_flatMap_byteBits]
  omega

/-- HasNext says whether a bit is left (R311). -/
theorem hasNext_reading {s : State} {pos : Fin 8} {ds : List Byte} {rest : List Token} {c : Ctl} :
    hasNext (s.reading pos ds rest c).br = true ↔ bitsLeft s.br.pad pos ds ≠ [] := by
  rw [← List.length_pos_iff, length_bitsLeft]
  have hpad := s.br.pad.isLt
  have hpos := pos.isLt
  match ds with
  | [] => simp [hasNext, State.reading]
  | [d] => simp [hasNext, State.reading]
  | d :: e :: more => simp [hasNext, State.reading]; omega

/-- The next bit is that of the current byte; past its last bit the next byte is the current one (R312). -/
theorem bitsLeft_eq_cons {pad pos : Fin 8} {ds : List Byte} {b : Bool} {bits : List Bool}
    (h : bitsLeft pad pos ds = b :: bits) : ∃ d ds', ds = d :: ds' ∧ d.getLsbD pos.val = b ∧
      (pos = 7 → bitsLeft pad 0 ds' = bits) ∧ (pos ≠ 7 → bitsLeft pad (pos + 1) ds = bits) := by
  have hlen : 8 * ds.length - pad.val - pos.val = bits.length + 1 := by
    rw [← length_bitsLeft, h, List.length_cons]
  have htail : ((ds.flatMap byteBits).take (8 * ds.length - pad.val)).drop (pos.val + 1) = bits := by
    rw [← List.tail_drop, ← bitsLeft, h, List.tail_cons]
  have hhead : (bitsLeft pad pos ds)[0]? = some b := by rw [h]; rfl
  cases ds with
  | nil => simp at hlen
  | cons d ds' =>
    refine ⟨d, ds', rfl, ?_, fun h7 => ?_, fun h7 => ?_⟩
    · have hbit := getElem?_flatMap_byteBits (d :: ds') 0 pos.isLt
      rw [bitsLeft, List.getElem?_drop, List.getElem?_take_of_lt (by omega), Nat.add_comm] at hhead
      exact Option.some.inj (hbit.symm.trans hhead)
    · rw [h7, show (7 : Fin 8).val + 1 = 8 from rfl, List.drop_take, List.flatMap_cons,
        List.drop_left' (length_byteBits d)] at htail
      rw [← htail, bitsLeft, List.length_cons, show 8 * (ds'.length + 1) - pad.val - 8 = 8 * ds'.length - pad.val by omega]
      rfl
    · rw [bitsLeft, val_add_one_of_ne_seven h7, htail]

/-! ### The take of a bit -/

/-- Next takes the next bit, with the refill of the window where it used up the current byte (R312). -/
theorem advance_takeBit {s : State} {pos : Fin 8} {ds : List Byte} {b : Bool} {bits : List Bool} (hq : s.quantum = none)
    (h : bitsLeft s.br.pad pos ds = b :: bits) (k : RefillFor) (rest : List Token) (c : Ctl) :
    ∃ pos' ds' c', bitsLeft s.br.pad pos' ds' = bits ∧
      advance (takeBit k (s.reading pos ds rest c)) = advance (bitTaken b k (s.reading pos' ds' rest c')) := by
  obtain ⟨d, ds', rfl, hbit, hlast, hmore⟩ := bitsLeft_eq_cons h
  have hcur : currentBit (s.reading pos (d :: ds') rest c).br = b := hbit
  rw [takeBit, hcur]
  by_cases h7 : pos = 7
  · subst h7
    refine ⟨0, ds', .refill b k, hlast rfl, ?_⟩
    refine advance_tick hq ?_
    match ds' with
    | [] => rfl
    | [e] => simp [tick, State.reading, shiftWindow, lastOfByte, tickRefill, inRead, Spec.inBytes]
    | e :: f :: more => simp [tick, State.reading, shiftWindow, lastOfByte, tickRefill, inRead, Spec.inBytes]
  · refine ⟨pos + 1, d :: ds', c, hmore h7, ?_⟩
    have hpos : lastOfByte (s.reading pos (d :: ds') rest c).br = false := by simp [lastOfByte, State.reading, h7]
    rw [hpos]
    rfl

end Sys2Proof.Machine
end

section
/-! PROOFS. Whole turns of DECOMPRESS over the packed form of the codes of a byte string (spec 43_translate.md R240, R245). -/

namespace Sys2Proof.Machine

/-! ### A decode attempt -/

@[simp] theorem Node.nodeAt_absent (p : List Bool) : Node.absent.nodeAt p = .absent := by
  cases p <;> simp [Node.nodeAt]

theorem Node.nodeAt_leaf_eq_leaf {u v : Byte} {p : List Bool} (h : (Node.leaf u).nodeAt p = .leaf v) :
    p = [] ∧ u = v := by
  cases p with
  | nil => exact ⟨rfl, Node.leaf.inj h⟩
  | cons b p => simp [Node.nodeAt] at h

/-- A decode attempt at an INTERNAL node takes the bits of a path that leads from it to a leaf (R240). -/
theorem advance_decode {s : State} {d : Descent} {m : DecodeFor} {p bits : List Bool} {v : Byte} {pos : Fin 8}
    {ds : List Byte} (hq : s.quantum = none) (hnode : (Node.internal d.zero d.one).nodeAt p = .leaf v)
    (h : bitsLeft s.br.pad pos ds = p ++ bits) (rest : List Token) :
    ∃ pos' ds' c, bitsLeft s.br.pad pos' ds' = bits ∧
      advance (s.reading pos ds rest (.decode d m)) = advance (symbolDecoded v m (s.reading pos' ds' rest c)) := by
  induction p generalizing d pos ds with
  | nil => cases hnode
  | cons b p ih =>
    have hnext : hasNext (s.reading pos ds rest (.decode d m)).br = true := hasNext_reading.2 (by simp [h])
    have htick : tick (s.reading pos ds rest (.decode d m)) =
        some (takeBit (.decode d m) (s.reading pos ds rest (.decode d m))) := congrArg some (if_pos hnext)
    obtain ⟨pos', ds', c, hleft, hadv⟩ := advance_takeBit hq h (.decode d m) rest (.decode d m)
    rw [advance_tick (s := s.reading ..) hq htick, hadv, bitTaken, descend]
    rw [Node.nodeAt_internal_cons] at hnode
    cases hchild : (if b then d.one else d.zero) with
    | absent => simp [hchild] at hnode
    | leaf u =>
      rw [hchild] at hnode
      obtain ⟨rfl, rfl⟩ := Node.nodeAt_leaf_eq_leaf hnode
      exact ⟨pos', ds', c, hleft, rfl⟩
    | internal l r =>
      rw [hchild] at hnode
      exact ih hnode hleft

theorem startAttempt_of_root {s : State} {l r : Node} (h : s.tree = .root l r) (m : DecodeFor) :
    startAttempt m s = { s with ctl := .decode { zero := l, one := r, depth := 0 } m } := by
  rw [startAttempt, h]

/-- DECOMPRESS at the head of its loop decodes a symbol from the bits of its code (R240, R245). -/
theorem advance_symbols_code {s : State} {p bits : List Bool} {v : Byte} {pos : Fin 8} {ds : List Byte}
    (hq : s.quantum = none) (hcode : s.tree.code v = some p) (h : bitsLeft s.br.pad pos ds = p ++ bits)
    (rest : List Token) (n : Word) : ∃ pos' ds', bitsLeft s.br.pad pos' ds' = bits ∧
      advance (s.reading pos ds rest (.symbols n)) = advance (s.reading pos' ds' rest (.putSymbol v n)) := by
  have hpath : p ≠ [] := List.ne_nil_of_length_pos (Tree.one_le_path_length (Tree.mem_leaves_of_code hcode))
  have hnode := Tree.nodeAt_of_code hcode
  have hnext : hasNext (s.reading pos ds rest (.symbols n)).br = true := hasNext_reading.2 (by simp [h, hpath])
  cases htree : s.tree with
  | empty => simp [htree, Tree.nodeAt] at hnode
  | root l r =>
    rw [htree] at hnode
    have htick : tick (s.reading pos ds rest (.symbols n)) =
        some (s.reading pos ds rest (.decode { zero := l, one := r, depth := 0 } (.stream n))) :=
      congrArg some ((if_pos hnext).trans (startAttempt_of_root (s := s.reading ..) htree _))
    obtain ⟨pos', ds', c, hleft, hadv⟩ :=
      advance_decode (d := { zero := l, one := r, depth := 0 }) (m := .stream n) hq hnode h rest
    exact ⟨pos', ds', hleft, (advance_tick (s := s.reading ..) hq htick).trans hadv⟩

/-! ### The turn -/

/-- From the head of its loop DECOMPRESS writes the byte string whose codes are left, and CLOSE (R245). -/
theorem advance_symbols {s : State} {l ds : List Byte} {pos : Fin 8} (hq : s.quantum = none) (hin : s.inOwned = true)
    (hown : s.outOwned = true) (hcodes : ∀ c ∈ l, s.tree.code c ≠ none) (herr : l ≠ [] → s.outErr = false)
    (h : bitsLeft s.br.pad pos ds = Spec.codeBits s.tree l) (rest : List Token) (n : Word) :
    advance (s.reading pos ds rest (.symbols n)) = { s with
      inQ := rest, inOwned := false, inTerm := false
      out := s.out ++ Spec.outBytes l ++ [.close], outOwned := false
      br := .closed
      result := n + BitVec.ofNat 32 l.length, ctl := .idle } := by
  induction l generalizing s pos ds n with
  | nil =>
    have hnext : ¬ hasNext (s.reading pos ds rest (.symbols n)).br = true := fun hn => hasNext_reading.1 hn h
    have hlen : ds.length < 2 := by
      have hzero : 8 * ds.length - s.br.pad.val - pos.val = 0 := by rw [← length_bitsLeft, h]; rfl
      omega
    have htick : tick (s.reading pos ds rest (.symbols n)) =
        some (complete n (outClose (brCloseSession (s.reading pos ds rest (.symbols n))))) :=
      congrArg some (if_neg hnext)
    rw [advance_tick (s := s.reading ..) hq htick, advance_hold (by simpa [complete, brCloseSession] using hq) rfl]
    simp [complete, outClose, brCloseSession, inRelease, State.reading, hin, hown, hlen, Spec.outBytes]
  | cons c l ih =>
    obtain ⟨hc, hcodes⟩ := List.forall_mem_cons.1 hcodes
    obtain ⟨p, hcode⟩ := Option.ne_none_iff_exists'.1 hc
    have hbits : Spec.codeBits s.tree (c :: l) = p ++ Spec.codeBits s.tree l := by
      simp [Spec.codeBits, hcode]
    obtain ⟨pos', ds', hleft, hadv⟩ := advance_symbols_code hq hcode (h.trans hbits) rest n
    have herr := herr (List.cons_ne_nil _ _)
    have htick : tick (s.reading pos' ds' rest (.putSymbol c n)) =
        some ((outAppend c s).reading pos' ds' rest (.symbols (n + 1))) := by
      simp [tick, State.reading, outWrite, herr, outAppend]
    have hcount : n + 1 + BitVec.ofNat 32 l.length = n + BitVec.ofNat 32 (c :: l).length := by
      rw [List.length_cons]
      bv_omega
    rw [hadv, advance_tick (s := s.reading ..) hq htick,
      ih (s := outAppend c s) hq hin hown hcodes (fun _ => herr) hleft, hcount]
    simp [Spec.outBytes, outAppend]

/-- DECOMPRESS at the head of its loop for the first time: both sessions are open, with the header's padding count (R245). -/
def decompressOpened (s : State) (pad : Fin 8) : State := outOpen { inOpen s with br := openedWith pad none none }

/-- DECOMPRESS opens its source: the header, and the first two data bytes (R245, R310). -/
theorem advance_openIn_decompress {s : State} {h : Byte} {data : List Byte} {rest : List Token} {pad : Fin 8}
    (hq : s.quantum = none) (hdrain : s.inDrain = false) (hin : s.inQ = Spec.inBytes (h :: data) ++ .eos :: rest)
    (hpad : headerPad h = some pad) :
    advance { s with ctl := .openIn .decompress } =
      advance ((decompressOpened s pad).reading 0 data rest (.symbols 0)) := by
  have hopen : tick { s with ctl := .openIn .decompress } =
      some { s with inOwned := true, inTerm := false, ctl := .header .decompress } :=
    if_neg (c := s.inDrain = true) (by simp [hdrain])
  have hheader : tick { s with inOwned := true, inTerm := false, ctl := .header .decompress } =
      some { s with inOwned := true, inTerm := false, inQ := Spec.inBytes data ++ .eos :: rest
                    ctl := .fillCur .decompress pad } := by
    simp [tick, tickHeader, inRead, hin, Spec.inBytes, hpad]
  refine (advance_tick (by exact hq) hopen).trans ((advance_tick (by exact hq) hheader).trans ?_)
  rcases data with _ | ⟨d, _ | ⟨e, more⟩⟩ <;>
    exact (advance_tick (by exact hq) rfl).trans (advance_tick (by exact hq) rfl)

/-- DECOMPRESS of the packed form of the codes of a byte string (R245). -/
theorem exec_decompress {s : State} {l data : List Byte} {h : Byte} {rest : List Token} (hs : Spec.Ready s)
    (hdrain : s.inDrain = false) (hcodes : ∀ c ∈ l, s.tree.code c ≠ none) (herr : l ≠ [] → s.outErr = false)
    (hpacked : Spec.IsPacked (Spec.codeBits s.tree l) h data)
    (hin : s.inQ = Spec.inBytes (h :: data) ++ .eos :: rest) :
    exec .decompress s = .next { s with
      inQ := rest, inOwned := false, inTerm := false
      out := s.out ++ Spec.outBytes l ++ [.close], outOwned := false
      br := .closed
      result := BitVec.ofNat 32 l.length, ctl := .idle } := by
  have hadm : admits .decompress s = true := by simp [admits, hs.bw, hs.br]
  obtain ⟨hbits, hpad⟩ := isPacked_iff.1 hpacked
  have hq : (decompressOpened s ⟨h.toNat, hpad⟩).quantum = none := hs.quantum
  have hleft : bitsLeft ⟨h.toNat, hpad⟩ 0 data = Spec.codeBits s.tree l := by
    have hlen : 8 * data.length - h.toNat = (Spec.codeBits s.tree l).length := by
      rw [← length_flatMap_byteBits, hbits, List.length_append, List.length_replicate, Nat.add_sub_cancel]
    rw [bitsLeft, hlen, hbits]
    exact List.take_left
  rw [exec, execDecompress, command_run hs.err hadm,
    advance_openIn_decompress hs.quantum hdrain hin (dif_pos hpad),
    advance_symbols hq rfl rfl hcodes herr hleft]
  simp [decompressOpened, outOpen, inOpen]

end Sys2Proof.Machine
end

section
/-! PROOFS. The statement about DECOMPRESS of what COMPRESS wrote (spec 43_translate.md R246). -/

namespace Sys2Proof.Machine

theorem length_codeBits (t : Tree) (l : List Byte) :
    (Spec.codeBits t l).length = (l.map (fun x => ((t.code x).getD []).length)).sum :=
  List.length_flatMap

/-- Settles O51: COMPRESS writes the packed form of the codes of its bytes, which are the paths of their leaves;
DECOMPRESS descends along them to the same leaves. -/
theorem compressThenDecompressRoundTrip : Obligations.CompressThenDecompressRoundTrip := by
  rintro s t u l c rest rest' hs hdrain hin hexec herr hout hu hudrain huout htree huin
  obtain ⟨hcodes, h, data, hpacked, rfl⟩ := exec_compress_of_err_none hs hdrain hin hexec herr
  obtain rfl : h :: data = c := outBytes_injective (List.append_cancel_left (List.append_cancel_right hout))
  refine ⟨?_, h, data, _, rfl, hpacked, length_codeBits s.tree l⟩
  rw [← htree] at hcodes hpacked
  exact ⟨_, exec_decompress hu hudrain hcodes (fun _ => huout) hpacked huin, rfl, hu.err, rfl, rfl, rfl⟩

end Sys2Proof.Machine
end

section
/-! PROOFS. The BIT operand (spec 30_encoding.md R101), and BwWrite of one bit, case by case (44_bitwriter.md R280,
R282). -/

namespace Sys2Proof.Machine

/-! ### The BIT operand -/

theorem bitOperand_of_bit {s : State} {b : Bool} (h : s.arg0 = if b then 1 else 0) : bitOperand s = some b := by
  rw [bitOperand, h]
  cases b <;> rfl

theorem bitOperand_of_gt {s : State} (h : 1 < s.arg0.toNat) : bitOperand s = none := by
  have h0 : s.arg0 ≠ 0 := fun h0 => by simp [h0] at h
  have h1 : s.arg0 ≠ 1 := fun h1 => by simp [h1] at h
  rw [bitOperand, if_neg h0, if_neg h1]

section
variable {s : State} {i : Instr} (body : Bool → State → State)

/-- A command with a BIT operand, where ARG0 holds a bit. -/
theorem command_withBit_of_bit (herr : s.err = none) (hadm : admits i s = true) {b : Bool}
    (h : s.arg0 = if b then 1 else 0) : command i (withBit body) s = .next (body b s) := by
  rw [command_run herr hadm, withBit, bitOperand_of_bit h]

/-- A command with a BIT operand, where ARG0 holds none. -/
theorem command_withBit_of_gt (herr : s.err = none) (hadm : admits i s = true) (h : 1 < s.arg0.toNat) :
    command i (withBit body) s = .next (raiseError .invalidArgument s.arg0 s) := by
  rw [command_run herr hadm, withBit, bitOperand_of_gt h]

end

/-! ### One bit -/

/-- The echo changes DIAG only (R282). -/
theorem diagEcho_eq (b : Bool) (s : State) : diagEcho b s = { s with diag := Spec.echo s [b] } := by
  by_cases hd : s.diagEn = true
  · rw [diagEcho, Spec.echo, if_pos hd, if_pos hd]
    rfl
  · rw [diagEcho, Spec.echo, if_neg hd, if_neg hd, List.append_nil]

theorem accWith_eq_or_shiftLeft (w : Packer) (b : Bool) :
    accWith w b = w.acc ||| ((if b then 1#8 else 0#8) <<< w.nbits.val) := by
  cases b <;> rfl

/-- The eighth bit of a byte is its bit 7 (R280). -/
theorem accWith_of_nbits_eq_seven {w : Packer} (h : w.nbits = 7) (b : Bool) :
    accWith w b = w.acc ||| if b then 0x80#8 else 0#8 := by
  rw [accWith, h]
  cases b <;> rfl

theorem bwWriteBit_of_nbits_ne_seven {s : State} (h : s.bw.nbits ≠ 7) (b : Bool) :
    bwWriteBit b s = .go { s with
      diag := Spec.echo s [b]
      bw := { s.bw with acc := accWith s.bw b, nbits := s.bw.nbits + 1 } } := by
  simpa [h, diagEcho_eq] using bwWriteBit_cases b s

theorem bwWriteBit_of_room {s : State} (h : s.bw.nbits = 7) (hroom : s.bw.data.length ≠ s.bwCap) (b : Bool) :
    bwWriteBit b s = .go { s with
      diag := Spec.echo s [b]
      bw := { s.bw with acc := 0, nbits := 0, data := s.bw.data ++ [accWith s.bw b] } } := by
  simpa [h, hroom, diagEcho_eq] using bwWriteBit_cases b s

theorem bwWriteBit_of_full {s : State} (h : s.bw.nbits = 7) (hfull : s.bw.data.length = s.bwCap) (b : Bool) :
    bwWriteBit b s = .raised (raiseError .capacityExceeded 0 { s with diag := Spec.echo s [b] }) := by
  simpa [h, hfull, diagEcho_eq] using bwWriteBit_cases b s

end Sys2Proof.Machine
end

section
/-! PROOFS. The statements about BW_OPEN and BW_WRITE (spec 44_bitwriter.md R283, R284). -/

namespace Sys2Proof.Machine

/-- Settles O34: with the packer closed BW_OPEN's own rule runs, which opens the packer and the output session. -/
theorem bwOpenOpensPacker : Obligations.BwOpenOpensPacker := by
  refine ⟨rfl, fun s herr hbw => ?_⟩
  have hadm : admits .bwOpen s = true := by simp [admits, hbw]
  rw [exec, execBwOpen, command_run herr hadm]
  rfl

/-- Settles O35: BW_WRITE's rule splits on whether ARG0 holds a bit, then on whether that bit is the eighth of its
byte, and then on whether BW.data has room for the byte. -/
theorem bwWriteAddsOneBit : Obligations.BwWriteAddsOneBit := by
  refine ⟨rfl, fun s herr hopen => ?_⟩
  have hadm : admits .bwWrite s = true := hopen
  refine ⟨command_withBit_of_gt _ herr hadm, fun b d hb hd => ?_⟩
  obtain rfl : d = Spec.echo s [b] := hd
  rw [exec, execBwWrite, command_withBit_of_bit _ herr hadm hb]
  refine ⟨fun h => ?within, fun h hroom => ?eighth, fun h hfull => ?full⟩
  case within =>
    rw [bwWriteBit_of_nbits_ne_seven h, accWith_eq_or_shiftLeft]
    rfl
  case eighth =>
    rw [bwWriteBit_of_room h hroom, accWith_of_nbits_eq_seven h]
    rfl
  case full =>
    rw [bwWriteBit_of_full h hfull]
    rfl

end Sys2Proof.Machine
end

section
/-! PROOFS. The unpacker's own operations, case by case: HasNext, BrClose, and Next with the refill of its window by
an InRead (spec 20_memory.md R79, 45_bitreader.md R311, R312, R316). -/

namespace Sys2Proof.Machine

/-! ### HasNext and BrClose -/

theorem hasNext_iff {b : Unpacker} :
    hasNext b = true ↔ b.cur ≠ none ∧ (b.nxt ≠ none ∨ b.pos.val < 8 - b.pad.val) := by
  unfold hasNext
  cases b.cur <;> cases b.nxt <;> simp

theorem brCloseSession_closed_form (s : State) : brCloseSession s = { s with
    br := .closed
    inDrain := s.inDrain || (s.inOwned && !s.inTerm)
    inTerm := if s.inOwned then false else s.inTerm
    inOwned := false } := by
  rw [brCloseSession, inRelease]
  cases s
  split <;> simp_all

/-! ### InRead, by the head of IN -/

section
variable {s : State} {q : List Token}

theorem inRead_of_inTerm (ht : s.inTerm = true) : inRead s = .eof s := by
  simpa [ht] using inRead_cases s

theorem inRead_of_byte {n : Byte} (ht : s.inTerm = false) (hin : s.inQ = .byte n :: q) :
    inRead s = .byte n { s with inQ := q } := by
  simpa [ht, hin] using inRead_cases s

theorem inRead_of_eos (ht : s.inTerm = false) (hin : s.inQ = .eos :: q) :
    inRead s = .eof { s with inQ := q, inTerm := true } := by
  simpa [ht, hin] using inRead_cases s

theorem inRead_of_err (ht : s.inTerm = false) (hin : s.inQ = .err :: q) :
    inRead s = .failed { s with inQ := q, inTerm := true } := by
  simpa [ht, hin] using inRead_cases s

theorem inRead_of_nil (ht : s.inTerm = false) (hin : s.inQ = []) : inRead s = .hold := by
  simpa [ht, hin] using inRead_cases s

end

/-! ### The take of one bit -/

theorem currentBit_of_cur {b : Unpacker} {c : Byte} (h : b.cur = some c) : currentBit b = c.getLsbD b.pos.val := by
  rw [currentBit, h, Option.getD_some]

theorem takeBit_of_pos_ne_seven {s : State} (h : s.br.pos ≠ 7) (k : RefillFor) :
    takeBit k s = bitTaken (currentBit s.br) k { s with br := { s.br with pos := s.br.pos + 1 } } := by
  simp [takeBit, lastOfByte, advancePos, h]

/-- The engine at the InRead of a refill: `b` was the last bit of the byte, and the next byte has become the
current one (R312). -/
def State.refilling (s : State) (b : Bool) (k : RefillFor) : State :=
  { s with br := shiftWindow s.br, ctl := .refill b k }

theorem takeBit_of_pos_eq_seven {s : State} (h : s.br.pos = 7) (k : RefillFor) :
    takeBit k s = s.refilling (currentBit s.br) k := by
  simp [takeBit, lastOfByte, State.refilling, h]

/-- Error entry closes the unpacker and ends the command (R341, R342). -/
theorem raiseError_refilling (e : ErrName) (info : Word) (s : State) (b : Bool) (k : RefillFor) :
    raiseError e info (s.refilling b k) = raiseError e info s := by
  simp only [raiseError_closed_form, State.refilling]

theorem tick_refilling (s : State) (b : Bool) (k : RefillFor) :
    tick (s.refilling b k) = tickRefill b k (s.refilling b k) := rfl

/-- No turn moves an engine without a command (R7). -/
theorem advance_of_idle {s : State} (h : s.ctl = .idle) : advance s = s := by
  have htick : tick s = none := by rw [tick, h]
  unfold advance
  cases s.quantum with
  | none => rw [work_idle h]; rfl
  | some n => cases n <;> simp [runTicks, htick]

/-- For BR_NEXT the taken bit is the end of the command. -/
theorem advance_bitTaken_brNext (b : Bool) (s : State) :
    advance (bitTaken b .brNext s) = complete (if b then 1 else 0) s := by
  have hbit : bitTaken b .brNext s = complete (if b then 1 else 0) s := by cases b <;> rfl
  rw [hbit, advance_of_idle rfl]

theorem exec_brNext {s : State} (herr : s.err = none) (hopen : s.br.isOpen = true) :
    exec .brNext s = .next (if hasNext s.br then advance (takeBit .brNext s) else raiseError .exhaustion 0 s) := by
  rw [exec, execBrNext, command_run herr (show admits .brNext s = true from hopen)]

/-! ### The refill of the window, by the head of IN -/

section
variable {s : State} {q : List Token} (hq : s.quantum = none) (b : Bool) (k : RefillFor)
include hq

theorem advance_refilling_of_inTerm (ht : s.inTerm = true) :
    advance (s.refilling b k) = advance (bitTaken b k (s.refilling b k)) := by
  have hread : inRead (s.refilling b k) = .eof (s.refilling b k) := inRead_of_inTerm ht
  exact advance_tick hq (by rw [tick_refilling, tickRefill, hread]; rfl)

theorem advance_refilling_of_byte {n : Byte} (ht : s.inTerm = false) (hin : s.inQ = .byte n :: q) :
    advance (s.refilling b k) = advance (bitTaken b k { s.refilling b k with
      br := { shiftWindow s.br with nxt := some n }, inQ := q }) := by
  have hread : inRead (s.refilling b k) = .byte n { s.refilling b k with inQ := q } := inRead_of_byte ht hin
  exact advance_tick hq (by rw [tick_refilling, tickRefill, hread]; rfl)

theorem advance_refilling_of_eos (ht : s.inTerm = false) (hin : s.inQ = .eos :: q) :
    advance (s.refilling b k) = advance (bitTaken b k (State.refilling { s with inQ := q, inTerm := true } b k)) := by
  have hread : inRead (s.refilling b k) = .eof (State.refilling { s with inQ := q, inTerm := true } b k) :=
    inRead_of_eos ht hin
  exact advance_tick hq (by rw [tick_refilling, tickRefill, hread]; rfl)

/-- A read error ends the command, whatever the bit was for. -/
theorem advance_refilling_of_err (ht : s.inTerm = false) (hin : s.inQ = .err :: q) :
    advance (s.refilling b k) = raiseError .resourceError 0 { s with inQ := q, inTerm := true } := by
  have hread : inRead (s.refilling b k) = .failed (State.refilling { s with inQ := q, inTerm := true } b k) :=
    inRead_of_err ht hin
  have htick : tick (s.refilling b k) = some (raiseError .resourceError 0 { s with inQ := q, inTerm := true }) := by
    rw [tick_refilling, tickRefill, hread, ← raiseError_refilling]
  rw [advance_tick (by exact hq) htick, advance_of_idle (raiseError_ctl ..)]

theorem advance_refilling_of_nil (ht : s.inTerm = false) (hin : s.inQ = []) :
    advance (s.refilling b k) = s.refilling b k := by
  have hread : inRead (s.refilling b k) = .hold := inRead_of_nil ht hin
  exact advance_hold hq (by rw [tick_refilling, tickRefill, hread])

end

end Sys2Proof.Machine
end

section
/-! PROOFS. The statements about BR_HASNEXT, BR_NEXT and BR_CLOSE (spec 45_bitreader.md R314 to R316). -/

namespace Sys2Proof.Machine

/-- Settles O40: with the unpacker open BR_HASNEXT's own rule runs, and HasNext is the condition of R311. -/
theorem brHasNextTellsWhetherABitRemains : Obligations.BrHasNextTellsWhetherABitRemains := by
  refine ⟨rfl, fun s herr hopen => ?_⟩
  rw [exec, execBrHasNext, command_run herr (show admits .brHasNext s = true from hopen)]
  simp only [complete, hasNext_iff]

/-- Settles O41: BR_NEXT's rule splits on HasNext, then on whether the bit is the eighth of its byte, and then on what
the InRead of the refill gives. -/
theorem brNextTakesOneBit : Obligations.BrNextTakesOneBit := by
  refine ⟨rfl, fun s c n q herr hopen hq => ⟨fun hnone => ?exhausted, fun hcur hmore => ?taken⟩⟩
  case exhausted =>
    have hno : ¬ hasNext s.br = true := by
      rw [hasNext_iff]
      rintro ⟨hcur, hmore⟩
      rcases hnone with hnone | ⟨hnxt, hpos⟩
      · exact hcur hnone
      · exact hmore.elim (· hnxt) (by omega)
    rw [exec_brNext herr hopen, if_neg hno]
  case taken =>
    have hnext : hasNext s.br = true := hasNext_iff.mpr ⟨by simp [hcur], hmore⟩
    rw [exec_brNext herr hopen, if_pos hnext]
    refine ⟨fun h7 => ?within, ?eighth⟩
    case within =>
      rw [takeBit_of_pos_ne_seven h7, advance_bitTaken_brNext, currentBit_of_cur hcur]
      rfl
    case eighth =>
      have hrefill (h7 : s.br.pos = 7) : takeBit .brNext s = s.refilling (c.getLsbD 7) .brNext := by
        rw [takeBit_of_pos_eq_seven h7, currentBit_of_cur hcur, h7]
        rfl
      refine ⟨fun h7 ht => ?pastTerminator, fun h7 ht hin => ?byte, fun h7 ht hin => ?eos, fun h7 ht hin => ?err,
        fun h7 ht hin => ?hold⟩ <;> rw [hrefill h7]
      case pastTerminator =>
        rw [advance_refilling_of_inTerm hq _ _ ht, advance_bitTaken_brNext]
        rfl
      case byte =>
        rw [advance_refilling_of_byte hq _ _ ht hin, advance_bitTaken_brNext]
        rfl
      case eos =>
        rw [advance_refilling_of_eos hq _ _ ht hin, advance_bitTaken_brNext]
        rfl
      case err => rw [advance_refilling_of_err hq _ _ ht hin]
      case hold =>
        rw [advance_refilling_of_nil hq _ _ ht hin]
        exact ⟨_, rfl, rfl, rfl, hin⟩

/-- Settles O42: BR_CLOSE's rule splits on whether the unpacker is open. -/
theorem brCloseReleasesSession : Obligations.BrCloseReleasesSession := by
  refine ⟨rfl, fun s herr => ?_⟩
  rw [exec, execBrClose, command_run herr rfl]
  refine ⟨fun hclosed => ?closed, fun hopen => ?opened⟩
  case closed =>
    rw [hclosed]
    rfl
  case opened =>
    rw [if_pos hopen, brCloseSession_closed_form]
    rfl

end Sys2Proof.Machine
end

section
/-! PROOFS. The statement about Abort and the raise of an error (spec 60_exceptions.md R341, R342). -/

namespace Sys2Proof.Machine

theorem outClose_closed_form (s : State) : outClose s = { s with
    out := if s.outOwned then s.out ++ [.close] else s.out
    outOwned := false } := by
  unfold outClose
  cases s
  split <;> simp_all

/-- Abort ends the input session and closes the unpacker as BrClose does (45_bitreader.md R316), after the packer is
closed and the output session ended. -/
theorem abort_eq_brCloseSession (s : State) : abort s = brCloseSession (outClose { s with bw := .closed }) := rfl

/-- Settles O16: Abort is the close of the output session followed by BrClose, each in its closed form; the raise adds
its own four fields, the history being the one Abort left as it was. -/
theorem abortReleasesEverySession : Obligations.AbortReleasesEverySession := by
  refine fun s => ⟨?abort, fun e v => ?raise⟩
  case abort =>
    rw [abort_eq_brCloseSession, brCloseSession_closed_form, outClose_closed_form]
    rfl
  case raise => rw [raiseError, abort_errHistory]

end Sys2Proof.Machine
end

section
/-! PROOFS. The save order of the leaves (spec 42_code_table.md R200, 10_state.md R36): each leaf once, at its own path,
and of two leaves the one on the left first. -/

namespace Sys2Proof.Machine

/-- A LEAF at the end of a path is among the leaves, at that path. -/
theorem Node.mem_leaves_of_nodeAt {n : Node} {v : Byte} {p : List Bool} (h : n.nodeAt p = .leaf v) :
    (v, p) ∈ n.leaves [] := by
  induction p generalizing n with
  | nil =>
    rw [Node.nodeAt_nil] at h
    exact h ▸ List.mem_singleton_self _
  | cons b p ih =>
    cases n with
    | absent | leaf u => simp [Node.nodeAt] at h
    | internal l r =>
      rw [Node.leaves_internal, List.mem_append, List.mem_map, List.mem_map]
      cases b
      · exact .inl ⟨_, ih h, rfl⟩
      · exact .inr ⟨_, ih h, rfl⟩

theorem Tree.mem_leaves_iff {t : Tree} {v : Byte} {p : List Bool} : (v, p) ∈ t.leaves ↔ t.nodeAt p = .leaf v := by
  cases t with
  | empty => simp [Tree.leaves, Tree.nodeAt]
  | root l r => exact ⟨Node.nodeAt_of_mem_leaves (n := .internal l r), Node.mem_leaves_of_nodeAt (n := .internal l r)⟩

/-- Two pairs whose paths part, the first to the left. -/
def LeftOf (x y : Byte × List Bool) : Prop := ∃ q a b, x.2 = q ++ false :: a ∧ y.2 = q ++ true :: b

theorem Node.pairwise_leaves (n : Node) (q : List Bool) : (n.leaves q).Pairwise LeftOf := by
  induction n generalizing q with
  | absent => exact .nil
  | leaf v => exact List.pairwise_singleton _ _
  | internal l r ihl ihr =>
    refine List.pairwise_append.2 ⟨ihl _, ihr _, fun x hx y hy => ?_⟩
    obtain ⟨a, ha⟩ := Node.prefix_of_mem_leaves hx
    obtain ⟨b, hb⟩ := Node.prefix_of_mem_leaves hy
    exact ⟨q, a, b, by simp [← ha], by simp [← hb]⟩

theorem Tree.pairwise_leaves (t : Tree) : t.leaves.Pairwise LeftOf := by
  rw [← t.node_leaves]
  exact t.node.pairwise_leaves []

/-- Paths that part are no beginnings of each other. -/
theorem LeftOf.not_prefix {x y : Byte × List Bool} (h : LeftOf x y) : ¬ x.2 <+: y.2 ∧ ¬ y.2 <+: x.2 := by
  obtain ⟨q, a, b, hx, hy⟩ := h
  rw [hx, hy]
  constructor <;> simp [List.prefix_append_right_inj]

theorem Tree.nodup_leaves (t : Tree) : t.leaves.Nodup := by
  refine t.pairwise_leaves.imp fun {x y} h heq => ?_
  subst heq
  exact h.not_prefix.1 List.prefix_rfl

theorem Node.nodeAt_append (n : Node) (p q : List Bool) : n.nodeAt (p ++ q) = (n.nodeAt p).nodeAt q := by
  induction p generalizing n with
  | nil => rw [List.nil_append, Node.nodeAt_nil]
  | cons b p ih =>
    cases n with
    | absent => simp
    | leaf v => simp [Node.nodeAt]
    | internal l r => rw [List.cons_append, Node.nodeAt_internal_cons, Node.nodeAt_internal_cons, ih]

theorem Tree.nodeAt_append (t : Tree) (p q : List Bool) : t.nodeAt (p ++ q) = (t.nodeAt p).nodeAt q := by
  cases t with
  | empty => simp [Tree.nodeAt]
  | root l r => exact Node.nodeAt_append (.internal l r) p q

/-- Of two leaves of a TREE neither's path begins with the other's (R36). -/
theorem Tree.eq_of_prefix {t : Tree} {x y : Byte × List Bool} (hx : x ∈ t.leaves) (hy : y ∈ t.leaves)
    (h : x.2 <+: y.2) : x = y := by
  obtain ⟨v, p⟩ := x
  obtain ⟨u, q⟩ := y
  obtain ⟨r, rfl⟩ := h
  have hu := Tree.mem_leaves_iff.1 hy
  rw [Tree.nodeAt_append, Tree.mem_leaves_iff.1 hx] at hu
  obtain ⟨rfl, rfl⟩ := Node.nodeAt_leaf_eq_leaf hu
  rw [List.append_nil]

/-- Settles O28: a path ends at a LEAF exactly where the leaf is listed with it, and the leaves of a left child come
before those of the right one. -/
theorem leavesInDepthFirstOrder : Obligations.LeavesInDepthFirstOrder :=
  fun t => ⟨fun _ _ => Tree.mem_leaves_iff, t.pairwise_leaves⟩

end Sys2Proof.Machine
end

section
/-! PROOFS. When the insertion of TREE_LOAD fails (spec 42_code_table.md R206, R208): exactly at a pair that does not go with
those before it. What it builds from pairs that go together is the one well-formed TREE with these leaves. -/

namespace Sys2Proof.Machine

/-! ### Pairs that collide -/

/-- Two different pairs of which one's path begins with the other's. -/
def Clash (x y : Byte × List Bool) : Prop := x ≠ y ∧ (x.2 <+: y.2 ∨ y.2 <+: x.2)

theorem clash_underBit {b c : Bool} {x y : Byte × List Bool} :
    Clash (underBit b x) (underBit c y) ↔ b = c ∧ Clash x y := by
  obtain ⟨u, p⟩ := x
  obtain ⟨v, q⟩ := y
  simp only [Clash, underBit, List.cons_prefix_cons, ne_eq, Prod.mk.injEq, List.cons.injEq]
  constructor
  · rintro ⟨hne, ⟨rfl, h⟩ | ⟨rfl, h⟩⟩
    · exact ⟨rfl, by tauto, .inl h⟩
    · exact ⟨rfl, by tauto, .inr h⟩
  · rintro ⟨rfl, hne, h⟩
    exact ⟨by tauto, by tauto⟩

/-- Pairs go together where equal symbols have equal paths and no two pairs collide (R208). -/
theorem consistent_iff {l : List (Byte × List Bool)} : Spec.Consistent l ↔
    ∀ x ∈ l, ∀ y ∈ l, (x.1 = y.1 → x.2 = y.2) ∧ ¬Clash x y := by
  constructor
  · refine fun h x hx y hy => ⟨(h x hx y hy).1, ?_⟩
    rintro ⟨hne, hpre | hpre⟩
    · exact hne ((h x hx y hy).2 hpre)
    · exact hne ((h y hy x hx).2 hpre).symm
  · exact fun h x hx y hy => ⟨(h x hx y hy).1, fun hpre => by_contra fun hne => (h x hx y hy).2 ⟨hne, .inl hpre⟩⟩

theorem consistent_of_subset {l l' : List (Byte × List Bool)} (h : Spec.Consistent l) (hs : ∀ x ∈ l', x ∈ l) :
    Spec.Consistent l' := fun x hx y hy => h x (hs x hx) y (hs y hy)

/-! ### The walk below a node -/

theorem Node.full_internal_iff {l r : Node} : (Node.internal l r).full = true ↔
    (l ≠ .absent ∨ r ≠ .absent) ∧ l.full = true ∧ r.full = true := by
  simp [Node.full, and_assoc]

/-- A walk fails exactly where its pair collides with a leaf (R206). -/
theorem Node.place_eq_none_iff {n : Node} (h : n.full = true) {p : List Bool} {v : Byte} :
    n.place p v = none ↔ ∃ x ∈ n.leaves [], Clash x (v, p) := by
  induction p generalizing n with
  | nil =>
    cases n with
    | absent => simp [Node.place, Node.leaves]
    | leaf t => simp [Node.place, Node.leaves, Clash]
    | internal l r =>
      obtain ⟨x, hx⟩ := List.exists_mem_of_ne_nil _ (Node.leaves_ne_nil_of_full h (by simp) [])
      have hpath : 1 ≤ x.2.length := Tree.one_le_path_length (t := .root l r) hx
      refine iff_of_true rfl ⟨x, hx, ?_, .inr List.nil_prefix⟩
      rintro rfl
      exact absurd hpath (by simp)
  | cons b p ih =>
    cases n with
    | absent =>
      have hwalk : Node.absent.place p v ≠ none := by rw [ne_eq, ih rfl]; simp [Node.leaves]
      cases b <;> simpa [Node.place, Node.leaves] using hwalk
    | leaf t => simp [Node.place, Node.leaves, Clash]
    | internal l r =>
      obtain ⟨-, hl, hr⟩ := Node.full_internal_iff.1 h
      have hpair : (v, b :: p) = underBit b (v, p) := rfl
      rw [hpair, Node.leaves_internal]
      simp only [List.mem_append, List.mem_map, or_and_right, exists_or]
      cases b
      · rw [Node.place, Option.map_eq_none_iff, ih hl]
        simp [clash_underBit]
      · rw [Node.place, Option.map_eq_none_iff, ih hr]
        simp [clash_underBit]

/-- A walk leaves no childless INTERNAL node, and its end is present (R36, R206). -/
theorem Node.full_of_place {n m : Node} {p : List Bool} {v : Byte} (hn : n.full = true) (h : n.place p v = some m) :
    m.full = true ∧ m ≠ .absent := by
  induction p generalizing n m with
  | nil =>
    cases n with
    | absent => cases h; simp [Node.full]
    | leaf t =>
      obtain ⟨-, hm⟩ := Option.ite_none_right_eq_some.1 h
      cases hm
      simp [Node.full]
    | internal l r => cases h
  | cons b p ih =>
    cases n with
    | leaf t => cases h
    | absent =>
      cases b <;>
      · obtain ⟨k, hk, rfl⟩ := Option.map_eq_some_iff.1 h
        obtain ⟨hf, hne⟩ := ih hn hk
        exact ⟨Node.full_internal_iff.2 ⟨by simp [hne], by simp [hf, Node.full]⟩, by simp⟩
    | internal l r =>
      obtain ⟨-, hl, hr⟩ := Node.full_internal_iff.1 hn
      cases b
      · obtain ⟨k, hk, rfl⟩ := Option.map_eq_some_iff.1 h
        obtain ⟨hf, hne⟩ := ih hl hk
        exact ⟨Node.full_internal_iff.2 ⟨.inl hne, hf, hr⟩, by simp⟩
      · obtain ⟨k, hk, rfl⟩ := Option.map_eq_some_iff.1 h
        obtain ⟨hf, hne⟩ := ih hr hk
        exact ⟨Node.full_internal_iff.2 ⟨.inr hne, hl, hf⟩, by simp⟩

/-- A node without a childless INTERNAL node at or below it is known by its leaves. -/
theorem Node.eq_of_leaves {n m : Node} (hn : n.full = true) (hm : m.full = true)
    (h : ∀ x, x ∈ n.leaves [] ↔ x ∈ m.leaves []) : n = m := by
  induction n generalizing m with
  | absent =>
    cases m with
    | absent => rfl
    | leaf u => exact absurd ((h _).2 (List.mem_singleton_self _)) (by simp [Node.leaves])
    | internal l r =>
      obtain ⟨x, hx⟩ := List.exists_mem_of_ne_nil _ (Node.leaves_ne_nil_of_full hm (by simp) [])
      exact absurd ((h x).2 hx) (by simp [Node.leaves])
  | leaf v =>
    have hv := Node.nodeAt_of_mem_leaves ((h (v, [])).1 (List.mem_singleton_self _))
    rw [Node.nodeAt_nil] at hv
    exact hv.symm
  | internal l r ihl ihr =>
    obtain ⟨-, hl, hr⟩ := Node.full_internal_iff.1 hn
    cases m with
    | absent =>
      obtain ⟨x, hx⟩ := List.exists_mem_of_ne_nil _ (Node.leaves_ne_nil_of_full hn (by simp) [])
      exact absurd ((h x).1 hx) (by simp [Node.leaves])
    | leaf u =>
      have hu := Node.nodeAt_of_mem_leaves ((h (u, [])).2 (List.mem_singleton_self _))
      rw [Node.nodeAt_nil] at hu
      cases hu
    | internal l' r' =>
      obtain ⟨-, hl', hr'⟩ := Node.full_internal_iff.1 hm
      have hchild : ∀ (b : Bool) (x : Byte × List Bool),
          x ∈ (if b then r else l).leaves [] ↔ x ∈ (if b then r' else l').leaves [] := by
        intro b x
        have hx := h (underBit b x)
        rw [Node.leaves_internal, Node.leaves_internal] at hx
        cases b <;> simpa [underBit] using hx
      rw [ihl hl hl' (hchild false), ihr hr hr' (hchild true)]

/-! ### Insert -/

/-- R36 conditions 4 to 6, by the root as a node and the set of leaves. -/
theorem Tree.wf_iff {t : Tree} : t.wf = true ↔ t.node.full = true ∧
    (∀ x ∈ t.leaves, ∀ y ∈ t.leaves, x.1 = y.1 → x = y) ∧ ∀ x ∈ t.leaves, x.2.length ≤ Config.maxCodeLen := by
  have hsymbols : (t.leaves.map Prod.fst).Nodup ↔ ∀ x ∈ t.leaves, ∀ y ∈ t.leaves, x.1 = y.1 → x = y :=
    ⟨fun h x hx y hy => List.inj_on_of_nodup_map h hx hy, t.nodup_leaves.map_on⟩
  rw [← hsymbols]
  cases t with
  | empty => simp [Tree.wf, Tree.node, Node.full, Tree.leaves]
  | root l r => exact Tree.wf_root_iff

/-- Two well-formed TREEs with the same leaves are equal (R208). -/
theorem Tree.eq_of_leaves {t u : Tree} (ht : t.wf = true) (hu : u.wf = true) (h : ∀ x, x ∈ t.leaves ↔ x ∈ u.leaves) :
    t = u := by
  have hnode : t.node = u.node := Node.eq_of_leaves (Tree.wf_iff.1 ht).1 (Tree.wf_iff.1 hu).1 fun x => by
    rw [t.node_leaves, u.node_leaves, h]
  rw [← t.node_asTree, hnode, u.node_asTree]

/-- In a well-formed TREE CODE gives exactly the leaves (R38). -/
theorem Tree.code_eq_some_iff {t : Tree} (h : t.wf = true) {v : Byte} {p : List Bool} :
    t.code v = some p ↔ (v, p) ∈ t.leaves := ⟨Tree.mem_leaves_of_code, Tree.code_of_mem_leaves h⟩

/-- `Insert` is the walk from the root, where the symbol has no other path (R206). -/
theorem Tree.insert_eq_place {t : Tree} {v : Byte} {p : List Bool} (hp : p ≠ []) (h : ∀ q, t.code v = some q → q = p) :
    t.insert p v = (t.node.place p v).map Node.asTree := by
  have hsym : ¬(t.code v).any (fun q => q ≠ p) = true := by
    cases hc : t.code v with
    | none => simp
    | some q => simp [h q hc]
  obtain ⟨b, p, rfl⟩ := List.exists_cons_of_ne_nil hp
  rw [Tree.insert.eq_def, if_neg hsym]
  cases t <;> cases b <;> simp [Tree.node, Tree.slots, Node.place, Function.comp_def, Node.asTree]

/-- `Insert` fails exactly where the symbol has another path, or its pair collides with a leaf (R206). -/
theorem Tree.insert_eq_none_iff {t : Tree} (h : t.wf = true) {v : Byte} {p : List Bool} (hp : p ≠ []) :
    t.insert p v = none ↔ ∃ x ∈ t.leaves, (x.1 = v ∧ x.2 ≠ p) ∨ Clash x (v, p) := by
  by_cases hother : ∃ q, t.code v = some q ∧ q ≠ p
  · obtain ⟨q, hq, hne⟩ := hother
    refine iff_of_true ?_ ⟨(v, q), Tree.mem_leaves_of_code hq, .inl ⟨rfl, hne⟩⟩
    rw [Tree.insert.eq_def, if_pos (by simp [hq, hne])]
  · have hsame : ∀ q, t.code v = some q → q = p := fun q hq => by_contra fun hne => hother ⟨q, hq, hne⟩
    rw [Tree.insert_eq_place hp hsame, Option.map_eq_none_iff, Node.place_eq_none_iff (Tree.wf_iff.1 h).1, t.node_leaves]
    refine exists_congr fun x => and_congr_right fun hx => (or_iff_right ?_).symm
    rintro ⟨rfl, hne⟩
    exact hne (hsame _ ((Tree.code_eq_some_iff h).2 hx))

/-- `Insert` adds its pair to the leaves (R206). -/
theorem Tree.mem_leaves_of_insert {t u : Tree} {v : Byte} {p : List Bool} (hp : p ≠ []) (h : t.insert p v = some u) :
    ∃ m, t.node.place p v = some m ∧ u = m.asTree ∧ ∀ x, x ∈ u.leaves ↔ x ∈ t.leaves ∨ x = (v, p) := by
  have hsame : ∀ q, t.code v = some q → q = p := fun q hq => by_contra fun hne => by
    simp [Tree.insert, hq, hne] at h
  rw [Tree.insert_eq_place hp hsame] at h
  obtain ⟨m, hm, rfl⟩ := Option.map_eq_some_iff.1 h
  obtain ⟨b, p, rfl⟩ := List.exists_cons_of_ne_nil hp
  refine ⟨m, hm, rfl, fun x => ?_⟩
  rw [← Tree.node_leaves, Node.asTree_node_of_place hm, Node.mem_leaves_of_place hm, Tree.node_leaves, List.nil_append]

/-- `Insert` of a path of a code table keeps R36. -/
theorem Tree.wf_of_insert {t u : Tree} {v : Byte} {p : List Bool} (ht : t.wf = true) (hp : p ≠ [])
    (hlen : p.length ≤ Config.maxCodeLen) (h : t.insert p v = some u) : u.wf = true := by
  obtain ⟨m, hm, rfl, hleaves⟩ := Tree.mem_leaves_of_insert hp h
  obtain ⟨hfull, hsym, hdepth⟩ := Tree.wf_iff.1 ht
  have hnone : ∀ x ∈ t.leaves, x.1 = v → x = (v, p) := fun x hx hv => by
    by_contra hne
    have hfail := (Tree.insert_eq_none_iff ht hp).2 ⟨x, hx, .inl ⟨hv, fun hp' => hne (Prod.ext hv hp')⟩⟩
    simp [hfail] at h
  refine Tree.wf_iff.2 ⟨?_, fun x hx y hy heq => ?_, fun x hx => ?_⟩
  · obtain ⟨b, p, rfl⟩ := List.exists_cons_of_ne_nil hp
    rw [Node.asTree_node_of_place hm]
    exact (Node.full_of_place hfull hm).1
  · rw [hleaves] at hx hy
    rcases hx with hx | rfl <;> rcases hy with hy | rfl
    · exact hsym x hx y hy heq
    · exact hnone x hx heq
    · exact (hnone y hy heq.symm).symm
    · rfl
  · rcases (hleaves x).1 hx with hx | rfl
    · exact hdepth x hx
    · exact hlen

/-! ### The pairs of a text -/

/-- The pairs that a code table may hold: each path 1 to 255 bits long (R205). -/
def ValidPaths (l : List (Byte × List Bool)) : Prop := ∀ x ∈ l, x.2 ≠ [] ∧ x.2.length ≤ Config.maxCodeLen

theorem validPaths_append {l l' : List (Byte × List Bool)} : ValidPaths (l ++ l') ↔ ValidPaths l ∧ ValidPaths l' :=
  List.forall_mem_append

/-- Where the leaves are the pairs so far, a further pair can be inserted exactly where it goes with them (R206, R208). -/
theorem Tree.insert_eq_none_iff_not_consistent {t : Tree} {l : List (Byte × List Bool)} {x : Byte × List Bool}
    (ht : t.wf = true) (hleaves : ∀ y, y ∈ t.leaves ↔ y ∈ l) (hl : Spec.Consistent l) (hx : x.2 ≠ []) :
    t.insert x.2 x.1 = none ↔ ¬Spec.Consistent (l ++ [x]) := by
  rw [Tree.insert_eq_none_iff ht hx, consistent_iff]
  rw [consistent_iff] at hl
  simp only [hleaves, not_forall]
  constructor
  · rintro ⟨y, hy, hbad⟩
    refine ⟨y, by simp [hy], x, by simp, fun hgood => ?_⟩
    rcases hbad with ⟨hsym, hpath⟩ | hclash
    · exact hpath (hgood.1 hsym)
    · exact hgood.2 hclash
  · rintro ⟨y, hy, z, hz, hbad⟩
    have hsymm : ∀ {a b : Byte × List Bool}, Clash a b → Clash b a := fun h => ⟨h.1.symm, h.2.symm⟩
    rw [not_and_or, not_not, Classical.not_imp] at hbad
    simp only [List.mem_append, List.mem_singleton] at hy hz
    rcases hy with hy | rfl <;> rcases hz with hz | rfl
    · exact absurd (hl y hy z hz) (by tauto)
    · exact ⟨y, hy, hbad⟩
    · exact ⟨z, hz, hbad.imp (fun h => ⟨h.1.symm, Ne.symm h.2⟩) hsymm⟩
    · rcases hbad with ⟨-, hne⟩ | hclash
      · exact absurd rfl hne
      · exact absurd rfl hclash.1

theorem Tree.insertAll_append (t : Tree) (xs ys : List (Byte × List Bool)) :
    t.insertAll (xs ++ ys) = (t.insertAll xs).bind (fun u => u.insertAll ys) :=
  List.foldlM_append ..

/-- Pairs that go together are inserted one after the other, and are then exactly the leaves (R206 to R208). -/
theorem Tree.exists_insertAll {l : List (Byte × List Bool)} (hp : ValidPaths l) (h : Spec.Consistent l) :
    ∃ t, Tree.empty.insertAll l = some t ∧ t.wf = true ∧ ∀ x, x ∈ t.leaves ↔ x ∈ l := by
  induction l using List.reverseRecOn with
  | nil => exact ⟨.empty, rfl, rfl, fun x => by simp [Tree.leaves]⟩
  | append_singleton l x ih =>
    obtain ⟨hpl, hpx⟩ := validPaths_append.1 hp
    obtain ⟨hne, hlen⟩ := hpx x (List.mem_singleton_self x)
    have hl := consistent_of_subset h fun y hy => List.mem_append_left [x] hy
    obtain ⟨t, ht, hwf, hleaves⟩ := ih hpl hl
    obtain ⟨u, hu⟩ : ∃ u, t.insert x.2 x.1 = some u := Option.ne_none_iff_exists'.1 fun hnone =>
      (Tree.insert_eq_none_iff_not_consistent hwf hleaves hl hne).1 hnone h
    obtain ⟨-, -, -, hadd⟩ := Tree.mem_leaves_of_insert hne hu
    refine ⟨u, ?_, Tree.wf_of_insert hwf hne hlen hu, fun y => ?_⟩
    · rw [Tree.insertAll_append, ht]
      simp [Tree.insertAll, hu]
    · rw [hadd, hleaves, List.mem_append, List.mem_singleton]

/-- Pairs that do not go together have a first one that does not go with those before it. -/
theorem exists_first_inconsistent {l : List (Byte × List Bool)} (h : ¬Spec.Consistent l) :
    ∃ xs x ys, l = xs ++ [x] ++ ys ∧ Spec.Consistent xs ∧ ¬Spec.Consistent (xs ++ [x]) := by
  induction l using List.reverseRecOn with
  | nil => exact absurd (fun x hx => absurd hx (by simp)) h
  | append_singleton l x ih =>
    by_cases hl : Spec.Consistent l
    · exact ⟨l, x, [], by simp, hl, h⟩
    · obtain ⟨xs, y, ys, rfl, hxs, hy⟩ := ih hl
      exact ⟨xs, y, ys ++ [x], by simp, hxs, hy⟩

end Sys2Proof.Machine
end

section
/-! PROOFS. The lines of TREE_LOAD (spec 42_code_table.md R203 to R207): what a whole line does, what each token at an InRead
does, and whole turns over a text, its errors included. -/

namespace Sys2Proof.Machine

/-! ### The text of Spec is the rendered text -/

theorem dec_eq_decimal (v : Byte) : Spec.dec v = decimal v := by
  have hdigit : ∀ d < 10, BitVec.ofNat 8 (Nat.digitChar d).toNat = digitChar d := by decide
  have hv := v.isLt
  unfold Spec.dec decimal
  by_cases h10 : v.toNat < 10
  · simp [Nat.toDigits_of_lt_base h10, h10, hdigit]
  · rw [Nat.toDigits_of_base_le (by decide) (by omega)]
    by_cases h100 : v.toNat < 100
    · rw [Nat.toDigits_of_lt_base (by omega)]
      simp [h10, h100, hdigit _ (show v.toNat / 10 < 10 by omega), hdigit _ (Nat.mod_lt v.toNat (by decide : 10 > 0))]
    · rw [Nat.toDigits_of_base_le (by decide) (by omega), Nat.toDigits_of_lt_base (by omega), Nat.div_div_eq_div_mul]
      simp [h10, h100, hdigit _ (show v.toNat / 100 < 10 by omega),
        hdigit _ (Nat.mod_lt v.toNat (by decide : 10 > 0)), hdigit _ (Nat.mod_lt (v.toNat / 10) (by decide : 10 > 0))]

theorem bitText_eq_bitChar (b : Bool) : Spec.bitText b = bitChar b := rfl

theorem tableText_eq_render (l : List (Byte × List Bool)) : Spec.tableText l = (l.map renderPair).flatten := by
  rw [Spec.tableText, List.flatMap_def]
  congr 2
  funext x
  rw [dec_eq_decimal]
  rfl

theorem tableText_append (l l' : List (Byte × List Bool)) :
    Spec.tableText (l ++ l') = Spec.tableText l ++ Spec.tableText l' := List.flatMap_append

theorem inBytes_append (l l' : List Byte) : Spec.inBytes (l ++ l') = Spec.inBytes l ++ Spec.inBytes l' :=
  List.map_append

/-! ### A symbol line and a path line -/

theorem decimalValue_eq_ofDigits (l : List Byte) :
    decimalValue l = Nat.ofDigits 10 (l.reverse.map fun c => c.toNat - 0x30) := by
  rw [Nat.ofDigits_eq_foldr, List.foldr_map, List.foldr_reverse, decimalValue]
  congr 1
  funext v c
  exact Nat.add_comm _ _

theorem isDigit_iff {c : Byte} : isDigit c = true ↔ 0x30 ≤ c.toNat ∧ c.toNat ≤ 0x39 := by simp [isDigit]

theorem parseSymbol_eq_some {l : List Byte} {v : Byte} (hne : l ≠ []) (hd : ∀ c ∈ l, isDigit c = true)
    (hv : decimalValue l = v.toNat) : parseSymbol l = some v := by
  have hall : l.all isDigit = true := List.all_eq_true.2 hd
  have hle : v.toNat ≤ 255 := Nat.le_of_lt_succ v.isLt
  simp [parseSymbol, hne, hall, hv, hle]

theorem parseSymbol_eq_none_iff {l : List Byte} :
    parseSymbol l = none ↔ l = [] ∨ (∃ c ∈ l, isDigit c = false) ∨ 255 < decimalValue l := by
  simp only [parseSymbol, ite_eq_right_iff, reduceCtorEq, imp_false, Bool.and_eq_true, not_and_or, Bool.not_eq_true',
    List.isEmpty_eq_false_iff, not_not, List.all_eq_true, decide_eq_true_eq, not_le, not_forall, Bool.not_eq_true, or_assoc]
  simp

theorem checkPath_eq_malformed {l : List Byte} (h : l = [] ∨ ∃ c ∈ l, c ≠ 0x30 ∧ c ≠ 0x31) :
    checkPath l = .malformed := by
  rcases h with rfl | ⟨c, hc, h0, h1⟩
  · rfl
  · have hall : l.all (fun c => c == 0x30 || c == 0x31) = false :=
      List.all_eq_false.2 ⟨c, hc, by simpa using ⟨h0, h1⟩⟩
    rw [checkPath, hall]
    rfl

theorem checkPath_eq_tooLong {l : List Byte} (h : ∀ c ∈ l, c = 0x30 ∨ c = 0x31) (hlen : 255 < l.length) :
    checkPath l = .tooLong := by
  have hall : l.all (fun c => c == 0x30 || c == 0x31) = true :=
    List.all_eq_true.2 fun c hc => by rcases h c hc with rfl | rfl <;> rfl
  have hne : l ≠ [] := List.ne_nil_of_length_pos (by omega)
  rw [checkPath, hall]
  simp [hne, Config.maxCodeLen, Nat.not_le.2 hlen]

/-! ### A whole line -/

/-- A whole line is a symbol, or a pair that is inserted, or an error of the text (R204 to R207). -/
theorem loadLine_cases (l : LoadState) :
    (∃ v, l.sym = none ∧ parseSymbol l.line = some v ∧
      ∀ s, loadLine l s = { s with ctl := .load { l with sym := some v, line := [], ln := l.ln + 1 } }) ∨
    (∃ v p t, l.sym = some v ∧ checkPath l.line = .ok p ∧ l.tree.insert p v = some t ∧
      ∀ s, loadLine l s = { s with ctl := .load (.between (l.ln + 1) t (l.pairs + 1)) }) ∨
    (∃ e, e ≠ .resourceError ∧ ∀ s, loadLine l s = raiseError e (l.ln + 1) s) := by
  cases hsym : l.sym with
  | none =>
    cases hp : parseSymbol l.line with
    | none => exact .inr (.inr ⟨.malformedCodeTable, by simp, fun s => by simp only [loadLine, hsym, hp]⟩)
    | some v => exact .inl ⟨v, rfl, rfl, fun s => by simp only [loadLine, hsym, hp]⟩
  | some v =>
    cases hp : checkPath l.line with
    | malformed => exact .inr (.inr ⟨.malformedCodeTable, by simp, fun s => by simp only [loadLine, hsym, hp]⟩)
    | tooLong => exact .inr (.inr ⟨.capacityExceeded, by simp, fun s => by simp only [loadLine, hsym, hp]⟩)
    | ok p =>
      cases hi : l.tree.insert p v with
      | none => exact .inr (.inr ⟨.malformedCodeTable, by simp, fun s => by simp only [loadLine, hsym, hp, hi]⟩)
      | some t =>
        exact .inr (.inl ⟨v, p, t, rfl, rfl, hi, fun s => by simp only [loadLine, hsym, hp, hi, LoadState.between]⟩)

/-- Error entry does not depend on the place in the table. -/
theorem raiseError_loading (e : ErrName) (info : Word) (s : State) (l : LoadState) (q : List Token) :
    raiseError e info (s.loading l q) = raiseError e info { s with inQ := q } := by
  simp only [raiseError_closed_form, State.loading]

theorem raiseError_ctl_irrel (e : ErrName) (info : Word) (s : State) (c : Ctl) :
    raiseError e info { s with ctl := c } = raiseError e info s := by
  simp only [raiseError_closed_form]

/-- A whole turn leaves a state in which an error was raised as it is (60_exceptions.md R341). -/
@[simp] theorem advance_raiseError (e : ErrName) (info : Word) (s : State) :
    advance (raiseError e info s) = raiseError e info s := advance_of_idle (raiseError_ctl ..)

/-- A whole turn whose first engine step ends the command is that step. -/
theorem advance_of_tick_idle {s t : State} (hq : s.quantum = none) (ht : tick s = some t) (hc : t.ctl = .idle) :
    advance s = t := (advance_tick hq ht).trans (advance_of_idle hc)

section
variable {s : State} (hq : s.quantum = none) (ht : s.inTerm = false)
include hq ht

/-- A whole turn reads characters of a line (R203). -/
theorem advance_loading_chars (l : LoadState) {w : List Byte} (hw : lf ∉ w) (q : List Token) :
    advance (s.loading l (Spec.inBytes w ++ q)) = advance (s.loading { l with line := l.line ++ w } q) := by
  induction w generalizing l with
  | nil => simp [Spec.inBytes]
  | cons c w ih =>
    rw [List.mem_cons, not_or] at hw
    obtain ⟨hne, hw⟩ := hw
    refine Eq.trans (advance_tick hq (tick_loading_byte ht (Ne.symm hne))) ?_
    simpa [Spec.inBytes] using ih { l with line := l.line ++ [c] } hw

/-- At the terminator a line begun is a whole line (R203). -/
theorem advance_loading_lastLine {l : LoadState} (hl : l.line ≠ []) (q : List Token) :
    advance (s.loading l (.eos :: q)) = advance (loadLine l { s.loading l q with inTerm := true }) := by
  refine advance_tick hq ?_
  simp [State.loading, tick, tickLoad, inRead, ht, hl]

/-- At the terminator a symbol line without its path line is malformed (R207). -/
theorem advance_loading_unpaired {l : LoadState} {v : Byte} (hl : l.line = []) (hsym : l.sym = some v) (q : List Token) :
    advance (s.loading l (.eos :: q)) = raiseError .malformedCodeTable l.ln { s with inQ := q, inTerm := true } := by
  refine advance_of_tick_idle hq ?_ (raiseError_ctl ..)
  simp [State.loading, tick, tickLoad, inRead, ht, hl, loadEnd, hsym, raiseError_closed_form]

/-- A read error at any InRead (R203). -/
theorem advance_loading_err (l : LoadState) (q : List Token) :
    advance (s.loading l (.err :: q)) = raiseError .resourceError 0 { s with inQ := q, inTerm := true } := by
  refine advance_of_tick_idle hq ?_ (raiseError_ctl ..)
  simp [State.loading, tick, tickLoad, inRead, ht, raiseError_closed_form]

/-- A pair that cannot be inserted raises MalformedCodeTable with the number of its path line (R206). -/
theorem advance_loading_pair_none {t : Tree} {x : Byte × List Bool} (hne : x.2 ≠ [])
    (hlen : x.2.length ≤ Config.maxCodeLen) (hins : t.insert x.2 x.1 = none) (ln pairs : Word) (q : List Token) :
    advance (s.loading (.between ln t pairs) (Spec.inBytes (renderPair x) ++ q)) =
      raiseError .malformedCodeTable (ln + 1 + 1) { s with inQ := q } := by
  obtain ⟨v, p⟩ := x
  have hlines : Spec.inBytes (renderPair (v, p)) ++ q =
      Spec.inBytes (decimal v ++ [lf]) ++ (Spec.inBytes (p.map bitChar ++ [lf]) ++ q) := by
    simp [renderPair, Spec.inBytes]
  rw [hlines, advance_loading_line hq ht _ (lf_not_mem_decimal v), loadLine_of_symbol rfl (parseSymbol_decimal v),
    advance_loading_line hq ht _ (lf_not_mem_map_bitChar p)]
  simp only [loadLine, LoadState.between, List.nil_append, checkPath_map_bitChar hne hlen, hins, advance_raiseError,
    raiseError_loading]

/-- A text that TREE_LOAD reads up to a read error, it reads up to an earlier one (R203). -/
theorem advance_loading_take (l : LoadState) (bytes : List Byte) (n : Nat) (rest : List Token)
    (h : (advance (s.loading l (Spec.inBytes bytes ++ [.err]))).err = some .resourceError) :
    advance (s.loading l (Spec.inBytes (bytes.take n) ++ .err :: rest)) =
      raiseError .resourceError 0 { s with inQ := rest, inTerm := true } := by
  induction bytes generalizing l n with
  | nil => rw [List.take_nil]; exact advance_loading_err hq ht l rest
  | cons c bytes ih =>
    cases n with
    | zero => exact advance_loading_err hq ht l rest
    | succ n =>
      by_cases hc : c = lf
      · subst hc
        have hstep (q : List Token) : advance (s.loading l (.byte lf :: q)) = advance (loadLine l (s.loading l q)) :=
          advance_tick hq (tick_loading_lf ht)
        refine (hstep _).trans ?_
        have h := (congrArg State.err (hstep _)).symm.trans h
        rcases loadLine_cases l with ⟨v, -, -, hl⟩ | ⟨v, p, t, -, -, -, hl⟩ | ⟨e, he, hl⟩ <;> rw [hl] at h ⊢
        · exact ih _ n h
        · exact ih _ n h
        · rw [advance_raiseError, raiseError_err] at h
          exact absurd (Option.some.inj h) he
      · have hstep (q : List Token) :
            advance (s.loading l (.byte c :: q)) = advance (s.loading { l with line := l.line ++ [c] } q) :=
          advance_tick hq (tick_loading_byte ht hc)
        exact (hstep _).trans (ih _ n ((congrArg State.err (hstep _)).symm.trans h))

end

end Sys2Proof.Machine
end

section
/-! PROOFS. TREE_LOAD as a command (spec 42_code_table.md R207): whole turns over the text of pairs, with what can stand after
them, and what every engine step of it leaves in TREE. -/

namespace Sys2Proof.Machine

/-! ### Whole commands -/

section
variable {s : State} (hs : Spec.Ready s) (hdrain : s.inDrain = false)
include hs hdrain

/-- TREE_LOAD starts at its first line (R207). -/
theorem exec_treeLoad_eq_advance :
    exec .treeLoad s = .next (advance ((treeLoadOpened s).loading (.between 0 .empty 0) s.inQ)) := by
  have hadm : admits .treeLoad s = true := by simp [admits, hs.bw, hs.br]
  rw [exec, execTreeLoad, command_run hs.err hadm, advance_treeLoadStart hs.quantum hdrain]

/-- After the text of pairs that go together TREE_LOAD stands between two line pairs, their TREE built (R207). -/
theorem exec_treeLoad_after {l : List (Byte × List Bool)} (hp : ValidPaths l) (hl : Spec.Consistent l)
    {q : List Token} (hin : s.inQ = Spec.inBytes (Spec.tableText l) ++ q) :
    ∃ t, Tree.empty.insertAll l = some t ∧ t.wf = true ∧ (∀ x, x ∈ t.leaves ↔ x ∈ l) ∧
      exec .treeLoad s = .next (advance ((treeLoadOpened s).loading
        (.between (BitVec.ofNat 32 (2 * l.length)) t (BitVec.ofNat 32 l.length)) q)) := by
  obtain ⟨t, ht, hwf, hleaves⟩ := Tree.exists_insertAll hp hl
  refine ⟨t, ht, hwf, hleaves, ?_⟩
  have hq : (treeLoadOpened s).quantum = none := hs.quantum
  rw [exec_treeLoad_eq_advance hs hdrain, hin, tableText_eq_render, advance_loading_pairs hq rfl hp ht,
    zero_add, zero_add]

/-- A pair that does not go with those before it ends TREE_LOAD at its path line (R206, R208). -/
theorem exec_treeLoad_inconsistent {l : List (Byte × List Bool)} {x : Byte × List Bool} (hp : ValidPaths (l ++ [x]))
    (hl : Spec.Consistent l) (hbad : ¬Spec.Consistent (l ++ [x])) {q : List Token}
    (hin : s.inQ = Spec.inBytes (Spec.tableText (l ++ [x])) ++ q) :
    exec .treeLoad s = .next (raiseError .malformedCodeTable (BitVec.ofNat 32 (2 * (l.length + 1)))
      { s with tree := .empty, inQ := q, inOwned := true, inTerm := false }) := by
  obtain ⟨hpl, hpx⟩ := validPaths_append.1 hp
  obtain ⟨hne, hlen⟩ := hpx x (List.mem_singleton_self x)
  rw [tableText_append, inBytes_append, List.append_assoc] at hin
  obtain ⟨t, -, hwf, hleaves, hexec⟩ := exec_treeLoad_after hs hdrain hpl hl hin
  have hnone := (Tree.insert_eq_none_iff_not_consistent hwf hleaves hl hne).2 hbad
  have hq : (treeLoadOpened s).quantum = none := hs.quantum
  have hln : BitVec.ofNat 32 (2 * l.length) + 1 + 1 = BitVec.ofNat 32 (2 * (l.length + 1)) := by bv_omega
  have htext : Spec.tableText [x] = renderPair x := by simp [tableText_eq_render]
  rw [hexec, htext, advance_loading_pair_none hq rfl hne hlen hnone, hln]
  rfl

/-- A symbol line without its path line, its LF there or not (R203, R207). -/
theorem exec_treeLoad_unpaired {l : List (Byte × List Bool)} (hp : ValidPaths l) (hl : Spec.Consistent l) (v : Byte)
    {rest : List Token} (hin : s.inQ = Spec.inBytes (Spec.tableText l ++ Spec.dec v) ++ .eos :: rest ∨
      s.inQ = Spec.inBytes (Spec.tableText l ++ Spec.dec v ++ [0x0A]) ++ .eos :: rest) :
    exec .treeLoad s = .next (raiseError .malformedCodeTable (BitVec.ofNat 32 (2 * l.length + 1))
      { s with tree := .empty, inQ := rest, inOwned := true, inTerm := true }) := by
  have hq : (treeLoadOpened s).quantum = none := hs.quantum
  have hln : BitVec.ofNat 32 (2 * l.length) + 1 = BitVec.ofNat 32 (2 * l.length + 1) := by bv_omega
  rw [dec_eq_decimal] at hin
  rcases hin with hin | hin
  · rw [inBytes_append, List.append_assoc] at hin
    obtain ⟨t, -, -, -, hexec⟩ := exec_treeLoad_after hs hdrain hp hl hin
    rw [hexec, advance_loading_chars hq rfl _ (lf_not_mem_decimal v),
      advance_loading_lastLine hq rfl (by simp [LoadState.between, decimal_ne_nil])]
    simp only [loadLine, LoadState.between, List.nil_append, parseSymbol_decimal, hln]
    refine congrArg Host.Outcome.next (advance_of_tick_idle hs.quantum ?_ (raiseError_ctl ..))
    simp [tick, tickLoad, inRead, loadEnd, State.loading, treeLoadOpened, raiseError_closed_form]
  · rw [List.append_assoc, inBytes_append, List.append_assoc] at hin
    obtain ⟨t, -, -, -, hexec⟩ := exec_treeLoad_after hs hdrain hp hl hin
    rw [hexec, show (0x0A : Byte) = lf from rfl, advance_loading_line hq rfl _ (lf_not_mem_decimal v),
      loadLine_of_symbol rfl (parseSymbol_decimal v), advance_loading_unpaired hq rfl rfl rfl]
    simp only [LoadState.between, hln]
    rfl

/-- A last path line without LF is read as one with it (R203). -/
theorem exec_treeLoad_lastPath {l : List (Byte × List Bool)} {x : Byte × List Bool} (hp : ValidPaths (l ++ [x]))
    (hl : Spec.Consistent (l ++ [x])) {rest : List Token}
    (hin : s.inQ = Spec.inBytes (Spec.tableText l ++ Spec.dec x.1 ++ [0x0A] ++ x.2.map Spec.bitText) ++ .eos :: rest) :
    ∃ t, Tree.empty.insertAll (l ++ [x]) = some t ∧ exec .treeLoad s = .next { s with
      tree := t, inQ := rest, inOwned := false, inTerm := false
      result := BitVec.ofNat 32 (l ++ [x]).length, ctl := .idle } := by
  obtain ⟨t', hins, -⟩ := Tree.exists_insertAll hp hl
  obtain ⟨hpl, hpx⟩ := validPaths_append.1 hp
  obtain ⟨hne, hlen⟩ := hpx x (List.mem_singleton_self x)
  have hlines : s.inQ = Spec.inBytes (Spec.tableText l) ++ (Spec.inBytes (decimal x.1 ++ [lf]) ++
      (Spec.inBytes (x.2.map bitChar) ++ .eos :: rest)) := by
    rw [hin, dec_eq_decimal]
    simp [Spec.inBytes, lf, bitText_eq_bitChar]
  obtain ⟨t, ht, hwf, -, hexec⟩ := exec_treeLoad_after hs hdrain hpl
    (consistent_of_subset hl fun y hy => List.mem_append_left _ hy) hlines
  have hx : t.insert x.2 x.1 = some t' := by
    rw [Tree.insertAll_append, ht] at hins
    simpa [Tree.insertAll] using hins
  have hq : (treeLoadOpened s).quantum = none := hs.quantum
  refine ⟨t', hins, ?_⟩
  rw [hexec, advance_loading_line hq rfl _ (lf_not_mem_decimal x.1), loadLine_of_symbol rfl (parseSymbol_decimal x.1),
    advance_loading_chars hq rfl _ (lf_not_mem_map_bitChar x.2),
    advance_loading_lastLine hq rfl (by simpa [LoadState.between] using hne)]
  simp only [loadLine, LoadState.between, List.nil_append, checkPath_map_bitChar hne hlen, hx]
  refine congrArg Host.Outcome.next (advance_of_tick_idle hs.quantum ?_ rfl)
  have hcount : BitVec.ofNat 32 (l.length + 1) = BitVec.ofNat 32 l.length + 1 := by bv_omega
  simp [tick, tickLoad, inRead, loadEnd, State.loading, treeLoadOpened, inOpen, inRelease, complete, hcount]

/-- A read error after any part of the text of pairs that go together (R203, R207). -/
theorem exec_treeLoad_err {l : List (Byte × List Bool)} (hp : ValidPaths l) (hl : Spec.Consistent l) (n : Nat)
    {rest : List Token} (hin : s.inQ = Spec.inBytes ((Spec.tableText l).take n) ++ .err :: rest) :
    exec .treeLoad s = .next (raiseError .resourceError 0
      { s with tree := .empty, inQ := rest, inOwned := true, inTerm := true }) := by
  have hq : (treeLoadOpened s).quantum = none := hs.quantum
  obtain ⟨t, ht, -⟩ := Tree.exists_insertAll hp hl
  have hwhole : (advance ((treeLoadOpened s).loading (.between 0 .empty 0)
      (Spec.inBytes (Spec.tableText l) ++ [.err]))).err = some .resourceError := by
    rw [tableText_eq_render, advance_loading_pairs hq rfl hp ht, advance_loading_err hq rfl, raiseError_err]
  rw [exec_treeLoad_eq_advance hs hdrain, hin, advance_loading_take hq rfl _ _ n rest hwhole]
  rfl

end

/-- InRead at the terminator: now, or already read (20_memory.md R79). -/
theorem inRead_of_terminator {s u : State} {q : List Token}
    (h : s.inTerm = false ∧ s.inQ = .eos :: q ∧ u = { s with inQ := q, inTerm := true } ∨ s.inTerm = true ∧ u = s) :
    inRead s = .eof u := by
  rcases h with ⟨hterm, hin, rfl⟩ | ⟨hterm, rfl⟩
  · exact inRead_of_eos hterm hin
  · exact inRead_of_inTerm hterm

/-! ### TREE while TREE_LOAD runs -/

/-- TREE_LOAD is running with TREE = EMPTY, or it has ended: without an error, or with TREE = EMPTY (R207). -/
def EmptyUntilLoaded (t : State) : Prop :=
  (t.tree = .empty ∧ t.err = none ∧ (t.ctl = .openIn .load ∨ ∃ l, t.ctl = .load l)) ∨
    (t.ctl = .idle ∧ (t.err = none ∨ t.tree = .empty))

theorem emptyUntilLoaded_loadLine (l : LoadState) {s : State} (ht : s.tree = .empty) (he : s.err = none) :
    EmptyUntilLoaded (loadLine l s) := by
  rcases loadLine_cases l with ⟨v, -, -, hl⟩ | ⟨v, p, t, -, -, -, hl⟩ | ⟨e, -, hl⟩ <;> rw [hl]
  · exact .inl ⟨ht, he, .inr ⟨_, rfl⟩⟩
  · exact .inl ⟨ht, he, .inr ⟨_, rfl⟩⟩
  · exact .inr ⟨raiseError_ctl .., .inr ((raiseError_tree ..).trans ht)⟩

theorem emptyUntilLoaded_loadEnd (l : LoadState) {s : State} (ht : s.tree = .empty) (he : s.err = none) :
    EmptyUntilLoaded (loadEnd l s) := by
  unfold loadEnd
  split
  · exact .inr ⟨raiseError_ctl .., .inr ((raiseError_tree ..).trans ht)⟩
  · exact .inr ⟨rfl, .inl ((inRelease_err s).trans he)⟩

theorem emptyUntilLoaded_tick {s t : State} (h : EmptyUntilLoaded s) (htick : tick s = some t) :
    EmptyUntilLoaded t := by
  rcases h with ⟨htree, herr, hc | ⟨l, hc⟩⟩ | ⟨hc, -⟩ <;> simp only [tick, hc, reduceCtorEq] at htick
  · unfold tickOpenIn at htick
    split at htick
    · obtain ⟨_, _, -, rfl⟩ := drainStep_cases htick
      exact .inl ⟨htree, herr, .inl hc⟩
    · obtain rfl := Option.some.inj htick
      exact .inl ⟨htree, herr, .inr ⟨_, rfl⟩⟩
  · unfold tickLoad at htick
    rcases inRead_cases s with ⟨hr, -⟩ | ⟨hr, -⟩ | ⟨c, q, hr, -⟩ | ⟨q, hr, -⟩ | ⟨q, hr, -⟩ <;>
      rw [hr] at htick <;> simp only [Option.some.injEq, reduceCtorEq] at htick <;> subst htick
    · split
      · exact emptyUntilLoaded_loadEnd l htree herr
      · exact emptyUntilLoaded_loadLine l htree herr
    · split
      · exact emptyUntilLoaded_loadLine l (by exact htree) (by exact herr)
      · exact .inl ⟨htree, herr, .inr ⟨_, rfl⟩⟩
    · split
      · exact emptyUntilLoaded_loadEnd l (by exact htree) (by exact herr)
      · exact emptyUntilLoaded_loadLine l (by exact htree) (by exact herr)
    · exact .inr ⟨raiseError_ctl .., .inr ((raiseError_tree ..).trans htree)⟩

end Sys2Proof.Machine
end

section
/-! PROOFS. The statements about TREE_LOAD (spec 42_code_table.md R203 to R208). -/

namespace Sys2Proof.Machine

/-- Settles O31: pairs that go together are inserted one after the other; the first pair that does not go with those
before it ends the command; a well-formed TREE is known by its leaves. -/
theorem loadDependsOnlyOnThePairs : Obligations.LoadDependsOnlyOnThePairs := by
  refine ⟨fun s l rest hs hdrain hp hin => ⟨fun hl => ?_, fun hl => ?_⟩, fun _ _ => Tree.eq_of_leaves⟩
  · obtain ⟨t, ht, hwf, hleaves⟩ := Tree.exists_insertAll hp hl
    rw [tableText_eq_render] at hin
    exact ⟨t, exec_treeLoad hs hdrain hin hp ht, hwf, hleaves⟩
  · obtain ⟨xs, x, ys, rfl, hxs, hbad⟩ := exists_first_inconsistent hl
    rw [tableText_append, inBytes_append, List.append_assoc] at hin
    exact ⟨_, exec_treeLoad_inconsistent hs hdrain (validPaths_append.1 hp).1 hxs hbad hin,
      raiseError_ctl .., raiseError_err .., raiseError_tree ..⟩

/-- Settles O32: TREE is emptied before the first step, and only the completion sets it again. -/
theorem failedLoadLeavesTreeEmpty : Obligations.FailedLoadLeavesTreeEmpty := by
  intro s t herr hbw hbr hexec hend
  have hadm : admits .treeLoad s = true := by simp [admits, hbw, hbr]
  rw [exec, execTreeLoad, command_run herr hadm] at hexec
  obtain rfl := Host.Outcome.next.inj hexec
  have hstart : EmptyUntilLoaded (treeLoadStart s) := .inl ⟨rfl, herr, .inl rfl⟩
  rcases advance_keeps (fun _ _ => emptyUntilLoaded_tick) hstart with ⟨htree, -⟩ | ⟨hidle, hnone | htree⟩
  · exact htree
  · exact absurd hend (by simp [hidle, hnone])
  · exact htree

/-- Settles O33: the checks of a whole line, the tokens at an InRead, and whole commands by what stands after the text
of pairs that go together. -/
theorem tableLineChecks : Obligations.TableLineChecks := by
  refine ⟨fun s l => ⟨fun hsym => ⟨fun v hne hd hv => ?symbol, fun hbad => ?badSymbol⟩,
    fun hsym => ⟨fun hbad => ?badPath, fun hchars hlen => ?longPath⟩,
    fun v p hsym hline hne hlen => ⟨fun hins => ?collides, fun T hins => ?inserted⟩⟩,
    fun s l q hc hown => ⟨fun hterm => ⟨fun c hin hc' => ?char, fun hin => ?lf, fun hin => ?err⟩,
      fun u hu => ?terminator⟩,
    fun s l x rest hs hdrain hp hl => ⟨exec_treeLoad_unpaired hs hdrain hp hl x.1, fun hin hne hlen hlx => ?lastPath,
      fun q hin hne hlen hbad => ?inconsistent, fun n _ hin => exec_treeLoad_err hs hdrain hp hl n hin⟩⟩
  case symbol =>
    have hparse : parseSymbol l.line = some v :=
      parseSymbol_eq_some hne (fun c hc => isDigit_iff.2 (hd c hc)) ((decimalValue_eq_ofDigits _).trans hv)
    simp only [loadLine, hsym, hparse]
  case badSymbol =>
    have hparse : parseSymbol l.line = none := by
      rw [parseSymbol_eq_none_iff, decimalValue_eq_ofDigits]
      refine hbad.imp_right (Or.imp_left ?_)
      rintro ⟨c, hc, hout⟩
      exact ⟨c, hc, Bool.eq_false_iff.2 fun hdigit => by have := isDigit_iff.1 hdigit; omega⟩
    simp only [loadLine, hsym, hparse]
  case badPath =>
    obtain ⟨v, hv⟩ := Option.ne_none_iff_exists'.1 hsym
    simp only [loadLine, hv, checkPath_eq_malformed hbad]
  case longPath =>
    obtain ⟨v, hv⟩ := Option.ne_none_iff_exists'.1 hsym
    simp only [loadLine, hv, checkPath_eq_tooLong hchars hlen]
  case collides =>
    have hpath : checkPath l.line = .ok p := hline ▸ checkPath_map_bitChar hne hlen
    simp only [loadLine, hsym, hpath, hins]
  case inserted =>
    have hpath : checkPath l.line = .ok p := hline ▸ checkPath_map_bitChar hne hlen
    simp only [loadLine, hsym, hpath, hins]
  case char => simp only [tick, hc, tickLoad, inRead_of_byte hterm hin, if_neg (show c ≠ lf from hc')]
  case lf => simp only [tick, hc, tickLoad, inRead_of_byte hterm hin, if_pos (show (0x0A : Byte) = lf from rfl)]
  case err => simp only [tick, hc, tickLoad, inRead_of_err hterm hin]
  case terminator =>
    have hread : inRead s = .eof u := inRead_of_terminator hu
    refine ⟨fun hl => ?lastLine, fun hl hsym => ?unpaired, fun hl hsym => ?done⟩
    case lastLine => simp [tick, hc, tickLoad, hread, hl]
    case unpaired =>
      obtain ⟨v, hv⟩ := Option.ne_none_iff_exists'.1 hsym
      simp [tick, hc, tickLoad, hread, hl, loadEnd, hv]
    case done =>
      have hu' : u.inOwned = true ∧ u.inTerm = true := by
        rcases hu with ⟨-, -, rfl⟩ | ⟨hterm, rfl⟩
        · exact ⟨hown, rfl⟩
        · exact ⟨hown, hterm⟩
      simp [tick, hc, tickLoad, hread, hl, loadEnd, hsym, complete, inRelease, hu']
  case lastPath =>
    have hpx : ValidPaths (l ++ [x]) := validPaths_append.2 ⟨hp, fun y hy => List.mem_singleton.1 hy ▸ ⟨hne, hlen⟩⟩
    obtain ⟨t, ht, hexec⟩ := exec_treeLoad_lastPath hs hdrain hpx hlx hin
    refine hexec.trans (Eq.symm (exec_treeLoad ⟨hs.err, hs.bw, hs.br, hs.quantum⟩ hdrain ?_ hpx ht))
    rw [tableText_eq_render]
  case inconsistent =>
    exact exec_treeLoad_inconsistent hs hdrain
      (validPaths_append.2 ⟨hp, fun y hy => List.mem_singleton.1 hy ▸ ⟨hne, hlen⟩⟩) hl hbad hin

end Sys2Proof.Machine
end

section
/-! PROOFS. The decoder against the encoder, and the words it refuses (spec 30_encoding.md R100 to R105). -/

namespace Sys2Proof

/-- Each row of the opcode map has the OPC of its command (R102). -/
theorem opcode_of_mem_opcodeMap : ∀ p ∈ opcodeMap, p.1 = opcode p.2 := by decide

/-- A command word holds its OPC below an MBZ of 0 (R100). -/
theorem eq_encode_iff {w : Word} {i : Instr} :
    w = encode i ↔ w.extractLsb' 8 24 = 0 ∧ w.extractLsb' 0 8 = opcode i := by
  constructor
  · rintro rfl
    exact ⟨BitVec.extractLsb'_append_eq_left, BitVec.extractLsb'_append_eq_right⟩
  · rintro ⟨hhigh, hlow⟩
    rw [encode, ← hlow, ← show w.extractLsb' 8 24 = 0#24 from hhigh]
    refine BitVec.eq_of_getLsbD_eq fun k hk => ?_
    rw [BitVec.getLsbD_append, BitVec.getLsbD_extractLsb', BitVec.getLsbD_extractLsb']
    by_cases h : k < 8
    · simp [h]
    · simp [h, show k - 8 < 24 by omega, show 8 + (k - 8) = k by omega]

theorem decode_encode (i : Instr) : decode (encode i) = .ok i := by
  cases i <;> rfl

theorem decode_eq_ok_iff {w : Word} {i : Instr} : decode w = .ok i ↔ w = encode i := by
  refine ⟨fun h => ?_, fun h => h ▸ decode_encode i⟩
  unfold decode at h
  split at h
  · cases h
  next hmbz =>
    split at h
    next j hj =>
      cases h
      obtain ⟨l₁, l₂, hl, -⟩ := List.lookup_eq_some_iff.1 hj
      have hrow := opcode_of_mem_opcodeMap (w.extractLsb' 0 8, i) (hl ▸ List.mem_append_right l₁ List.mem_cons_self)
      exact eq_encode_iff.2 ⟨not_not.1 hmbz, hrow⟩
    · cases h

/-- The decoder refuses a word with MBZ or with an OPC outside the map (R103). -/
theorem decode_eq_error_iff {w : Word} : (∃ e, decode w = .error e) ↔
    w.extractLsb' 8 24 ≠ 0 ∨ ∀ p ∈ opcodeMap, w.extractLsb' 0 8 ≠ p.1 := by
  unfold decode
  by_cases hmbz : w.extractLsb' 8 24 = 0
  · have hlookup : opcodeMap.lookup (w.extractLsb' 0 8) = none ↔ ∀ p ∈ opcodeMap, w.extractLsb' 0 8 ≠ p.1 := by
      rw [List.lookup_eq_none_iff]
      simp
    rw [if_neg (not_not.2 hmbz), or_iff_right (not_not.2 hmbz), ← hlookup]
    cases opcodeMap.lookup (w.extractLsb' 0 8) <;> simp
  · rw [if_pos hmbz]
    exact iff_of_true ⟨_, rfl⟩ (.inl hmbz)

end Sys2Proof

namespace Sys2Proof.Machine

/-- Settles O10: a word that decodes has MBZ = 0 and the OPC of its row. -/
theorem decodeIffEncode : Obligations.DecodeIffEncode := fun _ _ => decode_eq_ok_iff

/-- Settles O11: each of the 23 words is the encoding of its command. -/
theorem opcodeMapWords : Obligations.OpcodeMapWords := by
  refine ⟨?_, ?_, ?_, ?_, ?_, ?_, ?_, ?_, ?_, ?_, ?_, ?_, ?_, ?_, ?_, ?_, ?_, ?_, ?_, ?_, ?_, ?_, ?_⟩ <;>
    exact decode_eq_ok_iff.2 rfl

/-- Settles O12: with MBZ = 0 the word is its OPC, and the seven ranges are what the 23 rows leave of 0 to 255. -/
theorem illegalWordsExactly : Obligations.IllegalWordsExactly := by
  intro w
  have hmbz : w.extractLsb' 8 24 = 0 ↔ w.toNat < 0x100 := by
    rw [← BitVec.toNat_inj, BitVec.extractLsb'_toNat, Nat.shiftRight_eq_div_pow]
    simp only [BitVec.ofNat_eq_ofNat, BitVec.toNat_ofNat]
    omega
  have hopc : (w.extractLsb' 0 8).toNat = w.toNat % 0x100 := by simp [BitVec.extractLsb'_toNat]
  have hrow : ∀ c : Byte, w.extractLsb' 0 8 ≠ c ↔ w.toNat % 0x100 ≠ c.toNat := fun c => by
    rw [← hopc, ne_eq, ne_eq, BitVec.toNat_inj]
  rw [decode_eq_error_iff, ne_eq, hmbz]
  simp only [opcodeMap, opcodeRowsControl, opcodeRowsTree, opcodeRowsStream, List.cons_append, List.nil_append,
    List.forall_mem_cons, hrow, Spec.IllegalWord]
  simp
  omega

end Sys2Proof.Machine
end

section
/-! PROOFS. The state after reset, reads of the window and the fields of STATUS (spec 10_state.md R21, R24, R49,
70_reset_and_hazards.md R380, R381). -/

namespace Sys2Proof.Machine

/-- Settles O1: every register shows an item of the reset state, and only ID is not 0. -/
theorem resetStateHoldsResetValues : Obligations.ResetStateHoldsResetValues := by
  have hregs : ∀ r, regValue r State.reset = if r = .id then 0x48460001#32 else 0#32 := by
    intro r
    cases r <;> rfl
  exact ⟨hregs, freqAt_replicate 0, rfl, rfl, rfl, rfl, rfl, rfl, rfl, rfl, rfl, rfl, rfl, rfl⟩

/-- Settles O2: the reset line sets each item of R49 and moves the host on; it leaves no command, so CMD is accepted. -/
theorem powerOnResetFromAnyState : Obligations.PowerOnResetFromAnyState :=
  fun _ => ⟨_, rfl, rfl, fun w => writeReg_cmd_of_idle rfl w⟩

/-- The word of each register of the window (R21). -/
theorem windowWords_eq (s : State) :
    Spec.windowWords s = windowRegs.map fun r => (regOffset r, regValue r s) := by
  have hctrl : ctrlWord s = if s.diagEn then 1 else 0 := by
    unfold ctrlWord
    cases s.diagEn <;> rfl
  simp only [Spec.windowWords, windowRegs, List.map_cons, List.map_nil, regValue, hctrl]
  rfl

theorem accessReg_regOffset : ∀ r ∈ windowRegs, accessReg (regOffset r) 4 = some r := by decide

theorem regOffset_eq_iff : ∀ r ∈ windowRegs, (regOffset r = 0x08 ↔ r = .status) ∧ (regOffset r = 0x1C ↔ r = .errInfo) := by
  decide

/-- Settles O3: with BUSY = 0 a read gives the exact word and changes only what the host knows. -/
theorem windowReadsWhenIdle : Obligations.WindowReadsWhenIdle := by
  intro s a v hs hmem
  rw [windowWords_eq] at hmem
  obtain ⟨r, hr, heq⟩ := List.mem_map.1 hmem
  cases heq
  obtain ⟨hstatus, hinfo⟩ := regOffset_eq_iff r hr
  have hindex : regOffset r / 4 = (regIndex r).val := Nat.mul_div_cancel_left _ (by decide)
  simp only [hostLine, accessReg_regOffset r hr, hostRead, readReg_of_idle hs, hostNext, hostGoto, noteRead, hstatus,
    hinfo, State.busy_eq_false_iff.2 hs, hindex, and_true]
  congr 3
  exact Vector.ext fun k hk => by rw [Vector.getElem_set, Vector.getElem_setIfInBounds]

/-- Settles O5: each field of STATUS is read off the concatenation by dropping the parts below it. -/
theorem statusFieldPlaces : Obligations.StatusFieldPlaces := by
  intro s
  have hbusy : s.busy = decide (s.ctl ≠ .idle) := by
    rw [Bool.eq_iff_iff, State.busy_eq_true_iff, decide_eq_true_iff]
  have hcode : (statusWord s).extractLsb' 8 8 = s.errCodeField := by
    rw [statusWord]
    iterate 8 rw [BitVec.extractLsb'_append_eq_of_le (by decide)]
    exact BitVec.extractLsb'_append_eq_right
  have htree : s.treeNonempty = decide (s.tree ≠ .empty) := by
    unfold State.treeNonempty
    cases s.tree <;> simp
  have hbits : ∀ k < 8, (statusWord s).getLsbD k = ([s.busy, s.err.isSome, s.bw.isOpen, s.br.isOpen, s.treeNonempty,
      s.wrIgnored, s.inDrain, false])[k]?.getD false := by
    intro k hk
    simp only [statusWord, BitVec.getLsbD_append]
    interval_cases k <;> simp
  refine ⟨hbusy ▸ hbits 0 (by decide), hbits 1 (by decide), hbits 2 (by decide), hbits 3 (by decide),
    htree ▸ hbits 4 (by decide), hbits 5 (by decide), hbits 6 (by decide), hbits 7 (by decide), ?_, fun he => ?_,
    fun e c he hec => ?_⟩
  · rw [statusWord]
    iterate 9 rw [BitVec.extractLsb'_append_eq_of_le (by decide)]
    rfl
  · rw [hcode, State.errCodeField, he]
  · have hrows : ∀ p ∈ Spec.errorCodes, errCode p.1 = p.2 := by decide
    rw [hcode, State.errCodeField, he]
    exact hrows _ hec

end Sys2Proof.Machine
end

section
/-! PROOFS. Dispatch (spec 30_encoding.md R103, R109, 40_control_freq.md R130 to R132), and the state after reset under
the invariant. -/

namespace Sys2Proof.Machine

/-! ### The turn that is the engine's -/

/-- With no schedule left the engine moves where it can (70_reset_and_hazards.md R392, log 1). -/
theorem step_of_engineReady {s : State} (ht : s.turns = []) (hr : engineReady s = true) :
    step s = engineTurn { s with quantum := none } := by
  simp only [step, stepTurn, ht, hr, if_true]

theorem step_of_engine {s : State} {q : Option Nat} {ts : List Turn} (ht : s.turns = .engine q :: ts) :
    step s = engineTurn { s with turns := ts, quantum := q } := by
  simp only [step, stepTurn, ht]

theorem engineTurn_of_accepted {s : State} (hc : s.ctl = .accepted) : engineTurn s = executePending s := by
  simp only [engineTurn, hc]

theorem engineReady_of_accepted {s : State} (hc : s.ctl = .accepted) : engineReady s = true := by
  simp only [engineReady, hc]

/-- A running command goes on with the engine steps of its turn. -/
theorem engineTurn_of_running {s : State} (hi : s.ctl ≠ .idle) (ha : s.ctl ≠ .accepted) :
    engineTurn s = .next (advance s) := by
  unfold engineTurn
  split
  next h => exact absurd h hi
  next h => exact absurd h ha
  all_goals rfl

theorem engineReady_of_running {s : State} (hi : s.ctl ≠ .idle) (ha : s.ctl ≠ .accepted) :
    engineReady s = (tick s).isSome := by
  unfold engineReady
  split
  next h => exact absurd h hi
  next h => exact absurd h ha
  all_goals rfl

/-- An engine that can take a step is inside a running command. -/
theorem running_of_tick {s t : State} (h : tick s = some t) : s.ctl ≠ .idle ∧ s.ctl ≠ .accepted := by
  constructor <;> intro hc <;> simp [tick, hc] at h

theorem executePending_of_ok {s : State} {i : Instr} (h : decode s.pending = .ok i) : executePending s = exec i s := by
  rw [executePending, h]

theorem executePending_of_error {s : State} {e : DecodeError} (h : decode s.pending = .error e) :
    executePending s = executeIllegal s.pending s := by
  rw [executePending, h]

/-- Settles O13: the engine's turn starts the accepted command, or goes on with the running one. -/
theorem stepRunsDecodedCommand : Obligations.StepRunsDecodedCommand := by
  refine ⟨fun s i hc hi => ⟨fun ht => ?start, fun q ts ht => ?startTurn⟩,
    fun s htick => ⟨fun ht => ?go, fun q ts ht => ?goTurn⟩⟩
  case start =>
    rw [step_of_engineReady ht (engineReady_of_accepted hc), engineTurn_of_accepted (by exact hc),
      executePending_of_ok (by exact hi)]
  case startTurn =>
    rw [step_of_engine ht, engineTurn_of_accepted (by exact hc), executePending_of_ok (by exact hi)]
  all_goals
    obtain ⟨u, hu⟩ := Option.isSome_iff_exists.1 htick
    obtain ⟨hidle, hacc⟩ := running_of_tick hu
  case go =>
    rw [step_of_engineReady ht (by rwa [engineReady_of_running hidle hacc]),
      engineTurn_of_running (by exact hidle) (by exact hacc)]
  case goTurn => rw [step_of_engine ht, engineTurn_of_running (by exact hidle) (by exact hacc)]

/-! ### The ERR gate -/

theorem runsWhileErr_iff {i : Instr} : runsWhileErr i = true ↔ i ∈ [Instr.nop, .clearError, .softReset] := by
  cases i <;> simp [runsWhileErr]

/-- While ERR = 1 every other command is ignored (R109). -/
theorem exec_of_err {s : State} {i : Instr} (he : s.err ≠ none) (hi : i ∉ [Instr.nop, .clearError, .softReset]) :
    exec i s = .next (endCommand s) := by
  obtain ⟨body, hbody, -⟩ := exec_eq_command i
  have hgate : (s.err.isSome && !runsWhileErr i) = true := by
    rw [Bool.eq_false_iff.2 (mt runsWhileErr_iff.1 hi), Option.isSome_iff_ne_none.2 he]
    rfl
  rw [hbody, command, if_pos hgate]

theorem executeIllegal_of_err_none {s : State} (he : s.err = none) (w : Word) :
    executeIllegal w s = .next (raiseError .illegalCommand w s) := by
  rw [executeIllegal, he]
  rfl

theorem executeIllegal_of_err {s : State} (he : s.err ≠ none) (w : Word) :
    executeIllegal w s = .next (endCommand s) := by
  rw [executeIllegal, if_pos (Option.isSome_iff_ne_none.2 he)]

/-- Settles O14: the gate of R109 for legal words, and for illegal ones the engine's turn that starts them. -/
theorem errorGateAndIllegalWords : Obligations.ErrorGateAndIllegalWords := by
  refine ⟨fun s i => exec_of_err, fun s hc hw => ?_⟩
  obtain ⟨e, he⟩ := (illegalWordsExactly s.pending).2 hw
  constructor
  · intro ht
    rw [step_of_engineReady ht (engineReady_of_accepted hc), engineTurn_of_accepted (by exact hc),
      executePending_of_error (by exact he)]
    exact ⟨fun h => executeIllegal_of_err_none (by exact h) _, fun h => executeIllegal_of_err (by exact h) _⟩
  · intro q ts ht
    rw [step_of_engine ht, engineTurn_of_accepted (by exact hc), executePending_of_error (by exact he)]
    exact ⟨fun h => executeIllegal_of_err_none (by exact h) _, fun h => executeIllegal_of_err (by exact h) _⟩

/-! ### The control commands -/

/-- NOP, CLEAR_ERROR and SOFT_RESET run in every state (R109, R110). -/
theorem command_of_runsWhileErr {i : Instr} (h : runsWhileErr i = true) (body : State → State) (s : State) :
    command i body s = .next (body s) := by
  have hadm : admits i s = true := by
    obtain rfl | rfl | rfl : i = .nop ∨ i = .clearError ∨ i = .softReset := by simpa using runsWhileErr_iff.1 h
    all_goals rfl
  simp [command, h, hadm]

/-- What SOFT_RESET releases, in closed form (R132). -/
theorem softReset_closed_form (s : State) : softResetItems (softResetRelease s) = { softResetItems s with
    out := if s.bw.isOpen && s.outOwned then s.out ++ [.close] else s.out
    inDrain := s.inDrain || (s.inOwned && !s.inTerm) } := by
  unfold softResetRelease softResetItems
  cases hbw : s.bw.isOpen <;> cases hbr : s.br.isOpen <;> cases hin : s.inOwned <;>
    simp [outClose_closed_form, inRelease, hin, hbr]

theorem exec_softReset (s : State) : exec .softReset s = .next { softResetItems s with
    out := if s.bw.isOpen && s.outOwned then s.out ++ [.close] else s.out
    inDrain := s.inDrain || (s.inOwned && !s.inTerm) } := by
  rw [exec, execSoftReset, command_of_runsWhileErr rfl, softReset_closed_form]

/-- Settles O18: the ERR gate lets the three commands run in every state. -/
theorem controlCommands : Obligations.ControlCommands :=
  ⟨rfl, rfl, rfl, fun s => ⟨command_of_runsWhileErr rfl _ s,
    command_of_runsWhileErr rfl (fun s => endCommand (clearErrorState s)) s, exec_softReset s⟩⟩

/-! ### The invariant after reset -/

/-- Settles O52: after reset both units are closed, no session is owned and no command runs. -/
theorem resetMeetsInvariant : Obligations.ResetMeetsInvariant := by
  refine ⟨?_, fun _ => endsClosed_nil⟩
  constructor
  case bw_wf => exact Packer.wf_iff.2 ⟨fun _ => rfl, Nat.zero_le _, Nat.one_pos⟩
  case cap_pos => exact Nat.succ_pos _
  case running => exact fun i h => by cases h
  case descent => exact fun d h => by cases h
  case err_none => exact fun _ => rfl
  case err_last => exact fun e h => by cases h
  all_goals decide

end Sys2Proof.Machine
end

section
/-! PROOFS. The bits of the packer, with the state that an overflow raises in (spec 44_bitwriter.md R280, R282). -/

namespace Sys2Proof.Machine

theorem echo_append (s : State) (p q : List Bool) :
    Spec.echo { s with diag := Spec.echo s p } q = Spec.echo s (p ++ q) := by
  cases hd : s.diagEn <;> simp [Spec.echo, hd]

theorem bwWriteBit_of_push {s : State} (h : s.bw.nbits ≠ 7 ∨ s.bw.data.length ≠ s.bwCap) (b : Bool) :
    bwWriteBit b s = .go (s.packed [b]) := by
  by_cases h7 : s.bw.nbits = 7
  · rw [bwWriteBit_of_room h7 (h.resolve_left (not_not.2 h7))]
    simp [State.packed, Packer.pushAll, Packer.push, h7]
  · rw [bwWriteBit_of_nbits_ne_seven h7]
    simp [State.packed, Packer.pushAll, Packer.push, h7]

/-- BwWrite of a bit string: every bit is packed, or CapacityExceeded(0) is raised after the echo of a beginning of it. -/
theorem bwWriteBits_cases (p : List Bool) (s : State) : bwWriteBits p s = .go (s.packed p) ∨
    ∃ q, bwWriteBits p s = .raised (raiseError .capacityExceeded 0 { s with diag := Spec.echo s q }) := by
  induction p generalizing s with
  | nil => exact .inl (by rw [State.packed_nil]; rfl)
  | cons b p ih =>
    by_cases h : s.bw.nbits ≠ 7 ∨ s.bw.data.length ≠ s.bwCap
    · rw [bwWriteBits, bwWriteBit_of_push h, show s.packed (b :: p) = (s.packed [b]).packed p from s.packed_append [b] p]
      refine (ih (s.packed [b])).imp_right fun ⟨q, hq⟩ => ⟨b :: q, hq.trans ?_⟩
      rw [show Spec.echo (s.packed [b]) q = Spec.echo s (b :: q) from echo_append s [b] q]
      simp only [raiseError_closed_form, State.packed]
    · rw [not_or, not_not, not_not] at h
      exact .inr ⟨[b], by rw [bwWriteBits, bwWriteBit_of_full h.1 h.2]; rfl⟩

/-- EncodeSymbol: the code is packed, or MissingCode is raised before any bit, or CapacityExceeded(0) (R241). -/
theorem encodeSymbolBits_cases (v : Byte) (s : State) :
    (∃ p, s.tree.code v = some p ∧ encodeSymbolBits v s = .go (s.packed p)) ∨
    (s.tree.code v = none ∧ encodeSymbolBits v s = .raised (raiseError .missingCode (v.zeroExtend 32) s)) ∨
    (∃ q, encodeSymbolBits v s = .raised (raiseError .capacityExceeded 0 { s with diag := Spec.echo s q })) := by
  unfold encodeSymbolBits
  cases s.tree.code v with
  | none => exact .inr (.inl ⟨rfl, rfl⟩)
  | some p =>
    rcases bwWriteBits_cases p s with h | h
    · exact .inl ⟨p, rfl, h⟩
    · exact .inr (.inr h)

theorem Packer.isOpen_push (w : Packer) (b : Bool) : (w.push b).isOpen = w.isOpen := by
  unfold Packer.push
  split <;> rfl

theorem Packer.isOpen_pushAll (w : Packer) (bits : List Bool) : (w.pushAll bits).isOpen = w.isOpen := by
  induction bits generalizing w with
  | nil => rfl
  | cons b bits ih => exact (ih (w.push b)).trans (w.isOpen_push b)

end Sys2Proof.Machine
end

section
/-! PROOFS. Where the engine holds (spec 00_scope.md R7): no command, a command not started, or an InRead or InOpen with IN
empty. -/

namespace Sys2Proof.Machine

/-- Whether the engine stands at an InRead. -/
def atInRead : Ctl → Bool
  | .load _ | .header _ | .fillCur _ _ | .fillNxt _ _ _ | .refill _ _ | .compress => true
  | .idle | .accepted | .openIn _ | .decode _ _ | .symbols _ | .putSymbol _ _ | .emit _ _ => false

theorem inRead_eq_hold_iff {s : State} : inRead s = .hold ↔ s.inTerm = false ∧ s.inQ = [] := by
  rcases inRead_cases s with ⟨hr, ht, hq⟩ | ⟨hr, ht⟩ | ⟨b, q, hr, ht, hq⟩ | ⟨q, hr, ht, hq⟩ | ⟨q, hr, ht, hq⟩ <;>
    rw [hr] <;> simp [*]

theorem drainStep_eq_none_iff {s : State} : drainStep s = none ↔ s.inQ = [] := by
  unfold drainStep
  cases s.inQ <;> simp

/-- What follows the end of the session, by the place of the InRead. -/
def atEof : Ctl → State → State
  | .load l, s => if l.line.isEmpty then loadEnd l s else loadLine l s
  | .header k, s => brOpened k emptySourceResult openedEmpty s
  | .fillCur k p, s => { s with ctl := .fillNxt k p none }
  | .fillNxt k p cur, s => brOpened k (BitVec.ofNat 32 p.val) (openedWith p cur none) s
  | .refill b k, s => bitTaken b k { s with br := { s.br with nxt := none } }
  | .compress, s => bwCloseStart true s
  | .idle, s | .accepted, s | .openIn _, s | .decode _ _, s | .symbols _, s | .putSymbol _ _, s | .emit _ _, s => s

/-- What follows a byte of the session, by the place of the InRead. -/
def atByte : Ctl → Byte → State → State
  | .load l, c, s => if c = lf then loadLine l s else { s with ctl := .load { l with line := l.line ++ [c] } }
  | .header k, c, s =>
    match headerPad c with
    | none => raiseError .malformedStream (c.zeroExtend 32) s
    | some p => { s with ctl := .fillCur k p }
  | .fillCur k p, c, s => { s with ctl := .fillNxt k p (some c) }
  | .fillNxt k p cur, c, s => brOpened k (BitVec.ofNat 32 p.val) (openedWith p cur (some c)) s
  | .refill b k, c, s => bitTaken b k { s with br := { s.br with nxt := some c } }
  | .compress, c, s => (encodeSymbolBits c s).finish fun t => { t with ctl := .compress }
  | .idle, _, s | .accepted, _, s | .openIn _, _, s | .decode _ _, _, s | .symbols _, _, s | .putSymbol _ _, _, s
  | .emit _ _, _, s => s

/-- What follows an InRead. -/
def afterRead (c : Ctl) : ReadResult → Option State
  | .hold => none
  | .failed s => some (raiseError .resourceError 0 s)
  | .eof s => some (atEof c s)
  | .byte b s => some (atByte c b s)

/-- An engine step at an InRead is the InRead and what follows it. -/
theorem tick_of_atInRead {s : State} (h : atInRead s.ctl = true) : tick s = afterRead s.ctl (inRead s) := by
  unfold tick
  cases hc : s.ctl <;> simp only [hc, atInRead, Bool.false_eq_true] at h
  case load l => simp only [tickLoad]; cases inRead s <;> rfl
  case header k => simp only [tickHeader]; cases inRead s <;> rfl
  case fillCur k p => simp only [tickFillCur]; cases inRead s <;> rfl
  case fillNxt k p c => simp only [tickFillNxt]; cases inRead s <;> rfl
  case refill b k => simp only [tickRefill]; cases inRead s <;> rfl
  case compress => simp only [tickCompress]; cases inRead s <;> rfl

/-- An engine step at an InRead that does not hold, by the head of IN (20_memory.md R79). -/
theorem tick_atInRead_cases {s t : State} (h : atInRead s.ctl = true) (ht : tick s = some t) :
    (s.inTerm = true ∧ t = atEof s.ctl s) ∨
    (∃ q, s.inTerm = false ∧ s.inQ = .eos :: q ∧ t = atEof s.ctl { s with inQ := q, inTerm := true }) ∨
    (∃ b q, s.inTerm = false ∧ s.inQ = .byte b :: q ∧ t = atByte s.ctl b { s with inQ := q }) ∨
    (∃ q, s.inTerm = false ∧ s.inQ = .err :: q ∧ t = raiseError .resourceError 0 { s with inQ := q, inTerm := true }) := by
  rw [tick_of_atInRead h] at ht
  rcases inRead_cases s with ⟨hr, -⟩ | ⟨hr, hi⟩ | ⟨b, q, hr, hi, hq⟩ | ⟨q, hr, hi, hq⟩ | ⟨q, hr, hi, hq⟩ <;>
    rw [hr] at ht <;> cases ht
  · exact .inl ⟨hi, rfl⟩
  · exact .inr (.inr (.inl ⟨b, q, hi, hq, rfl⟩))
  · exact .inr (.inl ⟨q, hi, hq, rfl⟩)
  · exact .inr (.inr (.inr ⟨q, hi, hq, rfl⟩))

theorem tick_eq_none_iff {s : State} : tick s = none ↔ s.ctl = .idle ∨ s.ctl = .accepted ∨
    ((∃ k, s.ctl = .openIn k) ∧ s.inDrain = true ∧ s.inQ = []) ∨
    (atInRead s.ctl = true ∧ s.inTerm = false ∧ s.inQ = []) := by
  by_cases h : atInRead s.ctl = true
  · have hplace : s.ctl ≠ .idle ∧ s.ctl ≠ .accepted ∧ ¬∃ k, s.ctl = .openIn k := by
      refine ⟨?_, ?_, ?_⟩
      · intro hc; simp [hc, atInRead] at h
      · intro hc; simp [hc, atInRead] at h
      · rintro ⟨k, hc⟩; simp [hc, atInRead] at h
    have hafter : afterRead s.ctl (inRead s) = none ↔ inRead s = .hold := by
      cases inRead s <;> simp [afterRead]
    rw [tick_of_atInRead h, hafter, inRead_eq_hold_iff]
    simp [h, hplace]
  · unfold tick
    cases hc : s.ctl <;> simp only [hc, atInRead, not_true_eq_false] at h
    case openIn k =>
      simp only [tickOpenIn]
      split
      next hd => simp [drainStep_eq_none_iff, hd, atInRead]
      next hd => simp [hd, atInRead]
    all_goals simp [atInRead]

end Sys2Proof.Machine
end

section
/-! PROOFS. The rule of each command by itself, without dispatch (spec 30_encoding.md R109). -/

namespace Sys2Proof.Machine

/-- The rule of a command, which dispatch runs where ERR and the precondition allow it, up to its first port primitive
or bit. -/
def commandStart : Instr → State → State
  | .nop => endCommand
  | .clearError => fun s => endCommand (clearErrorState s)
  | .softReset => fun s => softResetItems (softResetRelease s)
  | .freqClear => fun s => endCommand { s with freq := Vector.replicate 256 0 }
  | .freqWrite => withSym fun v s => endCommand (setFreq v (countOperand s) s)
  | .freqRead => withSym fun v s => complete (s.freq[v.toNat]'v.isLt) s
  | .treeBuild => fun s =>
      complete (BitVec.ofNat 32 (seedQueue s.freq).length) { s with tree := buildTree s.freq }
  | .treeClear => fun s => endCommand { s with tree := .empty }
  | .codeQuery => withSym fun v s =>
      match s.tree.code v with
      | none => complete 0 s
      | some p => complete (BitVec.ofNat 32 p.length) s
  | .codeBit => withSym fun v s =>
      match s.tree.code v with
      | none => raiseError .missingCode (v.zeroExtend 32) s
      | some p =>
        match p[indexOperand s]? with
        | none => raiseError .invalidArgument s.arg1 s
        | some b => complete ((BitVec.ofBool b).zeroExtend 32) s
  | .treeSave => treeSaveStart
  | .treeLoad => treeLoadStart
  | .encodeSymbol => withSym fun v s => (encodeSymbolBits v s).finish fun t =>
      complete (BitVec.ofNat 32 ((s.tree.code v).getD []).length) t
  | .decodeSymbol => startAttempt .single
  | .compress => fun s => { s with ctl := .openIn .compress }
  | .decompress => fun s => { s with ctl := .openIn .decompress }
  | .bwOpen => fun s => endCommand (bwOpenSession s)
  | .bwWrite => withBit fun b s => (bwWriteBit b s).finish endCommand
  | .bwClose => fun s => if s.bw.isOpen then bwCloseStart false s else endCommand s
  | .brOpen => fun s => { s with ctl := .openIn .brOpen }
  | .brHasNext => fun s => complete (if hasNext s.br then 1 else 0) s
  | .brNext => fun s => if hasNext s.br then takeBit .brNext s else raiseError .exhaustion 0 s
  | .brClose => fun s => if s.br.isOpen then endCommand (brCloseSession s) else endCommand s

/-- A command with an operand, of which no case has an engine step ahead. -/
theorem advance_withSym {body : Byte → State → State} {s : State} (h : ∀ v, (body v s).ctl = .idle) :
    advance (withSym body s) = withSym body s := by
  refine advance_of_idle ?_
  unfold withSym
  split
  · exact h _
  · exact raiseError_ctl ..

theorem advance_withBit {body : Bool → State → State} {s : State} (h : ∀ b, (body b s).ctl = .idle) :
    advance (withBit body s) = withBit body s := by
  refine advance_of_idle ?_
  unfold withBit
  split
  · exact h _
  · exact raiseError_ctl ..

/-- A command is dispatched, and then the engine takes the engine steps of its turn: of a command that does not use the ports
there are none. -/
theorem exec_eq_advance (i : Instr) (s : State) : exec i s = command i (fun s => advance (commandStart i s)) s := by
  have body_eq : ∀ {body : State → State}, exec i s = command i body s → (∀ u, advance (commandStart i u) = body u) →
      exec i s = command i (fun s => advance (commandStart i s)) s := fun h hbody => by rw [h, funext hbody]
  cases i with
  | nop | clearError | softReset | freqClear | treeBuild | treeClear | bwOpen =>
    exact body_eq rfl fun u => advance_of_idle rfl
  | freqWrite | freqRead => exact body_eq rfl fun u => advance_withSym fun v => rfl
  | codeQuery =>
    refine body_eq rfl fun u => advance_withSym fun v => ?_
    split <;> rfl
  | codeBit =>
    refine body_eq rfl fun u => advance_withSym fun v => ?_
    split
    · exact raiseError_ctl ..
    · split
      · exact raiseError_ctl ..
      · rfl
  | encodeSymbol =>
    refine body_eq rfl fun u => advance_withSym fun v => ?_
    rcases encodeSymbolBits_cases v u with ⟨p, -, he⟩ | ⟨-, he⟩ | ⟨q, he⟩ <;> rw [he]
    · rfl
    · exact raiseError_ctl ..
    · exact raiseError_ctl ..
  | bwWrite =>
    refine body_eq rfl fun u => advance_withBit fun b => ?_
    rcases bwWriteBit_cases b u with ⟨-, hb⟩ | ⟨-, -, hb⟩ | ⟨-, -, hb⟩ <;> rw [hb]
    · rfl
    · rfl
    · exact raiseError_ctl ..
  | treeSave | treeLoad | compress | decompress | decodeSymbol | brOpen => exact body_eq rfl fun u => rfl
  | brHasNext => exact body_eq (execBrHasNext.eq_1 s) fun u => advance_of_idle (s := complete _ u) rfl
  | bwClose =>
    refine body_eq (execBwClose.eq_1 s) fun u => ?_
    simp only [commandStart]
    split
    · rfl
    · exact advance_of_idle rfl
  | brNext =>
    refine body_eq (execBrNext.eq_1 s) fun u => ?_
    simp only [commandStart]
    split
    · rfl
    · exact advance_of_idle (raiseError_ctl ..)
  | brClose =>
    refine body_eq (execBrClose.eq_1 s) fun u => ?_
    simp only [commandStart]
    split <;> exact advance_of_idle rfl

/-- What a command does: it is ignored, or raises IllegalState, or follows its rule (R109, R110). -/
theorem exec_cases {i : Instr} {s t : State} (h : exec i s = .next t) :
    (s.err ≠ none ∧ runsWhileErr i = false ∧ t = endCommand s) ∨
    ((s.err = none ∨ runsWhileErr i = true) ∧ admits i s = false ∧ t = raiseError .illegalState (encode i) s) ∨
    ((s.err = none ∨ runsWhileErr i = true) ∧ admits i s = true ∧ t = advance (commandStart i s)) := by
  rw [exec_eq_advance] at h
  rcases command_cases i (fun s => advance (commandStart i s)) s with ⟨he, hr, hc⟩ | ⟨hg, ha, hc⟩ | ⟨hg, ha, hc⟩
  all_goals
    rw [hc] at h
    cases h
  · exact .inl ⟨Option.isSome_iff_ne_none.1 he, hr, rfl⟩
  · exact .inr (.inl ⟨hg, ha, rfl⟩)
  · exact .inr (.inr ⟨hg, ha, rfl⟩)

theorem exec_total (i : Instr) (s : State) : ∃ t, exec i s = .next t := by
  rw [exec_eq_advance]
  exact ⟨_, rfl⟩

end Sys2Proof.Machine
end

section
/-! PROOFS. How an engine step can end (spec 10_state.md R28, 60_exceptions.md R341): it goes on, or it completes the
command, or it raises one error; before that, ERR, the history and RESULT are as they were, and OUT and DIAG only grow. -/

namespace Sys2Proof.Machine

/-- `u` is reached from `s` before anything is completed or raised. -/
structure Going (s u : State) : Prop where
  err : u.err = s.err
  errInfo : u.errInfo = s.errInfo
  errHistory : u.errHistory = s.errHistory
  result : u.result = s.result
  out : s.out <+: u.out
  diag : s.diag <+: u.diag

/-- The items that `Going` speaks of. -/
def State.record (s : State) : Option ErrName × Word × List ErrEntry × Word × List OutToken × List Byte :=
  (s.err, s.errInfo, s.errHistory, s.result, s.out, s.diag)

theorem going_of_record {s u : State} (h : u.record = s.record) : Going s u := by
  simp only [State.record, Prod.mk.injEq] at h
  obtain ⟨h1, h2, h3, h4, h5, h6⟩ := h
  exact ⟨h1, h2, h3, h4, h5 ▸ List.prefix_rfl, h6 ▸ List.prefix_rfl⟩

theorem Going.refl (s : State) : Going s s := going_of_record rfl

theorem Going.trans {s u v : State} (h : Going s u) (k : Going u v) : Going s v :=
  ⟨k.err.trans h.err, k.errInfo.trans h.errInfo, k.errHistory.trans h.errHistory, k.result.trans h.result,
    h.out.trans k.out, h.diag.trans k.diag⟩

/-- What an engine step, and a turn, comes to. -/
def Effect (s t : State) : Prop :=
  Going s t ∨ (∃ v u, Going s u ∧ t = complete v u) ∨ ∃ e i u, Going s u ∧ t = raiseError e i u

theorem Effect.after {s u t : State} (k : Effect u t) (h : Going s u) : Effect s t := by
  rcases k with k | ⟨v, w, k, rfl⟩ | ⟨e, i, w, k, rfl⟩
  · exact .inl (h.trans k)
  · exact .inr (.inl ⟨v, w, h.trans k, rfl⟩)
  · exact .inr (.inr ⟨e, i, w, h.trans k, rfl⟩)

theorem effect_complete (v : Word) {s u : State} (h : Going s u) : Effect s (complete v u) := .inr (.inl ⟨v, u, h, rfl⟩)

theorem effect_raiseError (e : ErrName) (i : Word) {s u : State} (h : Going s u) : Effect s (raiseError e i u) :=
  .inr (.inr ⟨e, i, u, h, rfl⟩)

/-- A command with an error was raised in its last step, and nothing was completed before it. -/
theorem Effect.raised {s t : State} (h : Effect s t) (hs : s.err = none) (ht : t.err ≠ none) :
    ∃ e i u, Going s u ∧ t = raiseError e i u := by
  rcases h with h | ⟨v, u, h, rfl⟩ | h
  · exact absurd (h.err.trans hs) ht
  · exact absurd (h.err.trans hs) ht
  · exact h

theorem Effect.errHistory_prefix {s t : State} (h : Effect s t) : s.errHistory <+: t.errHistory := by
  rcases h with h | ⟨v, u, h, rfl⟩ | ⟨e, i, u, h, rfl⟩
  · exact h.errHistory ▸ List.prefix_rfl
  · exact h.errHistory ▸ List.prefix_rfl
  · rw [raiseError_errHistory, h.errHistory]
    exact List.prefix_append _ _

theorem Effect.outputs_prefix {s t : State} (h : Effect s t) : s.out <+: t.out ∧ s.diag <+: t.diag := by
  rcases h with h | ⟨v, u, h, rfl⟩ | ⟨e, i, u, h, rfl⟩
  · exact ⟨h.out, h.diag⟩
  · exact ⟨h.out, h.diag⟩
  · rw [raiseError_out, raiseError_diag]
    exact ⟨h.out.trans (List.prefix_append _ _), h.diag⟩

/-! ### The parts of an engine step -/

theorem going_inRelease (s : State) : Going s (inRelease s) := going_of_record (by simp [State.record])

theorem going_outClose (s : State) : Going s (outClose s) := by
  refine ⟨?_, ?_, ?_, ?_, ?_, ?_⟩ <;> simp

theorem going_packed (s : State) (p : List Bool) : Going s (s.packed p) :=
  ⟨rfl, rfl, rfl, rfl, List.prefix_rfl, List.prefix_append _ _⟩

theorem going_echo (s : State) (p : List Bool) : Going s { s with diag := Spec.echo s p } :=
  ⟨rfl, rfl, rfl, rfl, List.prefix_rfl, List.prefix_append _ _⟩

theorem going_append (s : State) (l : List OutToken) (c : Ctl) : Going s { s with out := s.out ++ l, ctl := c } :=
  ⟨rfl, rfl, rfl, rfl, List.prefix_append _ _, List.prefix_rfl⟩

theorem effect_loadLine (l : LoadState) (s : State) : Effect s (loadLine l s) := by
  rcases loadLine_cases l with ⟨v, -, -, hl⟩ | ⟨v, p, t, -, -, -, hl⟩ | ⟨e, -, hl⟩ <;> rw [hl]
  · exact .inl (going_of_record rfl)
  · exact .inl (going_of_record rfl)
  · exact effect_raiseError _ _ (.refl s)

theorem effect_loadEnd (l : LoadState) (s : State) : Effect s (loadEnd l s) := by
  unfold loadEnd
  split
  · exact effect_raiseError _ _ (.refl s)
  · exact effect_complete _ ((going_inRelease s).trans (going_of_record rfl))

theorem effect_startAttempt (m : DecodeFor) (s : State) : Effect s (startAttempt m s) := by
  unfold startAttempt
  split
  · exact effect_raiseError _ _ (.refl s)
  · exact .inl (going_of_record rfl)

theorem effect_bitTaken (b : Bool) (k : RefillFor) (s : State) : Effect s (bitTaken b k s) := by
  cases k with
  | brNext => exact effect_complete _ (.refl s)
  | decode d m =>
    rw [bitTaken, descend]
    split
    · exact effect_raiseError _ _ (.refl s)
    · cases m
      · exact effect_complete _ (.refl s)
      · exact .inl (going_of_record rfl)
    · exact .inl (going_of_record rfl)

theorem effect_takeBit (k : RefillFor) (s : State) : Effect s (takeBit k s) := by
  simp only [takeBit]
  split
  · exact .inl (going_of_record rfl)
  · exact (effect_bitTaken _ k _).after (going_of_record rfl)

theorem effect_brOpened (k : BrOpenFor) (v : Word) (b : Unpacker) (s : State) : Effect s (brOpened k v b s) := by
  cases k
  · exact effect_complete _ (going_of_record rfl)
  · exact .inl (going_of_record rfl)

theorem effect_bwCloseStart (c : Bool) (s : State) : Effect s (bwCloseStart c s) := by
  unfold bwCloseStart
  split
  · exact effect_raiseError _ _ (.refl s)
  · exact .inl (going_of_record rfl)

theorem going_bwCloseEnd (s : State) : Going s (bwCloseEnd s) :=
  (going_outClose s).trans (going_of_record rfl)

theorem effect_emitEnd (k : EmitFor) (s : State) : Effect s (emitEnd k s) := by
  cases k with
  | save n => exact effect_complete _ (going_outClose s)
  | bwClose h => exact effect_complete _ (going_bwCloseEnd s)
  | compress n => exact effect_complete _ ((going_bwCloseEnd s).trans (going_inRelease _))

theorem effect_tickEmit (rest : List Byte) (k : EmitFor) (s : State) : Effect s (tickEmit rest k s) := by
  rcases tickEmit_cases rest k s with ⟨-, ht⟩ | ⟨b, r, -, -, -, ht⟩ | ⟨-, -, ht⟩ <;> rw [ht]
  · exact (effect_emitEnd k _).after (going_append s _ _)
  · exact .inl (going_append s _ _)
  · exact effect_raiseError _ _ (.refl s)

theorem effect_outWrite (b : Byte) (c : Ctl) (s : State) : Effect s (outWrite b c s) := by
  rcases outWrite_cases b c s with ⟨-, ht⟩ | ⟨-, ht⟩ <;> rw [ht]
  · exact .inl (going_append s _ _)
  · exact effect_raiseError _ _ (.refl s)

theorem effect_bwWriteBit (b : Bool) (s : State) {f : State → State} (hf : ∀ u, Effect u (f u)) :
    Effect s ((bwWriteBit b s).finish f) := by
  by_cases h : s.bw.nbits ≠ 7 ∨ s.bw.data.length ≠ s.bwCap
  · rw [bwWriteBit_of_push h]
    exact (hf _).after (going_packed s _)
  · rw [not_or, not_not, not_not] at h
    rw [bwWriteBit_of_full h.1 h.2]
    exact effect_raiseError _ _ (going_echo s _)

theorem effect_encodeSymbolBits (v : Byte) (s : State) {f : State → State} (hf : ∀ u, Effect u (f u)) :
    Effect s ((encodeSymbolBits v s).finish f) := by
  rcases encodeSymbolBits_cases v s with ⟨p, -, h⟩ | ⟨-, h⟩ | ⟨q, h⟩ <;> rw [h]
  · exact (hf _).after (going_packed s _)
  · exact effect_raiseError _ _ (.refl s)
  · exact effect_raiseError _ _ (going_echo s _)

/-! ### An engine step, and a turn -/

theorem effect_atEof (c : Ctl) (s : State) : Effect s (atEof c s) := by
  cases c with
  | load l =>
    rw [atEof]
    split
    · exact effect_loadEnd l s
    · exact effect_loadLine l s
  | header k => exact effect_brOpened k _ _ s
  | fillCur k p => exact .inl (going_of_record rfl)
  | fillNxt k p cur => exact effect_brOpened k _ _ s
  | refill b k => exact (effect_bitTaken b k _).after (going_of_record rfl)
  | compress => exact effect_bwCloseStart true s
  | _ => exact .inl (.refl s)

theorem effect_atByte (c : Ctl) (b : Byte) (s : State) : Effect s (atByte c b s) := by
  cases c with
  | load l =>
    rw [atByte]
    split
    · exact effect_loadLine l s
    · exact .inl (going_of_record rfl)
  | header k =>
    rw [atByte]
    split
    · exact effect_raiseError _ _ (.refl s)
    · exact .inl (going_of_record rfl)
  | fillCur k p => exact .inl (going_of_record rfl)
  | fillNxt k p cur => exact effect_brOpened k _ _ s
  | refill x k => exact (effect_bitTaken x k _).after (going_of_record rfl)
  | compress => exact effect_encodeSymbolBits b s fun u => .inl (going_of_record rfl)
  | _ => exact .inl (.refl s)

theorem effect_tick {s t : State} (h : tick s = some t) : Effect s t := by
  by_cases hr : atInRead s.ctl = true
  · rcases tick_atInRead_cases hr h with ⟨-, rfl⟩ | ⟨q, -, -, rfl⟩ | ⟨b, q, -, -, rfl⟩ | ⟨q, -, -, rfl⟩
    · exact effect_atEof _ s
    · exact (effect_atEof _ _).after (going_of_record rfl)
    · exact (effect_atByte _ b _).after (going_of_record rfl)
    · exact effect_raiseError _ _ (going_of_record rfl)
  · unfold tick at h
    cases hc : s.ctl <;> simp only [hc, Option.some.injEq, reduceCtorEq, atInRead, not_true_eq_false] at h hr
    case openIn k =>
      unfold tickOpenIn at h
      split at h
      · obtain ⟨_, _, -, rfl⟩ := drainStep_cases h
        exact .inl (going_of_record rfl)
      · cases h
        cases k <;> exact .inl (going_of_record rfl)
    case decode d m =>
      subst h
      unfold tickDecode
      split
      · exact effect_takeBit _ s
      · exact effect_raiseError _ _ (.refl s)
    case symbols n =>
      subst h
      unfold tickSymbols
      split
      · exact effect_startAttempt _ s
      · exact effect_complete _ ((going_inRelease s).trans (.trans (u := brCloseSession s) (going_of_record rfl)
          (going_outClose _)))
    case putSymbol v n => exact h ▸ effect_outWrite _ _ s
    case emit rest k => exact h ▸ effect_tickEmit rest k s

theorem effect_advance (s : State) : Effect s (advance s) := by
  refine advance_keeps (P := Effect s) (fun t u ht htick => ?_) (.inl (.refl s))
  rcases ht with ht | ⟨v, w, -, rfl⟩ | ⟨e, i, w, -, rfl⟩
  · exact (effect_tick htick).after ht
  · exact absurd rfl (running_of_tick htick).1
  · exact absurd (raiseError_ctl ..) (running_of_tick htick).1

end Sys2Proof.Machine
end

section
/-! PROOFS. The invariant through the engine steps of a command (spec 10_state.md, 60_exceptions.md R341, R342). It is followed
with PENDING taken as any word, since no engine step reads it. -/

namespace Sys2Proof.Machine

/-- The invariant, with the word `w` for PENDING. -/
def InvAs (w : Word) (s : State) : Prop := State.Inv { s with pending := w }

theorem invAs_pending_iff {s : State} : InvAs s.pending s ↔ s.Inv := Iff.rfl

/-- OUT is cut off nowhere where it was cut off nowhere before (R81, R391). -/
def KeepsClosed (s t : State) : Prop := s.outClosed → t.outClosed

theorem keepsClosed_of_eq {s t : State} (ho : t.outOwned = s.outOwned) (h : t.out = s.out) : KeepsClosed s t :=
  fun hs => by unfold State.outClosed; rw [ho, h]; exact hs

theorem keepsClosed_of_owned {s t : State} (h : t.outOwned = true) : KeepsClosed s t :=
  fun _ hf => absurd hf (by simp [h])

theorem outClosed_of_close {s : State} (u : State) (hc : u.outClosed)
    (h : s.out = u.out ++ if u.outOwned then [.close] else []) : s.outClosed := fun _ => by
  rw [h]
  cases ho : u.outOwned
  · simpa using hc ho
  · exact endsClosed_append_close _

theorem keepsClosed_raiseError (e : ErrName) (i : Word) (s : State) : KeepsClosed s (raiseError e i s) :=
  fun hs => outClosed_of_close s hs (raiseError_out e i s)

theorem keepsClosed_outClose (s : State) : KeepsClosed s (outClose s) :=
  fun hs => outClosed_of_close s hs (outClose_out s)

theorem KeepsClosed.trans {s t u : State} (h : KeepsClosed s t) (k : KeepsClosed t u) : KeepsClosed s u :=
  fun hs => k (h hs)

/-- The invariant and OUT, after an engine step from `s`. -/
def Holds (w : Word) (s t : State) : Prop := InvAs w t ∧ KeepsClosed s t

/-! ### Error entry and the end of a command -/

theorem packer_closed_wf (cap : Nat) : Packer.closed.wf cap = true :=
  Packer.wf_iff.2 ⟨fun _ => rfl, Nat.zero_le _, Nat.one_pos⟩

theorem unpacker_closed_wf : Unpacker.closed.wf = true := by decide

/-- Error entry leaves the invariant, whatever the units and the place in the command were (R341, R342). -/
theorem invAs_raiseError {w : Word} {s : State} (e : ErrName) (i : Word) (htree : s.tree.wf = true)
    (hcap : 1 ≤ s.bwCap) (hterm : s.inTerm = true → s.inOwned = true) : InvAs w (raiseError e i s) := by
  rw [raiseError_closed_form]
  exact {
    tree_wf := htree
    bw_wf := packer_closed_wf _
    br_wf := unpacker_closed_wf
    cap_pos := hcap
    out_owned := rfl
    in_owned := rfl
    units := ⟨rfl, rfl⟩
    place := rfl
    term_owned := fun h => by
      simp only [Bool.and_eq_true, Bool.not_eq_true'] at h
      exact absurd (hterm h.2) (by simp [h.1])
    drain_free := fun _ => rfl
    window_term := fun h => by cases h
    running := fun i h => by cases h
    descent := fun d h => by cases h
    err_none := fun h => by cases h
    err_last := fun e' h => by cases h; exact List.getLast?_concat }

theorem holds_raiseError {w : Word} {s : State} (h : InvAs w s) (e : ErrName) (i : Word) :
    Holds w s (raiseError e i s) :=
  ⟨invAs_raiseError e i h.tree_wf h.cap_pos h.term_owned, keepsClosed_raiseError e i s⟩

section
variable {w : Word} {s : State}

/-- The invariant at another place of the same command, with the same sessions and units. -/
theorem InvAs.move (h : InvAs w s) (c : Ctl) (hout : commandOwnsOut c = commandOwnsOut s.ctl)
    (hin : commandOwnsIn c = commandOwnsIn s.ctl) (hunits : unitsAt c = unitsAt s.ctl)
    (hplace : placeOk { s with ctl := c } = true) (hrefill : atRefill s.ctl = true → atRefill c = true)
    (hrun : runningCommand c = runningCommand s.ctl)
    (hdesc : ∀ d, descentAt c = some d → ∃ p, p.length = d.depth ∧ s.tree.nodeAt p = .internal d.zero d.one) :
    InvAs w { s with ctl := c } :=
  { h with
    out_owned := (congrArg (s.bw.isOpen || ·) hout).symm ▸ h.out_owned
    in_owned := (congrArg (s.br.isOpen || ·) hin).symm ▸ h.in_owned
    units := by simpa only [hunits] using h.units
    place := hplace
    window_term := fun hb hr => h.window_term hb (Bool.eq_false_iff.2 fun hs => by simp [hrefill hs] at hr)
    running := fun i hi => h.running i (hrun ▸ hi)
    descent := hdesc }

/-- The invariant where the command has ended: each session is a unit's own. -/
theorem InvAs.endAt (h : InvAs w s) (v : Word) (hout : s.outOwned = s.bw.isOpen) (hin : s.inOwned = s.br.isOpen)
    (hwin : s.br.isOpen = true → (s.br.nxt = none ↔ s.inTerm = true)) : InvAs w (complete v s) :=
  { h with
    out_owned := by simpa [commandOwnsOut] using hout
    in_owned := by simpa [commandOwnsIn] using hin
    units := ⟨rfl, rfl⟩
    place := rfl
    window_term := fun hb _ => hwin hb
    running := fun i hi => by cases hi
    descent := fun d hd => by cases hd }

/-! ### InRead -/

theorem invAs_inQ (h : InvAs w s) (q : List Token) : InvAs w { s with inQ := q } := { h with }

/-- The engine reads only where an input session is open (20_memory.md R79). -/
theorem InvAs.inOwned_of_atInRead (h : InvAs w s) (hr : atInRead s.ctl = true) : s.inOwned = true := by
  have hin := h.in_owned
  have hunits := h.units.2
  cases hc : s.ctl <;> simp only [hc, atInRead, Bool.false_eq_true] at hr
  case refill b k =>
    have hopen : s.br.isOpen = true := by
      rcases k with _ | ⟨d, _ | n⟩ <;> simpa [hc, unitsAt, fits] using hunits.symm
    simpa [hc, hopen] using hin
  all_goals simpa [hc, commandOwnsIn] using hin

/-- The terminator read, at an InRead (20_memory.md R79). -/
theorem invAs_inTerm (h : InvAs w s) (hr : atInRead s.ctl = true) (q : List Token) :
    InvAs w { s with inQ := q, inTerm := true } := by
  have hplace := h.place
  have hunits := h.units.2
  refine { h with
    place := ?_, term_owned := fun _ => h.inOwned_of_atInRead hr, window_term := fun hb hnr => ?_ }
  · cases hc : s.ctl <;> simp only [hc, atInRead, Bool.false_eq_true] at hr
    case refill b k =>
      simp only [placeOk, hc, Bool.and_eq_true] at hplace ⊢
      exact ⟨hplace.1, by simp⟩
    all_goals simpa [placeOk, hc] using hplace
  · have hclosed : s.br.isOpen = false := by
      cases hc : s.ctl <;> simp only [hc, atInRead, atRefill, reduceCtorEq, Bool.false_eq_true] at hr hnr
      case header k => cases k <;> simpa [hc, unitsAt, fits] using hunits.symm
      case fillCur k p => cases k <;> simpa [hc, unitsAt, fits] using hunits.symm
      case fillNxt k p c => cases k <;> simpa [hc, unitsAt, fits] using hunits.symm
      all_goals simpa [hc, unitsAt, fits] using hunits.symm
    exact absurd hb (by simp [hclosed])

/-! ### TREE_LOAD -/

theorem checkPath_eq_ok {l : List Byte} {p : List Bool} (h : checkPath l = .ok p) :
    p ≠ [] ∧ p.length ≤ Config.maxCodeLen := by
  unfold checkPath at h
  split at h
  · cases h
  · split at h
    · cases h
    next hne =>
      split at h
      next hlen =>
        cases h
        simpa using And.intro (by simpa using hne) hlen
      · cases h

section
variable {l : LoadState} (h : InvAs w s) (hc : s.ctl = .load l)
include h hc

theorem InvAs.load_trees : s.tree = .empty ∧ l.tree.wf = true := by
  have hplace := h.place
  simpa only [placeOk, hc, Bool.and_eq_true, decide_eq_true_eq] using hplace

theorem InvAs.load_next {l' : LoadState} (hwf : l'.tree.wf = true) : Holds w s { s with ctl := .load l' } := by
  refine ⟨h.move (.load l') ?_ ?_ ?_ ?_ ?_ ?_ ?_, keepsClosed_of_eq rfl rfl⟩
  case refine_4 => simp [placeOk, (h.load_trees hc).1, hwf]
  case refine_7 => exact fun d hd => by cases hd
  all_goals rw [hc]
  case refine_5 => exact fun hf => by cases hf
  all_goals rfl

theorem holds_loadLine : Holds w s (loadLine l s) := by
  have hwf := (h.load_trees hc).2
  rcases loadLine_cases l with ⟨v, -, -, hl⟩ | ⟨v, p, t, -, hp, ht, hl⟩ | ⟨e, -, hl⟩ <;> rw [hl]
  · exact h.load_next hc hwf
  · obtain ⟨hne, hlen⟩ := checkPath_eq_ok hp
    exact h.load_next hc (Tree.wf_of_insert hwf hne hlen ht)
  · exact holds_raiseError h e _

theorem holds_loadEnd : Holds w s (loadEnd l s) := by
  have hwf := (h.load_trees hc).2
  have hunits := h.units
  have hout := h.out_owned
  simp only [hc, unitsAt, fits, Option.all_some, beq_iff_eq, commandOwnsOut, Bool.or_false] at hunits hout
  unfold loadEnd
  split
  · exact holds_raiseError h _ _
  · refine ⟨?_, keepsClosed_of_eq (by simp) (by simp)⟩
    rw [complete, inRelease, if_pos (h.inOwned_of_atInRead (by rw [hc]; rfl))]
    exact { h with
      tree_wf := hwf
      out_owned := by simpa [commandOwnsOut] using hout
      in_owned := by simp [commandOwnsIn, ← hunits.2]
      units := ⟨rfl, rfl⟩
      place := rfl
      term_owned := fun hf => by cases hf
      drain_free := fun _ => rfl
      window_term := fun hb => absurd hb (by simp [← hunits.2])
      running := fun i hi => by cases hi
      descent := fun d hd => by cases hd }

end

/-! ### The unpacker -/

theorem bitTaken_ctl_irrel (b : Bool) (k : RefillFor) (s : State) (c : Ctl) :
    bitTaken b k { s with ctl := c } = bitTaken b k s := by
  cases k with
  | brNext => rfl
  | decode d m =>
    simp only [bitTaken, descend, raiseError_ctl_irrel]
    split
    · rfl
    · cases m <;> rfl
    · rfl

/-- A step down the tree leads from an INTERNAL node of TREE to one of TREE (R240). -/
theorem nodeAt_child {t : Tree} {d : Descent} {b : Bool} {l r : Node}
    (h : ∃ p, p.length = d.depth ∧ t.nodeAt p = .internal d.zero d.one)
    (hchild : (if b then d.one else d.zero) = .internal l r) :
    ∃ p, p.length = d.depth + 1 ∧ t.nodeAt p = .internal l r := by
  obtain ⟨p, hp, hnode⟩ := h
  refine ⟨p ++ [b], by simp [hp], ?_⟩
  rw [Tree.nodeAt_append, hnode, Node.nodeAt_internal_cons, hchild, Node.nodeAt_nil]

section
variable {d : Descent} {m : DecodeFor} (h : InvAs w s) (hc : s.ctl = .decode d m)
include h hc

theorem holds_symbolDecoded (v : Byte) : Holds w s (symbolDecoded v m s) := by
  cases m with
  | single =>
    refine ⟨h.endAt _ ?_ ?_ fun hb => h.window_term hb (by rw [hc]; rfl), keepsClosed_of_eq rfl rfl⟩
    · simpa [hc, commandOwnsOut] using h.out_owned
    · simpa [hc, commandOwnsIn] using h.in_owned
  | stream n =>
    refine ⟨h.move (.putSymbol v n) ?_ ?_ ?_ rfl ?_ ?_ (fun d hd => by cases hd), keepsClosed_of_eq rfl rfl⟩
    case refine_4 => rw [hc]; exact fun hf => by cases hf
    all_goals rw [hc]; rfl

theorem holds_descend (b : Bool) : Holds w s (descend b d m s) := by
  have hnode := h.descent d (by rw [hc]; rfl)
  unfold descend
  split
  · exact holds_raiseError h _ _
  · exact holds_symbolDecoded h hc _
  next l r hchild =>
    refine ⟨h.move (.decode ⟨l, r, d.depth + 1⟩ m) ?_ ?_ ?_ rfl ?_ ?_ ?_, keepsClosed_of_eq rfl rfl⟩
    case refine_4 => rw [hc]; exact fun hf => by cases hf
    case refine_6 => exact fun d' hd => by cases hd; exact nodeAt_child hnode hchild
    all_goals rw [hc]; cases m <;> rfl

theorem holds_takeBit (hnext : hasNext s.br = true) : Holds w s (takeBit (.decode d m) s) := by
  obtain ⟨hcur, -⟩ := hasNext_iff.1 hnext
  obtain ⟨hclosed, hempty, hwin⟩ := Unpacker.wf_iff.1 h.br_wf
  have hterm := h.window_term
  have hopen : s.br.isOpen = true := by
    by_contra hb
    exact hcur (by rw [hclosed (by simpa using hb)]; rfl)
  by_cases h7 : s.br.pos = 7
  · rw [takeBit_of_pos_eq_seven h7]
    have hnxt : s.br.nxt = none ↔ s.inTerm = true := hterm hopen (by rw [hc]; rfl)
    refine ⟨{ h with
      br_wf := Unpacker.wf_iff.2 ⟨fun hb => absurd (hopen.symm.trans hb) (by decide), fun he => ?_, fun _ => ⟨rfl, rfl⟩⟩
      out_owned := ?_, in_owned := ?_, units := ?_, place := ?_, window_term := fun _ hr => by cases hr
      running := ?_, descent := ?_ }, keepsClosed_of_eq rfl rfl⟩
    · exact absurd (hempty he).1 hcur
    · have hout := h.out_owned
      rw [hc] at hout
      cases m <;> exact hout
    · have hin := h.in_owned
      rw [hc] at hin
      exact hin
    · have hunits := h.units
      rw [hc] at hunits
      cases m <;> exact hunits
    · have hplace : s.br.nxt.isSome = true ∨ s.inTerm = true := by
        cases hn : s.br.nxt with
        | none => exact .inr (hnxt.1 hn)
        | some c => exact .inl rfl
      simpa [placeOk, State.refilling, shiftWindow] using hplace
    · have hrun := h.running
      rw [hc] at hrun
      cases m <;> exact hrun
    · have hdesc := h.descent
      rw [hc] at hdesc
      exact hdesc
  · rw [takeBit_of_pos_ne_seven h7]
    have h' : InvAs w { s with br := { s.br with pos := s.br.pos + 1 } } := { h with
      br_wf := Unpacker.wf_iff.2 ⟨fun hb => absurd (hopen.symm.trans hb) (by decide), hempty, fun hn => absurd hn hcur⟩
      place := by simp only [placeOk, hc]
      window_term := hterm }
    exact holds_descend (s := { s with br := _ }) h' hc _

theorem holds_tickDecode : Holds w s (tickDecode d m s) := by
  unfold tickDecode
  split
  next hnext => exact holds_takeBit h hc hnext
  · exact holds_raiseError h _ _

end

/-- After the refill the engine goes on with what the bit is for (R312). -/
theorem holds_refilled {b : Bool} {k : RefillFor} (h : InvAs w s) (hc : s.ctl = .refill b k) {x : Option Byte}
    (hx : x = none ↔ s.inTerm = true) : Holds w s (bitTaken b k { s with br := { s.br with nxt := x } }) := by
  obtain ⟨hclosed, hempty, hwin⟩ := Unpacker.wf_iff.1 h.br_wf
  have hplace : s.br.cur.isSome = true ∨ s.inTerm = true := by
    have hp := h.place
    simp only [placeOk, hc, Bool.and_eq_true, Bool.or_eq_true] at hp
    exact hp.2
  have hopen : s.br.isOpen = true := by
    have hunits := h.units.2
    rcases k with _ | ⟨d, _ | n⟩ <;> simpa [hc, unitsAt, fits] using hunits.symm
  have hwf : ({ s.br with nxt := x } : Unpacker).wf = true := by
    refine Unpacker.wf_iff.2 ⟨fun hb => absurd (hopen.symm.trans hb) (by decide), hempty, fun hn => ⟨hx.2 ?_, (hwin hn).2⟩⟩
    have hn' : s.br.cur = none := hn
    simpa [hn'] using hplace
  have hout := h.out_owned
  have hin := h.in_owned
  have hunits := h.units
  have hrun := h.running
  have hdesc := h.descent
  rw [hc] at hout hin hunits hrun hdesc
  cases k with
  | brNext =>
    exact ⟨{ h with
      br_wf := hwf, out_owned := hout, in_owned := hin, units := ⟨rfl, rfl⟩, place := rfl, window_term := fun _ _ => hx
      running := fun i hi => by cases hi
      descent := fun d hd => by cases hd }, keepsClosed_of_eq rfl rfl⟩
  | decode d m =>
    have h' : InvAs w { s with br := { s.br with nxt := x }, ctl := .decode d m } := { h with
      br_wf := hwf, place := rfl, window_term := fun _ _ => hx, descent := hdesc
      out_owned := by cases m <;> exact hout
      in_owned := by cases m <;> exact hin
      units := by cases m <;> exact hunits
      running := by cases m <;> exact hrun }
    have hdone := holds_descend h' rfl b
    exact ⟨(congrArg (InvAs w) (bitTaken_ctl_irrel b (.decode d m) { s with br := { s.br with nxt := x } } _)).mp hdone.1,
      (congrArg (KeepsClosed s) (bitTaken_ctl_irrel b (.decode d m) { s with br := { s.br with nxt := x } } _)).mp hdone.2⟩

/-- BrOpen's end: the session goes on as the unpacker's (R310, R313, R245). -/
theorem holds_brOpened {k : BrOpenFor} (h : InvAs w s)
    (hc : s.ctl = .header k ∨ ∃ p cur, s.ctl = .fillNxt k p cur) (v : Word) {b : Unpacker} (hopen : b.isOpen = true)
    (hwf : b.wf = true) (hwin : b.nxt = none ↔ s.inTerm = true) : Holds w s (brOpened k v b s) := by
  have howned : s.inOwned = true := by
    refine h.inOwned_of_atInRead ?_
    rcases hc with hc | ⟨p, cur, hc⟩ <;> rw [hc] <;> rfl
  have hout : s.outOwned = s.bw.isOpen := by
    have ho := h.out_owned
    rcases hc with hc | ⟨p, cur, hc⟩ <;> simpa [hc, commandOwnsOut] using ho
  have hrun := h.running
  cases k with
  | brOpen =>
    exact ⟨{ h with
      br_wf := hwf, out_owned := by simpa [brOpened, complete, commandOwnsOut] using hout
      in_owned := by simpa [brOpened, complete, hopen] using howned
      units := ⟨rfl, rfl⟩, place := rfl, window_term := fun _ _ => hwin
      running := fun i hi => by cases hi
      descent := fun d hd => by cases hd }, keepsClosed_of_eq rfl rfl⟩
  | decompress =>
    have hclosed : s.bw.isOpen = false := by
      have hunits := h.units.1
      rcases hc with hc | ⟨p, cur, hc⟩ <;> simpa [hc, unitsAt, fits] using hunits.symm
    exact ⟨{ h with
      br_wf := hwf, out_owned := by simp [brOpened, commandOwnsOut]
      in_owned := by simpa [brOpened, hopen] using howned
      units := ⟨by simp [brOpened, unitsAt, fits, hclosed], by simp [brOpened, unitsAt, fits, hopen]⟩
      place := rfl, window_term := fun _ _ => hwin
      running := fun i hi => by
        refine hrun i ?_
        rcases hc with hc | ⟨p, cur, hc⟩ <;> rw [hc] <;> exact hi
      descent := fun d hd => by cases hd }, keepsClosed_of_owned rfl⟩

end

end Sys2Proof.Machine
end

section
/-! PROOFS. Whether the packer has room for a bit string (spec 44_bitwriter.md R280, 43_translate.md R241), and the bits echoed
up to the one that finds it full. -/

namespace Sys2Proof.Machine

theorem Packer.length_heldBits (w : Packer) : (Spec.heldBits w).length = 8 * w.data.length + w.nbits.val := by
  rw [Spec.heldBits, List.length_append, length_flatMap_byteBits, List.length_take, length_byteBits,
    Nat.min_eq_left w.nbits.isLt.le]

/-- The packer stays well formed over a bit it has room for (R41). -/
theorem Packer.wf_push {cap : Nat} {w : Packer} (h : w.wf cap = true) (hopen : w.isOpen = true)
    (hroom : w.nbits ≠ 7 ∨ w.data.length ≠ cap) (b : Bool) : (w.push b).wf cap = true := by
  obtain ⟨-, hlen, hacc⟩ := Packer.wf_iff.1 h
  refine Packer.wf_iff.2 ⟨fun hf => ?_, ?_, (Packer.heldBits_push b hacc).2⟩
  · exact absurd (((w.isOpen_push b).symm.trans hf).symm.trans hopen) (by decide)
  · unfold Packer.push
    split
    next h7 =>
      have hne := hroom.resolve_left (not_not.2 h7)
      simp only [List.length_append, List.length_singleton]
      omega
    · exact hlen

section
variable {s : State} (hopen : s.bw.isOpen = true) (hwf : s.bw.wf s.bwCap = true)
include hopen hwf

/-- With room for the bytes they finish, the bits are packed (R280). -/
theorem bwWriteBits_of_room {p : List Bool} (hroom : (Spec.heldBits s.bw ++ p).length / 8 ≤ s.bwCap) :
    bwWriteBits p s = .go (s.packed p) ∧ (s.bw.pushAll p).wf s.bwCap = true := by
  induction p generalizing s with
  | nil => exact ⟨by rw [State.packed_nil]; rfl, hwf⟩
  | cons b p ih =>
    have hlen := (Packer.wf_iff.1 hwf).2.1
    have hacc := (Packer.wf_iff.1 hwf).2.2
    have hbit : s.bw.nbits ≠ 7 ∨ s.bw.data.length ≠ s.bwCap := by
      by_contra hfull
      rw [not_or, not_not, not_not] at hfull
      rw [List.length_append, Packer.length_heldBits, hfull.1, hfull.2, List.length_cons] at hroom
      simp only [show (7 : Fin 8).val = 7 from rfl] at hroom
      omega
    have hheld : Spec.heldBits (s.packed [b]).bw = Spec.heldBits s.bw ++ [b] := (Packer.heldBits_push b hacc).1
    obtain ⟨hgo, hwf'⟩ := ih (s := s.packed [b]) ((s.bw.isOpen_push b).trans hopen) (Packer.wf_push hwf hopen hbit b)
      (by rw [hheld, List.append_assoc]; exact hroom)
    refine ⟨?_, hwf'⟩
    rw [bwWriteBits, bwWriteBit_of_push hbit, show s.packed (b :: p) = (s.packed [b]).packed p from s.packed_append [b] p]
    exact hgo

/-- Without it, CapacityExceeded(0) is raised at the bit that finishes the byte, which is echoed (R280, R282). -/
theorem bwWriteBits_of_full {p : List Bool} (hfull : s.bwCap < (Spec.heldBits s.bw ++ p).length / 8) :
    bwWriteBits p s = .raised (raiseError .capacityExceeded 0
      { s with diag := Spec.echo s (p.take (8 * (s.bwCap + 1) - (Spec.heldBits s.bw).length)) }) := by
  induction p generalizing s with
  | nil =>
    have hlen := (Packer.wf_iff.1 hwf).2.1
    have hn := s.bw.nbits.isLt
    rw [List.append_nil, Packer.length_heldBits] at hfull
    omega
  | cons b p ih =>
    have hlen := (Packer.wf_iff.1 hwf).2.1
    have hacc := (Packer.wf_iff.1 hwf).2.2
    have hn := s.bw.nbits.isLt
    have hcount := Packer.length_heldBits s.bw
    by_cases hbit : s.bw.nbits ≠ 7 ∨ s.bw.data.length ≠ s.bwCap
    · have hheld : Spec.heldBits (s.packed [b]).bw = Spec.heldBits s.bw ++ [b] := (Packer.heldBits_push b hacc).1
      have hraise := ih (s := s.packed [b]) ((s.bw.isOpen_push b).trans hopen) (Packer.wf_push hwf hopen hbit b)
        (by rw [hheld, List.append_assoc]; exact hfull)
      have htake : 8 * (s.bwCap + 1) - (Spec.heldBits s.bw).length =
          8 * (s.bwCap + 1) - ((Spec.heldBits s.bw).length + 1) + 1 := by
        rcases hbit with h | h
        · have := Fin.val_ne_of_ne h
          simp only [show (7 : Fin 8).val = 7 from rfl] at this
          omega
        · omega
      rw [bwWriteBits, bwWriteBit_of_push hbit, htake, List.take_succ_cons]
      refine hraise.trans ?_
      rw [hheld, List.length_append, List.length_singleton,
        show Spec.echo (s.packed [b]) _ = Spec.echo s (b :: _) from echo_append s [b] _]
      simp only [raiseError_closed_form, State.packed]
      rfl
    · rw [not_or, not_not, not_not] at hbit
      have htake : 8 * (s.bwCap + 1) - (Spec.heldBits s.bw).length = 1 := by
        rw [hcount, hbit.1, hbit.2]
        simp only [show (7 : Fin 8).val = 7 from rfl]
        omega
      rw [bwWriteBits, bwWriteBit_of_full hbit.1 hbit.2, htake, List.take_succ_cons, List.take_zero]
      rfl

/-- The packer stays well formed over the bits that were packed. -/
theorem wf_of_bwWriteBits_go {p : List Bool} {t : State} (h : bwWriteBits p s = .go t) :
    t = s.packed p ∧ (s.bw.pushAll p).wf s.bwCap = true := by
  by_cases hroom : (Spec.heldBits s.bw ++ p).length / 8 ≤ s.bwCap
  · obtain ⟨hgo, hwf'⟩ := bwWriteBits_of_room hopen hwf hroom
    exact ⟨by rw [hgo] at h; cases h; rfl, hwf'⟩
  · rw [bwWriteBits_of_full hopen hwf (by omega)] at h
    cases h

end

end Sys2Proof.Machine
end

section
/-! PROOFS. The invariant over one engine step, and over a turn (spec 70_reset_and_hazards.md R388, R392). -/

namespace Sys2Proof.Machine

section
variable {w : Word} {s : State}

/-! ### InOpen -/

theorem holds_drainStep {t : State} {k : OpenFor} (h : InvAs w s) (hc : s.ctl = .openIn k) (hdrain : s.inDrain = true)
    (ht : drainStep s = some t) : Holds w s t := by
  obtain ⟨_, q, -, rfl⟩ := drainStep_cases ht
  have hplace := h.place
  refine ⟨{ h with
    place := ?_, drain_free := fun _ => h.drain_free hdrain }, keepsClosed_of_eq rfl rfl⟩
  cases k <;> simpa [placeOk, hc] using hplace

theorem holds_afterInOpen {k : OpenFor} (h : InvAs w s) (hc : s.ctl = .openIn k) (hdrain : s.inDrain = false) :
    Holds w s (afterInOpen k s) := by
  have hout := h.out_owned
  have hunits := h.units
  have hplace := h.place
  have hrun := h.running
  have hbr : s.br.isOpen = false := by
    have hu := hunits.2
    rw [hc] at hu
    cases k <;> simpa [unitsAt, fits] using hu.symm
  have hwin : s.br.isOpen = true → atRefill s.ctl = false → (s.br.nxt = none ↔ false = true) :=
    fun hb => absurd (hbr.symm.trans hb) (by decide)
  rw [hc] at hout hunits hrun
  cases k with
  | load =>
    have hempty : s.tree = .empty := by simpa [placeOk, hc] using hplace
    exact ⟨{ h with
      out_owned := hout
      in_owned := by simp [afterInOpen, inOpen, commandOwnsIn]
      units := hunits, place := by simp [afterInOpen, inOpen, placeOk, hempty, LoadState.start, Tree.wf]
      term_owned := fun _ => rfl, drain_free := fun hd => absurd (hdrain.symm.trans hd) (by decide)
      window_term := fun hb _ => hwin hb (by rw [hc]; rfl)
      running := hrun, descent := fun d hd => by cases hd }, keepsClosed_of_eq rfl rfl⟩
  | compress =>
    exact ⟨{ h with
      bw_wf := Packer.wf_iff.2 ⟨fun hf => (by cases hf), Nat.zero_le _, Nat.one_pos⟩
      out_owned := rfl
      in_owned := by simp [afterInOpen, bwOpenSession, outOpen, inOpen, commandOwnsIn]
      units := ⟨rfl, hunits.2⟩, place := rfl
      term_owned := fun _ => rfl, drain_free := fun hd => absurd (hdrain.symm.trans hd) (by decide)
      window_term := fun hb _ => hwin hb (by rw [hc]; rfl)
      running := hrun, descent := fun d hd => by cases hd }, keepsClosed_of_owned rfl⟩
  | brOpen =>
    exact ⟨{ h with
      out_owned := hout
      in_owned := by simp [afterInOpen, inOpen, commandOwnsIn]
      units := hunits, place := rfl
      term_owned := fun _ => rfl, drain_free := fun hd => absurd (hdrain.symm.trans hd) (by decide)
      window_term := fun hb _ => hwin hb (by rw [hc]; rfl)
      running := hrun, descent := fun d hd => by cases hd }, keepsClosed_of_eq rfl rfl⟩
  | decompress =>
    exact ⟨{ h with
      out_owned := hout
      in_owned := by simp [afterInOpen, inOpen, commandOwnsIn]
      units := hunits, place := rfl
      term_owned := fun _ => rfl, drain_free := fun hd => absurd (hdrain.symm.trans hd) (by decide)
      window_term := fun hb _ => hwin hb (by rw [hc]; rfl)
      running := hrun, descent := fun d hd => by cases hd }, keepsClosed_of_eq rfl rfl⟩

/-! ### DECOMPRESS -/

theorem holds_startAttempt_stream {n : Word} (h : InvAs w s) (hc : s.ctl = .symbols n) :
    Holds w s (startAttempt (.stream n) s) := by
  cases htree : s.tree with
  | empty =>
    rw [startAttempt, htree]
    exact holds_raiseError h _ _
  | root l r =>
    rw [startAttempt_of_root htree]
    refine ⟨h.move (.decode ⟨l, r, 0⟩ (.stream n)) ?_ ?_ ?_ rfl ?_ ?_ ?_, keepsClosed_of_eq rfl rfl⟩
    case refine_4 => rw [hc]; exact fun hf => by cases hf
    case refine_6 => exact fun d hd => by cases hd; exact ⟨[], rfl, by rw [htree]; rfl⟩
    all_goals rw [hc]; rfl

theorem holds_tickSymbols {n : Word} (h : InvAs w s) (hc : s.ctl = .symbols n) : Holds w s (tickSymbols n s) := by
  unfold tickSymbols
  split
  · exact holds_startAttempt_stream h hc
  · have hbw : s.bw.isOpen = false := by simpa [hc, unitsAt, fits] using h.units.1.symm
    rw [brCloseSession_closed_form, outClose_closed_form]
    refine ⟨{ h with
      br_wf := unpacker_closed_wf
      out_owned := by simp [complete, commandOwnsOut, hbw]
      in_owned := rfl
      units := ⟨rfl, rfl⟩, place := rfl
      term_owned := fun ht => ?_, drain_free := fun _ => rfl
      window_term := fun hb => by cases hb
      running := fun i hi => by cases hi
      descent := fun d hd => by cases hd }, fun hs => outClosed_of_close s hs ?_⟩
    · cases ho : s.inOwned
      · simp only [complete, ho, Bool.false_eq_true, if_false] at ht
        exact absurd (h.term_owned ht) (by simp [ho])
      · simp [complete, ho] at ht
    · cases ho : s.outOwned <;> simp [complete]

theorem holds_putSymbol {v : Byte} {n : Word} (h : InvAs w s) (hc : s.ctl = .putSymbol v n) :
    Holds w s (outWrite v (.symbols (n + 1)) s) := by
  have hout := h.out_owned
  have hin := h.in_owned
  have hunits := h.units
  have hrun := h.running
  have hwin := h.window_term
  rw [hc] at hout hin hunits hrun hwin
  rcases outWrite_cases v (.symbols (n + 1)) s with ⟨-, ht⟩ | ⟨-, ht⟩ <;> rw [ht]
  · exact ⟨{ h with
      out_owned := hout, in_owned := hin, units := hunits, place := rfl, window_term := hwin, running := hrun
      descent := fun d hd => by cases hd }, keepsClosed_of_owned (hout.trans (by simp [commandOwnsOut]))⟩
  · exact holds_raiseError h _ _

/-! ### COMPRESS and the emissions -/

section
variable (h : InvAs w s) (hc : s.ctl = .compress)
include h hc

theorem InvAs.compress_units : s.bw.isOpen = true ∧ s.br.isOpen = false := by
  have hunits := h.units
  rw [hc] at hunits
  exact ⟨by simpa [unitsAt, fits] using hunits.1.symm, by simpa [unitsAt, fits] using hunits.2.symm⟩

/-- COMPRESS after the code of a byte (R244). -/
theorem InvAs.compress_packed {p : List Bool} (hwf : (s.bw.pushAll p).wf s.bwCap = true) :
    Holds w s { s.packed p with ctl := .compress } := by
  obtain ⟨hopen, -⟩ := h.compress_units hc
  have hopen' : (s.bw.pushAll p).isOpen = true := (s.bw.isOpen_pushAll p).trans hopen
  have hout := h.out_owned
  have hin := h.in_owned
  have hunits := h.units
  have hrun := h.running
  have hwin := h.window_term
  rw [hc] at hout hin hunits hrun hwin
  exact ⟨{ h with
    bw_wf := hwf
    out_owned := by simpa [State.packed, hopen', hopen] using hout
    in_owned := hin
    units := ⟨by simp [State.packed, unitsAt, fits, hopen'], hunits.2⟩
    place := rfl, window_term := hwin, running := hrun
    descent := fun d hd => by cases hd }, keepsClosed_of_eq rfl rfl⟩

theorem holds_compressByte (b : Byte) :
    Holds w s ((encodeSymbolBits b s).finish fun t => { t with ctl := .compress }) := by
  obtain ⟨hopen, -⟩ := h.compress_units hc
  rcases encodeSymbolBits_cases b s with ⟨p, hp, he⟩ | ⟨-, he⟩ | ⟨q, he⟩
  · have hgo : bwWriteBits p s = .go (s.packed p) := by simpa [encodeSymbolBits, hp] using he
    rw [he]
    exact h.compress_packed hc (wf_of_bwWriteBits_go hopen h.bw_wf hgo).2
  · rw [he]
    exact holds_raiseError h _ _
  · rw [he]
    exact ⟨invAs_raiseError _ _ h.tree_wf h.cap_pos h.term_owned,
      keepsClosed_raiseError _ _ { s with diag := Spec.echo s q }⟩

end

/-- The data of a closing packer fits it, or CapacityExceeded(0) is raised (R281). -/
theorem length_finalData_le {cap : Nat} {b : Packer} (hwf : b.wf cap = true) (hroom : ¬(b.nbits ≠ 0 ∧ b.data.length = cap)) :
    (finalData b).length ≤ cap := by
  have hlen := (Packer.wf_iff.1 hwf).2.1
  unfold finalData
  split
  · exact hlen
  next h0 =>
    have hne : b.data.length ≠ cap := fun he => hroom ⟨h0, he⟩
    simp only [List.length_append, List.length_singleton]
    omega

/-- The start of an emission of the packer: from COMPRESS at its terminator, or by BW_CLOSE (R281). -/
theorem holds_bwCloseStart_compress (h : InvAs w s) (hc : s.ctl = .compress) (hterm : s.inTerm = true) :
    Holds w s (bwCloseStart true s) := by
  obtain ⟨hopen, -⟩ := h.compress_units hc
  obtain ⟨-, -, hacc⟩ := Packer.wf_iff.1 h.bw_wf
  have hout := h.out_owned
  have hin := h.in_owned
  have hunits := h.units
  have hrun := h.running
  have hwin := h.window_term
  rw [hc] at hout hin hunits hrun hwin
  unfold bwCloseStart
  split
  · exact holds_raiseError h _ _
  next hroom =>
    exact ⟨{ h with
      bw_wf := Packer.wf_iff.2
        ⟨fun hf => absurd (hopen.symm.trans hf) (by decide), length_finalData_le h.bw_wf hroom, hacc⟩
      out_owned := by simpa [hopen] using hout
      in_owned := hin, units := hunits, place := hterm, window_term := hwin, running := hrun
      descent := fun d hd => by cases hd }, keepsClosed_of_eq rfl rfl⟩

theorem holds_emitNext {b : Byte} {rest : List Byte} {k : EmitFor} (h : InvAs w s) (hc : s.ctl = .emit (b :: rest) k) :
    Holds w s { s with out := s.out ++ [.byte b], ctl := .emit rest k } := by
  have hout := h.out_owned
  have hin := h.in_owned
  have hunits := h.units
  have hplace := h.place
  have hrun := h.running
  have hwin := h.window_term
  rw [hc] at hout hin hunits hrun hwin
  exact ⟨{ h with
    out_owned := hout
    in_owned := by cases k <;> exact hin
    units := by cases k <;> exact hunits
    place := by cases k <;> simpa [placeOk, hc] using hplace
    window_term := hwin
    running := by cases k <;> exact hrun
    descent := fun d hd => by cases hd }, keepsClosed_of_owned (hout.trans (by simp [commandOwnsOut]))⟩

/-- The end of an emission: CLOSE, and the session's units are closed (R202, R244, R285). -/
theorem holds_emitEnd {rest : List Byte} {k : EmitFor} (h : InvAs w s) (hc : s.ctl = .emit rest k) (o : List OutToken) :
    Holds w s (emitEnd k { s with out := o }) := by
  have hout := h.out_owned
  have hin := h.in_owned
  have hunits := h.units
  have hwin := h.window_term
  rw [hc] at hout hin hunits hwin
  have howned : s.outOwned = true := hout.trans (by simp [commandOwnsOut])
  cases k with
  | save n =>
    have hbw : s.bw.isOpen = false := by simpa [unitsAt, fits] using hunits.1.symm
    rw [emitEnd, outClose_closed_form]
    exact ⟨{ h with
      out_owned := by simp [complete, commandOwnsOut, hbw]
      in_owned := hin, units := ⟨rfl, rfl⟩, place := rfl, window_term := hwin
      running := fun i hi => by cases hi
      descent := fun d hd => by cases hd }, fun _ _ => by simp [complete, howned]⟩
  | bwClose x =>
    rw [emitEnd, bwCloseEnd, outClose_closed_form]
    exact ⟨{ h with
      bw_wf := packer_closed_wf _
      out_owned := rfl, in_owned := hin, units := ⟨rfl, rfl⟩, place := rfl, window_term := hwin
      running := fun i hi => by cases hi
      descent := fun d hd => by cases hd }, fun _ _ => by simp [complete, howned]⟩
  | compress n =>
    have hbr : s.br.isOpen = false := by simpa [unitsAt, fits] using hunits.2.symm
    have hown : s.inOwned = true := by simpa [commandOwnsIn] using hin
    rw [emitEnd, bwCloseEnd, outClose_closed_form, inRelease, if_pos (by exact hown)]
    exact ⟨{ h with
      bw_wf := packer_closed_wf _
      out_owned := rfl
      in_owned := by simp [complete, commandOwnsIn, hbr]
      units := ⟨rfl, rfl⟩, place := rfl
      term_owned := fun hf => by cases hf
      drain_free := fun _ => rfl
      window_term := fun hb => absurd (hbr.symm.trans hb) (by decide)
      running := fun i hi => by cases hi
      descent := fun d hd => by cases hd }, fun _ _ => by simp [complete, howned]⟩

theorem holds_tickEmit {rest : List Byte} {k : EmitFor} (h : InvAs w s) (hc : s.ctl = .emit rest k) :
    Holds w s (tickEmit rest k s) := by
  rcases tickEmit_cases rest k s with ⟨-, ht⟩ | ⟨b, r, hr, -, -, ht⟩ | ⟨-, -, ht⟩ <;> rw [ht]
  · exact holds_emitEnd h hc _
  · exact holds_emitNext h (hc.trans (by rw [hr]))
  · exact holds_raiseError h _ _

/-! ### After an InRead -/

theorem openedEmpty_wf : openedEmpty.wf = true := by decide

theorem openedWith_wf {p : Fin 8} {c x : Option Byte} (h : c = none → x = none) : (openedWith p c x).wf = true :=
  Unpacker.wf_iff.2 ⟨fun hf => (by cases hf), fun hf => (by cases hf), fun hc => ⟨h hc, rfl⟩⟩

/-- BrOpen at its next InRead (R310). -/
theorem InvAs.brOpen_next {k : BrOpenFor} {p : Fin 8} (h : InvAs w s)
    (hc : s.ctl = .header k ∨ s.ctl = .fillCur k p) {c : Ctl}
    (hnext : c = .fillCur k p ∨ ∃ x, c = .fillNxt k p x ∧ (x.isSome || s.inTerm) = true) :
    Holds w s { s with ctl := c } := by
  refine ⟨h.move c ?_ ?_ ?_ ?_ ?_ ?_ ?_, keepsClosed_of_eq rfl rfl⟩
  case refine_4 =>
    rcases hnext with rfl | ⟨x, rfl, hx⟩
    · rfl
    · exact hx
  case refine_5 => rcases hc with hc | hc <;> rw [hc] <;> exact fun hf => by cases hf
  case refine_7 => rcases hnext with rfl | ⟨x, rfl, -⟩ <;> exact fun d hd => by cases hd
  all_goals
    rcases hc with hc | hc <;> rw [hc] <;> rcases hnext with rfl | ⟨x, rfl, -⟩ <;> cases k <;> rfl

theorem holds_atEof (h : InvAs w s) (hr : atInRead s.ctl = true) (hterm : s.inTerm = true) :
    Holds w s (atEof s.ctl s) := by
  cases hc : s.ctl <;> simp only [hc, atInRead, Bool.false_eq_true] at hr
  case load l =>
    rw [atEof]
    split
    · exact holds_loadEnd h hc
    · exact holds_loadLine h hc
  case header k =>
    exact holds_brOpened h (.inl hc) _ rfl openedEmpty_wf (by simp [openedEmpty, hterm])
  case fillCur k p => exact h.brOpen_next (.inr hc) (.inr ⟨none, rfl, by simpa using hterm⟩)
  case fillNxt k p c =>
    exact holds_brOpened h (.inr ⟨p, c, hc⟩) _ rfl (openedWith_wf fun _ => rfl) (by simp [openedWith, hterm])
  case refill b k => exact holds_refilled h hc (by simp [hterm])
  case compress => exact holds_bwCloseStart_compress h hc hterm

theorem holds_atByte (h : InvAs w s) (hr : atInRead s.ctl = true) (hterm : s.inTerm = false) (b : Byte) :
    Holds w s (atByte s.ctl b s) := by
  have hplace := h.place
  cases hc : s.ctl <;> simp only [hc, atInRead, Bool.false_eq_true] at hr
  case load l =>
    rw [atByte]
    split
    · exact holds_loadLine h hc
    · exact h.load_next hc (h.load_trees hc).2
  case header k =>
    rw [atByte]
    split
    · exact holds_raiseError h _ _
    · exact h.brOpen_next (.inl hc) (.inl rfl)
  case fillCur k p => exact h.brOpen_next (.inr hc) (.inr ⟨some b, rfl, rfl⟩)
  case fillNxt k p c =>
    have hcur : c.isSome = true := by simpa [placeOk, hc, hterm] using hplace
    exact holds_brOpened h (.inr ⟨p, c, hc⟩) _ rfl
      (openedWith_wf fun hn => by simp [hn] at hcur) (by simp [openedWith, hterm])
  case refill x k => exact holds_refilled h hc (by simp [hterm])
  case compress => exact holds_compressByte h hc b

/-! ### An engine step, and a turn -/

theorem holds_tick {t : State} (h : InvAs w s) (ht : tick s = some t) : Holds w s t := by
  by_cases hr : atInRead s.ctl = true
  · rcases tick_atInRead_cases hr ht with ⟨hi, rfl⟩ | ⟨q, -, -, rfl⟩ | ⟨b, q, hi, -, rfl⟩ | ⟨q, -, -, rfl⟩
    · exact holds_atEof h hr hi
    · exact holds_atEof (invAs_inTerm h hr q) hr rfl
    · exact holds_atByte (invAs_inQ h q) hr hi b
    · exact holds_raiseError (invAs_inTerm h hr q) _ _
  · unfold tick at ht
    cases hc : s.ctl <;> simp only [hc, Option.some.injEq, reduceCtorEq, atInRead, not_true_eq_false] at ht hr
    case openIn k =>
      unfold tickOpenIn at ht
      split at ht
      next hdrain => exact holds_drainStep h hc hdrain ht
      next hdrain =>
        cases ht
        exact holds_afterInOpen h hc (by simpa using hdrain)
    case decode d m => exact ht ▸ holds_tickDecode h hc
    case symbols n => exact ht ▸ holds_tickSymbols h hc
    case putSymbol v n => exact ht ▸ holds_putSymbol h hc
    case emit rest k => exact ht ▸ holds_tickEmit h hc

theorem holds_advance (h : InvAs w s) : Holds w s (advance s) := by
  refine advance_keeps (P := Holds w s) (fun t u ht htick => ?_) ⟨h, keepsClosed_of_eq rfl rfl⟩
  obtain ⟨hinv, hclosed⟩ := ht
  obtain ⟨hinv', hclosed'⟩ := holds_tick hinv htick
  exact ⟨hinv', hclosed.trans hclosed'⟩

end

end Sys2Proof.Machine
end

section
/-! PROOFS. The priority structure of TREE_BUILD (spec 41_tree_build.md R160, R161): the ordered queue, its exact sums, and the
same merges over a queue in any order. -/

namespace Sys2Proof.Machine

/-! ### The ordered queue -/

/-- An entry with its numbers as natural numbers. -/
def Entry.exact (e : Entry) : Spec.QEntry := ⟨e.freq.toNat, e.seq.toNat, e.subtree⟩

theorem Entry.lower_eq (a b : Entry) : a.lower b = a.exact.lower b.exact := by
  rw [Bool.eq_iff_iff, Spec.QEntry.lower, decide_eq_true_eq]
  simp [Entry.lower, Entry.exact, BitVec.lt_def, ← BitVec.toNat_inj]

/-- The queue is kept with its lowest entry first. -/
def Sorted (q : List Entry) : Prop := q.Pairwise fun a b => a.lower b = true

theorem Entry.lower_trans {a b c : Entry} (hab : a.lower b = true) (hbc : b.lower c = true) : a.lower c = true := by
  simp only [Entry.lower_eq, Spec.QEntry.lower, decide_eq_true_eq] at *
  omega

/-- Of two entries with different sequence numbers one is lower. -/
theorem Entry.lower_of_not_lower {a b : Entry} (hseq : a.seq ≠ b.seq) (h : ¬a.lower b = true) : b.lower a = true := by
  have hne : a.exact.seq ≠ b.exact.seq := fun he => hseq (BitVec.toNat_inj.1 he)
  simp only [Entry.lower_eq, Spec.QEntry.lower, decide_eq_true_eq] at *
  omega

theorem Entry.insert_perm (e : Entry) (q : List Entry) : (e.insert q).Perm (e :: q) := by
  induction q with
  | nil => exact .refl _
  | cons x q ih =>
    rw [Entry.insert]
    split
    · exact .refl _
    · exact (ih.cons x).trans (.swap e x q)

theorem Sorted.insert {e : Entry} {q : List Entry} (h : Sorted q) (hseq : ∀ x ∈ q, e.seq ≠ x.seq) :
    Sorted (e.insert q) := by
  induction q with
  | nil => exact List.pairwise_singleton _ _
  | cons x q ih =>
    obtain ⟨hx, hq⟩ := List.pairwise_cons.1 h
    obtain ⟨hex, heq⟩ := List.forall_mem_cons.1 hseq
    rw [Entry.insert]
    split
    next hlow =>
      exact List.pairwise_cons.2 ⟨List.forall_mem_cons.2 ⟨hlow, fun y hy => Entry.lower_trans hlow (hx y hy)⟩, h⟩
    next hlow =>
      refine List.pairwise_cons.2 ⟨fun y hy => ?_, ih hq heq⟩
      rcases List.mem_cons.1 ((e.insert_perm q).mem_iff.1 hy) with rfl | hy
      · exact Entry.lower_of_not_lower hex hlow
      · exact hx y hy

/-- The inserts of a list of entries with different sequence numbers. -/
theorem foldl_insert {es q : List Entry} (h : Sorted q) (hseq : ((es ++ q).map Entry.seq).Nodup) :
    Sorted (es.foldl (fun q e => e.insert q) q) ∧ (es.foldl (fun q e => e.insert q) q).Perm (es ++ q) := by
  induction es generalizing q with
  | nil => exact ⟨h, .refl _⟩
  | cons e es ih =>
    have hperm : (es ++ e.insert q).Perm (e :: es ++ q) :=
      ((e.insert_perm q).append_left es).trans List.perm_middle
    have hne : ∀ x ∈ q, e.seq ≠ x.seq := fun x hx he => by
      rw [List.cons_append, List.map_cons, List.nodup_cons] at hseq
      exact hseq.1 (List.mem_map.2 ⟨x, List.mem_append_right _ hx, he.symm⟩)
    obtain ⟨hsorted, hfold⟩ := ih (h.insert hne) ((hperm.map _).nodup_iff.2 hseq)
    exact ⟨hsorted, hfold.trans hperm⟩

/-! ### The seeds -/

theorem nodup_symbols : symbols.Nodup := by
  refine List.Nodup.map_on (fun x hx y hy h => ?_) List.nodup_range
  have h := congrArg BitVec.toNat h
  rw [List.mem_range] at hx hy
  simpa [Nat.mod_eq_of_lt hx, Nat.mod_eq_of_lt hy] using h

theorem mem_symbols (v : Byte) : v ∈ symbols :=
  List.mem_map.2 ⟨v.toNat, List.mem_range.2 v.isLt, by simp⟩

theorem mem_presentSymbols {f : Vector Word 256} {v : Byte} : v ∈ presentSymbols f ↔ freqAt f v ≠ 0 := by
  simp [presentSymbols, mem_symbols]

theorem nodup_presentSymbols (f : Vector Word 256) : (presentSymbols f).Nodup := nodup_symbols.filter _

theorem length_presentSymbols_le (f : Vector Word 256) : (presentSymbols f).length ≤ 256 :=
  (List.length_filter_le _ _).trans (by simp [symbols])

theorem seedEntry_exact (f : Vector Word 256) (v : Byte) :
    (seedEntry f v).exact = ⟨(freqAt f v).toNat, v.toNat, .leaf v⟩ := by
  have hf := (freqAt f v).isLt
  have hv := v.isLt
  simp only [seedEntry, Entry.exact, BitVec.zeroExtend_eq_setWidth, BitVec.toNat_setWidth]
  rw [Nat.mod_eq_of_lt (by omega), Nat.mod_eq_of_lt (by omega)]

theorem seedQueue_spec (f : Vector Word 256) :
    Sorted (seedQueue f) ∧ (seedQueue f).Perm ((presentSymbols f).map (seedEntry f)) := by
  have hnodup : (((presentSymbols f).map (seedEntry f) ++ []).map Entry.seq).Nodup := by
    rw [List.append_nil, List.map_map]
    refine (nodup_presentSymbols f).map_on fun u _ v _ h => ?_
    have hval : (seedEntry f u).exact.seq = (seedEntry f v).exact.seq := congrArg BitVec.toNat h
    rw [seedEntry_exact, seedEntry_exact] at hval
    exact BitVec.toNat_inj.1 hval
  have hfold := foldl_insert (q := []) List.Pairwise.nil hnodup
  rw [List.append_nil, List.foldl_map] at hfold
  exact hfold

theorem length_seedQueue (f : Vector Word 256) : (seedQueue f).length = (presentSymbols f).length := by
  rw [(seedQueue_spec f).2.length_eq, List.length_map]

/-- Settles O20: the queue has one entry for each nonzero counter. -/
theorem treeBuildCompletes : Obligations.TreeBuildCompletes := by
  intro s herr hbw hbr
  have hcount : (seedQueue s.freq).length = symbols.countP fun v => freqAt s.freq v ≠ 0 := by
    rw [length_seedQueue, presentSymbols, ← List.countP_eq_length_filter]
  rw [exec, execTreeBuild, command_run herr (by simp [admits, hbw, hbr]), hcount]
  rfl

/-! ### The merges -/

/-- Before the `k`-th merge: the queue is ordered, its sequence numbers were given out, and no sum can wrap (R160). -/
structure QueueOk (k : Nat) (q : List Entry) : Prop where
  sorted : Sorted q
  seq_lt : ∀ e ∈ q, e.exact.seq < 256 + k
  count : k + q.length ≤ 256
  sum_lt : (q.map fun e => e.exact.freq).sum < 2 ^ 40

theorem queueOk_seedQueue (f : Vector Word 256) : QueueOk 0 (seedQueue f) := by
  obtain ⟨hsorted, hperm⟩ := seedQueue_spec f
  refine ⟨hsorted, fun e he => ?_, ?_, ?_⟩
  · obtain ⟨v, -, rfl⟩ := List.mem_map.1 (hperm.mem_iff.1 he)
    rw [seedEntry_exact]
    exact v.isLt
  · rw [Nat.zero_add, length_seedQueue]
    exact length_presentSymbols_le f
  · have hsum : ((seedQueue f).map fun e => e.exact.freq).sum ≤ (seedQueue f).length * (2 ^ 32 - 1) := by
      rw [← List.length_map fun e : Entry => e.exact.freq]
      refine List.sum_le_card_nsmul _ _ fun n hn => ?_
      obtain ⟨e, he, rfl⟩ := List.mem_map.1 hn
      obtain ⟨v, -, rfl⟩ := List.mem_map.1 (hperm.mem_iff.1 he)
      rw [seedEntry_exact]
      exact Nat.le_sub_one_of_lt (freqAt f v).isLt
    have hlen := length_presentSymbols_le f
    rw [length_seedQueue] at hsum
    have := Nat.mul_le_mul_right (2 ^ 32 - 1) hlen
    omega

section
variable {k : Nat} {a b : Entry} {q : List Entry} (h : QueueOk k (a :: b :: q))
include h

/-- The merge of the two lowest entries, with exact numbers (R161). -/
theorem QueueOk.mergeEntry_exact : (mergeEntry k a b).exact = Spec.merged k a.exact b.exact := by
  have hsum := h.sum_lt
  have hcount := h.count
  simp only [List.map_cons, List.sum_cons, Entry.exact, List.length_cons] at hsum hcount
  simp only [mergeEntry, Entry.exact, Spec.merged, BitVec.toNat_add, BitVec.toNat_ofNat]
  rw [Nat.mod_eq_of_lt (by omega), Nat.mod_eq_of_lt (by omega)]

theorem QueueOk.merge : QueueOk (k + 1) ((mergeEntry k a b).insert q) := by
  have hexact := h.mergeEntry_exact
  have hperm := (mergeEntry k a b).insert_perm q
  have hcount := h.count
  have hsum := h.sum_lt
  have hlow : ∀ e ∈ q, e.exact.seq < 256 + k := fun e he => h.seq_lt e (by simp [he])
  have hseq : (mergeEntry k a b).exact.seq = 256 + k := by rw [hexact]; rfl
  have hq : Sorted q := List.Pairwise.of_cons (List.Pairwise.of_cons h.sorted)
  refine ⟨hq.insert fun x hx he => ?_, fun e he => ?_, ?_, ?_⟩
  · have hval : (mergeEntry k a b).exact.seq = x.exact.seq := congrArg BitVec.toNat he
    have := hlow x hx
    omega
  · rcases List.mem_cons.1 (hperm.mem_iff.1 he) with rfl | he
    · omega
    · have := hlow e he
      omega
  · rw [hperm.length_eq]
    simp only [List.length_cons] at hcount ⊢
    omega
  · rw [(hperm.map _).sum_eq, List.map_cons, List.sum_cons, hexact]
    simp only [List.map_cons, List.sum_cons] at hsum
    simp only [Spec.merged]
    omega

end

/-! ### A queue in any order -/

theorem lower_asymm {a b : Spec.QEntry} (h : a.lower b = true) : b.lower a = false := by
  simp only [Spec.QEntry.lower, decide_eq_true_eq, decide_eq_false_iff_not] at *
  omega

/-- The search finds the entry that is lower than all others. -/
theorem lowestOf_eq {m e : Spec.QEntry} {l : List Spec.QEntry} (hm : m ∈ e :: l)
    (hlow : ∀ x ∈ e :: l, x = m ∨ m.lower x = true) : Spec.lowestOf e l = m := by
  induction l generalizing e with
  | nil => exact (List.mem_singleton.1 hm).symm
  | cons x l ih =>
    have he := hlow e (by simp)
    have hx := hlow x (by simp)
    refine ih ?_ ?_
    · rcases List.mem_cons.1 hm with rfl | hm'
      · have : x.lower m = false ∨ x = m := hx.symm.imp_left lower_asymm
        rcases this with hf | rfl
        · simp [hf]
        · split <;> simp
      · rcases List.mem_cons.1 hm' with rfl | hm'
        · rcases he with rfl | he
          · split <;> simp
          · simp [he]
        · exact List.mem_cons_of_mem _ hm'
    · intro y hy
      rcases List.mem_cons.1 hy with rfl | hy
      · split
        · exact hx
        · exact he
      · exact hlow y (by simp [hy])

theorem Entry.exact_injective : Function.Injective Entry.exact := fun a b h => by
  cases a
  cases b
  simpa [Entry.exact, BitVec.toNat_inj] using h

/-- `remove-min` of any arrangement of an ordered queue takes its first entry. -/
theorem removeMin_of_perm {e : Entry} {q : List Entry} {q' : List Spec.QEntry} (hs : Sorted (e :: q))
    (hp : q'.Perm ((e :: q).map Entry.exact)) :
    ∃ r, Spec.removeMin q' = some (e.exact, r) ∧ r.Perm (q.map Entry.exact) := by
  cases q' with
  | nil => exact absurd hp.length_eq (by simp)
  | cons x l =>
    have hmem : e.exact ∈ x :: l := hp.mem_iff.2 (by simp)
    have hlow : ∀ y ∈ x :: l, y = e.exact ∨ e.exact.lower y = true := fun y hy => by
      obtain ⟨z, hz, rfl⟩ := List.mem_map.1 (hp.mem_iff.1 hy)
      rcases List.mem_cons.1 hz with rfl | hz
      · exact .inl rfl
      · exact .inr (by rw [← Entry.lower_eq]; exact (List.pairwise_cons.1 hs).1 z hz)
    refine ⟨_, by rw [Spec.removeMin, lowestOf_eq hmem hlow], ?_⟩
    have herase := hp.erase e.exact
    rwa [List.map_cons, List.erase_cons_head] at herase

/-- With at most one entry there is nothing to merge. -/
theorem mergeLoop_of_length_le_one {q : List Entry} (h : q.length ≤ 1) (fuel k : Nat) : mergeLoop fuel k q = q := by
  match q, h with
  | [], _ => cases fuel <;> rfl
  | [e], _ => cases fuel <;> rfl

theorem mergeAny_of_length_le_one {q : List Spec.QEntry} (h : q.length ≤ 1) (n k : Nat) : Spec.mergeAny n k q = q := by
  match q, h with
  | [], _ => cases n <;> rfl
  | [e], _ => cases n <;> simp [Spec.mergeAny, Spec.removeMin, Spec.lowestOf]

/-- The two merge loops go through the same merges (R161). -/
theorem mergeAny_eq {fuel n k : Nat} {q : List Entry} {q' : List Spec.QEntry} (h : QueueOk k q)
    (hp : q'.Perm (q.map Entry.exact)) (hfuel : q.length ≤ fuel + 1) (hn : q.length ≤ n + 1) :
    Spec.mergeAny n k q' = (mergeLoop fuel k q).map Entry.exact := by
  by_cases hshort : q.length ≤ 1
  · have hshort' : q'.length ≤ 1 := by rw [hp.length_eq, List.length_map]; exact hshort
    rw [mergeLoop_of_length_le_one hshort, mergeAny_of_length_le_one hshort']
    match q', hp, hshort' with
    | [], hp, _ => exact List.nil_perm.1 hp |>.symm
    | [x], hp, _ => exact List.singleton_perm.1 hp
  · match q, fuel, n, h, hp, hfuel, hn, hshort with
    | [], _, _, _, _, _, _, hshort => exact absurd (by simp) hshort
    | [e], _, _, _, _, _, _, hshort => exact absurd (by simp) hshort
    | a :: b :: q, fuel + 1, n + 1, h, hp, hfuel, hn, _ =>
      obtain ⟨q1, hmin1, hp1⟩ := removeMin_of_perm h.sorted hp
      obtain ⟨q2, hmin2, hp2⟩ := removeMin_of_perm (List.Pairwise.of_cons h.sorted) hp1
      have hinsert := (mergeEntry k a b).insert_perm q
      have hnew : (q2 ++ [Spec.merged k a.exact b.exact]).Perm (((mergeEntry k a b).insert q).map Entry.exact) := by
        refine .trans ?_ (hinsert.map Entry.exact).symm
        rw [List.map_cons, h.mergeEntry_exact]
        exact (List.perm_append_singleton _ _).trans (hp2.cons _)
      have hlen := hinsert.length_eq
      simp only [List.length_cons] at hlen hfuel hn
      simp only [Spec.mergeAny, hmin1, hmin2, mergeLoop]
      exact mergeAny_eq h.merge hnew (by omega) (by omega)

/-- Settles O21: the ordered queue with bounded numbers and the unordered one with exact numbers go through the same
merges, as no number wraps. -/
theorem buildTreeIsTheMergeOfAnyQueue : Obligations.BuildTreeIsTheMergeOfAnyQueue := by
  intro f
  have hseeds : (Spec.seeds f).Perm ((seedQueue f).map Entry.exact) := by
    refine .trans (.of_eq ?_) ((seedQueue_spec f).2.map Entry.exact).symm
    rw [List.map_map]
    exact List.map_congr_left fun v _ => (seedEntry_exact f v).symm
  have hlen := length_seedQueue f
  have hle := length_presentSymbols_le f
  have hmerge := mergeAny_eq (fuel := (seedQueue f).length) (n := 255) (queueOk_seedQueue f) hseeds (by omega) (by omega)
  rw [buildTree, Spec.treeAny, hmerge]
  cases mergeLoop (seedQueue f).length 0 (seedQueue f) with
  | nil => rfl
  | cons e q => cases h : e.subtree <;> simp [Entry.exact, h, Node.asTree]

end Sys2Proof.Machine
end

section
/-! PROOFS. The merges of TREE_BUILD as an inductive relation on weighted subtrees (spec 41_tree_build.md R161), and what they
keep: the symbols, and that every INTERNAL node has both children. -/

namespace Sys2Proof.Machine

/-- From weighted subtrees in any order, the two lightest are merged until the subtree `n` is the last one (R161). -/
inductive Huffman : List (Nat × Node) → Node → Prop where
  | last (w : Nat) (n : Node) : Huffman [(w, n)] n
  | merge {q rest : List (Nat × Node)} {a b : Nat × Node} {n : Node} (two : q.Perm (a :: b :: rest))
      (first : ∀ x ∈ b :: rest, a.1 ≤ x.1) (second : ∀ x ∈ rest, b.1 ≤ x.1)
      (next : Huffman ((a.1 + b.1, .internal a.2 b.2) :: rest) n) : Huffman q n

theorem Huffman.of_perm {q q' : List (Nat × Node)} {n : Node} (h : Huffman q n) (hp : q'.Perm q) : Huffman q' n := by
  cases h with
  | last w n => rw [List.perm_singleton.1 hp]; exact .last w n
  | merge two first second next => exact .merge (hp.trans two) first second next

/-- The weight and the subtree of an entry of the queue. -/
def Entry.weighted (e : Entry) : Nat × Node := (e.exact.freq, e.subtree)

theorem Entry.weight_le_of_lower {a b : Entry} (h : a.lower b = true) : a.weighted.1 ≤ b.weighted.1 := by
  simp only [Entry.lower_eq, Spec.QEntry.lower, decide_eq_true_eq] at h
  simp only [Entry.weighted]
  omega

/-- The merge loop over the ordered queue is such a sequence of merges. -/
theorem huffman_mergeLoop {fuel k : Nat} {q : List Entry} (h : QueueOk k q) (hne : q ≠ []) (hfuel : q.length ≤ fuel + 1) :
    ∃ e, mergeLoop fuel k q = [e] ∧ Huffman (q.map Entry.weighted) e.subtree := by
  match q, fuel, h, hfuel with
  | [], _, _, _ => exact absurd rfl hne
  | [e], _, _, _ => exact ⟨e, mergeLoop_of_length_le_one (by simp) _ _, .last _ _⟩
  | a :: b :: q, fuel + 1, h, hfuel =>
    have hinsert := (mergeEntry k a b).insert_perm q
    have hlen := hinsert.length_eq
    simp only [List.length_cons] at hlen hfuel
    obtain ⟨e, hloop, hmerges⟩ := huffman_mergeLoop (fuel := fuel) h.merge
      (List.length_pos_iff.1 (by omega)) (by omega)
    obtain ⟨ha, hbq⟩ := List.pairwise_cons.1 h.sorted
    obtain ⟨hb, -⟩ := List.pairwise_cons.1 hbq
    refine ⟨e, hloop, .merge (a := a.weighted) (b := b.weighted) (rest := q.map Entry.weighted) (.refl _) ?_ ?_ ?_⟩
    · intro x hx
      obtain ⟨y, hy, rfl⟩ := List.mem_map.1 (List.map_cons ▸ hx)
      exact Entry.weight_le_of_lower (ha y hy)
    · intro x hx
      obtain ⟨y, hy, rfl⟩ := List.mem_map.1 hx
      exact Entry.weight_le_of_lower (hb y hy)
    · have hmerged : (mergeEntry k a b).weighted = (a.weighted.1 + b.weighted.1, .internal a.weighted.2 b.weighted.2) := by
        rw [Entry.weighted, h.mergeEntry_exact]
        rfl
      have hperm := (hinsert.map Entry.weighted).symm
      rw [List.map_cons, hmerged] at hperm
      exact hmerges.of_perm hperm

/-! ### What the merges keep -/

/-- The symbols of the leaves below a node, left before right. -/
def Node.symbols (n : Node) : List Byte := (n.leaves []).map Prod.fst

theorem Node.symbols_internal (l r : Node) : (Node.internal l r).symbols = l.symbols ++ r.symbols := by
  simp [Node.symbols, Node.leaves_internal, underBit, Function.comp_def]

section
variable {q : List (Nat × Node)} {n : Node} (h : Huffman q n)
include h

theorem Huffman.strict (hq : ∀ x ∈ q, Spec.strict x.2 = true) : Spec.strict n = true := by
  induction h with
  | last w n => exact hq _ (List.mem_singleton_self _)
  | merge two _ _ _ ih =>
    simp only [two.mem_iff] at hq
    obtain ⟨ha, hb, hrest⟩ := by simpa only [List.forall_mem_cons] using hq
    exact ih (List.forall_mem_cons.2 ⟨by rw [Spec.strict, ha, hb]; rfl, hrest⟩)

theorem Huffman.symbols_perm : n.symbols.Perm (q.flatMap fun x => x.2.symbols) := by
  induction h with
  | last w n => simp
  | merge two _ _ _ ih =>
    refine ih.trans (.trans (.of_eq ?_) (two.flatMap_right _).symm)
    simp [Node.symbols_internal]

/-- The last of two or more subtrees was merged. -/
theorem Huffman.internal_of_two (htwo : 2 ≤ q.length ∨ ∀ x ∈ q, ∃ l r, x.2 = .internal l r) :
    ∃ l r, n = .internal l r := by
  induction h with
  | last w n => exact htwo.elim (fun h2 => absurd h2 (by simp)) fun hall => hall _ (List.mem_singleton_self _)
  | @merge q rest a b n two _ _ _ ih =>
    refine ih ?_
    cases rest with
    | nil => exact .inr (by simp)
    | cons x rest => exact .inl (by simp)

end

theorem Node.leaves_ne_nil_of_strict {n : Node} (h : Spec.strict n = true) : n.leaves [] ≠ [] := by
  induction n with
  | absent => cases h
  | leaf v => simp [Node.leaves]
  | internal l r ihl _ =>
    rw [Spec.strict, Bool.and_eq_true] at h
    simp [Node.leaves_internal, ihl h.1]

/-- A node with both children at every INTERNAL node has more leaves than its depth. -/
theorem Node.length_lt_of_strict {n : Node} (h : Spec.strict n = true) {x : Byte × List Bool} (hx : x ∈ n.leaves []) :
    x.2.length < (n.leaves []).length := by
  induction n generalizing x with
  | absent => cases h
  | leaf v =>
    rw [Node.leaves, List.mem_singleton] at hx
    simp [hx, Node.leaves]
  | internal l r ihl ihr =>
    rw [Spec.strict, Bool.and_eq_true] at h
    have hl := List.length_pos_iff.2 (Node.leaves_ne_nil_of_strict h.1)
    have hr := List.length_pos_iff.2 (Node.leaves_ne_nil_of_strict h.2)
    simp only [Node.leaves_internal, List.mem_append, List.mem_map, List.length_append, List.length_map] at hx ⊢
    rcases hx with ⟨y, hy, rfl⟩ | ⟨y, hy, rfl⟩
    · have := ihl h.1 hy
      simp only [underBit, List.length_cons]
      omega
    · have := ihr h.2 hy
      simp only [underBit, List.length_cons]
      omega

theorem Node.full_of_strict {n : Node} (h : Spec.strict n = true) : n.full = true := by
  induction n with
  | absent => cases h
  | leaf v => rfl
  | internal l r ihl ihr =>
    rw [Spec.strict, Bool.and_eq_true] at h
    refine Node.full_internal_iff.2 ⟨.inl fun he => ?_, ihl h.1, ihr h.2⟩
    rw [he] at h
    exact absurd h.1 (by decide)

end Sys2Proof.Machine
end

section
/-! PROOFS. The tree that TREE_BUILD makes: its shape and its codes (spec 10_state.md R36, R39, 41_tree_build.md R161, R162). -/

namespace Sys2Proof.Machine

/-- The weighted leaves that the queue is seeded with (R161). -/
def seedNodes (f : Vector Word 256) : List (Nat × Node) :=
  (presentSymbols f).map fun v => ((freqAt f v).toNat, .leaf v)

/-- TREE_BUILD gives EMPTY without symbols, and else the tree of a sequence of merges of the seeds. -/
theorem buildTree_cases (f : Vector Word 256) : (presentSymbols f = [] ∧ buildTree f = .empty) ∨
    ∃ n, Huffman (seedNodes f) n ∧ buildTree f = n.asTree := by
  have hlen := length_seedQueue f
  unfold buildTree
  by_cases h : seedQueue f = []
  · refine .inl ⟨List.length_eq_zero_iff.1 (by rw [← hlen, h]; rfl), ?_⟩
    rw [h]
    rfl
  · obtain ⟨e, hloop, hmerges⟩ := huffman_mergeLoop (queueOk_seedQueue f) h (Nat.le_succ (seedQueue f).length)
    refine .inr ⟨e.subtree, hmerges.of_perm ?_, by rw [hloop]⟩
    refine .trans (.of_eq ?_) ((seedQueue_spec f).2.map Entry.weighted).symm
    rw [List.map_map]
    refine List.map_congr_left fun v _ => ?_
    rw [Function.comp_apply, Entry.weighted, seedEntry_exact]
    rfl

theorem Huffman.strict_of_seeds {f : Vector Word 256} {n : Node} (h : Huffman (seedNodes f) n) :
    Spec.strict n = true := by
  refine h.strict fun x hx => ?_
  obtain ⟨v, -, rfl⟩ := List.mem_map.1 hx
  rfl

theorem Huffman.symbols_of_seeds {f : Vector Word 256} {n : Node} (h : Huffman (seedNodes f) n) :
    n.symbols.Perm (presentSymbols f) := by
  refine h.symbols_perm.trans (.of_eq ?_)
  rw [seedNodes, List.flatMap_map]
  exact List.flatMap_singleton' _

/-- Settles O22: the last of two or more subtrees was merged, and merges keep that every INTERNAL node has both children. -/
theorem builtTreeShape : Obligations.BuiltTreeShape := by
  intro f
  rcases buildTree_cases f with ⟨hnone, hempty⟩ | ⟨n, hmerges, htree⟩
  · refine ⟨fun _ => hempty, fun v hv => ?_, fun htwo => ?_⟩
    · simp [hnone] at hv
    · simp [hnone] at htwo
  · have hperm := hmerges.symbols_of_seeds
    have hstrict := hmerges.strict_of_seeds
    refine ⟨fun hnone => ?_, fun v hv => ?_, fun htwo => ?_⟩
    · rw [hnone, List.perm_nil, Node.symbols, List.map_eq_nil_iff] at hperm
      exact absurd hperm (Node.leaves_ne_nil_of_strict hstrict)
    · have hseeds : seedNodes f = [((freqAt f v).toNat, .leaf v)] := by rw [seedNodes, hv]; rfl
      rw [hseeds] at hmerges
      cases hmerges with
      | last w n => exact htree
      | merge two => exact absurd two.length_eq (by simp)
    · obtain ⟨l, r, rfl⟩ := hmerges.internal_of_two (.inl (by simpa [seedNodes] using htwo))
      rw [Spec.strict, Bool.and_eq_true] at hstrict
      exact ⟨l, r, htree, hstrict⟩

/-! ### The codes -/

/-- The leaves of the tree of a node are its symbols, at the node's own paths, or "0" for the wrap of a single leaf. -/
theorem symbols_asTree (n : Node) : n.asTree.leaves.map Prod.fst = n.symbols := by
  cases n with
  | absent => rfl
  | leaf v => rfl
  | internal l r => exact congrArg _ (Tree.node_leaves (.root l r)).symm

theorem symbols_buildTree (f : Vector Word 256) : ((buildTree f).leaves.map Prod.fst).Perm (presentSymbols f) := by
  rcases buildTree_cases f with ⟨hnone, hempty⟩ | ⟨n, hmerges, htree⟩
  · rw [hempty, hnone]
    rfl
  · rw [htree, symbols_asTree]
    exact hmerges.symbols_of_seeds

theorem length_le_of_mem_leaves_asTree {n : Node} (h : Spec.strict n = true) {x : Byte × List Bool}
    (hx : x ∈ n.asTree.leaves) : x.2.length ≤ max 1 (n.symbols.length - 1) := by
  cases n with
  | absent => cases h
  | leaf v =>
    have hx : x ∈ [(v, [false])] := hx
    rw [List.mem_singleton.1 hx]
    simp
  | internal l r =>
    have hlt := Node.length_lt_of_strict h (x := x) (by rw [← Tree.node_leaves] at hx; exact hx)
    rw [Node.symbols, List.length_map]
    omega

theorem full_node_asTree {n : Node} (h : Spec.strict n = true) : n.asTree.node.full = true := by
  cases n with
  | absent => cases h
  | leaf v => rfl
  | internal l r => exact Node.full_of_strict h

/-- A built tree is well formed (R36, R162). -/
theorem buildTree_wf (f : Vector Word 256) : (buildTree f).wf = true := by
  have hnodup := (symbols_buildTree f).nodup_iff.2 (nodup_presentSymbols f)
  refine Tree.wf_iff.2 ⟨?_, fun x hx y hy => List.inj_on_of_nodup_map hnodup hx hy, fun x hx => ?_⟩
  · rcases buildTree_cases f with ⟨-, hempty⟩ | ⟨n, hmerges, htree⟩
    · rw [hempty]
      rfl
    · rw [htree]
      exact full_node_asTree hmerges.strict_of_seeds
  · rcases buildTree_cases f with ⟨-, hempty⟩ | ⟨n, hmerges, htree⟩
    · rw [hempty] at hx
      cases hx
    · rw [htree] at hx
      have hle := length_le_of_mem_leaves_asTree hmerges.strict_of_seeds hx
      have hsymbols := length_presentSymbols_le f
      rw [hmerges.symbols_of_seeds.length_eq] at hle
      simp only [Config.maxCodeLen]
      omega

theorem length_leaves_buildTree (f : Vector Word 256) : (buildTree f).leaves.length = (presentSymbols f).length := by
  rw [← (symbols_buildTree f).length_eq, List.length_map]

theorem code_buildTree_ne_none_iff (f : Vector Word 256) (v : Byte) : (buildTree f).code v ≠ none ↔ freqAt f v ≠ 0 := by
  rw [← mem_presentSymbols, ← (symbols_buildTree f).mem_iff, Ne, Tree.code_eq_none_iff, List.mem_map]
  simp only [not_forall, not_not]
  constructor
  · rintro ⟨x, hx, hv⟩
    exact ⟨x, hx, hv.symm⟩
  · rintro ⟨x, hx, hv⟩
    exact ⟨x, hx, hv.symm⟩

/-- Settles O23: the leaves of a built tree are the symbols present, and no leaf lies below another. -/
theorem builtCodesArePrefixFree : Obligations.BuiltCodesArePrefixFree := by
  intro f
  have hwf := buildTree_wf f
  refine ⟨code_buildTree_ne_none_iff f, fun u v p q hu hv hpq => ?_, fun v p hv => ?_⟩
  · have heq := Tree.eq_of_prefix (Tree.mem_leaves_of_code hu) (Tree.mem_leaves_of_code hv) hpq
    exact congrArg Prod.fst heq
  · have hmem := Tree.mem_leaves_of_code hv
    exact ⟨List.ne_nil_of_length_pos (Tree.one_le_path_length hmem), (Tree.wf_iff.1 hwf).2.2 _ hmem⟩

end Sys2Proof.Machine
end

section
/-! PROOFS. A tree of merges has minimal weight (spec 41_tree_build.md R162): the two lightest subtrees can be taken to lie
deepest, side by side, in any assignment of depths that meets the Kraft inequality. -/

namespace Sys2Proof.Machine

/-! ### Depths -/

/-- The Kraft sum of some depths. -/
noncomputable def kraftSum (ds : List Nat) : ℝ := (ds.map fun d => (1 / 2 : ℝ) ^ d).sum

theorem kraftSum_cons (d : Nat) (ds : List Nat) : kraftSum (d :: ds) = (1 / 2 : ℝ) ^ d + kraftSum ds := by
  simp [kraftSum]

theorem kraftSum_perm {ds es : List Nat} (h : ds.Perm es) : kraftSum ds = kraftSum es := (h.map _).sum_eq

/-- In units of the deepest place the sum is a natural number. -/
theorem exists_kraftSum_mul {ds : List Nat} {D : Nat} (h : ∀ d ∈ ds, d ≤ D) : ∃ n : Nat, kraftSum ds * 2 ^ D = n := by
  induction ds with
  | nil => exact ⟨0, by simp [kraftSum]⟩
  | cons d ds ih =>
    obtain ⟨hd, hds⟩ := List.forall_mem_cons.1 h
    obtain ⟨n, hn⟩ := ih hds
    refine ⟨2 ^ (D - d) + n, ?_⟩
    obtain ⟨e, rfl⟩ := Nat.exists_eq_add_of_le hd
    rw [kraftSum_cons, add_mul, hn, Nat.add_sub_cancel_left, pow_add, ← mul_assoc, ← mul_pow]
    simp

/-- The two deepest places can be made siblings: then their parent's place meets the inequality with the others. -/
theorem kraftSum_merge {D1 D2 : Nat} {ds : List Nat} (h1 : D2 ≤ D1) (h2 : ∀ d ∈ ds, d ≤ D2)
    (h : kraftSum (D1 :: D2 :: ds) ≤ 1) : 1 ≤ D2 ∧ kraftSum ((D2 - 1) :: ds) ≤ 1 := by
  obtain ⟨n, hn⟩ := exists_kraftSum_mul h2
  have hunit : (1 / 2 : ℝ) ^ D2 * 2 ^ D2 = 1 := by rw [← mul_pow]; simp
  have hpos : 0 < (1 / 2 : ℝ) ^ D1 * 2 ^ D2 := by positivity
  have hscaled := mul_le_mul_of_nonneg_right h (by positivity : (0 : ℝ) ≤ 2 ^ D2)
  rw [kraftSum_cons, kraftSum_cons, add_mul, add_mul, hunit, hn, one_mul] at hscaled
  have hroom : n + 2 ≤ 2 ^ D2 := by
    have hlt : ((n + 1 : Nat) : ℝ) < ((2 ^ D2 : Nat) : ℝ) := by push_cast; linarith
    exact Nat.cast_lt.1 hlt
  have hD2 : 1 ≤ D2 := Nat.one_le_iff_ne_zero.2 fun h0 => by simp [h0] at hroom
  refine ⟨hD2, le_of_mul_le_mul_right ?_ (by positivity : (0 : ℝ) < 2 ^ D2)⟩
  obtain ⟨e, rfl⟩ := Nat.exists_eq_add_of_le' hD2
  have hparent : (1 / 2 : ℝ) ^ e * 2 ^ (e + 1) = 2 := by rw [pow_succ, ← mul_assoc, ← mul_pow]; simp
  have hcast : ((n + 2 : Nat) : ℝ) ≤ ((2 ^ (e + 1) : Nat) : ℝ) := Nat.cast_le.2 hroom
  push_cast at hcast
  rw [Nat.add_sub_cancel, kraftSum_cons, add_mul, hparent, hn, one_mul]
  linarith

/-! ### Weights -/

section
variable (f : Byte → Nat)

/-- The sum of a quantity over the leaves below a node. -/
def Node.weight (n : Node) : Nat := ((n.leaves []).map fun x => f x.1).sum

/-- The sum of a quantity times the depth over the leaves below a node. -/
def Node.cost (n : Node) : Nat := ((n.leaves []).map fun x => f x.1 * x.2.length).sum

theorem Node.weight_internal (l r : Node) : (Node.internal l r).weight f = l.weight f + r.weight f := by
  simp [Node.weight, Node.leaves_internal, underBit, Function.comp_def]

theorem Node.cost_internal (l r : Node) :
    (Node.internal l r).cost f = l.cost f + l.weight f + (r.cost f + r.weight f) := by
  simp [Node.cost, Node.weight, Node.leaves_internal, underBit, Function.comp_def, Nat.mul_succ, List.sum_map_add]

end

/-- The weight of an assignment of depths. -/
def weightOf {α : Type} (w : α → Nat) (ps : List (α × Nat)) : Nat := (ps.map fun x => w x.1 * x.2).sum

theorem weightOf_cons {α : Type} (w : α → Nat) (x : α × Nat) (ps : List (α × Nat)) :
    weightOf w (x :: ps) = w x.1 * x.2 + weightOf w ps := by
  simp [weightOf]

theorem weightOf_perm {α : Type} (w : α → Nat) {ps qs : List (α × Nat)} (h : ps.Perm qs) :
    weightOf w ps = weightOf w qs := (h.map _).sum_eq

/-- A list with an element has a deepest one, which can stand first. -/
theorem exists_deepest {α : Type} {ps : List (α × Nat)} (h : ps ≠ []) :
    ∃ x qs, ps.Perm (x :: qs) ∧ ∀ y ∈ qs, y.2 ≤ x.2 := by
  classical
  obtain ⟨x, hx, hmax⟩ := Finset.exists_max_image ps.toFinset Prod.snd (by simpa using h)
  rw [List.mem_toFinset] at hx
  exact ⟨x, ps.erase x, List.perm_cons_erase hx, fun y hy => hmax y (List.mem_toFinset.2 (List.mem_of_mem_erase hy))⟩

/-- The lightest element can take the deepest place, in exchange for its own, without more weight. -/
theorem exists_lightest_deepest {α : Type} (w : α → Nat) {a : α} {ps : List (α × Nat)} (ha : a ∈ ps.map Prod.fst)
    (hmin : ∀ x ∈ ps.map Prod.fst, w a ≤ w x) : ∃ D qs, (a :: qs.map Prod.fst).Perm (ps.map Prod.fst) ∧
      (D :: qs.map Prod.snd).Perm (ps.map Prod.snd) ∧ (∀ d ∈ qs.map Prod.snd, d ≤ D) ∧
      w a * D + weightOf w qs ≤ weightOf w ps := by
  obtain ⟨x, qs, hperm, hdeep⟩ := exists_deepest (ps := ps) (by rintro rfl; simp at ha)
  have hfst := hperm.map Prod.fst
  have hsnd := hperm.map Prod.snd
  have hdeep' : ∀ d ∈ qs.map Prod.snd, d ≤ x.2 := fun d hd => by
    obtain ⟨y, hy, rfl⟩ := List.mem_map.1 hd
    exact hdeep y hy
  rw [weightOf_perm w hperm, weightOf_cons]
  rcases List.mem_cons.1 (hfst.mem_iff.1 ha) with hax | haq
  · exact ⟨x.2, qs, hax ▸ hfst.symm, hsnd.symm, hdeep', by rw [hax]⟩
  · obtain ⟨y, hy, rfl⟩ := List.mem_map.1 haq
    obtain ⟨l₁, l₂, rfl⟩ := List.append_of_mem hy
    have hmid : (l₁ ++ y :: l₂).Perm (y :: (l₁ ++ l₂)) := List.perm_middle
    obtain ⟨e, he⟩ := Nat.exists_eq_add_of_le (hdeep y hy)
    obtain ⟨v, hv⟩ := Nat.exists_eq_add_of_le (hmin x.1 (hfst.mem_iff.2 (by simp)))
    refine ⟨x.2, (x.1, y.2) :: (l₁ ++ l₂), ?_, ?_, fun d hd => ?_, ?_⟩
    · exact .trans (.trans (.swap _ _ _) ((hmid.map Prod.fst).symm.cons _)) hfst.symm
    · exact .trans ((hmid.map Prod.snd).symm.cons _) hsnd.symm
    · refine hdeep' d ((hmid.map Prod.snd).mem_iff.2 ?_)
      exact hd
    · rw [weightOf_perm w hmid, weightOf_cons, weightOf_cons, he, hv]
      simp only
      nlinarith

/-- The tree of merges costs no more than any assignment of depths to the subtrees that meets the inequality. -/
theorem Huffman.cost_le {f : Byte → Nat} {q : List (Nat × Node)} {n : Node} (h : Huffman q n)
    (hw : ∀ x ∈ q, x.1 = x.2.weight f) {ps : List ((Nat × Node) × Nat)} (hps : (ps.map Prod.fst).Perm q)
    (hk : kraftSum (ps.map Prod.snd) ≤ 1) :
    n.cost f ≤ (q.map fun x => x.2.cost f).sum + weightOf Prod.fst ps := by
  induction h generalizing ps with
  | last w n => simp
  | @merge q rest a b n two first second _ ih =>
    have hfst := hps.trans two
    have hmem : ∀ x, x ∈ ps.map Prod.fst ↔ x = a ∨ x ∈ b :: rest := fun x => by rw [hfst.mem_iff, List.mem_cons]
    obtain ⟨D1, ps1, hfst1, hsnd1, hdeep1, hle1⟩ := exists_lightest_deepest Prod.fst (a := a) (ps := ps)
      ((hmem a).2 (.inl rfl)) fun x hx => ((hmem x).1 hx).elim (fun hxa => by rw [hxa]) (first x)
    have hrest1 : (ps1.map Prod.fst).Perm (b :: rest) := (hfst1.trans hfst).cons_inv
    obtain ⟨D2, ps2, hfst2, hsnd2, hdeep2, hle2⟩ := exists_lightest_deepest Prod.fst (a := b) (ps := ps1)
      (hrest1.mem_iff.2 (by simp)) fun x hx =>
        (List.mem_cons.1 (hrest1.mem_iff.1 hx)).elim (fun hxb => by rw [hxb]) (second x)
    have hrest2 : (ps2.map Prod.fst).Perm rest := (hfst2.trans hrest1).cons_inv
    have hD : D2 ≤ D1 := hdeep1 D2 (hsnd2.mem_iff.1 (by simp))
    rw [← kraftSum_perm hsnd1, ← kraftSum_perm (hsnd2.cons D1)] at hk
    obtain ⟨hD2, hk'⟩ := kraftSum_merge hD hdeep2 hk
    simp only [two.mem_iff] at hw
    obtain ⟨hwa, hwb, hwrest⟩ := by simpa only [List.forall_mem_cons] using hw
    have hmerged := ih (ps := ((a.1 + b.1, .internal a.2 b.2), D2 - 1) :: ps2)
      (List.forall_mem_cons.2 ⟨by rw [Node.weight_internal, ← hwa, ← hwb], hwrest⟩) (hrest2.cons _) hk'
    have hsum := (two.map fun x => x.2.cost f).sum_eq
    rw [weightOf_cons, List.map_cons, List.sum_cons, Node.cost_internal, ← hwa, ← hwb] at hmerged
    simp only [List.map_cons, List.sum_cons] at hsum
    obtain ⟨e, rfl⟩ := Nat.exists_eq_add_of_le' hD2
    simp only [Nat.add_sub_cancel] at hmerged
    rw [hsum]
    nlinarith [Nat.mul_le_mul_left a.1 hD]

/-! ### Codes of which none begins another -/

/-- Words of which none is empty or a beginning of another are uniquely decodable. -/
theorem uniquelyDecodable_of_not_prefix {S : Set (List Bool)} (hne : [] ∉ S)
    (h : ∀ u ∈ S, ∀ v ∈ S, u <+: v → u = v) : InformationTheory.UniquelyDecodable S := by
  intro L₁
  induction L₁ with
  | nil =>
    intro L₂ _ h₂ hflat
    cases L₂ with
    | nil => rfl
    | cons v L₂ =>
      have hv : v = [] := by simp at hflat; exact hflat.1
      exact absurd (hv ▸ h₂ v (by simp)) hne
  | cons u L₁ ih =>
    intro L₂ h₁ h₂ hflat
    obtain ⟨hu, hrest⟩ := List.forall_mem_cons.1 h₁
    cases L₂ with
    | nil =>
      have hu' : u = [] := by simp at hflat; exact hflat.1
      exact absurd (hu' ▸ hu) hne
    | cons v L₂ =>
      obtain ⟨hv, hrest'⟩ := List.forall_mem_cons.1 h₂
      have heq : u = v := by
        have hpu : u <+: (u :: L₁).flatten := List.prefix_append _ _
        have hpv : v <+: (u :: L₁).flatten := hflat ▸ List.prefix_append _ _
        rcases List.prefix_or_prefix_of_prefix hpu hpv with huv | hvu
        · exact h u hu v hv huv
        · exact (h v hv u hu hvu).symm
      subst heq
      rw [ih L₂ hrest hrest' (by simpa using hflat)]

/-- The code lengths of two or more symbols, of whose codes none begins another, meet the Kraft inequality. -/
theorem kraftSum_prefixCode_le {l : List Byte} {c : Byte → List Bool} (hl : l.Nodup) (htwo : 2 ≤ l.length)
    (h : ∀ u ∈ l, ∀ v ∈ l, c u <+: c v → u = v) : kraftSum (l.map fun v => (c v).length) ≤ 1 := by
  have hinj : (l.map c).Nodup := hl.map_on fun u hu v hv he => h u hu v hv (he ▸ List.prefix_rfl)
  have hne : [] ∉ {w | w ∈ (l.map c).toFinset} := fun hmem => by
    obtain ⟨u, hu, hcu⟩ := List.mem_map.1 (List.mem_toFinset.1 hmem)
    have hall : ∀ v ∈ l, v = u := fun v hv => (h u hu v hv (hcu ▸ List.nil_prefix)).symm
    have := List.eq_replicate_of_mem hall
    rw [this, List.nodup_replicate] at hl
    omega
  have hdec := uniquelyDecodable_of_not_prefix (S := ((l.map c).toFinset : Finset (List Bool))) (by simpa using hne)
    fun x hx y hy hxy => by
      obtain ⟨u, hu, rfl⟩ := List.mem_map.1 (List.mem_toFinset.1 hx)
      obtain ⟨v, hv, rfl⟩ := List.mem_map.1 (List.mem_toFinset.1 hy)
      rw [h u hu v hv hxy]
  have hkraft := InformationTheory.kraft_mcmillan_inequality hdec
  rw [List.sum_toFinset _ hinj, List.map_map, Fintype.card_bool] at hkraft
  rw [kraftSum, List.map_map]
  exact_mod_cast hkraft

/-- Settles O24: the code lengths of any code that is free of such beginnings are an assignment of depths to the seeds, which
the merges do not exceed. -/
theorem builtTreeIsOptimal : Obligations.BuiltTreeIsOptimal := by
  intro f c htwo hcode
  rcases buildTree_cases f with ⟨hnone, -⟩ | ⟨n, hmerges, htree⟩
  · simp [hnone] at htwo
  · obtain ⟨l, r, rfl⟩ := hmerges.internal_of_two (.inl (by simpa [seedNodes] using htwo))
    have hweight : ∀ v, (Node.leaf v).weight (fun v => (freqAt f v).toNat) = (freqAt f v).toNat := fun v => by
      simp [Node.weight, Node.leaves]
    have hcost : ∀ v, (Node.leaf v).cost (fun v => (freqAt f v).toNat) = 0 := fun v => by
      simp [Node.cost, Node.leaves]
    have hmin := hmerges.cost_le (f := fun v => (freqAt f v).toNat)
      (ps := (presentSymbols f).map fun v => (((freqAt f v).toNat, .leaf v), (c v).length))
      (fun x hx => by obtain ⟨v, -, rfl⟩ := List.mem_map.1 hx; exact (hweight v).symm)
      (.of_eq (by rw [seedNodes, List.map_map]; rfl))
      (by
        rw [List.map_map]
        exact kraftSum_prefixCode_le (nodup_presentSymbols f) htwo hcode)
    have hsum : Spec.sumOver (presentSymbols f) (fun v => (freqAt f v).toNat * (((buildTree f).code v).getD []).length) =
        (Node.internal l r).cost fun v => (freqAt f v).toNat := by
      rw [Spec.sumOver, ← ((symbols_buildTree f).map _).sum_eq, List.map_map, Node.cost]
      have hleaves : (Node.internal l r).leaves [] = (buildTree f).leaves := by
        rw [htree]
        exact Tree.node_leaves (.root l r)
      rw [hleaves]
      refine congrArg _ (List.map_congr_left fun x hx => ?_)
      rw [Function.comp_apply, (Tree.code_eq_some_iff (buildTree_wf f)).2 hx, Option.getD_some]
    rw [hsum]
    refine hmin.trans (le_of_eq ?_)
    simp [seedNodes, List.map_map, Function.comp_def, hcost, weightOf, Spec.sumOver]

end Sys2Proof.Machine
end

section
/-! PROOFS. The invariant over a command (spec 30_encoding.md R109): its rule starts where the engine has accepted it. -/

namespace Sys2Proof.Machine

theorem Holds.advance {w : Word} {s t : State} (ht : Holds w s t) : Holds w s (Machine.advance t) := by
  obtain ⟨hinv, hclosed⟩ := ht
  obtain ⟨hinv', hclosed'⟩ := holds_advance hinv
  exact ⟨hinv', hclosed.trans hclosed'⟩

section
variable {w : Word} {s : State} (h : InvAs w s) (hc : s.ctl = .accepted)
include h hc

/-- Where a command is accepted, each session is a unit's own. -/
theorem InvAs.sessions_of_accepted : s.outOwned = s.bw.isOpen ∧ s.inOwned = s.br.isOpen ∧
    (s.br.isOpen = true → (s.br.nxt = none ↔ s.inTerm = true)) := by
  have hout := h.out_owned
  have hin := h.in_owned
  rw [hc] at hout hin
  exact ⟨by simpa [commandOwnsOut] using hout, by simpa [commandOwnsIn] using hin,
    fun hb => h.window_term hb (by rw [hc]; rfl)⟩

/-- A command that changes neither the units nor their sessions. -/
theorem holds_complete (v : Word) : Holds w s (complete v s) := by
  obtain ⟨hout, hin, hwin⟩ := h.sessions_of_accepted hc
  exact ⟨h.endAt v hout hin hwin, keepsClosed_of_eq rfl rfl⟩

theorem holds_endCommand : Holds w s (endCommand s) := holds_complete h hc s.result

omit hc in
theorem holds_withSym {body : Byte → State → State} (hbody : ∀ v, Holds w s (body v s)) : Holds w s (withSym body s) := by
  unfold withSym
  split
  · exact hbody _
  · exact holds_raiseError h _ _

omit hc in
theorem holds_withBit {body : Bool → State → State} (hbody : ∀ b, Holds w s (body b s)) : Holds w s (withBit body s) := by
  unfold withBit
  split
  · exact hbody _
  · exact holds_raiseError h _ _

/-! ### Control, FREQ and TREE -/

theorem holds_clearError : Holds w s (endCommand (clearErrorState s)) := by
  obtain ⟨hinv, -⟩ := holds_endCommand h hc
  exact ⟨{ hinv with
    running := fun i hi => (by cases hi)
    err_none := fun _ => rfl, err_last := fun e he => (by cases he) }, keepsClosed_of_eq rfl rfl⟩

/-- SOFT_RESET leaves the invariant (R132). -/
theorem holds_softReset : Holds w s (softResetItems (softResetRelease s)) := by
  obtain ⟨hout, hin, -⟩ := h.sessions_of_accepted hc
  rw [softReset_closed_form]
  refine ⟨{
    tree_wf := rfl, bw_wf := packer_closed_wf _, br_wf := unpacker_closed_wf, cap_pos := h.cap_pos
    out_owned := rfl, in_owned := rfl, units := ⟨rfl, rfl⟩, place := rfl
    term_owned := fun hf => (by cases hf), drain_free := fun _ => rfl, window_term := fun hb => (by cases hb)
    running := fun i hi => (by cases hi), descent := fun d hd => (by cases hd)
    err_none := fun _ => rfl, err_last := fun e he => (by cases he) }, fun hs => outClosed_of_close s hs ?_⟩
  rw [hout, Bool.and_self]
  cases s.bw.isOpen <;> simp

theorem holds_setFreq (f : Vector Word 256) : Holds w s (endCommand { s with freq := f }) := by
  obtain ⟨hinv, -⟩ := holds_endCommand h hc
  exact ⟨{ hinv with }, keepsClosed_of_eq rfl rfl⟩

/-- A new TREE, between commands. -/
theorem holds_setTree {t : Tree} (ht : t.wf = true) (v : Word) : Holds w s (complete v { s with tree := t }) := by
  obtain ⟨hinv, -⟩ := holds_complete h hc v
  exact ⟨{ hinv with
    tree_wf := ht, place := rfl, descent := fun d hd => (by cases hd) }, keepsClosed_of_eq rfl rfl⟩

/-! ### The packer -/

theorem holds_bwOpen : Holds w s (endCommand (bwOpenSession s)) := by
  obtain ⟨hinv, -⟩ := holds_endCommand h hc
  exact ⟨{ hinv with
    bw_wf := Packer.wf_iff.2 ⟨fun hf => (by cases hf), Nat.zero_le _, Nat.one_pos⟩
    out_owned := rfl, units := ⟨rfl, rfl⟩ }, keepsClosed_of_owned rfl⟩

/-- Bits are packed, and RESULT is left. -/
theorem holds_packed {p : List Bool} (hwf : (s.bw.pushAll p).wf s.bwCap = true) (v : Word) :
    Holds w s (complete v (s.packed p)) := by
  obtain ⟨hinv, -⟩ := holds_complete h hc v
  have hout := hinv.out_owned
  exact ⟨{ hinv with
    bw_wf := hwf
    out_owned := by
      rw [show (complete v (s.packed p)).bw.isOpen = s.bw.isOpen from s.bw.isOpen_pushAll p]
      exact hout
    units := ⟨rfl, rfl⟩, place := rfl }, keepsClosed_of_eq rfl rfl⟩

theorem holds_encodeSymbol (hopen : s.bw.isOpen = true) (v : Byte) (r : Word) :
    Holds w s ((encodeSymbolBits v s).finish fun t => complete r t) := by
  rcases encodeSymbolBits_cases v s with ⟨p, hp, he⟩ | ⟨-, he⟩ | ⟨q, he⟩ <;> rw [he]
  · have hgo : bwWriteBits p s = .go (s.packed p) := by simpa [encodeSymbolBits, hp] using he
    exact holds_packed h hc (wf_of_bwWriteBits_go hopen h.bw_wf hgo).2 r
  · exact holds_raiseError h _ _
  · exact ⟨invAs_raiseError _ _ h.tree_wf h.cap_pos h.term_owned,
      keepsClosed_raiseError _ _ { s with diag := Spec.echo s q }⟩

theorem holds_bwWrite (hopen : s.bw.isOpen = true) (b : Bool) : Holds w s ((bwWriteBit b s).finish endCommand) := by
  by_cases hroom : s.bw.nbits ≠ 7 ∨ s.bw.data.length ≠ s.bwCap
  · rw [bwWriteBit_of_push hroom]
    exact holds_packed h hc (p := [b]) (by exact Packer.wf_push h.bw_wf hopen hroom b) s.result
  · rw [not_or, not_not, not_not] at hroom
    rw [bwWriteBit_of_full hroom.1 hroom.2]
    exact ⟨invAs_raiseError _ _ h.tree_wf h.cap_pos h.term_owned,
      keepsClosed_raiseError _ _ { s with diag := Spec.echo s [b] }⟩

/-! ### The unpacker -/

theorem holds_brClose : Holds w s (endCommand (brCloseSession s)) := by
  obtain ⟨hinv, -⟩ := holds_endCommand h hc
  rw [brCloseSession_closed_form]
  refine ⟨{ hinv with
    br_wf := unpacker_closed_wf
    in_owned := rfl, units := ⟨rfl, rfl⟩, place := rfl
    term_owned := fun ht => ?_, drain_free := fun _ => rfl, window_term := fun hb => (by cases hb) },
    keepsClosed_of_eq rfl rfl⟩
  cases ho : s.inOwned
  · simp only [endCommand, ho, Bool.false_eq_true, if_false] at ht
    exact absurd (h.term_owned ht) (by simp [ho])
  · simp [endCommand, ho] at ht

/-- BR_NEXT takes a bit, and reads the next byte where the bit was the last of its own (R312, R315). -/
theorem holds_brNext (hi : decode w = .ok .brNext) (herr : s.err = none) (hnext : hasNext s.br = true) :
    Holds w s (takeBit .brNext s) := by
  obtain ⟨hout, hin, hwin⟩ := h.sessions_of_accepted hc
  obtain ⟨hcur, -⟩ := hasNext_iff.1 hnext
  obtain ⟨hclosed, hempty, -⟩ := Unpacker.wf_iff.1 h.br_wf
  have hopen : s.br.isOpen = true := by
    by_contra hb
    exact hcur (by rw [hclosed (by simpa using hb)]; rfl)
  by_cases h7 : s.br.pos = 7
  · rw [takeBit_of_pos_eq_seven h7]
    exact ⟨{ h with
      br_wf := Unpacker.wf_iff.2 ⟨fun hb => absurd (hopen.symm.trans hb) (by decide),
        fun he => absurd (hempty he).1 hcur, fun _ => ⟨rfl, rfl⟩⟩
      out_owned := by simpa [State.refilling, commandOwnsOut] using hout
      in_owned := by simpa [State.refilling, shiftWindow, commandOwnsIn] using hin
      units := ⟨rfl, by simp [State.refilling, shiftWindow, unitsAt, fits, hopen]⟩
      place := by
        cases hn : s.br.nxt with
        | none => simp [placeOk, State.refilling, shiftWindow, (hwin hopen).1 hn]
        | some c => simp [placeOk, State.refilling, shiftWindow, hn]
      window_term := fun _ hr => (by cases hr)
      running := fun i hi' => (by cases hi'; exact ⟨hi, herr⟩)
      descent := fun d hd => (by cases hd) }, keepsClosed_of_eq rfl rfl⟩
  · rw [takeBit_of_pos_ne_seven h7]
    exact ⟨{ h with
      br_wf := Unpacker.wf_iff.2 ⟨fun hb => absurd (hopen.symm.trans hb) (by decide), hempty, fun hn => absurd hn hcur⟩
      out_owned := by simpa [bitTaken, complete, commandOwnsOut] using hout
      in_owned := by simpa [bitTaken, complete, commandOwnsIn] using hin
      units := ⟨rfl, rfl⟩, place := rfl
      window_term := fun hb _ => hwin hb
      running := fun i hi' => (by cases hi')
      descent := fun d hd => (by cases hd) }, keepsClosed_of_eq rfl rfl⟩

/-! ### The first state of a command that uses the ports -/

section
variable (herr : s.err = none)
include herr

theorem holds_openIn {k : OpenFor} {i : Instr} (hi : decode w = .ok i) (hk : runningCommand (.openIn k) = some i)
    (hbr : s.br.isOpen = false) (hbw : k ≠ .brOpen → s.bw.isOpen = false) {t : Tree} (ht : t.wf = true)
    (hload : k = .load → t = .empty) : Holds w s { s with tree := t, ctl := .openIn k } := by
  obtain ⟨hout, hin, hwin⟩ := h.sessions_of_accepted hc
  exact ⟨{ h with
    tree_wf := ht
    out_owned := by simpa [commandOwnsOut] using hout
    in_owned := by simpa [commandOwnsIn] using hin
    units := by cases k <;> simp [unitsAt, fits, hbr, hbw]
    place := by
      cases k
      case load => exact decide_eq_true (hload rfl)
      all_goals rfl
    window_term := fun hb _ => hwin hb
    running := fun j hj => by
      have hij : i = j := Option.some.inj (hk.symm.trans hj)
      exact ⟨hij ▸ hi, herr⟩
    descent := fun d hd => (by cases hd) }, keepsClosed_of_eq rfl rfl⟩

theorem holds_treeSaveStart (hi : decode w = .ok .treeSave) (hbw : s.bw.isOpen = false) :
    Holds w s (treeSaveStart s) := by
  obtain ⟨-, hin, hwin⟩ := h.sessions_of_accepted hc
  exact ⟨{ h with
    out_owned := by simp [treeSaveStart, outOpen, commandOwnsOut]
    in_owned := by simpa [treeSaveStart, outOpen, commandOwnsIn] using hin
    units := ⟨by simp [treeSaveStart, outOpen, unitsAt, fits, hbw], rfl⟩, place := rfl
    window_term := fun hb _ => hwin hb
    running := fun i hi' => (by cases hi'; exact ⟨hi, herr⟩)
    descent := fun d hd => (by cases hd) }, keepsClosed_of_owned rfl⟩

theorem holds_bwCloseStart (hi : decode w = .ok .bwClose) (hopen : s.bw.isOpen = true) :
    Holds w s (bwCloseStart false s) := by
  obtain ⟨hout, hin, hwin⟩ := h.sessions_of_accepted hc
  obtain ⟨-, -, hacc⟩ := Packer.wf_iff.1 h.bw_wf
  unfold bwCloseStart
  split
  · exact holds_raiseError h _ _
  next hroom =>
    exact ⟨{ h with
      bw_wf := Packer.wf_iff.2
        ⟨fun hf => absurd (hopen.symm.trans hf) (by decide), length_finalData_le h.bw_wf hroom, hacc⟩
      out_owned := by simp [commandOwnsOut, hout, hopen]
      in_owned := by simpa [commandOwnsIn] using hin
      units := ⟨by simp [unitsAt, fits, hopen], rfl⟩, place := rfl
      window_term := fun hb _ => hwin hb
      running := fun i hi' => (by cases hi'; exact ⟨hi, herr⟩)
      descent := fun d hd => (by cases hd) }, keepsClosed_of_eq rfl rfl⟩

theorem holds_decodeSymbolStart (hi : decode w = .ok .decodeSymbol) (hopen : s.br.isOpen = true) :
    Holds w s (startAttempt .single s) := by
  obtain ⟨hout, hin, hwin⟩ := h.sessions_of_accepted hc
  cases htree : s.tree with
  | empty =>
    rw [startAttempt, htree]
    exact holds_raiseError h _ _
  | root l r =>
    rw [startAttempt_of_root htree]
    exact ⟨{ h with
      out_owned := by simpa [commandOwnsOut] using hout
      in_owned := by simpa [commandOwnsIn] using hin
      units := ⟨rfl, by simp [unitsAt, fits, hopen]⟩, place := rfl
      window_term := fun hb _ => hwin hb
      running := fun i hi' => (by cases hi'; exact ⟨hi, herr⟩)
      descent := fun d hd => (by cases hd; exact ⟨[], rfl, by rw [htree]; rfl⟩) }, keepsClosed_of_eq rfl rfl⟩

end

/-! ### The rule of a command -/

theorem holds_commandStart {i : Instr} (hi : decode w = .ok i) (hgate : s.err = none ∨ runsWhileErr i = true)
    (hadm : admits i s = true) : Holds w s (commandStart i s) := by
  have herr : runsWhileErr i = false → s.err = none := fun hr => hgate.resolve_right (by simp [hr])
  cases i with
  | nop => exact holds_endCommand h hc
  | clearError => exact holds_clearError h hc
  | softReset => exact holds_softReset h hc
  | freqClear => exact holds_setFreq h hc _
  | freqWrite => exact holds_withSym h fun v => holds_setFreq h hc _
  | freqRead => exact holds_withSym h fun v => holds_complete h hc _
  | treeBuild => exact holds_setTree h hc (buildTree_wf s.freq) _
  | treeClear => exact holds_setTree h hc rfl s.result
  | codeQuery =>
    refine holds_withSym h fun v => ?_
    split <;> exact holds_complete h hc _
  | codeBit =>
    refine holds_withSym h fun v => ?_
    split
    · exact holds_raiseError h _ _
    · split
      · exact holds_raiseError h _ _
      · exact holds_complete h hc _
  | treeSave => exact holds_treeSaveStart h hc (herr rfl) hi (by simpa [admits] using hadm)
  | treeLoad =>
    obtain ⟨hbw, hbr⟩ : s.bw.isOpen = false ∧ s.br.isOpen = false := by simpa [admits] using hadm
    exact holds_openIn h hc (herr rfl) hi rfl hbr (fun _ => hbw) rfl fun _ => rfl
  | encodeSymbol =>
    exact holds_withSym h fun v => holds_encodeSymbol h hc (by simpa [admits] using hadm) v _
  | decodeSymbol => exact holds_decodeSymbolStart h hc (herr rfl) hi (by simpa [admits] using hadm)
  | compress =>
    obtain ⟨hbw, hbr⟩ : s.bw.isOpen = false ∧ s.br.isOpen = false := by simpa [admits] using hadm
    exact holds_openIn h hc (herr rfl) (k := .compress) hi rfl hbr (fun _ => hbw) h.tree_wf fun hk => (by cases hk)
  | decompress =>
    obtain ⟨hbw, hbr⟩ : s.bw.isOpen = false ∧ s.br.isOpen = false := by simpa [admits] using hadm
    exact holds_openIn h hc (herr rfl) (k := .decompress) hi rfl hbr (fun _ => hbw) h.tree_wf
      fun hk => (by cases hk)
  | bwOpen => exact holds_bwOpen h hc
  | bwWrite => exact holds_withBit h fun b => holds_bwWrite h hc (by simpa [admits] using hadm) b
  | bwClose =>
    simp only [commandStart]
    split
    next hopen => exact holds_bwCloseStart h hc (herr rfl) hi hopen
    · exact holds_endCommand h hc
  | brOpen =>
    exact holds_openIn h hc (herr rfl) (k := .brOpen) hi rfl (by simpa [admits] using hadm) (fun hk => absurd rfl hk)
      h.tree_wf fun hk => (by cases hk)
  | brHasNext => exact holds_complete h hc _
  | brNext =>
    simp only [commandStart]
    split
    next hnext => exact holds_brNext h hc hi (herr rfl) hnext
    · exact holds_raiseError h _ _
  | brClose =>
    simp only [commandStart]
    split
    · exact holds_brClose h hc
    · exact holds_endCommand h hc

/-- The invariant over a command, ignored or with a wrong precondition too (R109, R110). -/
theorem holds_exec {i : Instr} (hi : decode w = .ok i) {t : State} (ht : exec i s = .next t) : Holds w s t := by
  rcases exec_cases ht with ⟨-, -, rfl⟩ | ⟨-, -, rfl⟩ | ⟨hgate, hadm, rfl⟩
  · exact holds_endCommand h hc
  · exact holds_raiseError h _ _
  · exact (holds_commandStart h hc hi hgate hadm).advance

theorem holds_executeIllegal {v : Word} {t : State} (ht : executeIllegal v s = .next t) : Holds w s t := by
  by_cases he : s.err = none
  · rw [executeIllegal_of_err_none he] at ht
    cases ht
    exact holds_raiseError h _ _
  · rw [executeIllegal_of_err he] at ht
    cases ht
    exact holds_endCommand h hc

end

end Sys2Proof.Machine
end

section
/-! PROOFS. What a command comes to, and what it leaves alone (spec 30_encoding.md R109, 60_exceptions.md R341). -/

namespace Sys2Proof.Machine

/-! ### A command goes on, completes, or raises one error -/

section
variable {s : State}

theorem effect_withSym {body : Byte → State → State} (h : ∀ v, Effect s (body v s)) : Effect s (withSym body s) := by
  unfold withSym
  split
  · exact h _
  · exact effect_raiseError _ _ (.refl s)

theorem effect_withBit {body : Bool → State → State} (h : ∀ b, Effect s (body b s)) : Effect s (withBit body s) := by
  unfold withBit
  split
  · exact h _
  · exact effect_raiseError _ _ (.refl s)

theorem Effect.trans {t u : State} (h : Effect s t) (ht : t.ctl = .idle → u = t) (k : Effect t u) : Effect s u := by
  rcases h with h | ⟨v, w, h, rfl⟩ | ⟨e, i, w, h, rfl⟩
  · exact k.after h
  · rw [ht rfl]
    exact effect_complete v h
  · rw [ht (raiseError_ctl ..)]
    exact effect_raiseError e i h

theorem Effect.advance {t : State} (h : Effect s t) : Effect s (Machine.advance t) :=
  h.trans advance_of_idle (effect_advance t)

/-- What the rule of a command comes to, but for the two that clear errors. -/
theorem effect_commandStart {i : Instr} (hi : i ≠ .clearError ∧ i ≠ .softReset) (s : State) :
    Effect s (commandStart i s) := by
  cases i with
  | clearError => exact absurd rfl hi.1
  | softReset => exact absurd rfl hi.2
  | nop | freqClear | treeClear | bwOpen => exact .inl (going_of_record rfl)
  | freqWrite =>
    simp only [commandStart]
    exact effect_withSym fun v => .inl (going_of_record rfl)
  | freqRead =>
    simp only [commandStart]
    exact effect_withSym fun v => effect_complete _ (.refl s)
  | treeBuild => exact effect_complete _ (going_of_record rfl)
  | codeQuery =>
    simp only [commandStart]
    refine effect_withSym fun v => ?_
    split <;> exact effect_complete _ (.refl s)
  | codeBit =>
    simp only [commandStart]
    refine effect_withSym fun v => ?_
    split
    · exact effect_raiseError _ _ (.refl s)
    · split
      · exact effect_raiseError _ _ (.refl s)
      · exact effect_complete _ (.refl s)
  | treeSave | treeLoad | compress | decompress | brOpen => exact .inl (going_of_record rfl)
  | encodeSymbol =>
    simp only [commandStart]
    exact effect_withSym fun v => effect_encodeSymbolBits v s fun u => effect_complete _ (.refl u)
  | decodeSymbol => exact effect_startAttempt _ s
  | bwWrite =>
    simp only [commandStart]
    exact effect_withBit fun b => effect_bwWriteBit b s fun u => .inl (going_of_record rfl)
  | bwClose =>
    simp only [commandStart]
    split
    · exact effect_bwCloseStart false s
    · exact .inl (going_of_record rfl)
  | brHasNext => exact effect_complete _ (.refl s)
  | brNext =>
    simp only [commandStart]
    split
    · exact effect_takeBit _ s
    · exact effect_raiseError _ _ (.refl s)
  | brClose =>
    simp only [commandStart]
    split
    · rw [brCloseSession_closed_form]
      exact .inl (going_of_record rfl)
    · exact .inl (going_of_record rfl)

/-- A command that raises was going on, or not started, until then. -/
theorem effect_exec {i : Instr} {t : State} (h : exec i s = .next t) : Effect s t ∨ i = .clearError ∨ i = .softReset := by
  rcases exec_cases h with ⟨-, -, rfl⟩ | ⟨-, -, rfl⟩ | ⟨-, -, rfl⟩
  · exact .inl (.inl (going_of_record rfl))
  · exact .inl (effect_raiseError _ _ (.refl s))
  · by_cases hi : i = .clearError ∨ i = .softReset
    · exact .inr hi
    · exact .inl (effect_commandStart (not_or.1 hi) s).advance

theorem errHistory_prefix_of_exec {i : Instr} {t : State} (h : exec i s = .next t) :
    s.errHistory <+: t.errHistory ∧ s.out <+: t.out ∧ s.diag <+: t.diag := by
  rcases effect_exec h with he | rfl | rfl
  · exact ⟨he.errHistory_prefix, he.outputs_prefix⟩
  · rw [(controlCommands.2.2.2 s).2.1] at h
    cases h
    exact ⟨List.prefix_rfl, List.prefix_rfl, List.prefix_rfl⟩
  · rw [exec_softReset] at h
    cases h
    refine ⟨List.prefix_rfl, ?_, List.prefix_rfl⟩
    split
    · exact List.prefix_append _ _
    · exact List.prefix_rfl

/-! ### What a command leaves alone -/

theorem sameEnv_withSym {body : Byte → State → State} (h : ∀ v, SameEnv s (body v s)) : SameEnv s (withSym body s) := by
  unfold withSym
  split
  · exact h _
  · exact sameEnv_raiseError _ _ _

theorem sameEnv_startAttempt (m : DecodeFor) (s : State) : SameEnv s (startAttempt m s) := by
  unfold startAttempt
  split
  · exact sameEnv_raiseError _ _ _
  · constructor <;> rfl

theorem SameEnv.advance {t : State} (h : SameEnv s t) : SameEnv s (Machine.advance t) := h.trans (sameEnv_advance t)

/-- Only four commands change an item of `SameEnv`. -/
theorem sameEnv_commandStart {i : Instr} (hi : i ∉ [Instr.clearError, .softReset, .freqClear, .freqWrite]) (s : State) :
    SameEnv s (commandStart i s) := by
  cases i with
  | clearError | softReset | freqClear | freqWrite => exact absurd (by simp) hi
  | nop | treeBuild | treeClear | bwOpen | brHasNext => constructor <;> rfl
  | freqRead => exact sameEnv_withSym fun v => sameEnv_complete _ s
  | codeQuery =>
    simp only [commandStart]
    refine sameEnv_withSym fun v => ?_
    split <;> exact sameEnv_complete _ s
  | codeBit =>
    simp only [commandStart]
    refine sameEnv_withSym fun v => ?_
    split
    · exact sameEnv_raiseError _ _ s
    · split
      · exact sameEnv_raiseError _ _ s
      · exact sameEnv_complete _ s
  | treeSave | treeLoad | compress | decompress | brOpen => constructor <;> rfl
  | encodeSymbol =>
    simp only [commandStart]
    refine sameEnv_withSym fun v => ?_
    cases he : encodeSymbolBits v s with
    | go t => exact (sameEnv_encodeSymbolBits v s t (.inl he)).trans (sameEnv_complete _ t)
    | raised t => exact sameEnv_encodeSymbolBits v s t (.inr he)
  | decodeSymbol => exact sameEnv_startAttempt _ s
  | bwWrite =>
    simp only [commandStart, withBit]
    split
    next b _ =>
      cases hb : bwWriteBit b s with
      | go t => exact (sameEnv_bwWriteBit b s t (.inl hb)).trans (by constructor <;> rfl)
      | raised t => exact sameEnv_bwWriteBit b s t (.inr hb)
    · exact sameEnv_raiseError _ _ s
  | bwClose =>
    simp only [commandStart]
    split
    · exact sameEnv_bwCloseStart false s
    · constructor <;> rfl
  | brNext =>
    simp only [commandStart]
    split
    · exact sameEnv_takeBit _ s
    · exact sameEnv_raiseError _ _ s
  | brClose =>
    simp only [commandStart]
    split
    · rw [brCloseSession_closed_form]
      constructor <;> rfl
    · constructor <;> rfl

/-- What a command can do to the items of `SameEnv`. -/
theorem sameEnv_exec {i : Instr} {t : State} (h : exec i s = .next t) :
    SameEnv s t ∨ (i ∈ [Instr.clearError, .softReset, .freqClear, .freqWrite] ∧ t = commandStart i s ∧ t.ctl = .idle) := by
  rcases exec_cases h with ⟨-, -, rfl⟩ | ⟨-, -, rfl⟩ | ⟨-, -, rfl⟩
  · exact .inl (by constructor <;> rfl)
  · exact .inl (sameEnv_raiseError _ _ s)
  · by_cases hi : i ∈ [Instr.clearError, .softReset, .freqClear, .freqWrite]
    · have hidle : (commandStart i s).ctl = .idle := by
        simp only [List.mem_cons, List.not_mem_nil, or_false] at hi
        rcases hi with rfl | rfl | rfl | rfl
        · rfl
        · rfl
        · rfl
        · simp only [commandStart, withSym]
          split
          · rfl
          · exact raiseError_ctl ..
      rw [advance_of_idle hidle]
      exact .inr ⟨hi, rfl, hidle⟩
    · exact .inl (sameEnv_commandStart hi s).advance

theorem pending_of_exec {i : Instr} {t : State} (h : exec i s = .next t) : t.pending = s.pending ∨ t.ctl = .idle := by
  rcases sameEnv_exec h with henv | ⟨-, -, hidle⟩
  · exact .inl henv.pending
  · exact .inr hidle

end

end Sys2Proof.Machine
end

section
/-! PROOFS. What a step can be (spec 70_reset_and_hazards.md R392): a host line, a turn in which nothing moves, a drain step, the
start of the accepted command, or the engine steps of the running one. -/

namespace Sys2Proof.Machine

/-- The state as the engine finds it in its turn: the turn is off the schedule and its length is set (log 1). -/
def State.onTurn (s : State) (ts : List Turn) (q : Option Nat) : State := { s with turns := ts, quantum := q }

theorem engineTurn_cases {s t : State} (h : engineTurn s = .next t) :
    t = s ∨ (s.ctl = .idle ∧ s.inDrain = true ∧ drainStep s = some t) ∨
    (s.ctl = .accepted ∧ executePending s = .next t) ∨ (s.ctl ≠ .idle ∧ s.ctl ≠ .accepted ∧ t = advance s) := by
  by_cases hi : s.ctl = .idle
  · simp only [engineTurn, hi, idleDrain] at h
    cases hd : s.inDrain
    · simp only [hd, Bool.false_eq_true, if_false, Option.getD_none] at h
      exact .inl (Host.Outcome.next.inj h).symm
    · cases hs : drainStep s with
      | none =>
        simp only [hd, hs, if_true, Option.getD_none] at h
        exact .inl (Host.Outcome.next.inj h).symm
      | some u =>
        simp only [hd, hs, if_true, Option.getD_some] at h
        exact .inr (.inl ⟨hi, rfl, congrArg some (Host.Outcome.next.inj h)⟩)
  · by_cases ha : s.ctl = .accepted
    · rw [engineTurn_of_accepted ha] at h
      exact .inr (.inr (.inl ⟨ha, h⟩))
    · rw [engineTurn_of_running hi ha] at h
      exact .inr (.inr (.inr ⟨hi, ha, (Host.Outcome.next.inj h).symm⟩))

theorem step_cases {s t : State} (h : step s = .next t) :
    (∃ l, s.hostLineTaken = some l ∧ hostLine l { s with turns := s.turns.tail } = .next t) ∨
    ∃ ts q, t = s.onTurn ts q ∨
      (s.ctl = .idle ∧ s.inDrain = true ∧ drainStep (s.onTurn ts q) = some t) ∨
      (s.ctl = .accepted ∧ executePending (s.onTurn ts q) = .next t) ∨
      (s.ctl ≠ .idle ∧ s.ctl ≠ .accepted ∧ t = advance (s.onTurn ts q)) := by
  cases hl : s.hostLineTaken with
  | some l => exact .inl ⟨l, rfl, step_hostLineTaken hl ▸ h⟩
  | none =>
    refine .inr ?_
    unfold State.hostLineTaken at hl
    simp only [step, stepTurn] at h
    split at h
    next ts ht =>
      simp only [ht] at hl
      simp only [hostStep, hl] at h
      exact ⟨ts, s.quantum, .inl (Host.Outcome.next.inj h).symm⟩
    next q ts ht => exact ⟨ts, q, engineTurn_cases h⟩
    next ht =>
      simp only [ht] at hl
      split at h
      · exact ⟨s.turns, none, engineTurn_cases h⟩
      next hr =>
        rw [if_neg hr] at hl
        simp only [hostStep, hl] at h
        exact ⟨s.turns, s.quantum, .inl (Host.Outcome.next.inj h).symm⟩

/-- The step that is the host's power-on reset. -/
theorem hostResets_iff {s : State} : Spec.hostResets s ↔ s.hostLineTaken = some .powerOnReset := by
  unfold Spec.hostResets State.hostLineTaken
  rcases s.turns with _ | ⟨_ | q, ts⟩
  · cases hr : engineReady s <;> simp
  · simp
  · simp

/-- The items that a host line other than power-on reset, or an accepted command, writes. -/
structure HostMove where
  host : HostAgent
  draws : Nat
  pushed : List Token
  outErr : Bool
  wrIgnored : Bool
  diagEn : Bool
  arg0 : Word
  arg1 : Word

/-- The move of the host alone: no item of the machine is written. -/
def HostMove.of (s : State) (h : HostAgent) : HostMove :=
  { host := h, draws := s.draws, pushed := [], outErr := s.outErr, wrIgnored := s.wrIgnored, diagEn := s.diagEn
    arg0 := s.arg0, arg1 := s.arg1 }

/-- The state after a move of the host. -/
def HostMove.apply (m : HostMove) (s : State) : State :=
  { s with
    host := m.host, draws := m.draws, inQ := s.inQ ++ m.pushed, outErr := m.outErr, wrIgnored := m.wrIgnored
    diagEn := m.diagEn, arg0 := m.arg0, arg1 := m.arg1 }

theorem HostMove.apply_of (s : State) (h : HostAgent) : (HostMove.of s h).apply s = { s with host := h } := by
  simp only [HostMove.apply, HostMove.of, List.append_nil]

/-- A write of a register other than CMD, or one that is dropped, is a move of the host (R74). -/
theorem exists_move_writeReg {r : Reg} {s : State} (h : r ≠ .cmd ∨ s.ctl ≠ .idle) (v : Word) :
    ∃ m : HostMove, hostNext (writeReg r v s) = m.apply s := by
  have hcmd : s.ctl = .idle → r ≠ .cmd := fun hs => h.resolve_right (not_not.2 hs)
  have hmove := HostMove.apply_of s { s.host with pc := s.host.pc + 1 }
  by_cases hr : r ∈ [Reg.ctrl, .cmd, .arg0, .arg1]
  · by_cases hs : s.ctl = .idle
    · obtain rfl | rfl | rfl : r = .ctrl ∨ r = .arg0 ∨ r = .arg1 := by simpa [hcmd hs] using hr
      · rw [writeReg_ctrl_of_idle hs]
        exact ⟨{ HostMove.of s _ with diagEn := v.getLsbD 0 }, by rw [HostMove.apply, HostMove.of, List.append_nil]; rfl⟩
      · rw [writeReg_arg0_of_idle hs]
        exact ⟨{ HostMove.of s _ with arg0 := v }, by rw [HostMove.apply, HostMove.of, List.append_nil]; rfl⟩
      · rw [writeReg_arg1_of_idle hs]
        exact ⟨{ HostMove.of s _ with arg1 := v }, by rw [HostMove.apply, HostMove.of, List.append_nil]; rfl⟩
    · rw [writeReg_of_busy hs hr]
      exact ⟨{ HostMove.of s _ with wrIgnored := true }, by rw [HostMove.apply, HostMove.of, List.append_nil]; rfl⟩
  · rw [writeReg_eq_self hr]
    exact ⟨_, hmove.symm⟩

/-- What a host line does to the machine: a reset, an accepted command, or a move of the host (R391). -/
theorem hostLine_cases {l : HostLine} {s t : State} (h : hostLine l s = .next t) :
    (l = .powerOnReset ∧ t = hostNext (powerOnReset s)) ∨
    (∃ hs v, s.ctl = .idle ∧ t = { s with host := hs, pending := v, ctl := .accepted }) ∨ ∃ m : HostMove, t = m.apply s := by
  cases l with
  | powerOnReset => exact .inl ⟨rfl, (Host.Outcome.next.inj h).symm⟩
  | jmp l => exact .inr (.inr ⟨_, (Host.Outcome.next.inj h).symm.trans (HostMove.apply_of s _).symm⟩)
  | jz e l =>
    simp only [hostLine] at h
    split at h <;> exact .inr (.inr ⟨_, (Host.Outcome.next.inj h).symm.trans (HostMove.apply_of s _).symm⟩)
  | jnz e l =>
    simp only [hostLine] at h
    split at h <;> exact .inr (.inr ⟨_, (Host.Outcome.next.inj h).symm.trans (HostMove.apply_of s _).symm⟩)
  | push ts => exact .inr (.inr ⟨{ HostMove.of s _ with pushed := ts }, (Host.Outcome.next.inj h).symm⟩)
  | outErr b =>
    exact .inr (.inr ⟨{ HostMove.of s _ with outErr := b },
      (Host.Outcome.next.inj h).symm.trans (by rw [HostMove.apply, HostMove.of, List.append_nil]; rfl)⟩)
  | rd a n =>
    simp only [hostLine] at h
    split at h
    · cases h
    next r _ =>
      obtain ⟨k, hk⟩ := readReg_state r s
      refine .inr (.inr ⟨{ HostMove.of s (hostNext (hostRead r s)).host with draws := k }, ?_⟩)
      rw [← Host.Outcome.next.inj h]
      simp only [HostMove.apply, HostMove.of, hostNext, hostGoto, hostRead, hk, List.append_nil]
  | wr a n v =>
    simp only [hostLine] at h
    split at h
    · cases h
    next r _ =>
      have hnext := Host.Outcome.next.inj h
      by_cases hcmd : r = .cmd ∧ s.ctl = .idle
      · obtain ⟨rfl, hs⟩ := hcmd
        rw [writeReg_cmd_of_idle hs] at hnext
        exact .inr (.inl ⟨_, v, hs, hnext.symm⟩)
      · obtain ⟨m, hm⟩ := exists_move_writeReg (not_and_or.1 hcmd) v
        exact .inr (.inr ⟨m, hnext.symm.trans hm⟩)

/-! ### The invariant -/

theorem inv_of_invAs {w : Word} {t : State} (h : InvAs w t) (hw : t.pending = w ∨ t.ctl = .idle) : t.Inv := by
  rcases hw with rfl | hidle
  · exact h
  · exact { h with running := fun i hi => by rw [hidle] at hi; cases hi }

theorem inv_powerOnReset {s : State} (h : s.Inv) : (powerOnReset s).Inv where
  tree_wf := rfl
  bw_wf := packer_closed_wf _
  br_wf := unpacker_closed_wf
  cap_pos := h.cap_pos
  out_owned := rfl
  in_owned := rfl
  units := ⟨rfl, rfl⟩
  place := rfl
  term_owned hf := by cases hf
  drain_free _ := rfl
  window_term hb := by cases hb
  running i hi := by cases hi
  descent d hd := by cases hd
  err_none _ := rfl
  err_last e he := by cases he

theorem inv_hostLine {l : HostLine} {s t : State} (h : s.Inv) (hl : hostLine l s = .next t) :
    t.Inv ∧ KeepsClosed s t := by
  rcases hostLine_cases hl with ⟨-, rfl⟩ | ⟨hs, v, hidle, rfl⟩ | ⟨m, rfl⟩
  · exact ⟨{ inv_powerOnReset h with }, fun _ _ => rfl⟩
  · have hout := h.out_owned
    have hin := h.in_owned
    have hwin := h.window_term
    rw [hidle] at hout hin hwin
    exact ⟨{ h with
      out_owned := hout, in_owned := hin, units := ⟨rfl, rfl⟩, place := rfl, window_term := hwin
      running := fun i hi => (by cases hi)
      descent := fun d hd => (by cases hd) }, keepsClosed_of_eq rfl rfl⟩
  · exact ⟨{ h with }, keepsClosed_of_eq rfl rfl⟩

theorem inv_idleDrain {s t : State} (h : s.Inv) (hidle : s.ctl = .idle) (hdrain : s.inDrain = true)
    (ht : drainStep s = some t) : t.Inv ∧ KeepsClosed s t := by
  obtain ⟨_, q, -, rfl⟩ := drainStep_cases ht
  exact ⟨{ h with
    place := (by simp only [placeOk, hidle])
    drain_free := fun _ => h.drain_free hdrain }, keepsClosed_of_eq rfl rfl⟩

theorem inv_executePending {s t : State} (h : s.Inv) (hc : s.ctl = .accepted) (ht : executePending s = .next t) :
    t.Inv ∧ KeepsClosed s t := by
  cases hi : decode s.pending with
  | ok i =>
    rw [executePending_of_ok hi] at ht
    obtain ⟨hinv, hclosed⟩ := holds_exec (invAs_pending_iff.2 h) hc hi ht
    exact ⟨inv_of_invAs hinv (pending_of_exec ht), hclosed⟩
  | error e =>
    rw [executePending_of_error hi] at ht
    obtain ⟨hinv, hclosed⟩ := holds_executeIllegal (invAs_pending_iff.2 h) hc ht
    refine ⟨inv_of_invAs hinv (.inr ?_), hclosed⟩
    unfold executeIllegal at ht
    split at ht <;> cases ht
    · rfl
    · exact raiseError_ctl ..

/-- Settles O53: host lines leave the units and sessions as they are, or reset them; a drain step touches IN only; a command
starts and goes on as `holds_exec` and `holds_advance` have it. -/
theorem everyStepKeepsInvariant : Obligations.EveryStepKeepsInvariant := by
  intro s t h ht
  have hturn : ∀ ts q, (s.onTurn ts q).Inv := fun ts q => { h with }
  rcases step_cases ht with ⟨l, -, hl⟩ | ⟨ts, q, rfl | ⟨hidle, hdrain, hd⟩ | ⟨hacc, hexec⟩ | ⟨-, -, rfl⟩⟩
  · exact inv_hostLine (s := { s with turns := s.turns.tail }) { h with } hl
  · exact ⟨hturn ts q, keepsClosed_of_eq rfl rfl⟩
  · exact inv_idleDrain (s := s.onTurn ts q) (hturn ts q) hidle hdrain hd
  · exact inv_executePending (s := s.onTurn ts q) (hturn ts q) hacc hexec
  · obtain ⟨hinv, hclosed⟩ := holds_advance (invAs_pending_iff.2 (hturn ts q))
    exact ⟨inv_of_invAs hinv (.inl (sameEnv_advance _).pending), hclosed⟩

end Sys2Proof.Machine
end

section
/-! PROOFS. TREE over an engine step (spec 10_state.md R36): only the end of TREE_LOAD changes it. -/

namespace Sys2Proof.Machine

section
variable {s : State}

theorem startAttempt_tree (m : DecodeFor) (s : State) : (startAttempt m s).tree = s.tree := by
  unfold startAttempt
  split
  · exact raiseError_tree ..
  · rfl

theorem bitTaken_tree (b : Bool) (k : RefillFor) (s : State) : (bitTaken b k s).tree = s.tree := by
  cases k with
  | brNext => rfl
  | decode d m =>
    rw [bitTaken, descend]
    split
    · exact raiseError_tree ..
    · cases m <;> rfl
    · rfl

theorem takeBit_tree (k : RefillFor) (s : State) : (takeBit k s).tree = s.tree := by
  simp only [takeBit]
  split
  · rfl
  · exact bitTaken_tree _ k _

theorem brOpened_tree (k : BrOpenFor) (v : Word) (b : Unpacker) (s : State) : (brOpened k v b s).tree = s.tree := by
  cases k <;> rfl

theorem bwCloseStart_tree (c : Bool) (s : State) : (bwCloseStart c s).tree = s.tree := by
  unfold bwCloseStart
  split
  · exact raiseError_tree ..
  · rfl

theorem outWrite_tree (b : Byte) (c : Ctl) (s : State) : (outWrite b c s).tree = s.tree := by
  rcases outWrite_cases b c s with ⟨-, h⟩ | ⟨-, h⟩ <;> rw [h]
  exact raiseError_tree ..

theorem tickEmit_tree (rest : List Byte) (k : EmitFor) (s : State) : (tickEmit rest k s).tree = s.tree := by
  rcases tickEmit_cases rest k s with ⟨-, h⟩ | ⟨b, r, -, -, -, h⟩ | ⟨-, -, h⟩ <;> rw [h]
  · cases k <;> simp [emitEnd, bwCloseEnd]
  · exact raiseError_tree ..

theorem finish_encodeSymbolBits_tree {f : State → State} (hf : ∀ u, (f u).tree = u.tree) (v : Byte) (s : State) :
    ((encodeSymbolBits v s).finish f).tree = s.tree := by
  rcases encodeSymbolBits_cases v s with ⟨p, -, h⟩ | ⟨-, h⟩ | ⟨q, h⟩ <;> rw [h]
  · exact hf _
  · exact raiseError_tree ..
  · exact raiseError_tree ..

theorem atEof_tree {c : Ctl} (h : ∀ l, c ≠ .load l) (s : State) : (atEof c s).tree = s.tree := by
  cases c with
  | load l => exact absurd rfl (h l)
  | header k => exact brOpened_tree k _ _ s
  | fillNxt k p cur => exact brOpened_tree k _ _ s
  | refill b k => exact bitTaken_tree b k _
  | compress => exact bwCloseStart_tree true s
  | _ => rfl

theorem atByte_tree {c : Ctl} (h : ∀ l, c ≠ .load l) (b : Byte) (s : State) : (atByte c b s).tree = s.tree := by
  cases c with
  | load l => exact absurd rfl (h l)
  | header k =>
    rw [atByte]
    split
    · exact raiseError_tree ..
    · rfl
  | fillNxt k p cur => exact brOpened_tree k _ _ s
  | refill x k => exact bitTaken_tree x k _
  | compress => exact finish_encodeSymbolBits_tree (f := fun t => { t with ctl := .compress }) (fun _ => rfl) b s
  | _ => rfl

theorem tick_tree {t : State} (h : tick s = some t) (hload : ∀ l, s.ctl ≠ .load l) : t.tree = s.tree := by
  by_cases hr : atInRead s.ctl = true
  · rcases tick_atInRead_cases hr h with ⟨-, rfl⟩ | ⟨q, -, -, rfl⟩ | ⟨b, q, -, -, rfl⟩ | ⟨q, -, -, rfl⟩
    · exact atEof_tree hload s
    · exact atEof_tree hload _
    · exact atByte_tree hload b _
    · exact raiseError_tree ..
  · unfold tick at h
    cases hc : s.ctl <;> simp only [hc, Option.some.injEq, reduceCtorEq, atInRead, not_true_eq_false] at h hr
    case openIn k =>
      unfold tickOpenIn at h
      split at h
      · obtain ⟨_, _, -, rfl⟩ := drainStep_cases h
        rfl
      · cases h
        cases k <;> rfl
    case decode d m =>
      subst h
      unfold tickDecode
      split
      · exact takeBit_tree _ s
      · exact raiseError_tree ..
    case symbols n =>
      subst h
      unfold tickSymbols
      split
      · exact startAttempt_tree _ s
      · simp [brCloseSession]
    case putSymbol v n => exact h ▸ outWrite_tree _ _ s
    case emit rest k => exact h ▸ tickEmit_tree rest k s

/-- A turn of a command other than TREE_LOAD leaves TREE. -/
theorem advance_tree {w : Word} (h : InvAs w s) (hw : decode w ≠ .ok .treeLoad) : (advance s).tree = s.tree := by
  refine (advance_keeps (P := fun u => InvAs w u ∧ u.tree = s.tree) (fun t u ⟨hinv, htree⟩ htick => ?_) ⟨h, rfl⟩).2
  refine ⟨(holds_tick hinv htick).1, (tick_tree htick fun l hl => ?_).trans htree⟩
  exact hw (hinv.running .treeLoad (by rw [show ({ t with pending := w } : State).ctl = .load l from hl]; rfl)).1

theorem withSym_tree {body : Byte → State → State} (h : ∀ v, (body v s).tree = s.tree) :
    (withSym body s).tree = s.tree := by
  unfold withSym
  split
  · exact h _
  · exact raiseError_tree ..

theorem commandStart_tree {i : Instr} (hi : i ∉ [Instr.softReset, .treeBuild, .treeClear, .treeLoad]) (s : State) :
    (commandStart i s).tree = s.tree := by
  cases i with
  | softReset | treeBuild | treeClear | treeLoad => exact absurd (by simp) hi
  | nop | clearError | freqClear | bwOpen | brHasNext | treeSave | compress | decompress | brOpen => rfl
  | freqWrite | freqRead =>
    simp only [commandStart]
    exact withSym_tree fun v => rfl
  | codeQuery =>
    simp only [commandStart]
    refine withSym_tree fun v => ?_
    split <;> rfl
  | codeBit =>
    simp only [commandStart]
    refine withSym_tree fun v => ?_
    split
    · exact raiseError_tree ..
    · split
      · exact raiseError_tree ..
      · rfl
  | encodeSymbol =>
    simp only [commandStart]
    refine withSym_tree fun v => finish_encodeSymbolBits_tree (fun u => ?_) v s
    rfl
  | decodeSymbol => exact startAttempt_tree _ s
  | bwWrite =>
    simp only [commandStart, withBit]
    split
    next b _ =>
      by_cases hroom : s.bw.nbits ≠ 7 ∨ s.bw.data.length ≠ s.bwCap
      · rw [bwWriteBit_of_push hroom]
        rfl
      · rw [not_or, not_not, not_not] at hroom
        rw [bwWriteBit_of_full hroom.1 hroom.2]
        exact raiseError_tree ..
    · exact raiseError_tree ..
  | bwClose =>
    simp only [commandStart]
    split
    · exact bwCloseStart_tree false s
    · rfl
  | brNext =>
    simp only [commandStart]
    split
    · exact takeBit_tree _ s
    · exact raiseError_tree ..
  | brClose =>
    simp only [commandStart]
    split
    · rw [brCloseSession_closed_form]
      rfl
    · rfl

/-- A command leaves TREE, but for four. -/
theorem exec_tree {w : Word} (h : InvAs w s) (hc : s.ctl = .accepted) {i : Instr} (hi : decode w = .ok i)
    (hne : i ∉ [Instr.softReset, .treeBuild, .treeClear, .treeLoad]) {t : State} (ht : exec i s = .next t) :
    t.tree = s.tree := by
  rcases exec_cases ht with ⟨-, -, rfl⟩ | ⟨-, -, rfl⟩ | ⟨hgate, hadm, rfl⟩
  · rfl
  · exact raiseError_tree ..
  · have hload : decode w ≠ .ok .treeLoad := fun hd => by
      rw [hi] at hd
      cases hd
      exact hne (by simp)
    exact (advance_tree (holds_commandStart h hc hi hgate hadm).1 hload).trans (commandStart_tree hne s)

end

end Sys2Proof.Machine
end

section
/-! PROOFS. The statements about what every step keeps (spec 10_state.md R35, R36, R43, R44, 60_exceptions.md R341, R343). -/

namespace Sys2Proof.Machine

/-- The engine runs a command wherever it is neither idle nor before the start of one. -/
theorem exists_runningCommand {c : Ctl} (hi : c ≠ .idle) (ha : c ≠ .accepted) : ∃ i, runningCommand c = some i := by
  cases c with
  | idle => exact absurd rfl hi
  | accepted => exact absurd rfl ha
  | openIn k => cases k <;> exact ⟨_, rfl⟩
  | header k | fillCur k | fillNxt k => cases k <;> exact ⟨_, rfl⟩
  | decode d m => cases m <;> exact ⟨_, rfl⟩
  | refill b k => rcases k with _ | ⟨d, _ | n⟩ <;> exact ⟨_, rfl⟩
  | emit rest k => cases k <;> exact ⟨_, rfl⟩
  | load | symbols | putSymbol | compress => exact ⟨_, rfl⟩

/-- What an accepted word does: the command it decodes to, or the rule for illegal words. -/
theorem executePending_cases {s t : State} (h : executePending s = .next t) :
    (∃ i, s.pending = encode i ∧ exec i s = .next t) ∨
      (s.err = none ∧ t = raiseError .illegalCommand s.pending s) ∨ (s.err ≠ none ∧ t = endCommand s) := by
  cases hi : decode s.pending with
  | ok i => exact .inl ⟨i, decode_eq_ok_iff.1 hi, executePending_of_ok hi ▸ h⟩
  | error e =>
    rw [executePending_of_error hi] at h
    by_cases he : s.err = none
    · rw [executeIllegal_of_err_none he] at h
      exact .inr (.inl ⟨he, (Host.Outcome.next.inj h).symm⟩)
    · rw [executeIllegal_of_err he] at h
      exact .inr (.inr ⟨he, (Host.Outcome.next.inj h).symm⟩)

/-- Settles O54: with an error no command runs, and the start of any but CLEAR_ERROR and SOFT_RESET leaves it. -/
theorem errorStaysUntilCleared : Obligations.ErrorStaysUntilCleared := by
  intro s t e h he ht
  have hne : s.err ≠ none := by simp [he]
  rcases step_cases ht with ⟨l, hl, hline⟩ | ⟨ts, q, rfl | ⟨-, -, hd⟩ | ⟨hacc, hexec⟩ | ⟨hi, ha, -⟩⟩
  · rcases hostLine_cases hline with ⟨rfl, rfl⟩ | ⟨hs, v, -, rfl⟩ | ⟨m, rfl⟩
    · exact .inr ⟨rfl, rfl, .inr (hostResets_iff.2 hl)⟩
    · exact .inl ⟨he, rfl⟩
    · exact .inl ⟨he, rfl⟩
  · exact .inl ⟨he, rfl⟩
  · obtain ⟨_, _, -, rfl⟩ := drainStep_cases hd
    exact .inl ⟨he, rfl⟩
  · rcases executePending_cases hexec with ⟨i, hi, hexec⟩ | ⟨herr, -⟩ | ⟨-, rfl⟩
    · by_cases hrun : i ∈ [Instr.nop, .clearError, .softReset]
      · simp only [List.mem_cons, List.not_mem_nil, or_false] at hrun
        obtain ⟨hnop, hclear, hsoft⟩ := controlCommands.2.2.2 (s.onTurn ts q)
        rcases hrun with rfl | rfl | rfl
        · rw [hnop] at hexec
          cases hexec
          exact .inl ⟨he, rfl⟩
        · rw [hclear] at hexec
          cases hexec
          exact .inr ⟨rfl, rfl, .inl ⟨hacc, .inl hi⟩⟩
        · rw [hsoft] at hexec
          cases hexec
          exact .inr ⟨rfl, rfl, .inl ⟨hacc, .inr hi⟩⟩
      · rw [exec_of_err (s := s.onTurn ts q) hne hrun] at hexec
        cases hexec
        exact .inl ⟨he, rfl⟩
    · exact absurd herr hne
    · exact .inl ⟨he, rfl⟩
  · obtain ⟨i, hrun⟩ := exists_runningCommand hi ha
    exact absurd (h.running i hrun).2 hne

/-- Settles O56: host lines but power-on reset write none of the three; the rest is what an engine step comes to. -/
theorem outputsAndHistoryOnlyGrow : Obligations.OutputsAndHistoryOnlyGrow := by
  intro s t ht
  have same : s.errHistory <+: s.errHistory ∧ (Spec.hostResets s ∨ (s.out <+: s.out ∧ s.diag <+: s.diag)) :=
    ⟨List.prefix_rfl, .inr ⟨List.prefix_rfl, List.prefix_rfl⟩⟩
  rcases step_cases ht with ⟨l, hl, hline⟩ | ⟨ts, q, rfl | ⟨-, -, hd⟩ | ⟨-, hexec⟩ | ⟨-, -, rfl⟩⟩
  · rcases hostLine_cases hline with ⟨rfl, rfl⟩ | ⟨hs, v, -, rfl⟩ | ⟨m, rfl⟩
    · exact ⟨List.prefix_rfl, .inl (hostResets_iff.2 hl)⟩
    · exact same
    · exact same
  · exact same
  · obtain ⟨_, _, -, rfl⟩ := drainStep_cases hd
    exact same
  · rcases executePending_cases hexec with ⟨i, -, hexec⟩ | ⟨-, rfl⟩ | ⟨-, rfl⟩
    · obtain ⟨hhist, hout⟩ := errHistory_prefix_of_exec hexec
      exact ⟨hhist, .inr hout⟩
    · have heffect := effect_raiseError .illegalCommand (s.onTurn ts q).pending (.refl (s.onTurn ts q))
      exact ⟨heffect.errHistory_prefix, .inr heffect.outputs_prefix⟩
    · exact same
  · have heffect := effect_advance (s.onTurn ts q)
    exact ⟨heffect.errHistory_prefix, .inr heffect.outputs_prefix⟩

/-- Settles O55: FREQ by `SameEnv`, TREE by the end of TREE_LOAD and the three commands that set it at once. -/
theorem onlyTheirCommandsChangeFreqAndTree : Obligations.OnlyTheirCommandsChangeFreqAndTree := by
  intro s t h ht hreset
  rcases step_cases ht with ⟨l, hl, hline⟩ | ⟨ts, q, rfl | ⟨-, -, hd⟩ | ⟨hacc, hexec⟩ | ⟨hi, ha, rfl⟩⟩
  · rcases hostLine_cases hline with ⟨rfl, rfl⟩ | ⟨hs, v, -, rfl⟩ | ⟨m, rfl⟩
    · exact absurd (hostResets_iff.2 hl) hreset
    · exact ⟨.inl rfl, .inl rfl⟩
    · exact ⟨.inl rfl, .inl rfl⟩
  · exact ⟨.inl rfl, .inl rfl⟩
  · obtain ⟨_, _, -, rfl⟩ := drainStep_cases hd
    exact ⟨.inl rfl, .inl rfl⟩
  · have hinv : InvAs s.pending (s.onTurn ts q) := { h with }
    have hbusy : s.ctl ≠ .idle := by simp [hacc]
    rcases executePending_cases hexec with ⟨i, hi, hexec⟩ | ⟨-, rfl⟩ | ⟨-, rfl⟩
    · have hi : s.pending = encode i := hi
      constructor
      · rcases sameEnv_exec hexec with henv | ⟨hmem, hstart, -⟩
        · exact .inl henv.freq
        · simp only [List.mem_cons, List.not_mem_nil, or_false] at hmem
          rcases hmem with rfl | rfl | rfl | rfl
          · exact .inl (by rw [hstart]; rfl)
          all_goals exact .inr ⟨hacc, by rw [hi]; decide⟩
      · by_cases hmem : i ∈ [Instr.softReset, .treeBuild, .treeClear, .treeLoad]
        · refine .inr ⟨hbusy, ?_⟩
          simp only [List.mem_cons, List.not_mem_nil, or_false] at hmem
          rcases hmem with rfl | rfl | rfl | rfl <;> rw [hi] <;> decide
        · exact .inl (exec_tree hinv hacc (decode_eq_ok_iff.2 hi) hmem hexec)
    · exact ⟨.inl (raiseError_freq ..), .inl (raiseError_tree ..)⟩
    · exact ⟨.inl rfl, .inl rfl⟩
  · have hinv : InvAs s.pending (s.onTurn ts q) := { h with }
    refine ⟨.inl (sameEnv_advance (s.onTurn ts q)).freq, ?_⟩
    by_cases hload : decode s.pending = .ok .treeLoad
    · exact .inr ⟨hi, by rw [decode_eq_ok_iff.1 hload]; decide⟩
    · exact .inl (advance_tree hinv hload)

end Sys2Proof.Machine
end

section
/-! PROOFS. Items that decide nothing: an engine step reads neither the echo, nor the length of its turn, nor the tokens behind
those it takes (spec 44_bitwriter.md R282, 70_reset_and_hazards.md R385, R392). -/

namespace Sys2Proof.Machine

/-- What is set aside: whether the echo stays, the length of the turn, and tokens pushed later. -/
structure Recast where
  echo : Bool
  quantum : Option Nat
  late : List Token

/-- The state with the echo left as it is or switched off and emptied, another length of the turn, and more tokens in IN. -/
def State.recast (s : State) (r : Recast) : State :=
  { s with
    diagEn := s.diagEn && r.echo, diag := if r.echo then s.diag else [], quantum := r.quantum, inQ := s.inQ ++ r.late }

variable (r : Recast)

/-! ### The parts of an engine step -/

theorem ite_recast (c : Prop) [Decidable c] (s t : State) :
    (if c then s else t).recast r = if c then s.recast r else t.recast r := apply_ite (State.recast · r) c s t

theorem raiseError_recast (e : ErrName) (i : Word) (s : State) :
    raiseError e i (s.recast r) = (raiseError e i s).recast r := by
  simp only [raiseError_closed_form, State.recast]

theorem outClose_recast (s : State) : outClose (s.recast r) = (outClose s).recast r := by
  simp only [outClose_closed_form, State.recast]

theorem inRelease_recast (s : State) : inRelease (s.recast r) = (inRelease s).recast r := by
  unfold inRelease
  rw [ite_recast]
  rfl

theorem loadLine_recast (l : LoadState) (s : State) : loadLine l (s.recast r) = (loadLine l s).recast r := by
  rcases loadLine_cases l with ⟨v, -, -, hl⟩ | ⟨v, p, t, -, -, -, hl⟩ | ⟨e, -, hl⟩ <;> rw [hl, hl]
  · rfl
  · rfl
  · exact raiseError_recast r _ _ s

theorem loadEnd_recast (l : LoadState) (s : State) : loadEnd l (s.recast r) = (loadEnd l s).recast r := by
  unfold loadEnd
  split
  · exact raiseError_recast r _ _ s
  · rw [inRelease_recast]
    rfl

theorem startAttempt_recast (m : DecodeFor) (s : State) :
    startAttempt m (s.recast r) = (startAttempt m s).recast r := by
  cases ht : s.tree with
  | empty =>
    rw [startAttempt, startAttempt, ht, show (s.recast r).tree = .empty from ht]
    exact raiseError_recast r _ _ s
  | root a b =>
    rw [startAttempt_of_root ht, startAttempt_of_root (show (s.recast r).tree = .root a b from ht)]
    rfl

theorem bitTaken_recast (b : Bool) (k : RefillFor) (s : State) :
    bitTaken b k (s.recast r) = (bitTaken b k s).recast r := by
  cases k with
  | brNext => rfl
  | decode d m =>
    simp only [bitTaken, descend]
    split
    · exact raiseError_recast r _ _ s
    · cases m <;> rfl
    · rfl

theorem takeBit_recast (k : RefillFor) (s : State) : takeBit k (s.recast r) = (takeBit k s).recast r := by
  by_cases h7 : s.br.pos = 7
  · rw [takeBit_of_pos_eq_seven h7, takeBit_of_pos_eq_seven (show (s.recast r).br.pos = 7 from h7)]
    rfl
  · rw [takeBit_of_pos_ne_seven h7, takeBit_of_pos_ne_seven (show (s.recast r).br.pos ≠ 7 from h7)]
    exact bitTaken_recast r (currentBit s.br) k { s with br := { s.br with pos := s.br.pos + 1 } }

theorem brOpened_recast (k : BrOpenFor) (v : Word) (b : Unpacker) (s : State) :
    brOpened k v b (s.recast r) = (brOpened k v b s).recast r := by
  cases k <;> rfl

theorem bwCloseStart_recast (c : Bool) (s : State) : bwCloseStart c (s.recast r) = (bwCloseStart c s).recast r := by
  unfold bwCloseStart
  refine .trans ?_ (ite_recast ..).symm
  rw [raiseError_recast]
  rfl

theorem bwCloseEnd_recast (s : State) : bwCloseEnd (s.recast r) = (bwCloseEnd s).recast r := by
  simp only [bwCloseEnd, outClose_closed_form, State.recast]

theorem emitEnd_recast (k : EmitFor) (s : State) : emitEnd k (s.recast r) = (emitEnd k s).recast r := by
  cases k with
  | save n =>
    rw [emitEnd, outClose_recast]
    rfl
  | bwClose h =>
    rw [emitEnd, bwCloseEnd_recast]
    rfl
  | compress n =>
    rw [emitEnd, bwCloseEnd_recast, inRelease_recast]
    rfl

theorem outWrite_recast (b : Byte) (c : Ctl) (s : State) : outWrite b c (s.recast r) = (outWrite b c s).recast r := by
  unfold outWrite
  refine .trans ?_ (ite_recast ..).symm
  rw [raiseError_recast]
  rfl

theorem tickEmit_recast (rest : List Byte) (k : EmitFor) (s : State) :
    tickEmit rest k (s.recast r) = (tickEmit rest k s).recast r := by
  cases k with
  | compress n =>
    simp only [tickEmit]
    rcases outWrites_cases rest s with ⟨h, hw⟩ | ⟨h, hne, hw⟩
    · rw [hw]
      rcases outWrites_cases rest (s.recast r) with ⟨-, hw'⟩ | ⟨h', hne, -⟩
      · rw [hw']
        exact emitEnd_recast r (.compress n) { s with out := s.out ++ rest.map .byte }
      · exact absurd h (not_or.2 ⟨by simpa [State.recast] using h', hne⟩)
    · rw [hw]
      rcases outWrites_cases rest (s.recast r) with ⟨h', -⟩ | ⟨-, -, hw'⟩
      · exact absurd h' (not_or.2 ⟨by simpa [State.recast] using h, hne⟩)
      · rw [hw']
        exact raiseError_recast r _ _ s
  | save n =>
    cases rest with
    | nil => exact emitEnd_recast r (.save n) s
    | cons b rest => exact outWrite_recast r b _ s
  | bwClose h =>
    cases rest with
    | nil => exact emitEnd_recast r (.bwClose h) s
    | cons b rest => exact outWrite_recast r b _ s

theorem packed_recast (p : List Bool) (s : State) : (s.recast r).packed p = (s.packed p).recast r := by
  unfold State.packed State.recast Spec.echo
  cases r.echo <;> cases s.diagEn <;> simp

theorem finish_bwWriteBit_recast {f : State → State} (hf : ∀ u, f (u.recast r) = (f u).recast r) (b : Bool) (s : State) :
    (bwWriteBit b (s.recast r)).finish f = ((bwWriteBit b s).finish f).recast r := by
  by_cases h : s.bw.nbits ≠ 7 ∨ s.bw.data.length ≠ s.bwCap
  · rw [bwWriteBit_of_push h, bwWriteBit_of_push (s := s.recast r) h, packed_recast]
    exact hf _
  · rw [not_or, not_not, not_not] at h
    rw [bwWriteBit_of_full h.1 h.2, bwWriteBit_of_full (s := s.recast r) h.1 h.2]
    refine .trans ?_ (raiseError_recast r _ _ { s with diag := Spec.echo s [b] })
    have hpacked := congrArg State.diag (packed_recast r [b] s)
    simp only [State.packed, State.recast] at hpacked
    simp only [Flow.finish, State.recast, hpacked]

theorem finish_bwWriteBits_recast {f : State → State} (hf : ∀ u, f (u.recast r) = (f u).recast r) (p : List Bool)
    (s : State) : (bwWriteBits p (s.recast r)).finish f = ((bwWriteBits p s).finish f).recast r := by
  induction p generalizing s with
  | nil => exact hf s
  | cons b p ih =>
    rw [bwWriteBits, bwWriteBits, Flow.finish_andThen, Flow.finish_andThen]
    exact finish_bwWriteBit_recast r ih b s

theorem finish_encodeSymbolBits_recast {f : State → State} (hf : ∀ u, f (u.recast r) = (f u).recast r) (v : Byte)
    (s : State) : (encodeSymbolBits v (s.recast r)).finish f = ((encodeSymbolBits v s).finish f).recast r := by
  unfold encodeSymbolBits
  rw [show (s.recast r).tree = s.tree from rfl]
  cases s.tree.code v with
  | none => exact raiseError_recast r _ _ s
  | some p => exact finish_bwWriteBits_recast r hf p s

/-! ### An engine step -/

theorem atEof_recast (c : Ctl) (s : State) : atEof c (s.recast r) = (atEof c s).recast r := by
  cases c with
  | load l =>
    rw [atEof, atEof, loadEnd_recast, loadLine_recast, ite_recast]
  | header k => exact brOpened_recast r k _ _ s
  | fillNxt k p cur => exact brOpened_recast r k _ _ s
  | refill b k => exact bitTaken_recast r b k { s with br := { s.br with nxt := none } }
  | compress => exact bwCloseStart_recast r true s
  | _ => rfl

theorem atByte_recast (c : Ctl) (b : Byte) (s : State) : atByte c b (s.recast r) = (atByte c b s).recast r := by
  cases c with
  | load l =>
    rw [atByte, atByte, loadLine_recast, ite_recast]
    rfl
  | header k =>
    rw [atByte, atByte]
    split
    · exact raiseError_recast r _ _ s
    · rfl
  | fillNxt k p cur => exact brOpened_recast r k _ _ s
  | refill x k => exact bitTaken_recast r x k { s with br := { s.br with nxt := some b } }
  | compress => exact finish_encodeSymbolBits_recast r (fun u => rfl) b s
  | _ => rfl

/-- An engine step is the same step with the items set aside. -/
theorem tick_recast {s t : State} (h : tick s = some t) : tick (s.recast r) = some (t.recast r) := by
  by_cases hr : atInRead s.ctl = true
  · have hr' : atInRead (s.recast r).ctl = true := hr
    rw [tick_of_atInRead hr']
    rcases tick_atInRead_cases hr h with ⟨hi, rfl⟩ | ⟨q, hi, hq, rfl⟩ | ⟨b, q, hi, hq, rfl⟩ | ⟨q, hi, hq, rfl⟩
    · rw [inRead_of_inTerm (s := s.recast r) hi]
      exact congrArg some (atEof_recast r _ s)
    · rw [inRead_of_eos (s := s.recast r) (q := q ++ r.late) hi (by simp [State.recast, hq])]
      exact congrArg some (atEof_recast r _ { s with inQ := q, inTerm := true })
    · rw [inRead_of_byte (s := s.recast r) (n := b) (q := q ++ r.late) hi (by simp [State.recast, hq])]
      exact congrArg some (atByte_recast r _ b { s with inQ := q })
    · rw [inRead_of_err (s := s.recast r) (q := q ++ r.late) hi (by simp [State.recast, hq])]
      exact congrArg some (raiseError_recast r _ _ { s with inQ := q, inTerm := true })
  · unfold tick at h ⊢
    rw [show (s.recast r).ctl = s.ctl from rfl]
    cases hc : s.ctl <;> simp only [hc, Option.some.injEq, reduceCtorEq, atInRead, not_true_eq_false] at h hr ⊢
    case openIn k =>
      simp only [tickOpenIn] at h ⊢
      rw [show (s.recast r).inDrain = s.inDrain from rfl]
      split at h
      next hd =>
        obtain ⟨x, q, hq, rfl⟩ := drainStep_cases h
        rw [if_pos hd, drainStep, show (s.recast r).inQ = x :: (q ++ r.late) by simp [State.recast, hq]]
        rfl
      next hd =>
        cases h
        rw [if_neg hd]
        cases k <;> rfl
    case decode d m =>
      subst h
      unfold tickDecode
      rw [takeBit_recast, raiseError_recast]
      exact (ite_recast ..).symm
    case symbols n =>
      subst h
      unfold tickSymbols
      rw [startAttempt_recast, brCloseSession, inRelease_recast]
      refine .trans ?_ (ite_recast ..).symm
      refine congrArg _ (.trans ?_ (congrArg (complete n) (outClose_recast r _)))
      rfl
    case putSymbol v n => exact h ▸ outWrite_recast r _ _ s
    case emit rest k => exact h ▸ tickEmit_recast r rest k s

/-- Where nothing is pushed, an engine that has no step has none. -/
theorem tick_recast_none {s : State} (hlate : r.late = []) (h : tick s = none) : tick (s.recast r) = none := by
  rw [tick_eq_none_iff] at h ⊢
  simpa only [State.recast, hlate, List.append_nil] using h

/-! ### A command -/

theorem withSym_recast {body : Byte → State → State} {s : State}
    (h : ∀ v, body v (s.recast r) = (body v s).recast r) : withSym body (s.recast r) = (withSym body s).recast r := by
  simp only [withSym, symOperand, show (s.recast r).arg0 = s.arg0 from rfl]
  split
  · exact h _
  · exact raiseError_recast r _ _ s

theorem commandStart_recast (i : Instr) (s : State) : commandStart i (s.recast r) = (commandStart i s).recast r := by
  cases i with
  | nop | clearError | freqClear | treeBuild | treeClear | treeSave | treeLoad | compress | decompress | bwOpen
  | brOpen | brHasNext => rfl
  | softReset =>
    simp only [commandStart]
    rw [softReset_closed_form, softReset_closed_form]
    simp only [softResetItems, State.recast, Bool.false_and]
    rfl
  | freqWrite | freqRead =>
    simp only [commandStart]
    exact withSym_recast r fun v => rfl
  | codeQuery =>
    simp only [commandStart]
    refine withSym_recast r fun v => ?_
    rw [show (s.recast r).tree = s.tree from rfl]
    split <;> rfl
  | codeBit =>
    simp only [commandStart]
    refine withSym_recast r fun v => ?_
    rw [show (s.recast r).tree = s.tree from rfl, show indexOperand (s.recast r) = indexOperand s from rfl]
    split
    · exact raiseError_recast r _ _ s
    · split
      · exact raiseError_recast r _ _ s
      · rfl
  | encodeSymbol =>
    simp only [commandStart]
    exact withSym_recast r fun v => finish_encodeSymbolBits_recast r (fun u => rfl) v s
  | decodeSymbol => exact startAttempt_recast r _ s
  | bwWrite =>
    simp only [commandStart, withBit, bitOperand, show (s.recast r).arg0 = s.arg0 from rfl]
    split
    · exact finish_bwWriteBit_recast r (fun u => rfl) _ s
    · exact raiseError_recast r _ _ s
  | bwClose =>
    simp only [commandStart]
    rw [bwCloseStart_recast, ite_recast]
    rfl
  | brNext =>
    simp only [commandStart]
    rw [takeBit_recast, raiseError_recast]
    exact (ite_recast ..).symm
  | brClose =>
    simp only [commandStart]
    rw [brCloseSession, inRelease_recast, ite_recast]
    rfl

/-- A command starts in one state, whatever is set aside, and its turn begins there. -/
theorem exec_recast (i : Instr) (s : State) :
    ∃ u : State, u.quantum = s.quantum ∧ ∀ r, exec i (s.recast r) = .next (advance (u.recast r)) := by
  have hgate : ∀ r : Recast, (s.recast r).err = s.err := fun _ => rfl
  have hadm : ∀ r : Recast, admits i (s.recast r) = admits i s := fun _ => by cases i <;> rfl
  simp only [exec_eq_advance, command, hgate, hadm]
  by_cases he : (s.err.isSome && !runsWhileErr i) = true
  · refine ⟨endCommand s, rfl, fun r => ?_⟩
    rw [if_pos he, advance_of_idle rfl]
    rfl
  · by_cases ha : (!admits i s) = true
    · refine ⟨raiseError .illegalState (encode i) s, raiseError_quantum .., fun r => ?_⟩
      rw [if_neg he, if_pos ha, ← raiseError_recast, advance_of_idle (raiseError_ctl ..)]
    · refine ⟨commandStart i s, ?_, fun r => by rw [if_neg he, if_neg ha, commandStart_recast]⟩
      by_cases hi : i ∈ [Instr.clearError, .softReset, .freqClear, .freqWrite]
      · simp only [List.mem_cons, List.not_mem_nil, or_false] at hi
        rcases hi with rfl | rfl | rfl | rfl
        · rfl
        · simp only [commandStart]
          rw [softReset_closed_form]
          rfl
        · rfl
        · simp only [commandStart, withSym]
          split
          · rfl
          · exact raiseError_quantum ..
      · exact (sameEnv_commandStart hi s).quantum

end Sys2Proof.Machine
end

section
/-! PROOFS. The statements about the echo, late pushes and cut turns (spec 44_bitwriter.md R282, 70_reset_and_hazards.md R385,
R392). -/

namespace Sys2Proof.Machine

/-- Nothing set aside. -/
def Recast.same (s : State) : Recast := ⟨true, s.quantum, []⟩

theorem recast_same (s : State) : s.recast (.same s) = s := by
  simp [State.recast, Recast.same]

theorem work_recast {r : Recast} (hlate : r.late = []) (s : State) : work (s.recast r) = work s := by
  simp only [work, State.recast, hlate, List.append_nil, compressWork, bitsAhead]

theorem runTicks_recast {r : Recast} (hlate : r.late = []) (n : Nat) (s : State) :
    runTicks n (s.recast r) = (runTicks n s).recast r := by
  induction n generalizing s with
  | zero => rfl
  | succ n ih =>
    cases ht : tick s with
    | none => simp only [runTicks, ht, tick_recast_none r hlate ht]
    | some t => simp only [runTicks, ht, tick_recast r ht, ih]

/-- Settles O38: the echo is one of the items set aside. -/
theorem diagEchoChangesNothingElse : Obligations.DiagEchoChangesNothingElse := by
  intro s t i h
  obtain ⟨u, hq, hexec⟩ := exec_recast i s
  have hsame := hexec (.same s)
  rw [recast_same, h, Recast.same, ← hq, ← Recast.same, recast_same] at hsame
  have hoff : ∀ v : State, { v with diagEn := false, diag := [] } = v.recast ⟨false, v.quantum, []⟩ := fun v => by
    simp [State.recast]
  rw [hoff s, hexec, Host.Outcome.next.inj hsame, hoff, (sameEnv_advance u).quantum, hq]
  refine congrArg _ ?_
  simp only [advance, State.recast, hq]
  cases s.quantum with
  | none =>
    exact (congrArg (runTicks · _) (work_recast (r := ⟨false, none, []⟩) rfl u)).trans
      (runTicks_recast (r := ⟨false, none, []⟩) rfl _ u)
  | some n => exact runTicks_recast (r := ⟨false, some n, []⟩) rfl n u

/-- Settles O58: the engine steps of the first turn are those it takes with the tokens already there. -/
theorem latePushesMakeNoDifference : Obligations.LatePushesMakeNoDifference := by
  intro s t i ts hq h
  obtain ⟨u, huq, hexec⟩ := exec_recast i s
  have hsame := hexec (.same s)
  rw [recast_same, h, Recast.same, ← huq, ← Recast.same, recast_same] at hsame
  have hpush : ∀ v : State, v.quantum = none → pushTokens ts v = v.recast ⟨true, none, ts⟩ := fun v hv => by
    simp [pushTokens, State.recast, ← hv]
  rw [hpush s hq, hexec, Host.Outcome.next.inj hsame, hpush _ ((sameEnv_advance u).quantum.trans (huq.trans hq))]
  refine congrArg _ ?_
  refine advance_keeps (P := fun v => advance (u.recast ⟨true, none, ts⟩) = advance (v.recast ⟨true, none, ts⟩))
    (fun v w hv hvw => ?_) rfl
  exact hv.trans (advance_tick rfl (tick_recast _ hvw))

/-- A whole turn takes up where any number of its engine steps ended. -/
theorem advance_runTicks {s : State} (hq : s.quantum = none) (n : Nat) : advance (runTicks n s) = advance s := by
  induction n generalizing s with
  | zero => rfl
  | succ n ih =>
    cases ht : tick s with
    | none => simp only [runTicks, ht]
    | some t =>
      simp only [runTicks, ht]
      rw [ih ((sameEnv_tick ht).quantum.trans hq), advance_tick hq ht]

/-- Settles O59: the length of the turn is one of the items set aside. -/
theorem cutTurnsMakeNoDifference : Obligations.CutTurnsMakeNoDifference := by
  intro s t i n h
  obtain ⟨u, -, hexec⟩ := exec_recast i s
  have hset : ∀ (v : State) (q : Option Nat), { v with quantum := q } = v.recast ⟨true, q, []⟩ := fun v q => by
    simp [State.recast]
  rw [hset, hexec] at h
  rw [hset, hexec, ← Host.Outcome.next.inj h]
  have hcut : advance (u.recast ⟨true, some n, []⟩) = (runTicks n u).recast ⟨true, some n, []⟩ :=
    runTicks_recast rfl n u
  have hwhole : { (runTicks n u).recast ⟨true, some n, []⟩ with quantum := none } =
      runTicks n (u.recast ⟨true, none, []⟩) := by
    rw [runTicks_recast rfl]
    rfl
  rw [hcut, hwhole, advance_runTicks rfl]

end Sys2Proof.Machine
end

section
/-! PROOFS. The drain of an abandoned session (spec 10_state.md R42, 20_memory.md R80): by an idle engine, and at InOpen. -/

namespace Sys2Proof.Machine

@[simp] theorem isTerminator_eos : isTerminator .eos = true := rfl

@[simp] theorem isTerminator_err : isTerminator .err = true := rfl

@[simp] theorem isTerminator_byte (b : Byte) : isTerminator (.byte b) = false := rfl

theorem isTerminator_of_or {e : Token} (h : e = .eos ∨ e = .err) : isTerminator e = true := by
  rcases h with rfl | rfl <;> rfl

theorem drainStep_of_cons {s : State} {x : Token} {q : List Token} (h : s.inQ = x :: q) :
    drainStep s = some { s with inQ := q, inDrain := !isTerminator x } := by
  rw [drainStep, h]

theorem engineTurn_of_idle {s : State} (hc : s.ctl = .idle) : engineTurn s = .next ((idleDrain s).getD s) := by
  simp only [engineTurn, hc]

/-- A step of an idle engine with no schedule left, while a drain is in progress. -/
theorem step_of_idle_drain {s : State} (hc : s.ctl = .idle) (ht : s.turns = []) (hd : s.inDrain = true) {x : Token}
    {q : List Token} (hq : s.inQ = x :: q) :
    step s = .next { s with inQ := q, inDrain := !isTerminator x, quantum := none } := by
  have hready : engineReady s = true := by simp [engineReady, hc, idleDrain, hd, drainStep_of_cons hq]
  rw [step_of_engineReady ht hready, engineTurn_of_idle (by exact hc), idleDrain, if_pos (by exact hd),
    drainStep_of_cons (by exact hq)]
  rfl

theorem tick_openIn_drain {s : State} {k : OpenFor} (hc : s.ctl = .openIn k) (hd : s.inDrain = true) :
    tick s = drainStep s := by
  simp only [tick, hc, tickOpenIn, hd, if_true]

/-- At InOpen the rest of an abandoned session is taken first. -/
theorem advance_openIn_drain {s : State} {k : OpenFor} (hq : s.quantum = none) (hc : s.ctl = .openIn k)
    (hd : s.inDrain = true) {l : List Byte} {e : Token} (he : isTerminator e = true) {rest : List Token}
    (hin : s.inQ = Spec.inBytes l ++ e :: rest) : advance s = advance { s with inQ := rest, inDrain := false } := by
  induction l generalizing s with
  | nil =>
    rw [advance_tick hq ((tick_openIn_drain hc hd).trans (drainStep_of_cons hin)), he]
    rfl
  | cons b l ih =>
    rw [advance_tick hq ((tick_openIn_drain hc hd).trans (drainStep_of_cons hin))]
    exact ih (s := { s with inQ := Spec.inBytes l ++ e :: rest, inDrain := true }) hq hc rfl rfl

theorem run_of_step {n : Nat} {s t : core.State} (h : core.step s = .next t) : core.run (n + 1) s = core.run n t := by
  simp only [Host.Core.run, h]

/-- Settles O60: each drain step takes one token, and a terminator ends the drain. -/
theorem drainDiscardsTheAbandonedSession : Obligations.DrainDiscardsTheAbandonedSession := by
  intro s l e rest hd he hin
  have hterm := isTerminator_of_or he
  constructor
  · intro hc ht
    induction l generalizing s with
    | nil =>
      have hstep := step_of_idle_drain hc ht hd hin
      rw [hterm] at hstep
      exact run_of_step hstep
    | cons b l ih =>
      have hstep := step_of_idle_drain hc ht hd hin
      refine (run_of_step hstep).trans ?_
      exact ih { s with inQ := Spec.inBytes l ++ e :: rest, inDrain := true, quantum := none } rfl rfl hc ht
  · intro i hi hready
    obtain ⟨herr, hbw, hbr, hq⟩ := hready
    have hadm : ∀ u : State, u.bw = s.bw → u.br = s.br → admits i u = true := fun u hw hb => by
      simp only [List.mem_cons, List.not_mem_nil, or_false] at hi
      rcases hi with rfl | rfl | rfl | rfl <;> simp [admits, hw, hb, hbw, hbr]
    rw [exec_eq_advance, exec_eq_advance, command_run herr (hadm s rfl rfl),
      command_run (s := { s with inQ := rest, inDrain := false }) herr (hadm _ rfl rfl)]
    refine congrArg _ ?_
    simp only [List.mem_cons, List.not_mem_nil, or_false] at hi
    rcases hi with rfl | rfl | rfl | rfl
    · exact advance_openIn_drain (s := treeLoadStart s) hq rfl hd hterm hin
    · exact advance_openIn_drain (s := { s with ctl := .openIn .compress }) hq rfl hd hterm hin
    · exact advance_openIn_drain (s := { s with ctl := .openIn .brOpen }) hq rfl hd hterm hin
    · exact advance_openIn_drain (s := { s with ctl := .openIn .decompress }) hq rfl hd hterm hin

end Sys2Proof.Machine
end

section
/-! PROOFS. The statement about undefined accesses and dutiful hosts (spec 20_memory.md R73, 70_reset_and_hazards.md R384,
R391). -/

namespace Sys2Proof.Machine

/-! ### What a command leaves of the host and of WR_IGNORED -/

theorem host_of_exec {i : Instr} {s t : State} (h : exec i s = .next t) :
    t.host = s.host ∧ (t.wrIgnored = s.wrIgnored ∨ t.wrIgnored = false) := by
  rcases sameEnv_exec h with henv | ⟨hmem, rfl, -⟩
  · exact ⟨henv.host, .inl henv.wrIgnored⟩
  · simp only [List.mem_cons, List.not_mem_nil, or_false] at hmem
    rcases hmem with rfl | rfl | rfl | rfl
    · exact ⟨rfl, .inr rfl⟩
    · simp only [commandStart]
      rw [softReset_closed_form]
      exact ⟨rfl, .inr rfl⟩
    · exact ⟨rfl, .inl rfl⟩
    · simp only [commandStart, withSym]
      split
      · exact ⟨rfl, .inl rfl⟩
      · exact ⟨raiseError_host .., .inl (raiseError_wrIgnored ..)⟩

/-- The engine leaves the host as it is, and sets no WR_IGNORED. -/
theorem host_of_step {s t : State} (h : step s = .next t) (hline : s.hostLineTaken = none) :
    t.host = s.host ∧ (t.wrIgnored = s.wrIgnored ∨ t.wrIgnored = false) := by
  rcases step_cases h with ⟨l, hl, -⟩ | ⟨ts, q, rfl | ⟨-, -, hd⟩ | ⟨-, hexec⟩ | ⟨-, -, rfl⟩⟩
  · exact absurd (hline.symm.trans hl) (by simp)
  · exact ⟨rfl, .inl rfl⟩
  · obtain ⟨_, _, -, rfl⟩ := drainStep_cases hd
    exact ⟨rfl, .inl rfl⟩
  · rcases executePending_cases hexec with ⟨i, -, hexec⟩ | ⟨-, rfl⟩ | ⟨-, rfl⟩
    · exact host_of_exec (s := s.onTurn ts q) hexec
    · exact ⟨raiseError_host .., .inl (raiseError_wrIgnored ..)⟩
    · exact ⟨rfl, .inl rfl⟩
  · have henv := sameEnv_advance (s.onTurn ts q)
    exact ⟨henv.host, .inl henv.wrIgnored⟩

/-! ### Accesses -/

theorem mem_windowRegs (r : Reg) : r ∈ windowRegs := by
  cases r with
  | reserved k => fin_cases k <;> simp [windowRegs]
  | _ => simp [windowRegs]

theorem accessReg_eq_some_iff {a n : Nat} {r : Reg} : accessReg a n = some r ↔ n = 4 ∧ a = regOffset r := by
  constructor
  · intro h
    unfold accessReg at h
    split at h
    next hdef =>
      obtain ⟨rfl, h4⟩ := hdef
      have hidx : ∀ k < 16, windowRegs[k]? = some r → k = (regIndex r).val := by
        intro k hk hr
        interval_cases k <;> cases hr <;> rfl
      have hlt : a / 4 < 16 := (List.getElem?_eq_some_iff.1 h).1
      exact ⟨rfl, by have := hidx _ hlt h; unfold regOffset; omega⟩
    · cases h
  · rintro ⟨rfl, rfl⟩
    exact accessReg_regOffset r (mem_windowRegs r)

/-- The accesses that R73 defines. -/
theorem accessReg_ne_none_iff {a n : Nat} : accessReg a n ≠ none ↔ n = 4 ∧ a % 4 = 0 ∧ a ≤ 0x3C := by
  unfold accessReg
  split
  next hdef =>
    rw [Ne, List.getElem?_eq_none_iff, show windowRegs.length = 16 from rfl]
    omega
  next hdef => exact ⟨fun h => absurd rfl h, fun h => absurd ⟨h.1, h.2.1⟩ hdef⟩

theorem exists_hostLine_of_keepsDuty {l : HostLine} {s : State} (h : keepsDuty l s = true) :
    ∃ t, hostLine l s = .next t := by
  cases l with
  | rd a n =>
    obtain ⟨r, hr⟩ := accessReg_of_accessDefined h
    exact ⟨_, by rw [hostLine, hr]⟩
  | wr a n v =>
    rw [keepsDuty, Bool.and_eq_true] at h
    obtain ⟨r, hr⟩ := accessReg_of_accessDefined h.1
    exact ⟨_, by rw [hostLine, hr]⟩
  | push | outErr | jmp | jz | jnz | powerOnReset => exact ⟨_, rfl⟩

/-- A write that keeps the duty is not dropped (R383). -/
theorem wrIgnored_of_keepsDuty {l : HostLine} {s t : State} (h : keepsDuty l s = true) (ht : hostLine l s = .next t)
    (hs : s.wrIgnored = false) : t.wrIgnored = false := by
  cases l with
  | powerOnReset =>
    cases ht
    rfl
  | push | outErr | jmp =>
    cases ht
    exact hs
  | jz e l | jnz e l =>
    simp only [hostLine] at ht
    split at ht <;> cases ht <;> exact hs
  | rd a n =>
    simp only [hostLine] at ht
    split at ht
    · cases ht
    next r _ =>
      obtain ⟨k, hk⟩ := readReg_state r s
      cases ht
      simp only [hostNext, hostGoto, hostRead, hk]
      exact hs
  | wr a n v =>
    simp only [hostLine] at ht
    split at ht
    · cases ht
    next r hr =>
      simp only [keepsDuty, hr, Bool.and_eq_true, Option.all_some, writeKeepsDuty, Bool.not_eq_true',
        Bool.and_eq_false_iff] at h
      obtain ⟨-, htakes | hbusy, -⟩ := h
      · cases ht
        cases r with
        | ctrl | cmd | arg0 | arg1 => cases htakes
        | id | status | result | errInfo | treeInfo | bwInfo | bwCount | brInfo | reserved => exact hs
      · have hidle := State.busy_eq_false_iff.1 hbusy
        have hwr : (writeReg r v s).wrIgnored = s.wrIgnored := by
          cases r <;> simp [writeReg, hbusy]
        cases ht
        exact hwr.trans hs

/-- The host's record of the errors it has read changes by a read of STATUS, or by a read of ERR_INFO with BUSY = 0. -/
theorem seen_of_hostLine {l : HostLine} {s t : State} (h : hostLine l s = .next t) :
    (t.host.codeSeen ≠ s.host.codeSeen → l = .rd 0x08 4 ∧ t.host.codeSeen = some s.errHistory.length) ∧
    (t.host.infoSeen ≠ s.host.infoSeen →
      l = .rd 0x1C 4 ∧ s.ctl = .idle ∧ t.host.infoSeen = some s.errHistory.length) := by
  cases l with
  | push | outErr | jmp | powerOnReset =>
    cases h
    exact ⟨fun hc => absurd rfl hc, fun hc => absurd rfl hc⟩
  | jz e l | jnz e l =>
    simp only [hostLine] at h
    split at h <;> cases h <;> exact ⟨fun hc => absurd rfl hc, fun hc => absurd rfl hc⟩
  | rd a n =>
    simp only [hostLine] at h
    split at h
    · cases h
    next r hr =>
      obtain ⟨rfl, rfl⟩ := accessReg_eq_some_iff.1 hr
      cases h
      simp only [hostNext, hostGoto, hostRead, noteRead]
      constructor
      · intro hc
        by_cases hs : r = .status
        · subst hs
          exact ⟨rfl, by simp⟩
        · simp [hs] at hc
      · intro hc
        by_cases hs : r = .errInfo ∧ s.busy = false
        · obtain ⟨rfl, hb⟩ := hs
          exact ⟨rfl, State.busy_eq_false_iff.1 hb, by simp [hb]⟩
        · simp [hs] at hc
  | wr a n v =>
    simp only [hostLine] at h
    split at h
    · cases h
    next r _ =>
      have hhost : (writeReg r v s).host = s.host := by
        cases r <;> simp only [writeReg] <;> split <;> rfl
      cases h
      simp only [hostNext, hostGoto, hhost]
      exact ⟨fun hc => absurd rfl hc, fun hc => absurd rfl hc⟩

/-! ### Steps -/

/-- Only a host line can be refused. -/
theorem exists_step_of_no_line {s : State} (h : s.hostLineTaken = none) : ∃ t, step s = .next t := by
  have hpending : ∀ u : State, ∃ t, executePending u = .next t := fun u => by
    cases hd : decode u.pending with
    | ok i =>
      rw [executePending_of_ok hd]
      exact exec_total i u
    | error e =>
      rw [executePending_of_error hd]
      exact ⟨_, rfl⟩
  have hturn : ∀ u : State, ∃ t, engineTurn u = .next t := fun u => by
    unfold engineTurn
    split
    · exact ⟨_, rfl⟩
    · exact hpending u
    all_goals exact ⟨_, rfl⟩
  unfold State.hostLineTaken at h
  unfold step stepTurn
  split
  next ts ht =>
    simp only [ht] at h
    exact ⟨_, by simp only [hostStep, h]; rfl⟩
  next q ts _ => exact hturn _
  next ht =>
    simp only [ht] at h
    split
    · exact hturn _
    next hr =>
      rw [if_neg hr] at h
      exact ⟨_, by simp only [hostStep, h]; rfl⟩

theorem exists_step_of_dutiful {s : State} (h : s.dutiful = true) : ∃ t, step s = .next t := by
  unfold State.dutiful at h
  cases hl : s.hostLineTaken with
  | none => exact exists_step_of_no_line hl
  | some l =>
    rw [hl, Option.all_some] at h
    rw [step_hostLineTaken hl]
    exact exists_hostLine_of_keepsDuty (by exact h)

theorem wrIgnored_of_dutiful {s t : State} (h : s.dutiful = true) (ht : step s = .next t) (hs : s.wrIgnored = false) :
    t.wrIgnored = false := by
  unfold State.dutiful at h
  cases hl : s.hostLineTaken with
  | none =>
    obtain ⟨-, hw | hw⟩ := host_of_step ht hl
    · exact hw.trans hs
    · exact hw
  | some l =>
    rw [hl, Option.all_some] at h
    rw [step_hostLineTaken hl] at ht
    exact wrIgnored_of_keepsDuty (s := { s with turns := s.turns.tail }) (by exact h) ht hs

/-- A step that raises an error with ERR = 0 makes one entry in the history (R341). -/
theorem errHistory_of_step {s t : State} (h : step s = .next t) (hs : s.err = none) (ht : t.err ≠ none) :
    t.errHistory.length = s.errHistory.length + 1 := by
  have hraise : ∀ (e : ErrName) (i : Word) {u : State}, u.errHistory = s.errHistory →
      (raiseError e i u).errHistory.length = s.errHistory.length + 1 := fun e i u hu => by
    rw [raiseError_errHistory, hu, List.length_append, List.length_singleton]
  rcases step_cases h with ⟨l, -, hline⟩ | ⟨ts, q, rfl | ⟨-, -, hd⟩ | ⟨-, hexec⟩ | ⟨-, -, rfl⟩⟩
  · rcases hostLine_cases hline with ⟨-, rfl⟩ | ⟨hs', v, -, rfl⟩ | ⟨m, rfl⟩
    · exact absurd rfl ht
    · exact absurd hs ht
    · exact absurd hs ht
  · exact absurd hs ht
  · obtain ⟨_, _, -, rfl⟩ := drainStep_cases hd
    exact absurd hs ht
  · rcases executePending_cases hexec with ⟨i, -, hexec⟩ | ⟨-, rfl⟩ | ⟨hne, -⟩
    · rcases effect_exec hexec with heffect | rfl | rfl
      · obtain ⟨e, i, u, hgoing, rfl⟩ := heffect.raised hs ht
        exact hraise e i hgoing.errHistory
      · rw [(controlCommands.2.2.2 _).2.1] at hexec
        cases hexec
        exact absurd rfl ht
      · rw [exec_softReset] at hexec
        cases hexec
        exact absurd rfl ht
    · exact hraise _ _ rfl
    · exact absurd hs hne
  · obtain ⟨e, i, u, hgoing, hu⟩ := (effect_advance (s.onTurn ts q)).raised hs ht
    rw [hu]
    exact hraise e i hgoing.errHistory

/-- Settles O9: an access is refused where no register answers it; the rest is what host lines, and the engine, do to
WR_IGNORED, to the host's record and to the history. -/
theorem undefinedAccessesRefused : Obligations.UndefinedAccessesRefused := by
  refine ⟨fun s a n v => ⟨fun hundef => ?refused, fun hdef => ?defined⟩, fun s => exists_step_of_dutiful,
    fun s t run hs => ?wrIgnored, fun s w hduty hline hw herr => ?recovery, fun s t hstep => ⟨?code, ?info, ?entry⟩⟩
  case refused =>
    have hnone : accessReg a n = none := not_not.1 (mt accessReg_ne_none_iff.1 hundef)
    simp only [hostLine, hnone, and_self]
  case defined =>
    obtain ⟨r, hr⟩ := Option.ne_none_iff_exists'.1 (accessReg_ne_none_iff.2 hdef)
    exact ⟨⟨_, by rw [hostLine, hr]⟩, ⟨_, by rw [hostLine, hr]⟩⟩
  case wrIgnored =>
    induction run with
    | refl => exact hs
    | tail _ duty next ih => exact wrIgnored_of_dutiful duty next ih
  case recovery =>
    have hcmd : accessReg 0x0C 4 = some .cmd := rfl
    have hrec : recovers w = true := by rcases hw with rfl | rfl <;> decide
    have hsome : s.err.isSome = true := Option.isSome_iff_ne_none.2 herr
    rw [State.dutiful, hline, Option.all_some] at hduty
    simp only [keepsDuty, hcmd, Option.all_some, writeKeepsDuty, hrec, hsome, Bool.and_eq_true, knowsError, beq_self_eq_true,
      Bool.true_and, Bool.not_not, beq_iff_eq] at hduty
    exact hduty.2.2
  all_goals
    rcases hl : s.hostLineTaken with _ | l
  case code.none => exact fun hc => absurd (congrArg HostAgent.codeSeen (host_of_step hstep hl).1) hc
  case info.none => exact fun hc => absurd (congrArg HostAgent.infoSeen (host_of_step hstep hl).1) hc
  case code.some =>
    rw [step_hostLineTaken hl] at hstep
    exact fun hc => ((seen_of_hostLine hstep).1 hc).imp_left (congrArg some)
  case info.some =>
    rw [step_hostLineTaken hl] at hstep
    exact fun hc => ((seen_of_hostLine hstep).2 hc).imp_left (congrArg some)
  all_goals exact errHistory_of_step hstep

end Sys2Proof.Machine
end

section
/-! PROOFS. Whole turns of an emission (spec 20_memory.md R81, 42_code_table.md R202, 44_bitwriter.md R281), and the statements
about TREE_SAVE and BW_CLOSE. -/

namespace Sys2Proof.Machine

/-! ### The emission -/

theorem emitEnd_ctl (k : EmitFor) (s : State) : (emitEnd k s).ctl = .idle := by cases k <;> rfl

theorem emitEnd_ctl_irrel (k : EmitFor) (s : State) (c : Ctl) : emitEnd k { s with ctl := c } = emitEnd k s := by
  cases k with
  | save n => simp only [emitEnd, complete, outClose_closed_form]
  | bwClose h => simp only [emitEnd, complete, bwCloseEnd, outClose_closed_form]
  | compress n =>
    simp only [emitEnd, complete, bwCloseEnd, outClose_closed_form, inRelease]
    split <;> rfl

section
variable {s : State} {rest : List Byte} {k : EmitFor} (hc : s.ctl = .emit rest k) (hq : s.quantum = none)
include hc hq

/-- With OUT_ERR = 0, or with no byte left, all that is left goes to OUT, and the emission ends. -/
theorem advance_emit (hout : s.outErr = false ∨ rest = []) :
    advance s = emitEnd k { s with out := s.out ++ Spec.outBytes rest } := by
  induction rest generalizing s with
  | nil =>
    have ht : tick s = some (tickEmit [] k s) := by simp only [tick, hc]
    rw [advance_tick hq ht]
    rcases tickEmit_cases [] k s with ⟨-, he⟩ | ⟨b, r, hr, -⟩ | ⟨-, hne, -⟩
    · rw [he, advance_of_idle (emitEnd_ctl ..)]
      rfl
    · cases hr
    · exact absurd rfl hne
  | cons b rest ih =>
    have hout : s.outErr = false := hout.resolve_right (by simp)
    have ht : tick s = some (tickEmit (b :: rest) k s) := by simp only [tick, hc]
    rw [advance_tick hq ht]
    rcases tickEmit_cases (b :: rest) k s with ⟨-, he⟩ | ⟨c, r, hr, -, -, he⟩ | ⟨herr, -, -⟩
    · rw [he, advance_of_idle (emitEnd_ctl ..)]
      rfl
    · cases hr
      rw [he, ih (s := { s with out := s.out ++ [.byte b], ctl := .emit rest k }) rfl hq (.inl hout)]
      refine .trans ?_ (emitEnd_ctl_irrel k _ (.emit rest k))
      simp [Spec.outBytes]
    · exact absurd (hout.symm.trans herr) (by decide)

/-- With OUT_ERR = 1 the first byte is not written. -/
theorem advance_emit_of_outErr (hout : s.outErr = true) (hne : rest ≠ []) :
    advance s = raiseError .resourceError 1 s := by
  have ht : tick s = some (tickEmit rest k s) := by simp only [tick, hc]
  rw [advance_tick hq ht]
  rcases tickEmit_cases rest k s with ⟨h, -⟩ | ⟨b, r, -, -, h, -⟩ | ⟨-, -, he⟩
  · exact absurd h (not_or.2 ⟨by simp [hout], hne⟩)
  · exact absurd (hout.symm.trans h) (by decide)
  · rw [he, advance_raiseError]

end

/-- An engine step at an OutWrite of TREE_SAVE or BW_CLOSE. -/
theorem tick_emit_cons {s : State} {b : Byte} {rest : List Byte} {k : EmitFor} (hc : s.ctl = .emit (b :: rest) k)
    (hk : ∀ n, k ≠ .compress n) : (s.outErr = true → tick s = some (raiseError .resourceError 1 s)) ∧
      (s.outErr = false → tick s = some { s with out := s.out ++ [.byte b], ctl := .emit rest k }) := by
  have ht : tick s = some (outWrite b (.emit rest k) s) := by
    simp only [tick, hc]
    cases k with
    | compress n => exact absurd rfl (hk n)
    | save n => rfl
    | bwClose h => rfl
  rw [ht]
  rcases outWrite_cases b (.emit rest k) s with ⟨h, hw⟩ | ⟨h, hw⟩ <;> simp [h, hw]

/-! ### TREE_SAVE -/

theorem renderTree_ne_nil {t : Tree} (h : t.leaves ≠ []) : renderTree t ≠ [] := by
  obtain ⟨x, xs, hx⟩ := List.exists_cons_of_ne_nil h
  simp [renderTree, hx, renderPair]

theorem renderTree_eq_tableText (t : Tree) : renderTree t = Spec.tableText t.leaves := (tableText_eq_render _).symm

/-- Settles O29: TREE_SAVE is the emission of the text of the leaves. -/
theorem treeSaveWritesTable : Obligations.TreeSaveWritesTable := by
  refine ⟨fun s herr hbw hq => ⟨fun hout => ?_, fun hout hne => ?_, fun hnil => ?_⟩,
    fun s b rest n hc => tick_emit_cons hc fun m hm => by cases hm⟩
  · rw [exec_treeSave herr hbw hq hout, renderTree_eq_tableText]
  all_goals rw [exec, execTreeSave, command_run herr (by simp [admits, hbw])]
  · rw [advance_emit_of_outErr (s := treeSaveStart s) rfl hq hout (renderTree_ne_nil hne)]
    exact congrArg _ (raiseError_ctl_irrel _ _ { s with outOwned := true } _)
  · have hempty : renderTree s.tree = [] := by rw [renderTree, hnil]; rfl
    have hstart : (treeSaveStart s).ctl = .emit [] (.save (BitVec.ofNat 32 s.tree.leaves.length)) := by
      rw [← hempty]
      rfl
    rw [advance_emit hstart hq (.inr rfl), hnil]
    simp [emitEnd, complete, outClose_closed_form, treeSaveStart, outOpen, Spec.outBytes]

/-! ### BW_CLOSE -/

theorem paddingCount_eq (n : Fin 8) : paddingCount n = BitVec.ofNat 8 ((8 - n.val) % 8) := by decide +revert

theorem zeroExtend_paddingCount (n : Fin 8) : (paddingCount n).zeroExtend 32 = BitVec.ofNat 32 ((8 - n.val) % 8) := by
  decide +revert

theorem finalData_eq (w : Packer) : finalData w = w.data ++ if w.nbits = 0 then [] else [w.acc] := by
  unfold finalData
  split <;> simp

/-- The close of the packer raises the same error at its first OutWrite as before it (R281, R342). -/
theorem raiseError_bwCloseStart {s : State} (hroom : ¬(s.bw.nbits ≠ 0 ∧ s.bw.data.length = s.bwCap)) (c : Bool)
    (e : ErrName) (i : Word) : raiseError e i (bwCloseStart c s) = raiseError e i s := by
  rw [bwCloseStart, if_neg hroom]
  simp only [raiseError_closed_form]

/-- Settles O36: BW_CLOSE is the emission of the header and the data, unless the partial byte has no room. -/
theorem bwCloseWritesStream : Obligations.BwCloseWritesStream := by
  refine ⟨fun s herr hq => ?_, fun s b rest h hc => tick_emit_cons hc fun m hm => by cases hm⟩
  have hexec : exec .bwClose s =
      .next (if s.bw.isOpen then advance (bwCloseStart false s) else endCommand s) := by
    rw [exec, execBwClose, command_run herr rfl]
  have hstart : ¬(s.bw.nbits ≠ 0 ∧ s.bw.data.length = s.bwCap) → (bwCloseStart false s).ctl =
      .emit (paddingCount s.bw.nbits :: finalData s.bw) (.bwClose (paddingCount s.bw.nbits)) := fun hroom => by
    rw [bwCloseStart, if_neg hroom]
    rfl
  have hquantum : (bwCloseStart false s).quantum = none := (sameEnv_bwCloseStart false s).quantum.trans hq
  have houtErr : (bwCloseStart false s).outErr = s.outErr := (sameEnv_bwCloseStart false s).outErr
  have hfits : (s.bw.nbits = 0 ∨ s.bw.data.length ≠ s.bwCap) → ¬(s.bw.nbits ≠ 0 ∧ s.bw.data.length = s.bwCap) := by
    tauto
  refine ⟨fun hopen => ?closed, fun hopen hn hfull => ?full, fun hopen hroom hout => ?outErr,
    fun hopen hroom hout => ?written⟩
  case closed => rw [hexec, if_neg (by simp [hopen])]; rfl
  case full =>
    rw [hexec, if_pos hopen, bwCloseStart, if_pos ⟨hn, hfull⟩, advance_raiseError]
  case outErr =>
    rw [hexec, if_pos hopen,
      advance_emit_of_outErr (hstart (hfits hroom)) hquantum (houtErr.trans hout) (List.cons_ne_nil _ _),
      raiseError_bwCloseStart (hfits hroom)]
  case written =>
    rw [hexec, if_pos hopen, advance_emit (hstart (hfits hroom)) hquantum (.inl (houtErr.trans hout)), bwCloseStart,
      if_neg (hfits hroom), ← paddingCount_eq, ← finalData_eq, ← zeroExtend_paddingCount]
    cases s.outOwned <;> simp [emitEnd, complete, bwCloseEnd, outClose_closed_form, Packer.closed]

end Sys2Proof.Machine
end

section
/-! PROOFS. The statements about a packer session and ENCODE_SYMBOL (spec 43_translate.md R242, 44_bitwriter.md R286). -/

namespace Sys2Proof.Machine

theorem exec_bwWrite_of_room {s : State} (herr : s.err = none) (hopen : s.bw.isOpen = true) {b : Bool}
    (hb : s.arg0 = if b then 1 else 0) (hroom : s.bw.nbits ≠ 7 ∨ s.bw.data.length ≠ s.bwCap) :
    exec .bwWrite s = .next (endCommand (s.packed [b])) := by
  rw [exec, execBwWrite, command_withBit_of_bit _ herr (show admits .bwWrite s = true from hopen) hb,
    bwWriteBit_of_push hroom]
  rfl

/-- A BW_WRITE for each bit packs the bits, wherever the packer has room for the bytes they finish. -/
theorem execAll_bwWrite {s : State} (herr : s.err = none) (hidle : s.ctl = .idle) (hopen : s.bw.isOpen = true)
    (hwf : s.bw.wf s.bwCap = true) {bits : List Bool} (hroom : (Spec.heldBits s.bw ++ bits).length / 8 ≤ s.bwCap)
    (rest : List (Instr × Word)) :
    ∃ a, Spec.execAll (bits.map (fun b => (Instr.bwWrite, if b then 1 else 0)) ++ rest) s =
      Spec.execAll rest { s.packed bits with arg0 := a } := by
  induction bits generalizing s with
  | nil => exact ⟨s.arg0, by rw [State.packed_nil]; rfl⟩
  | cons b bits ih =>
    have hbit : s.bw.nbits ≠ 7 ∨ s.bw.data.length ≠ s.bwCap := by
      by_contra hfull
      rw [not_or, not_not, not_not] at hfull
      rw [List.length_append, Packer.length_heldBits, hfull.1, hfull.2, List.length_cons] at hroom
      simp only [show (7 : Fin 8).val = 7 from rfl] at hroom
      omega
    have hheld := (Packer.heldBits_push b (Packer.wf_iff.1 hwf).2.2).1
    obtain ⟨a, ha⟩ := ih (s := { s.packed [b] with arg0 := if b then 1 else 0, ctl := .idle }) herr rfl
      ((s.bw.isOpen_push b).trans hopen) (Packer.wf_push hwf hopen hbit b)
      (by
        rw [show Spec.heldBits (s.packed [b]).bw = _ from hheld, List.append_assoc]
        exact hroom)
    refine ⟨a, ?_⟩
    have hexec := exec_bwWrite_of_room (s := { s with arg0 := if b then 1 else 0 }) herr hopen rfl hbit
    rw [List.map_cons, List.cons_append, Spec.execAll, hexec]
    refine Eq.trans ha ?_
    rw [show s.packed (b :: bits) = (s.packed [b]).packed bits from s.packed_append [b] bits]
    simp only [State.packed, Spec.echo, hidle]

/-- Settles O37: BW_OPEN, the bits packed one by one, and the emission of BW_CLOSE. -/
theorem packerSessionOutput : Obligations.PackerSessionOutput := by
  intro s bits herr hbw hq hout hroom
  refine ⟨_, _, isPacked_pushAll_opened bits, ?_⟩
  have hopen : exec .bwOpen { s with arg0 := 0 } = .next { s with
      arg0 := 0, bw := .opened, outOwned := true, ctl := .idle } :=
    bwOpenOpensPacker.2 { s with arg0 := 0 } herr hbw
  obtain ⟨a, ha⟩ := execAll_bwWrite (s := { s with arg0 := 0, bw := .opened, outOwned := true, ctl := .idle }) (bits := bits)
    herr rfl rfl (Packer.wf_iff.2 ⟨fun hf => (by cases hf), Nat.zero_le _, Nat.one_pos⟩)
    (by
      rw [show Spec.heldBits Packer.opened = [] from rfl, List.nil_append]
      exact (Nat.div_le_div_right (Nat.le_add_right _ 7)).trans hroom) [(.bwClose, 0)]
  rw [List.cons_append, Spec.execAll, hopen]
  refine Eq.trans ha ?_
  obtain ⟨hheld, -⟩ := Packer.heldBits_pushAll (w := .opened) bits Nat.one_pos
  have hlen : 8 * (Packer.opened.pushAll bits).data.length + (Packer.opened.pushAll bits).nbits.val = bits.length := by
    rw [← Packer.length_heldBits, hheld]
    rfl
  have hfits : (Packer.opened.pushAll bits).nbits = 0 ∨ (Packer.opened.pushAll bits).data.length ≠ s.bwCap := by
    by_contra hfull
    rw [not_or, not_not] at hfull
    have hpos : (Packer.opened.pushAll bits).nbits.val ≠ 0 := fun h0 => hfull.1 (Fin.ext h0)
    rw [hfull.2] at hlen
    omega
  obtain ⟨-, -, -, hclose⟩ := bwCloseWritesStream.1
    { s with arg0 := 0, bw := Packer.opened.pushAll bits, outOwned := true, ctl := .idle, diag := Spec.echo s bits } herr hq
  have hwritten := hclose ((Packer.isOpen_pushAll .opened bits).trans rfl) hfits hout
  rw [← paddingCount_eq, ← finalData_eq, ← zeroExtend_paddingCount] at hwritten
  rw [Spec.execAll]
  simp only [State.packed] at hwritten ⊢
  erw [hwritten]
  simp [Spec.execAll, Spec.echo]

/-- Settles O44: the code is packed bit by bit, with room or up to the bit that finds none. -/
theorem encodeSymbolWritesItsCode : Obligations.EncodeSymbolWritesItsCode := by
  refine ⟨rfl, fun s herr hopen => ?_⟩
  have hadm : admits .encodeSymbol s = true := hopen
  refine ⟨command_withSym_of_gt _ herr hadm, fun v hv hcode => ?missing, fun v p hv hcode hwf => ?coded⟩
  case missing =>
    rw [exec, execEncodeSymbol, command_withSym_of_byte _ herr hadm hv, encodeSymbolBits, hcode]
    rfl
  case coded =>
    have hexec : exec .encodeSymbol s = .next ((bwWriteBits p s).finish fun t =>
        complete (BitVec.ofNat 32 p.length) t) := by
      rw [exec, execEncodeSymbol, command_withSym_of_byte _ herr hadm hv, encodeSymbolBits, hcode]
      rfl
    rw [hexec]
    refine ⟨fun hroom => ?_, fun hfull => ?_⟩
    · obtain ⟨hgo, hwf'⟩ := bwWriteBits_of_room hopen hwf hroom
      rw [hgo]
      exact ⟨s.bw.pushAll p, rfl, (s.bw.isOpen_pushAll p).trans hopen, hwf',
        (Packer.heldBits_pushAll p (Packer.wf_iff.1 hwf).2.2).1⟩
    · rw [bwWriteBits_of_full hopen hwf hfull]
      rfl

end Sys2Proof.Machine
end

section
/-! PROOFS. Whole turns of COMPRESS, with the errors they raise (spec 43_translate.md R241, R244, 44_bitwriter.md R280,
R281). -/

namespace Sys2Proof.Machine

theorem codeBits_cons_of_code {t : Tree} {c : Byte} {p : List Bool} (h : t.code c = some p) (l : List Byte) :
    Spec.codeBits t (c :: l) = p ++ Spec.codeBits t l := by
  simp [Spec.codeBits, h]

/-- COMPRESS at an InRead that gives a byte encodes it. -/
theorem advance_compressing_byte {s : State} (hq : s.quantum = none) (c : Byte) (q : List Token) :
    advance (s.compressing false (.byte c :: q)) = advance ((encodeSymbolBits c (s.compressing false q)).finish
      fun t => { t with ctl := .compress }) :=
  advance_tick hq (by simp [tick, State.compressing, tickCompress, inRead])

section
variable {s : State} (hq : s.quantum = none) (hopen : s.bw.isOpen = true) (hwf : s.bw.wf s.bwCap = true)
include hq hopen hwf

/-- The bytes that have codes are packed, wherever the packer has room for the bytes they finish. -/
theorem advance_compressing_codes {l : List Byte} (q : List Token) (hcodes : ∀ c ∈ l, s.tree.code c ≠ none)
    (hroom : (Spec.heldBits s.bw ++ Spec.codeBits s.tree l).length / 8 ≤ s.bwCap) :
    advance (s.compressing false (Spec.inBytes l ++ q)) =
      advance ((s.packed (Spec.codeBits s.tree l)).compressing false q) ∧
    (s.bw.pushAll (Spec.codeBits s.tree l)).wf s.bwCap = true := by
  induction l generalizing s with
  | nil =>
    rw [Spec.codeBits, List.flatMap_nil, State.packed_nil]
    exact ⟨rfl, hwf⟩
  | cons c l ih =>
    obtain ⟨hc, hl⟩ := List.forall_mem_cons.1 hcodes
    obtain ⟨p, hcode⟩ := Option.ne_none_iff_exists'.1 hc
    rw [codeBits_cons_of_code hcode, ← List.append_assoc] at hroom
    obtain ⟨hgo, hwf'⟩ := bwWriteBits_of_room (s := s.compressing false (Spec.inBytes l ++ q)) hopen hwf (p := p)
      ((Nat.div_le_div_right (by
        rw [List.length_append (bs := Spec.codeBits s.tree l)]
        exact Nat.le_add_right _ _)).trans hroom)
    have hheld : Spec.heldBits (s.packed p).bw = Spec.heldBits s.bw ++ p :=
      (Packer.heldBits_pushAll p (Packer.wf_iff.1 hwf).2.2).1
    obtain ⟨hadv, hwf''⟩ := ih (s := s.packed p) hq ((s.bw.isOpen_pushAll p).trans hopen) hwf' hl
      (by
        rw [hheld]
        exact hroom)
    have hencode : encodeSymbolBits c (s.compressing false (Spec.inBytes l ++ q)) =
        .go ((s.compressing false (Spec.inBytes l ++ q)).packed p) := by
      rw [encodeSymbolBits, show (s.compressing false (Spec.inBytes l ++ q)).tree.code c = some p from hcode]
      exact hgo
    rw [codeBits_cons_of_code hcode, State.packed_append, Packer.pushAll, List.foldl_append]
    refine ⟨?_, hwf''⟩
    rw [show Spec.inBytes (c :: l) ++ q = .byte c :: (Spec.inBytes l ++ q) from rfl, advance_compressing_byte hq, hencode]
    exact hadv

end

/-- COMPRESS begins with both sessions open (R244). -/
theorem exec_compress_eq {s : State} (hs : Spec.Ready s) (hdrain : s.inDrain = false) :
    exec .compress s = .next (advance ((compressOpened s).compressing false s.inQ)) := by
  rw [exec, execCompress, command_run hs.err (by simp [admits, hs.bw, hs.br])]
  exact congrArg _ (advance_tick hs.quantum (if_neg (c := s.inDrain = true) (by simp [hdrain])))

theorem packer_opened_wf (cap : Nat) : Packer.opened.wf cap = true :=
  Packer.wf_iff.2 ⟨fun h => (by cases h), Nat.zero_le _, Nat.one_pos⟩

theorem heldBits_pushAll_opened (bits : List Bool) : Spec.heldBits (Packer.opened.pushAll bits) = bits :=
  (Packer.heldBits_pushAll (w := .opened) bits Nat.one_pos).1

/-- The packer of a session of some bits. -/
theorem length_eq_pushAll_opened (bits : List Bool) :
    bits.length = 8 * (Packer.opened.pushAll bits).data.length + (Packer.opened.pushAll bits).nbits.val := by
  have h := Packer.length_heldBits (Packer.opened.pushAll bits)
  rwa [heldBits_pushAll_opened] at h

/-- COMPRESS at the InRead after some coded bytes, of which it holds the bits. -/
def compressedTo (s : State) (bits : List Bool) (q : List Token) : State :=
  ((compressOpened s).packed bits).compressing false q

/-- COMPRESS of coded bytes that the packer holds comes to the InRead after them. -/
theorem exec_compress_codes {s : State} (hs : Spec.Ready s) (hdrain : s.inDrain = false) {l : List Byte} {q : List Token}
    (hin : s.inQ = Spec.inBytes l ++ q) (hcodes : ∀ c ∈ l, s.tree.code c ≠ none)
    (hroom : (Spec.codeBits s.tree l).length / 8 ≤ s.bwCap) :
    exec .compress s = .next (advance (compressedTo s (Spec.codeBits s.tree l) q)) ∧
    (Packer.opened.pushAll (Spec.codeBits s.tree l)).wf s.bwCap = true := by
  obtain ⟨hadv, hwf⟩ := advance_compressing_codes (s := compressOpened s) hs.quantum rfl (packer_opened_wf _) q hcodes hroom
  rw [exec_compress_eq hs hdrain, hin, hadv]
  exact ⟨rfl, hwf⟩

/-- There is no room for the partial byte exactly where the bits do not fit into BW_CAPACITY bytes. -/
theorem full_pushAll_opened_iff {bits : List Bool} {cap : Nat} (hwf : (Packer.opened.pushAll bits).wf cap = true) :
    ((Packer.opened.pushAll bits).nbits ≠ 0 ∧ (Packer.opened.pushAll bits).data.length = cap) ↔
      cap < (bits.length + 7) / 8 := by
  have hlen := length_eq_pushAll_opened bits
  have hdata := (Packer.wf_iff.1 hwf).2.1
  have hn := (Packer.opened.pushAll bits).nbits.isLt
  rw [ne_eq, ← Fin.val_eq_zero_iff]
  omega

/-! ### OUT while COMPRESS runs -/

/-- OUT of a COMPRESS that began with OUT = `o`: nothing is written while it runs, and one CLOSE where it raises. -/
def CompressOut (o : List OutToken) (u : State) : Prop :=
  (u.err = none ∧ u.out = o ∧ (u.ctl = .openIn .compress ∨
    u.outOwned = true ∧ (u.ctl = .compress ∨ ∃ r n, u.ctl = .emit r (.compress n)))) ∨
  (u.ctl = .idle ∧ (u.err ≠ none → u.out = o ++ [.close]))

theorem compressOut_raiseError {o : List OutToken} {u : State} (ho : u.out = o) (hown : u.outOwned = true) (e : ErrName)
    (i : Word) : CompressOut o (raiseError e i u) := by
  refine .inr ⟨raiseError_ctl .., fun _ => ?_⟩
  rw [raiseError_out, ho, hown, if_pos rfl]

theorem compressOut_bwCloseStart {o : List OutToken} {u : State} (herr : u.err = none) (ho : u.out = o)
    (hown : u.outOwned = true) : CompressOut o (bwCloseStart true u) := by
  unfold bwCloseStart
  split
  · exact compressOut_raiseError ho hown _ _
  · exact .inl ⟨herr, ho, .inr ⟨hown, .inr ⟨_, _, rfl⟩⟩⟩

theorem compressOut_encode {o : List OutToken} {u : State} (herr : u.err = none) (ho : u.out = o)
    (hown : u.outOwned = true) (c : Byte) :
    CompressOut o ((encodeSymbolBits c u).finish fun t => { t with ctl := .compress }) := by
  rcases encodeSymbolBits_cases c u with ⟨p, -, he⟩ | ⟨-, he⟩ | ⟨q, he⟩ <;> rw [he]
  · exact .inl ⟨herr, ho, .inr ⟨hown, .inl rfl⟩⟩
  · exact compressOut_raiseError ho hown _ _
  · exact compressOut_raiseError (u := { u with diag := Spec.echo u q }) ho hown _ _

theorem compressOut_tick {o : List OutToken} {u t : State} (h : CompressOut o u) (ht : tick u = some t) :
    CompressOut o t := by
  rcases h with ⟨herr, ho, hc | ⟨hown, hc | ⟨r, n, hc⟩⟩⟩ | ⟨hc, -⟩
  · simp only [tick, hc, tickOpenIn] at ht
    split at ht
    · obtain ⟨_, _, -, rfl⟩ := drainStep_cases ht
      exact .inl ⟨herr, ho, .inl hc⟩
    · cases ht
      exact .inl ⟨herr, ho, .inr ⟨rfl, .inl rfl⟩⟩
  · rcases tick_atInRead_cases (by rw [hc]; rfl) ht with ⟨-, rfl⟩ | ⟨q, -, -, rfl⟩ | ⟨b, q, -, -, rfl⟩ | ⟨q, -, -, rfl⟩
    · rw [hc, atEof]
      exact compressOut_bwCloseStart herr ho hown
    · simp only [hc, atEof]
      exact compressOut_bwCloseStart herr ho hown
    · simp only [hc, atByte]
      exact compressOut_encode (u := { u with inQ := q, ctl := .compress }) herr ho hown b
    · exact compressOut_raiseError (u := { u with inQ := q, inTerm := true }) ho hown _ _
  · simp only [tick, hc, Option.some.injEq] at ht
    subst ht
    rcases tickEmit_cases r (.compress n) u with ⟨-, he⟩ | ⟨b, r', -, hk, -⟩ | ⟨-, -, he⟩
    · rw [he]
      refine .inr ⟨emitEnd_ctl .., fun hne => absurd ?_ hne⟩
      simpa [emitEnd, complete, bwCloseEnd] using herr
    · exact absurd rfl (hk n)
    · rw [he]
      exact compressOut_raiseError ho hown _ _
  · exact absurd hc (running_of_tick ht).1

theorem compressOut_advance {o : List OutToken} {u : State} (h : CompressOut o u) : CompressOut o (advance u) :=
  advance_keeps (fun _ _ => compressOut_tick) h

theorem CompressOut.closed_or_unwritten {o : List OutToken} {u : State} (h : CompressOut o u) :
    (u.err ≠ none → u.out = o ++ [.close]) ∧ (u.ctl ≠ .idle → u.out = o) := by
  rcases h with ⟨herr, ho, -⟩ | ⟨hc, ho⟩
  · exact ⟨fun h => absurd herr h, fun _ => ho⟩
  · exact ⟨ho, fun h => absurd hc h⟩

theorem eq_of_runningCommand_compress {c : Ctl} (h : runningCommand c = some .compress) :
    c = .openIn .compress ∨ c = .compress ∨ ∃ r n, c = .emit r (.compress n) := by
  unfold runningCommand at h
  split at h <;> simp_all

theorem compressOut_of_running {s : State} (hinv : s.Inv) (hrun : runningCommand s.ctl = some .compress) :
    CompressOut s.out s := by
  refine .inl ⟨(hinv.running .compress hrun).2, rfl, ?_⟩
  obtain ⟨hbw, -⟩ := hinv.units
  have hown := hinv.out_owned
  rcases eq_of_runningCommand_compress hrun with hc | hc | ⟨r, n, hc⟩
  · exact .inl hc
  · simp only [hc, unitsAt, fits, Option.all_some, beq_iff_eq] at hbw
    exact .inr ⟨by rw [hown, ← hbw, Bool.true_or], .inl hc⟩
  · simp only [hc, unitsAt, fits, Option.all_some, beq_iff_eq] at hbw
    exact .inr ⟨by rw [hown, ← hbw, Bool.true_or], .inr ⟨r, n, hc⟩⟩

theorem CompressOut.onTurn {o : List OutToken} {u : State} (h : CompressOut o u) (ts : List Turn) (q : Option Nat) :
    CompressOut o (u.onTurn ts q) := h

/-- A step in which COMPRESS runs, but for the power-on reset. -/
theorem compressOut_step {s t : State} (hinv : s.Inv) (hrun : runningCommand s.ctl = some .compress)
    (h : step s = .next t) (hreset : ¬Spec.hostResets s) : CompressOut s.out t := by
  have hs := compressOut_of_running hinv hrun
  have hidle : s.ctl ≠ .idle := fun hc => by rw [hc] at hrun; cases hrun
  have haccepted : s.ctl ≠ .accepted := fun hc => by rw [hc] at hrun; cases hrun
  rcases step_cases h with ⟨l, hl, hline⟩ | ⟨ts, q, rfl | ⟨hc, -⟩ | ⟨hc, -⟩ | ⟨-, -, rfl⟩⟩
  · rcases hostLine_cases hline with ⟨rfl, -⟩ | ⟨_, _, hc, -⟩ | ⟨m, rfl⟩
    · exact absurd (hostResets_iff.2 hl) hreset
    · exact absurd hc hidle
    · exact hs
  · exact hs.onTurn ts q
  · exact absurd hc hidle
  · exact absurd hc haccepted
  · exact compressOut_advance (hs.onTurn ts q)

/-! ### The end of the session of COMPRESS -/

@[simp] theorem compressedTo_tree (s : State) (bits : List Bool) (q : List Token) :
    (compressedTo s bits q).tree = s.tree := rfl

@[simp] theorem compressedTo_bwCap (s : State) (bits : List Bool) (q : List Token) :
    (compressedTo s bits q).bwCap = s.bwCap := rfl

theorem advance_compressedTo_byte {s : State} (hq : s.quantum = none) (bits : List Bool) (c : Byte) (q : List Token) :
    advance (compressedTo s bits (.byte c :: q)) =
      advance ((encodeSymbolBits c (compressedTo s bits q)).finish fun t => { t with ctl := .compress }) :=
  advance_compressing_byte (s := (compressOpened s).packed bits) hq c q

theorem advance_compressedTo_eos {s : State} (hq : s.quantum = none) (bits : List Bool) (q : List Token) :
    advance (compressedTo s bits (.eos :: q)) =
      advance (bwCloseStart true (((compressOpened s).packed bits).compressing true q)) :=
  advance_tick (s := compressedTo s bits (.eos :: q)) hq
    (by simp [compressedTo, tick, State.compressing, tickCompress, inRead])

theorem advance_compressedTo_err {s : State} (hq : s.quantum = none) (bits : List Bool) (q : List Token) :
    advance (compressedTo s bits (.err :: q)) =
      raiseError .resourceError 0 (((compressOpened s).packed bits).compressing true q) := by
  have ht : tick (compressedTo s bits (.err :: q)) =
      some (raiseError .resourceError 0 (((compressOpened s).packed bits).compressing true q)) := by
    simp [compressedTo, tick, State.compressing, tickCompress, inRead]
  rw [advance_tick (s := compressedTo s bits (.err :: q)) hq ht, advance_raiseError]

/-- An error of COMPRESS finds its sessions open, whatever the packer holds (R342). -/
theorem raiseError_compressing (s : State) (bits : List Bool) (term : Bool) (q : List Token) (d : List Byte) (e : ErrName)
    (i : Word) : raiseError e i { ((compressOpened s).packed bits).compressing term q with diag := d } =
      raiseError e i { s with inQ := q, inOwned := true, inTerm := term, outOwned := true, diag := d } := by
  simp only [raiseError_closed_form, State.compressing, State.packed, compressOpened, bwOpenSession, inOpen, outOpen]

/-- The packer of COMPRESS has no room for its partial byte. -/
abbrev noRoomToClose (s : State) : Prop := s.bw.nbits ≠ 0 ∧ s.bw.data.length = s.bwCap

theorem advance_bwCloseStart_of_outErr {s : State} (hq : s.quantum = none) (hout : s.outErr = true)
    (hroom : ¬noRoomToClose s) (c : Bool) : advance (bwCloseStart c s) = raiseError .resourceError 1 s := by
  have hctl : ∃ k, (bwCloseStart c s).ctl = .emit (paddingCount s.bw.nbits :: finalData s.bw) k := by
    rw [bwCloseStart, if_neg hroom]
    exact ⟨_, rfl⟩
  obtain ⟨k, hk⟩ := hctl
  rw [advance_emit_of_outErr hk ((sameEnv_bwCloseStart c s).quantum.trans hq)
    ((sameEnv_bwCloseStart c s).outErr.trans hout) (List.cons_ne_nil _ _), raiseError_bwCloseStart hroom]

theorem err_advance_bwCloseStart {s : State} (hq : s.quantum = none) (hout : s.outErr = false)
    (hroom : ¬noRoomToClose s) : (advance (bwCloseStart true s)).err = s.err := by
  rw [bwCloseStart, if_neg hroom, advance_emit (s := { s with bw := _, ctl := _ }) rfl hq (.inl hout)]
  simp [emitEnd, complete, bwCloseEnd]

theorem noRoomToClose_iff {s : State} {bits : List Bool} {q : List Token}
    (hwf : (Packer.opened.pushAll bits).wf s.bwCap = true) :
    noRoomToClose (((compressOpened s).packed bits).compressing true q) ↔ s.bwCap < (bits.length + 7) / 8 :=
  full_pushAll_opened_iff hwf

/-- Settles O47: with codes, room and OUT_ERR = 0 nothing is raised, and a COMPRESS that raises nothing writes the packed
form. -/
theorem compressWritesPackedCodes : Obligations.CompressWritesPackedCodes := by
  intro s l rest hs hdrain hout hin hcodes hroom
  obtain ⟨hexec, hwf⟩ := exec_compress_codes hs hdrain hin hcodes (by omega)
  have herr := err_advance_bwCloseStart (s := ((compressOpened s).packed (Spec.codeBits s.tree l)).compressing true rest)
    hs.quantum hout ((noRoomToClose_iff hwf).not.2 (not_lt.2 hroom))
  rw [← advance_compressedTo_eos hs.quantum] at herr
  obtain ⟨-, h, data, hpacked, ht⟩ := exec_compress_of_err_none hs hdrain hin hexec (herr.trans hs.err)
  exact ⟨h, data, hpacked, hexec.trans (congrArg _ ht)⟩

section
variable {s : State} {l : List Byte} {c : Byte} {q : List Token} (hs : Spec.Ready s) (hdrain : s.inDrain = false)
  (hcodes : ∀ x ∈ l, s.tree.code x ≠ none) (hroom : (Spec.codeBits s.tree l).length / 8 ≤ s.bwCap)
include hs hdrain hcodes hroom

/-- A byte without a code raises MissingCode with it, before any of its bits (R241). -/
theorem exec_compress_missingCode (hin : s.inQ = Spec.inBytes l ++ .byte c :: q) (hcode : s.tree.code c = none) :
    exec .compress s = .next (raiseError .missingCode (c.zeroExtend 32)
      { s with inQ := q, inOwned := true, inTerm := false, outOwned := true
               diag := Spec.echo s (Spec.codeBits s.tree l) }) := by
  rw [(exec_compress_codes hs hdrain hin hcodes hroom).1, advance_compressedTo_byte hs.quantum, encodeSymbolBits,
    compressedTo_tree, hcode]
  exact congrArg _ ((advance_raiseError ..).trans (raiseError_compressing s (Spec.codeBits s.tree l) false q _ _ _))

/-- A code that finishes one byte more than the packer holds raises CapacityExceeded(0) (R280). -/
theorem exec_compress_overflow {p : List Bool} (hin : s.inQ = Spec.inBytes l ++ .byte c :: q) (hcode : s.tree.code c = some p)
    (hfull : s.bwCap < (Spec.codeBits s.tree l ++ p).length / 8) :
    exec .compress s = .next (raiseError .capacityExceeded 0
      { s with inQ := q, inOwned := true, inTerm := false, outOwned := true
               diag := Spec.echo s ((Spec.codeBits s.tree l ++ p).take (8 * (s.bwCap + 1))) }) := by
  obtain ⟨hexec, hwf⟩ := exec_compress_codes hs hdrain hin hcodes hroom
  have hopen : (compressedTo s (Spec.codeBits s.tree l) q).bw.isOpen = true := Packer.isOpen_pushAll .opened _
  have hheld : Spec.heldBits (compressedTo s (Spec.codeBits s.tree l) q).bw = Spec.codeBits s.tree l :=
    heldBits_pushAll_opened _
  have hraise := bwWriteBits_of_full hopen hwf (p := p) (by
    rw [hheld]
    exact hfull)
  have hecho : Spec.echo (compressedTo s (Spec.codeBits s.tree l) q)
      (p.take (8 * (s.bwCap + 1) - (Spec.codeBits s.tree l).length)) =
      Spec.echo s ((Spec.codeBits s.tree l ++ p).take (8 * (s.bwCap + 1))) := by
    rw [List.take_append, List.take_of_length_le (l := Spec.codeBits s.tree l) (by omega)]
    exact echo_append s _ _
  rw [hexec, advance_compressedTo_byte hs.quantum, encodeSymbolBits,
    compressedTo_tree, hcode]
  simp only [hraise, hheld, compressedTo_bwCap, hecho, Flow.finish, advance_raiseError]
  exact congrArg _ (raiseError_compressing s (Spec.codeBits s.tree l) false q _ _ _)

/-- ERR raises ResourceError(0) (R79). -/
theorem exec_compress_readError (hin : s.inQ = Spec.inBytes l ++ .err :: q) :
    exec .compress s = .next (raiseError .resourceError 0
      { s with inQ := q, inOwned := true, inTerm := true, outOwned := true
               diag := Spec.echo s (Spec.codeBits s.tree l) }) := by
  rw [(exec_compress_codes hs hdrain hin hcodes hroom).1, advance_compressedTo_err hs.quantum]
  exact congrArg _ (raiseError_compressing s (Spec.codeBits s.tree l) true q _ _ _)

/-- EOS with no room for the partial byte raises CapacityExceeded(0) (R281). -/
theorem exec_compress_noRoomToClose (hin : s.inQ = Spec.inBytes l ++ .eos :: q)
    (hfull : s.bwCap < ((Spec.codeBits s.tree l).length + 7) / 8) :
    exec .compress s = .next (raiseError .capacityExceeded 0
      { s with inQ := q, inOwned := true, inTerm := true, outOwned := true
               diag := Spec.echo s (Spec.codeBits s.tree l) }) := by
  obtain ⟨hexec, hwf⟩ := exec_compress_codes hs hdrain hin hcodes hroom
  rw [hexec, advance_compressedTo_eos hs.quantum, bwCloseStart, if_pos ((noRoomToClose_iff hwf).2 hfull),
    advance_raiseError]
  exact congrArg _ (raiseError_compressing s (Spec.codeBits s.tree l) true q _ _ _)

/-- EOS with OUT_ERR = 1 raises ResourceError(1) (R281). -/
theorem exec_compress_outErr (hin : s.inQ = Spec.inBytes l ++ .eos :: q)
    (hfits : ((Spec.codeBits s.tree l).length + 7) / 8 ≤ s.bwCap) (hout : s.outErr = true) :
    exec .compress s = .next (raiseError .resourceError 1
      { s with inQ := q, inOwned := true, inTerm := true, outOwned := true
               diag := Spec.echo s (Spec.codeBits s.tree l) }) := by
  obtain ⟨hexec, hwf⟩ := exec_compress_codes hs hdrain hin hcodes hroom
  rw [hexec, advance_compressedTo_eos hs.quantum,
    advance_bwCloseStart_of_outErr (s := ((compressOpened s).packed _).compressing true q) hs.quantum hout
      ((noRoomToClose_iff hwf).not.2 (not_lt.2 hfits))]
  exact congrArg _ (raiseError_compressing s (Spec.codeBits s.tree l) true q _ _ _)

end

/-- Settles O48: OUT is followed through the engine steps of COMPRESS, and each error is the end of the turn that packs the
bytes before it. -/
theorem failedCompressWritesOnlyClose : Obligations.FailedCompressWritesOnlyClose := by
  refine ⟨fun s t herr hbw hbr hexec => ?firstTurn,
    fun s t hinv hrun hstep hreset => (compressOut_step hinv hrun hstep hreset).closed_or_unwritten,
    fun s l c q bits hs hdrain hcodes hbits hroom => ?errors⟩
  case firstTurn =>
    rcases exec_cases hexec with ⟨he, -⟩ | ⟨-, hadm, -⟩ | ⟨-, -, rfl⟩
    · exact absurd herr he
    · exact absurd hadm (by simp [admits, hbw, hbr])
    · exact (compressOut_advance (u := commandStart .compress s)
        (.inl ⟨herr, rfl, .inl rfl⟩)).closed_or_unwritten
  case errors =>
    subst hbits
    exact ⟨exec_compress_missingCode hs hdrain hcodes hroom, fun p => exec_compress_overflow hs hdrain hcodes hroom,
      exec_compress_readError hs hdrain hcodes hroom, exec_compress_noRoomToClose hs hdrain hcodes hroom,
      exec_compress_outErr hs hdrain hcodes hroom⟩

end Sys2Proof.Machine
end

section
/-! PROOFS. The unpacker after a number of bits of a session, whatever its terminator (spec 10_state.md R42, R45,
45_bitreader.md R310 to R312). -/

namespace Sys2Proof.Machine

/-- Of the data bytes `all`, the terminator `e` and `rest`, what is left in IN once the two-byte window was filled and `n` bits
were taken; and whether the terminator was read. -/
def leftOf (e : Token) (all : List Byte) (rest : List Token) (n : Nat) : List Token × Bool :=
  if 2 + n / 8 ≤ all.length then (Spec.inBytes (all.drop (2 + n / 8)) ++ e :: rest, false) else (rest, true)

theorem leftOf_eos (all : List Byte) (rest : List Token) (n : Nat) : leftOf .eos all rest n = Spec.leftAfter all rest n := rfl

/-- The engine at place `c` of a command, with `n` bits of the session taken: the data bytes `all`, the terminator `e`, and
`rest` behind it. -/
def State.readingAt (s : State) (e : Token) (all : List Byte) (rest : List Token) (n : Nat) (c : Ctl) : State :=
  { s with
    br := { s.br with cur := all[n / 8]?, nxt := all[n / 8 + 1]?, pos := ⟨n % 8, Nat.mod_lt n (by decide)⟩ }
    inQ := (leftOf e all rest n).1
    inTerm := (leftOf e all rest n).2
    ctl := c }

/-- The bits of the data bytes, less the padding of the last one, from the `n`-th on (20_memory.md R77). -/
def bitsAfter (pad : Fin 8) (all : List Byte) (n : Nat) : List Bool :=
  ((all.flatMap byteBits).take (8 * all.length - pad.val)).drop n

theorem length_bitsAfter (pad : Fin 8) (all : List Byte) (n : Nat) :
    (bitsAfter pad all n).length = 8 * all.length - pad.val - n := by
  rw [bitsAfter, List.length_drop, List.length_take, length_flatMap_byteBits]
  omega

theorem bitsAfter_append {pad : Fin 8} {all : List Byte} {n : Nat} {p bits : List Bool}
    (h : bitsAfter pad all n = p ++ bits) : bitsAfter pad all (n + p.length) = bits := by
  rw [bitsAfter, ← List.drop_drop, ← bitsAfter, h, List.drop_left]

/-- The bits of a packed form (R286). -/
theorem bitsAfter_of_isPacked {bits : List Bool} {h : Byte} {data : List Byte} {pad : Fin 8}
    (hp : Spec.IsPacked bits h data) (hpad : h.toNat = pad.val) : bitsAfter pad data 0 = bits := by
  obtain ⟨hbits, -⟩ := isPacked_iff.1 hp
  have hlen : 8 * data.length - pad.val = bits.length := by
    rw [← length_flatMap_byteBits, hbits, List.length_append, List.length_replicate, hpad, Nat.add_sub_cancel]
  rw [bitsAfter, List.drop_zero, hlen, hbits]
  exact List.take_left

section
variable {s : State} {e : Token} {all : List Byte} {rest : List Token} {n : Nat} {c : Ctl}

theorem leftOf_of_le (h : 2 + n / 8 ≤ all.length) :
    leftOf e all rest n = (Spec.inBytes (all.drop (2 + n / 8)) ++ e :: rest, false) := if_pos h

theorem leftOf_of_lt (h : all.length < 2 + n / 8) : leftOf e all rest n = (rest, true) := if_neg (by omega)

theorem hasNext_readingAt : hasNext (s.readingAt e all rest n c).br = true ↔ bitsAfter s.br.pad all n ≠ [] := by
  have hpad := s.br.pad.isLt
  rw [hasNext_iff, ← List.length_pos_iff, length_bitsAfter]
  simp only [State.readingAt, ne_eq, List.getElem?_eq_none_iff]
  omega

/-- The window and IN, where the terminator is EOS (R42, R45). -/
theorem window_readingAt : Spec.Window (s.readingAt .eos all rest n c) (all.drop (n / 8)) rest := by
  rcases lt_trichotomy (n / 8 + 1) all.length with h | h | h
  · have hleft := leftOf_of_le (e := .eos) (rest := rest) (n := n) (all := all) (by omega)
    refine .inl ⟨congrArg Prod.snd hleft, all[n / 8], all[n / 8 + 1], all.drop (2 + n / 8), ?_,
      List.getElem?_eq_getElem _, List.getElem?_eq_getElem _, congrArg Prod.fst hleft⟩
    rw [List.drop_eq_getElem_cons (by omega), List.drop_eq_getElem_cons h, Nat.add_comm 2]
  · have hleft := leftOf_of_lt (e := .eos) (rest := rest) (n := n) (all := all) (by omega)
    refine .inr (.inl ⟨congrArg Prod.snd hleft, congrArg Prod.fst hleft, all[n / 8], ?_,
      List.getElem?_eq_getElem _, List.getElem?_eq_none (by omega)⟩)
    rw [List.drop_eq_getElem_cons (by omega), List.drop_eq_nil_of_le (by omega)]
  · have hleft := leftOf_of_lt (e := .eos) (rest := rest) (n := n) (all := all) (by omega)
    exact .inr (.inr ⟨congrArg Prod.snd hleft, congrArg Prod.fst hleft, List.drop_eq_nil_of_le (by omega),
      List.getElem?_eq_none (by omega), List.getElem?_eq_none (by omega)⟩)

theorem flatMap_byteBits_drop (all : List Byte) (k : Nat) :
    (all.drop k).flatMap byteBits = (all.flatMap byteBits).drop (8 * k) := by
  induction all generalizing k with
  | nil => simp
  | cons d all ih =>
    cases k with
    | zero => rfl
    | succ k =>
      rw [List.drop_succ_cons, ih, List.flatMap_cons, Nat.mul_succ, Nat.add_comm, ← List.drop_drop,
        List.drop_left' (length_byteBits d)]

theorem unread_readingAt : Spec.unread (s.readingAt .eos all rest n c) (all.drop (n / 8)) = bitsAfter s.br.pad all n := by
  have hlen : 8 * (all.length - n / 8) - s.br.pad.val = 8 * all.length - s.br.pad.val - 8 * (n / 8) := by omega
  have hdrop : 8 * (n / 8) + n % 8 = n := Nat.div_add_mod n 8
  rw [Spec.unread, flatMap_byteBits_drop, List.length_drop]
  simp only [State.readingAt]
  rw [hlen, ← List.drop_take, List.drop_drop, hdrop, bitsAfter]

theorem eq_readingAt {pos : Fin 8} (hpos : s.br.pos = pos) (hcur : s.br.cur = all[0]?) (hnxt : s.br.nxt = all[1]?)
    (hin : (s.inQ, s.inTerm) = leftOf e all rest 0) : s = s.readingAt e all rest pos.val s.ctl := by
  obtain ⟨hq, ht⟩ := Prod.mk.inj hin
  subst hpos
  have hdiv : s.br.pos.val / 8 = 0 := Nat.div_eq_of_lt s.br.pos.isLt
  have hleft : leftOf e all rest s.br.pos.val = leftOf e all rest 0 := by rw [leftOf, leftOf, hdiv]
  have hbr : s.br = { s.br with
      cur := all[0]?, nxt := all[0 + 1]?, pos := ⟨s.br.pos.val % 8, Nat.mod_lt _ (by decide)⟩ } := by
    rw [← hcur, ← hnxt]
    simp only [Nat.mod_eq_of_lt s.br.pos.isLt]
  rw [State.readingAt]
  simp only [hleft, hdiv, ← hbr, ← hin]

/-- A state with a window and IN over the bytes of a session. -/
theorem eq_readingAt_of_window {ds : List Byte} (h : Spec.Window s ds rest) :
    s = s.readingAt .eos ds rest s.br.pos.val s.ctl := by
  refine eq_readingAt rfl ?_ ?_ ?_ <;>
    rcases h with ⟨ht, c, n, more, rfl, hcur, hnxt, hq⟩ | ⟨ht, hq, c, rfl, hcur, hnxt⟩ | ⟨ht, hq, rfl, hcur, hnxt⟩ <;>
    simp [leftOf, *]

/-- The next bit is one of the current byte (R312). -/
theorem current_of_bitsAfter {pad : Fin 8} {b : Bool} {bits : List Bool} (h : bitsAfter pad all n = b :: bits) :
    ∃ d, all[n / 8]? = some d ∧ d.getLsbD (n % 8) = b := by
  have hlen : 8 * all.length - pad.val - n = bits.length + 1 := by rw [← length_bitsAfter, h, List.length_cons]
  have hhead : (bitsAfter pad all n)[0]? = some b := by rw [h]; rfl
  rw [bitsAfter, List.getElem?_drop, List.getElem?_take_of_lt (by omega), Nat.add_zero] at hhead
  have hbit := getElem?_flatMap_byteBits all (n / 8) (Nat.mod_lt n (by decide : 0 < 8))
  rw [Nat.div_add_mod, hhead] at hbit
  obtain ⟨d, hd, hb⟩ := Option.map_eq_some_iff.1 hbit.symm
  exact ⟨d, hd, hb⟩

/-- The refill after the last bit of a byte (R312): the terminator is not read, or it is EOS. -/
theorem advance_refilling_readingAt (hq : s.quantum = none) (h7 : n % 8 = 7)
    (he : e = .eos ∨ n / 8 + 2 < all.length) (b : Bool) (k : RefillFor) :
    advance ((s.readingAt e all rest n c).refilling b k) =
      advance (bitTaken b k (s.readingAt e all rest (n + 1) c)) := by
  have hdiv : (n + 1) / 8 = n / 8 + 1 := by omega
  have hmod : (n + 1) % 8 = 0 := by omega
  have hdone : ∀ u : State, u = (s.readingAt e all rest (n + 1) (.refill b k)) →
      advance (bitTaken b k u) = advance (bitTaken b k (s.readingAt e all rest (n + 1) c)) := by
    rintro u rfl
    exact congrArg advance (bitTaken_ctl_irrel b k (s.readingAt e all rest (n + 1) c) _)
  rcases lt_trichotomy (n / 8 + 2) all.length with hlt | heq | hgt
  · have hleft := leftOf_of_le (e := e) (rest := rest) (n := n) (all := all) (by omega)
    have hleft' := leftOf_of_le (e := e) (rest := rest) (n := n + 1) (all := all) (by omega)
    rw [List.drop_eq_getElem_cons (by omega)] at hleft
    rw [advance_refilling_of_byte (s := s.readingAt e all rest n c) hq b k (congrArg Prod.snd hleft)
      (congrArg Prod.fst hleft)]
    refine hdone _ ?_
    have hnxt : all[n / 8 + 1 + 1]? = some all[2 + n / 8] := by
      rw [show n / 8 + 1 + 1 = 2 + n / 8 by omega, List.getElem?_eq_getElem]
    rw [hdiv, ← Nat.add_assoc] at hleft'
    simp only [State.refilling, shiftWindow, State.readingAt, hleft, hleft', hnxt, hdiv, hmod]
    rfl
  · obtain rfl : e = .eos := he.resolve_right (by omega)
    have hleft := leftOf_of_le (e := .eos) (rest := rest) (n := n) (all := all) (by omega)
    have hleft' := leftOf_of_lt (e := .eos) (rest := rest) (n := n + 1) (all := all) (by omega)
    rw [List.drop_eq_nil_of_le (by omega)] at hleft
    rw [advance_refilling_of_eos (s := s.readingAt .eos all rest n c) hq b k (congrArg Prod.snd hleft)
      (congrArg Prod.fst hleft)]
    refine hdone _ ?_
    have hnxt : all[n / 8 + 1 + 1]? = none := List.getElem?_eq_none (by omega)
    simp only [State.refilling, shiftWindow, State.readingAt, hleft', hnxt, hdiv, hmod]
    rfl
  · have hleft := leftOf_of_lt (e := e) (rest := rest) (n := n) (all := all) (by omega)
    have hleft' := leftOf_of_lt (e := e) (rest := rest) (n := n + 1) (all := all) (by omega)
    rw [advance_refilling_of_inTerm (s := s.readingAt e all rest n c) hq b k (congrArg Prod.snd hleft)]
    refine hdone _ ?_
    have hnxt : all[n / 8 + 1 + 1]? = none := List.getElem?_eq_none (by omega)
    simp only [State.refilling, shiftWindow, State.readingAt, hleft, hleft', hnxt, hdiv, hmod]
    rfl

/-- Next takes the next bit, with the refill of the window where it used up the current byte (R312): the terminator is not
read, or it is EOS. -/
theorem advance_takeBit_readingAt {b : Bool} {bits : List Bool} (hq : s.quantum = none)
    (h : bitsAfter s.br.pad all n = b :: bits) (he : e = .eos ∨ n + 1 < 8 * (all.length - 1)) (k : RefillFor) :
    advance (takeBit k (s.readingAt e all rest n c)) = advance (bitTaken b k (s.readingAt e all rest (n + 1) c)) := by
  obtain ⟨d, hd, hb⟩ := current_of_bitsAfter h
  have hcur : currentBit (s.readingAt e all rest n c).br = b := (currentBit_of_cur hd).trans hb
  by_cases h7 : n % 8 = 7
  · rw [takeBit_of_pos_eq_seven (Fin.ext h7), hcur]
    exact advance_refilling_readingAt hq h7 (he.imp_right fun h => by omega) b k
  · have hpos : (s.readingAt e all rest n c).br.pos ≠ 7 := fun h => h7 (congrArg Fin.val h)
    have hdiv : (n + 1) / 8 = n / 8 := by omega
    have hmod : (⟨n % 8, Nat.mod_lt n (by decide)⟩ : Fin 8) + 1 = ⟨(n + 1) % 8, Nat.mod_lt _ (by decide)⟩ := by
      refine Fin.ext ?_
      simp [Fin.val_add]
    rw [takeBit_of_pos_ne_seven hpos, hcur]
    simp only [State.readingAt, leftOf, hmod, hdiv]

/-- Error entry closes the unpacker and ends the command (R341, R342). -/
theorem raiseError_readingAt (q : List Token) (tm : Bool) (x : ErrName) (i : Word) :
    raiseError x i { s.readingAt e all rest n c with inQ := q, inTerm := tm } =
      raiseError x i { s with inQ := q, inTerm := tm } := by
  simp only [raiseError_closed_form, State.readingAt]

/-- The refill that meets ERR raises (R312, R79). -/
theorem advance_takeBit_of_err (hq : s.quantum = none) (h2 : 2 ≤ all.length) (hn : n + 1 = 8 * (all.length - 1))
    (k : RefillFor) : advance (takeBit k (s.readingAt .err all rest n c)) =
      raiseError .resourceError 0 { s with inQ := rest, inTerm := true } := by
  have h7 : n % 8 = 7 := by omega
  have hleft := leftOf_of_le (e := .err) (rest := rest) (n := n) (all := all) (by omega)
  rw [List.drop_eq_nil_of_le (by omega)] at hleft
  rw [takeBit_of_pos_eq_seven (Fin.ext h7), advance_refilling_of_err (s := s.readingAt .err all rest n c) hq _ _
    (congrArg Prod.snd hleft) (congrArg Prod.fst hleft), raiseError_readingAt]

end

end Sys2Proof.Machine
end

section
/-! PROOFS. BrOpen by the head of IN, for BR_OPEN and DECOMPRESS (spec 45_bitreader.md R310, R313). -/

namespace Sys2Proof.Machine

/-! ### A turn that begins at an InRead -/

section
variable {s : State} {q : List Token} (hq : s.quantum = none) (hread : atInRead s.ctl = true) (ht : s.inTerm = false)
include hq hread ht

theorem advance_atInRead_byte {b : Byte} (hin : s.inQ = .byte b :: q) :
    advance s = advance (atByte s.ctl b { s with inQ := q }) :=
  advance_tick hq (by rw [tick_of_atInRead hread, inRead_of_byte ht hin, afterRead])

theorem advance_atInRead_eos (hin : s.inQ = .eos :: q) :
    advance s = advance (atEof s.ctl { s with inQ := q, inTerm := true }) :=
  advance_tick hq (by rw [tick_of_atInRead hread, inRead_of_eos ht hin, afterRead])

theorem advance_atInRead_err (hin : s.inQ = .err :: q) :
    advance s = raiseError .resourceError 0 { s with inQ := q, inTerm := true } := by
  rw [advance_tick hq (by rw [tick_of_atInRead hread, inRead_of_err ht hin, afterRead]), advance_raiseError]

theorem advance_atInRead_nil (hin : s.inQ = []) : advance s = s :=
  advance_hold hq (by rw [tick_of_atInRead hread, inRead_of_nil ht hin, afterRead])

end

theorem advance_atInRead_inTerm {s : State} (hq : s.quantum = none) (hread : atInRead s.ctl = true)
    (ht : s.inTerm = true) : advance s = advance (atEof s.ctl s) :=
  advance_tick hq (by rw [tick_of_atInRead hread, inRead_of_inTerm ht, afterRead])

/-! ### The three reads -/

theorem brOpened_ctl_irrel (k : BrOpenFor) (v : Word) (b : Unpacker) (s : State) (c : Ctl) :
    brOpened k v b { s with ctl := c } = brOpened k v b s := by cases k <;> rfl

theorem headerPad_of_gt {h : Byte} (hh : 7 < h.toNat) : headerPad h = none := dif_neg (by omega)

theorem headerPad_of_eq {h : Byte} {pad : Fin 8} (hh : h.toNat = pad.val) : headerPad h = some pad := by
  rw [headerPad, dif_pos (by omega)]
  exact congrArg some (Fin.ext hh)

/-- BrOpen at its first InRead, its session open. -/
def State.atHeader (s : State) (k : BrOpenFor) : State := { s with inOwned := true, inTerm := false, ctl := .header k }

theorem raiseError_atHeader (s : State) (k : BrOpenFor) (q : List Token) (tm : Bool) (c : Ctl) (e : ErrName) (i : Word) :
    raiseError e i { s.atHeader k with inQ := q, inTerm := tm, ctl := c } =
      raiseError e i { s with inQ := q, inOwned := true, inTerm := tm } := by
  simp only [raiseError_closed_form, State.atHeader]

section
variable {s : State} {h c n : Byte} {q : List Token} {pad : Fin 8} (hq : s.quantum = none) (k : BrOpenFor)
include hq

theorem advance_atHeader_eos (hin : s.inQ = .eos :: q) :
    advance (s.atHeader k) =
      advance (brOpened k emptySourceResult openedEmpty { s with inQ := q, inOwned := true, inTerm := true }) :=
  (advance_atInRead_eos (s := s.atHeader k) hq rfl rfl hin).trans (congrArg advance (brOpened_ctl_irrel k _ _
    { s with inQ := q, inOwned := true, inTerm := true } _))

theorem advance_atHeader_malformed (hin : s.inQ = .byte h :: q) (hh : 7 < h.toNat) :
    advance (s.atHeader k) =
      raiseError .malformedStream (h.zeroExtend 32) { s with inQ := q, inOwned := true, inTerm := false } := by
  rw [advance_atInRead_byte (s := s.atHeader k) hq rfl rfl hin, State.atHeader, atByte, headerPad_of_gt hh]
  exact (advance_raiseError ..).trans (raiseError_atHeader s k q false _ _ _)

/-- After a header 0 to 7 the current byte is read. -/
theorem advance_atHeader_byte (hin : s.inQ = .byte h :: q) (hh : h.toNat = pad.val) :
    advance (s.atHeader k) = advance { s.atHeader k with inQ := q, ctl := .fillCur k pad } := by
  rw [advance_atInRead_byte (s := s.atHeader k) hq rfl rfl hin]
  simp only [State.atHeader, atByte, headerPad_of_eq hh]

/-- After a header and a byte the next byte is read. -/
theorem advance_atHeader_bytes (hin : s.inQ = .byte h :: .byte c :: q) (hh : h.toNat = pad.val) :
    advance (s.atHeader k) = advance { s.atHeader k with inQ := q, ctl := .fillNxt k pad (some c) } :=
  (advance_atHeader_byte hq k hin hh).trans (advance_atInRead_byte (by exact hq) rfl rfl rfl)

theorem advance_atHeader_whole (hin : s.inQ = .byte h :: .byte c :: .byte n :: q) (hh : h.toNat = pad.val) :
    advance (s.atHeader k) = advance (brOpened k (BitVec.ofNat 32 pad.val) (openedWith pad (some c) (some n))
      { s with inQ := q, inOwned := true, inTerm := false }) :=
  (advance_atHeader_bytes hq k hin hh).trans ((advance_atInRead_byte (by exact hq) rfl rfl rfl).trans
    (congrArg advance (brOpened_ctl_irrel k _ _ { s with inQ := q, inOwned := true, inTerm := false } _)))

theorem advance_atHeader_one (hin : s.inQ = .byte h :: .byte c :: .eos :: q) (hh : h.toNat = pad.val) :
    advance (s.atHeader k) = advance (brOpened k (BitVec.ofNat 32 pad.val) (openedWith pad (some c) none)
      { s with inQ := q, inOwned := true, inTerm := true }) :=
  (advance_atHeader_bytes hq k hin hh).trans ((advance_atInRead_eos (by exact hq) rfl rfl rfl).trans
    (congrArg advance (brOpened_ctl_irrel k _ _ { s with inQ := q, inOwned := true, inTerm := true } _)))

theorem advance_atHeader_none (hin : s.inQ = .byte h :: .eos :: q) (hh : h.toNat = pad.val) :
    advance (s.atHeader k) = advance (brOpened k (BitVec.ofNat 32 pad.val) (openedWith pad none none)
      { s with inQ := q, inOwned := true, inTerm := true }) :=
  (advance_atHeader_byte hq k hin hh).trans ((advance_atInRead_eos (by exact hq) rfl rfl rfl).trans
    ((advance_atInRead_inTerm (by exact hq) rfl rfl).trans
      (congrArg advance (brOpened_ctl_irrel k _ _ { s with inQ := q, inOwned := true, inTerm := true } _))))

/-- A failed read at any of the three (R79). -/
theorem advance_atHeader_err (hin : s.inQ = .err :: q ∨
      h.toNat ≤ 7 ∧ (s.inQ = .byte h :: .err :: q ∨ s.inQ = .byte h :: .byte c :: .err :: q)) :
    advance (s.atHeader k) = raiseError .resourceError 0 { s with inQ := q, inOwned := true, inTerm := true } := by
  rcases hin with hin | ⟨hh, hin | hin⟩
  · exact (advance_atInRead_err (s := s.atHeader k) hq rfl rfl hin).trans (raiseError_atHeader s k q true _ _ _)
  · exact (advance_atHeader_byte (pad := ⟨h.toNat, by omega⟩) hq k hin rfl).trans
      ((advance_atInRead_err (by exact hq) rfl rfl rfl).trans (raiseError_atHeader s k q true _ _ _))
  · exact (advance_atHeader_bytes (pad := ⟨h.toNat, by omega⟩) hq k hin rfl).trans
      ((advance_atInRead_err (by exact hq) rfl rfl rfl).trans (raiseError_atHeader s k q true _ _ _))

/-- IN empty at any of the three. -/
theorem advance_atHeader_nil (hin : s.inQ = [] ∨ h.toNat ≤ 7 ∧ (s.inQ = [.byte h] ∨ s.inQ = [.byte h, .byte c])) :
    ∃ l, l ≠ .idle ∧ advance (s.atHeader k) = { s with inQ := [], inOwned := true, inTerm := false, ctl := l } := by
  rcases hin with hin | ⟨hh, hin | hin⟩
  · refine ⟨.header k, by simp, (advance_atInRead_nil (s := s.atHeader k) hq rfl rfl hin).trans ?_⟩
    rw [← hin]
    rfl
  · exact ⟨_, by simp, (advance_atHeader_byte (pad := ⟨h.toNat, by omega⟩) hq k hin rfl).trans
      (advance_atInRead_nil (by exact hq) rfl rfl rfl)⟩
  · exact ⟨_, by simp, (advance_atHeader_bytes (pad := ⟨h.toNat, by omega⟩) hq k hin rfl).trans
      (advance_atInRead_nil (by exact hq) rfl rfl rfl)⟩

/-- A session with a header is opened with its first two data bytes in the window, where the terminator behind them is EOS or
is not read. -/
theorem advance_atHeader_opened {e : Token} {data : List Byte} {rest : List Token} (he : e = .eos ∨ 2 ≤ data.length)
    (hin : s.inQ = Spec.inBytes (h :: data) ++ e :: rest) (hh : h.toNat = pad.val) :
    advance (s.atHeader k) = advance (brOpened k (BitVec.ofNat 32 pad.val) (openedWith pad data[0]? data[1]?)
      { s with inQ := (leftOf e data rest 0).1, inOwned := true, inTerm := (leftOf e data rest 0).2 }) := by
  rcases data with _ | ⟨d, _ | ⟨d', more⟩⟩
  · obtain rfl : e = .eos := he.resolve_right (by simp)
    exact advance_atHeader_none hq k hin hh
  · obtain rfl : e = .eos := he.resolve_right (by simp)
    exact advance_atHeader_one hq k hin hh
  · have hleft := leftOf_of_le (e := e) (rest := rest) (n := 0) (all := d :: d' :: more) (by simp)
    rw [hleft]
    exact advance_atHeader_whole hq k hin hh

end

end Sys2Proof.Machine
end

section
/-! PROOFS. The statements about BR_OPEN and the session of an unpacker (spec 45_bitreader.md R310, R313, R317). -/

namespace Sys2Proof.Machine

theorem exec_brOpen {s : State} (herr : s.err = none) (hbr : s.br.isOpen = false) (hdrain : s.inDrain = false)
    (hq : s.quantum = none) : exec .brOpen s = .next (advance (s.atHeader .brOpen)) := by
  rw [exec, execBrOpen, command_run herr (by simp [admits, hbr])]
  exact congrArg _ (advance_tick (by exact hq) (if_neg (c := s.inDrain = true) (by simp [hdrain])))

theorem advance_brOpened_brOpen (v : Word) (b : Unpacker) (s : State) :
    advance (brOpened .brOpen v b s) = complete v { s with br := b } := advance_of_idle rfl

theorem ofNat_of_header {h : Byte} {pad : Fin 8} (hh : h.toNat = pad.val) : BitVec.ofNat 32 pad.val = h.zeroExtend 32 := by
  rw [← hh]
  exact BitVec.eq_of_toNat_eq (by simp)

/-- Settles O39: BrOpen by the head of IN. -/
theorem brOpenReadsHeaderAndWindow : Obligations.BrOpenReadsHeaderAndWindow := by
  intro s h c n q herr hbr hdrain hq
  rw [exec_brOpen herr hbr hdrain hq]
  refine ⟨fun hin => ?_, fun hin hh => ?_, fun pad hh => ⟨fun hin => ?_, fun hin => ?_, fun hin => ?_⟩, fun hin => ?_,
    fun hin => ?_⟩
  · rw [advance_atHeader_eos hq _ hin, advance_brOpened_brOpen]
    rfl
  · rw [advance_atHeader_malformed hq _ hin hh]
  · rw [advance_atHeader_none hq _ hin hh, advance_brOpened_brOpen, ofNat_of_header hh]
    rfl
  · rw [advance_atHeader_one hq _ hin hh, advance_brOpened_brOpen, ofNat_of_header hh]
    rfl
  · rw [advance_atHeader_whole hq _ hin hh, advance_brOpened_brOpen, ofNat_of_header hh]
    rfl
  · rw [advance_atHeader_err hq _ hin]
  · obtain ⟨l, hl, hadv⟩ := advance_atHeader_nil hq .brOpen hin
    exact ⟨l, hl, congrArg _ hadv⟩

end Sys2Proof.Machine
end

section
/-! PROOFS. The unpacker gives back the bits of a packed form (spec 45_bitreader.md R317). -/

namespace Sys2Proof.Machine

theorem exec_brHasNext {s : State} (herr : s.err = none) (hopen : s.br.isOpen = true) :
    exec .brHasNext s = .next (complete (if hasNext s.br then 1 else 0) s) := by
  rw [exec, execBrHasNext, command_run herr (show admits .brHasNext s = true from hopen)]

/-- BR_NEXT with a bit left takes it (R312, R315). -/
theorem exec_brNext_readingAt {s : State} {data : List Byte} {rest : List Token} {n : Nat} {c : Ctl} {b : Bool}
    {bits : List Bool} (herr : s.err = none) (hopen : s.br.isOpen = true) (hq : s.quantum = none)
    (h : bitsAfter s.br.pad data n = b :: bits) : exec .brNext (s.readingAt .eos data rest n c) =
      .next (complete (if b then 1 else 0) (s.readingAt .eos data rest (n + 1) c)) := by
  have hnext : hasNext (s.readingAt .eos data rest n c).br = true := hasNext_readingAt.2 (by simp [h])
  rw [exec_brNext (by exact herr) (by exact hopen), if_pos hnext, advance_takeBit_readingAt hq h (.inl rfl),
    advance_bitTaken_brNext]

/-- RESULT in a session of the unpacker: the header, and then the bit taken last. -/
def sessionResult (h : Byte) (bits : List Bool) : Nat → Word
  | 0 => h.zeroExtend 32
  | i + 1 => if bits.getD i false then 1 else 0

/-- A session of the unpacker with `i` bits taken. -/
def unpackerSession (s : State) (pad : Fin 8) (h : Byte) (bits : List Bool) (data : List Byte) (rest : List Token) (i : Nat) :
    State :=
  { s with br := openedWith pad none none, inOwned := true, result := sessionResult h bits i }.readingAt
    .eos data rest i .idle

section
variable {s : State} {pad : Fin 8} {h : Byte} {bits : List Bool} {data : List Byte} {rest : List Token} {i : Nat}
  (herr : s.err = none) (hbits : bitsAfter pad data 0 = bits)
include hbits

theorem bitsAfter_eq_drop : bitsAfter pad data i = bits.drop i := by
  rw [← hbits, bitsAfter, bitsAfter, List.drop_zero]

theorem hasNext_unpackerSession : hasNext (unpackerSession s pad h bits data rest i).br = true ↔ i < bits.length := by
  rw [unpackerSession, hasNext_readingAt]
  show bitsAfter pad data i ≠ [] ↔ _
  rw [bitsAfter_eq_drop hbits, ne_eq, List.drop_eq_nil_iff, not_le]

include herr

theorem exec_brHasNext_unpackerSession : exec .brHasNext (unpackerSession s pad h bits data rest i) =
    .next { unpackerSession s pad h bits data rest i with result := if i < bits.length then 1 else 0, ctl := .idle } := by
  rw [exec_brHasNext (s := unpackerSession s pad h bits data rest i) herr rfl]
  simp only [hasNext_unpackerSession hbits]
  rfl

theorem exec_brNext_unpackerSession (hq : s.quantum = none) {b : Bool} (hb : bits[i]? = some b) :
    exec .brNext (unpackerSession s pad h bits data rest i) = .next (unpackerSession s pad h bits data rest (i + 1)) := by
  obtain ⟨hi, hbi⟩ := List.getElem?_eq_some_iff.1 hb
  have hleft : bitsAfter pad data i = b :: bits.drop (i + 1) := by
    rw [bitsAfter_eq_drop hbits, List.drop_eq_getElem_cons hi, hbi]
  refine (exec_brNext_readingAt (s := { s with
    br := openedWith pad none none, inOwned := true, result := sessionResult h bits i }) herr rfl hq hleft).trans ?_
  rw [unpackerSession, sessionResult, List.getD_eq_getElem?_getD, hb]
  rfl

theorem exec_brNext_unpackerSession_last : exec .brNext (unpackerSession s pad h bits data rest bits.length) =
    .next (raiseError .exhaustion 0 (unpackerSession s pad h bits data rest bits.length)) := by
  rw [exec_brNext (s := unpackerSession s pad h bits data rest bits.length) herr rfl,
    if_neg fun hn => Nat.lt_irrefl _ ((hasNext_unpackerSession hbits).1 hn)]

end

/-- Settles O43: BrOpen fills the window, and each BR_NEXT moves on by one bit. -/
theorem unpackerReadsBackThePackedBits : Obligations.UnpackerReadsBackThePackedBits := by
  intro s bits h data rest herr hbr hdrain hq hpacked hin
  have hlen : data.length = (bits.length + 7) / 8 := hpacked.1
  obtain ⟨pad, hpad⟩ : ∃ pad : Fin 8, h.toNat = pad.val := ⟨⟨h.toNat, (isPacked_iff.1 hpacked).2⟩, rfl⟩
  have hbits := bitsAfter_of_isPacked hpacked hpad
  refine ⟨unpackerSession s pad h bits data rest, ?opened, rfl, fun i b hb => ⟨?hasNext, ?next, ?bit⟩, ?last, ?exhausted,
    ?left⟩
  case opened =>
    rw [exec_brOpen herr hbr hdrain hq, advance_atHeader_opened hq _ (.inl rfl) hin hpad, advance_brOpened_brOpen,
      ofNat_of_header hpad]
    rfl
  case hasNext =>
    rw [exec_brHasNext_unpackerSession herr hbits, if_pos (List.getElem?_eq_some_iff.1 hb).1]
  case next => exact exec_brNext_unpackerSession herr hbits hq hb
  case bit =>
    show sessionResult h bits (i + 1) = _
    rw [sessionResult, List.getD_eq_getElem?_getD, hb, Option.getD_some]
  case last => rw [exec_brHasNext_unpackerSession herr hbits, if_neg (Nat.lt_irrefl _)]
  case exhausted => exact exec_brNext_unpackerSession_last herr hbits
  case left => exact congrArg Prod.fst (leftOf_of_lt (by omega))

end Sys2Proof.Machine
end

section
/-! PROOFS. A decode attempt over the bits of a session, to each of its ends (spec 43_translate.md R240). -/

namespace Sys2Proof.Machine

theorem exists_internal_of_nodeAt_concat {t : Tree} {p : List Bool} {b : Bool} {v : Byte}
    (h : t.nodeAt (p ++ [b]) = .leaf v) : ∃ l r, t.nodeAt p = .internal l r := by
  rw [Tree.nodeAt_append] at h
  cases hp : t.nodeAt p with
  | internal l r => exact ⟨l, r, rfl⟩
  | absent => rw [hp, Node.nodeAt_absent] at h; cases h
  | leaf u => rw [hp] at h; cases (Node.nodeAt_leaf_eq_leaf h).1

theorem child_of_nodeAt_concat {t : Tree} {p : List Bool} {b : Bool} {l r : Node} (h : t.nodeAt p = .internal l r) :
    t.nodeAt (p ++ [b]) = if b then r else l := by
  rw [Tree.nodeAt_append, h, Node.nodeAt_internal_cons, Node.nodeAt_nil]

theorem Node.nodeAt_leaf_ne_internal {v : Byte} {p : List Bool} {l r : Node} : (Node.leaf v).nodeAt p ≠ .internal l r := by
  cases p <;> simp [Node.nodeAt]

/-- An error found with `n` bits taken. -/
theorem raiseError_readingAt_left (s : State) (e : Token) (all : List Byte) (rest : List Token) (n : Nat) (c : Ctl)
    (x : ErrName) (i : Word) : raiseError x i (s.readingAt e all rest n c) =
      raiseError x i { s with inQ := (leftOf e all rest n).1, inTerm := (leftOf e all rest n).2 } := by
  simp only [raiseError_closed_form, State.readingAt]

theorem tick_decode_of_hasNext {s : State} {d : Descent} {m : DecodeFor} (hc : s.ctl = .decode d m)
    (h : hasNext s.br = true) : tick s = some (takeBit (.decode d m) s) := by
  simp only [tick, hc, tickDecode, if_pos h]

theorem tick_decode_of_not_hasNext {s : State} {d : Descent} {m : DecodeFor} (hc : s.ctl = .decode d m)
    (h : ¬hasNext s.br = true) : tick s = some (raiseError .exhaustion (BitVec.ofNat 32 d.depth) s) := by
  simp only [tick, hc, tickDecode, if_neg h]

/-- The attempt that finds TREE empty. -/
theorem advance_attempt_empty {s : State} {e : Token} {all : List Byte} {rest : List Token} {n : Nat} {c : Ctl}
    (htree : s.tree = .empty) (m : DecodeFor) : advance (startAttempt m (s.readingAt e all rest n c)) =
      raiseError .undefinedPath 0 { s with inQ := (leftOf e all rest n).1, inTerm := (leftOf e all rest n).2 } := by
  rw [startAttempt, show (s.readingAt e all rest n c).tree = .empty from htree]
  exact (advance_raiseError ..).trans (raiseError_readingAt_left ..)

section
variable {s : State} {e : Token} {all : List Byte} {rest : List Token} {n : Nat} {m : DecodeFor} (hq : s.quantum = none)
include hq

/-- One bit of a decode attempt. -/
theorem advance_decode_bit {d : Descent} {b : Bool} {bits : List Bool} (h : bitsAfter s.br.pad all n = b :: bits)
    (he : e = .eos ∨ n + 1 < 8 * (all.length - 1)) : advance (s.readingAt e all rest n (.decode d m)) =
      advance (descend b d m (s.readingAt e all rest (n + 1) (.decode d m))) := by
  have hnext : hasNext (s.readingAt e all rest n (.decode d m)).br = true := hasNext_readingAt.2 (by simp [h])
  rw [advance_tick (s := s.readingAt e all rest n (.decode d m)) hq (tick_decode_of_hasNext rfl hnext),
    advance_takeBit_readingAt hq h he, bitTaken]

/-- A decode attempt takes the bits of a path that leads to an INTERNAL node. -/
theorem advance_decode_path {d : Descent} {p bits : List Bool} {l r : Node}
    (hnode : (Node.internal d.zero d.one).nodeAt p = .internal l r) (h : bitsAfter s.br.pad all n = p ++ bits)
    (he : e = .eos ∨ n + p.length < 8 * (all.length - 1)) : advance (s.readingAt e all rest n (.decode d m)) =
      advance (s.readingAt e all rest (n + p.length) (.decode { zero := l, one := r, depth := d.depth + p.length } m)) := by
  induction p generalizing d n with
  | nil => cases hnode; rfl
  | cons b p ih =>
    rw [List.length_cons] at he
    rw [advance_decode_bit hq h (he.imp_right fun h => by omega), descend]
    rw [Node.nodeAt_internal_cons] at hnode
    cases hchild : (if b then d.one else d.zero) with
    | absent => rw [hchild, Node.nodeAt_absent] at hnode; cases hnode
    | leaf u => rw [hchild] at hnode; exact absurd hnode Node.nodeAt_leaf_ne_internal
    | internal l' r' =>
      rw [hchild] at hnode
      have hrest := ih (n := n + 1) (d := { zero := l', one := r', depth := d.depth + 1 }) hnode
        (bitsAfter_append (p := [b]) h) (he.imp_right fun h => by omega)
      rw [List.length_cons, show n + (p.length + 1) = n + 1 + p.length by omega,
        show d.depth + (p.length + 1) = d.depth + 1 + p.length by omega]
      exact hrest

section
variable {p : List Bool} {l r : Node} (hnode : s.tree.nodeAt p = .internal l r)
include hnode

theorem advance_attempt_path {bits : List Bool} {c : Ctl} (h : bitsAfter s.br.pad all n = p ++ bits)
    (he : e = .eos ∨ n + p.length < 8 * (all.length - 1)) : advance (startAttempt m (s.readingAt e all rest n c)) =
      advance (s.readingAt e all rest (n + p.length) (.decode { zero := l, one := r, depth := p.length } m)) := by
  cases htree : s.tree with
  | empty => simp [htree, Tree.nodeAt] at hnode
  | root a b =>
    rw [htree] at hnode
    rw [startAttempt_of_root (s := s.readingAt e all rest n c) htree]
    refine (advance_decode_path (d := { zero := a, one := b, depth := 0 }) hq hnode h he).trans ?_
    rw [Nat.zero_add]

/-- The end at a leaf. -/
theorem advance_attempt_leaf {b : Bool} {bits : List Bool} {v : Byte} {c : Ctl}
    (h : bitsAfter s.br.pad all n = p ++ b :: bits) (hleaf : s.tree.nodeAt (p ++ [b]) = .leaf v)
    (he : e = .eos ∨ n + (p ++ [b]).length < 8 * (all.length - 1)) :
    ∃ c', advance (startAttempt m (s.readingAt e all rest n c)) =
      advance (symbolDecoded v m (s.readingAt e all rest (n + (p ++ [b]).length) c')) := by
  rw [child_of_nodeAt_concat hnode] at hleaf
  rw [List.length_append, List.length_singleton] at he
  refine ⟨.decode { zero := l, one := r, depth := p.length } m,
    (advance_attempt_path hq hnode h (he.imp_right fun h => by omega)).trans
      ((advance_decode_bit hq (bitsAfter_append h) (he.imp_right fun h => by omega)).trans ?_)⟩
  rw [descend, hleaf, List.length_append, List.length_singleton, Nat.add_assoc]

/-- The end at a bit that leads to no node. -/
theorem advance_attempt_undefined {b : Bool} {bits : List Bool} {c : Ctl}
    (h : bitsAfter s.br.pad all n = p ++ b :: bits) (habsent : s.tree.nodeAt (p ++ [b]) = .absent) :
    advance (startAttempt m (s.readingAt .eos all rest n c)) =
      raiseError .undefinedPath (BitVec.ofNat 32 (p.length + 1)) { s with
        inQ := (leftOf .eos all rest (n + p.length + 1)).1, inTerm := (leftOf .eos all rest (n + p.length + 1)).2 } := by
  rw [child_of_nodeAt_concat hnode] at habsent
  rw [advance_attempt_path hq hnode h (.inl rfl), advance_decode_bit hq (bitsAfter_append h) (.inl rfl), descend, habsent]
  exact (advance_raiseError ..).trans (raiseError_readingAt_left ..)

/-- The end of the bits at an INTERNAL node. -/
theorem advance_attempt_exhausted {c : Ctl} (h : bitsAfter s.br.pad all n = p) :
    advance (startAttempt m (s.readingAt .eos all rest n c)) =
      raiseError .exhaustion (BitVec.ofNat 32 p.length) { s with inQ := rest, inTerm := true } := by
  have hp : bitsAfter s.br.pad all n = p ++ [] := h.trans (List.append_nil p).symm
  have hend : bitsAfter s.br.pad all (n + p.length) = [] := bitsAfter_append hp
  have hlen := congrArg List.length hend
  rw [length_bitsAfter, List.length_nil] at hlen
  have hleft := leftOf_of_lt (e := .eos) (rest := rest) (n := n + p.length) (all := all) (by omega)
  rw [advance_attempt_path hq hnode hp (.inl rfl), advance_tick (s := s.readingAt .eos all rest _ _) hq
    (tick_decode_of_not_hasNext rfl fun hn => hasNext_readingAt.1 hn hend), advance_raiseError]
  rw [raiseError_readingAt_left, hleft]

/-- The end at a refill that meets ERR. -/
theorem advance_attempt_readError {b : Bool} {bits : List Bool} {c : Ctl}
    (h : bitsAfter s.br.pad all n = p ++ b :: bits) (h2 : 2 ≤ all.length)
    (hn : n + p.length + 1 = 8 * (all.length - 1)) : advance (startAttempt m (s.readingAt .err all rest n c)) =
      raiseError .resourceError 0 { s with inQ := rest, inTerm := true } := by
  have hnext : hasNext (s.readingAt .err all rest (n + p.length)
      (.decode { zero := l, one := r, depth := p.length } m)).br = true :=
    hasNext_readingAt.2 (by rw [bitsAfter_append h]; exact List.cons_ne_nil _ _)
  rw [advance_attempt_path hq hnode h (.inr (by omega)),
    advance_tick (s := s.readingAt .err all rest _ _) hq (tick_decode_of_hasNext rfl hnext), advance_takeBit_of_err hq h2 hn]

end

/-- The end at the leaf of a symbol with a code. -/
theorem advance_attempt_code {p bits : List Bool} {v : Byte} {c : Ctl} (hcode : s.tree.code v = some p)
    (h : bitsAfter s.br.pad all n = p ++ bits) (he : e = .eos ∨ n + p.length < 8 * (all.length - 1)) :
    ∃ c', advance (startAttempt m (s.readingAt e all rest n c)) =
      advance (symbolDecoded v m (s.readingAt e all rest (n + p.length) c')) := by
  have hpath : p ≠ [] := List.ne_nil_of_length_pos (Tree.one_le_path_length (Tree.mem_leaves_of_code hcode))
  obtain ⟨p, b, rfl⟩ : ∃ p' b, p = p' ++ [b] := ⟨_, _, (List.dropLast_append_getLast hpath).symm⟩
  have hleaf := Tree.nodeAt_of_code hcode
  obtain ⟨l, r, hnode⟩ := exists_internal_of_nodeAt_concat hleaf
  exact advance_attempt_leaf hq hnode (by rw [h, List.append_assoc]; rfl) hleaf he

end

/-! ### DECODE_SYMBOL -/

theorem exec_decodeSymbol {s : State} (herr : s.err = none) (hopen : s.br.isOpen = true) :
    exec .decodeSymbol s = .next (advance (startAttempt .single s)) := by
  rw [exec, execDecodeSymbol, command_run herr (show admits .decodeSymbol s = true from hopen)]

/-- Settles O45: the descent takes the bits of the code. -/
theorem decodeSymbolTakesOneCode : Obligations.DecodeSymbolTakesOneCode := by
  intro s v p more ds rest herr hopen hq hcode hwindow hunread
  have hs := eq_readingAt_of_window hwindow
  have hbits : bitsAfter s.br.pad ds s.br.pos.val = p ++ more := hunread
  obtain ⟨c, hadv⟩ := advance_attempt_code (m := .single) (rest := rest) (c := s.ctl) hq hcode hbits (.inl rfl)
  rw [← hs, symbolDecoded, advance_of_idle (s := complete _ _) rfl] at hadv
  exact ⟨_, _, _, ds.drop ((s.br.pos.val + p.length) / 8), (exec_decodeSymbol herr hopen).trans (congrArg _ hadv), hopen, rfl,
    List.drop_suffix _ _, window_readingAt (s := s) (c := s.ctl),
    (unread_readingAt (s := s) (c := s.ctl)).trans (bitsAfter_append hbits)⟩

/-- The bits before the last byte are followed by those of that byte. -/
theorem bitsAfter_of_dropLast {pad : Fin 8} {all : List Byte} {n : Nat} {q : List Bool} (hne : all ≠ [])
    (hn : n ≤ 8 * (all.length - 1)) (h : (all.dropLast.flatMap byteBits).drop n = q) :
    (∃ bits, bitsAfter pad all n = q ++ bits) ∧ n + q.length = 8 * (all.length - 1) := by
  have hlen : (all.dropLast.flatMap byteBits).length = 8 * (all.length - 1) := by
    rw [length_flatMap_byteBits, List.length_dropLast]
  refine ⟨⟨(byteBits (all.getLast hne)).take (8 - pad.val), ?_⟩, ?_⟩
  · have hall : all.flatMap byteBits = all.dropLast.flatMap byteBits ++ byteBits (all.getLast hne) := by
      conv_lhs => rw [← List.dropLast_append_getLast hne, List.flatMap_append, List.flatMap_singleton]
    have hpos := List.length_pos_iff.2 hne
    have hpad := pad.isLt
    rw [bitsAfter, hall, List.take_append, List.take_of_length_le (by omega), hlen,
      show 8 * all.length - pad.val - 8 * (all.length - 1) = 8 - pad.val by omega, 
      List.drop_append_of_le_length (by omega), h]
  · rw [← h, List.length_drop, hlen]
    omega

/-- Settles O46: the ends of the descent. -/
theorem decodeSymbolErrors : Obligations.DecodeSymbolErrors := by
  intro s herr hopen hq
  rw [exec_decodeSymbol herr hopen]
  refine ⟨fun htree => ?empty, fun p l r ds rest hwindow hnode => ?_,
    fun c n more rest p b l r hcur hnxt ht hin hbits hnode => ?readError⟩
  case empty =>
    rw [startAttempt, htree]
    exact congrArg _ (advance_raiseError ..)
  · have hs := eq_readingAt_of_window hwindow
    refine ⟨fun hunread => ?exhausted, fun b more hunread habsent => ?undefined⟩
    case exhausted =>
      have hadv := advance_attempt_exhausted (m := .single) (rest := rest) (c := s.ctl) hq hnode hunread
      rw [← hs] at hadv
      exact congrArg _ hadv
    case undefined =>
      have hadv := advance_attempt_undefined (m := .single) (rest := rest) (c := s.ctl) hq hnode hunread habsent
      have hleft : bitsAfter s.br.pad ds (s.br.pos.val + p.length + 1) = more :=
        bitsAfter_append (p := [b]) (bitsAfter_append hunread)
      rw [← hs] at hadv
      exact ⟨(s.readingAt .eos ds rest (s.br.pos.val + p.length + 1) s.ctl).br, _, _,
        ds.drop ((s.br.pos.val + p.length + 1) / 8), congrArg _ hadv, rfl, List.drop_suffix _ _,
        window_readingAt (s := s) (c := s.ctl), (unread_readingAt (s := s) (c := s.ctl)).trans hleft⟩
  case readError =>
    have hs : s = s.readingAt .err (c :: n :: more) rest s.br.pos.val s.ctl :=
      eq_readingAt rfl hcur hnxt (by rw [ht, hin]; rfl)
    have hpos := s.br.pos.isLt
    obtain ⟨⟨bits, hafter⟩, hlen⟩ := bitsAfter_of_dropLast (pad := s.br.pad) (List.cons_ne_nil _ _)
      (by simp only [List.length_cons]; omega) hbits
    rw [List.append_assoc] at hafter
    rw [List.length_append, List.length_singleton, ← Nat.add_assoc] at hlen
    have hadv := advance_attempt_readError (m := .single) (rest := rest) (c := s.ctl) hq hnode hafter (by simp) hlen
    rw [← hs] at hadv
    exact congrArg _ hadv

end Sys2Proof.Machine
end

section
/-! PROOFS. Whole turns of DECOMPRESS from the head of its loop (spec 43_translate.md R245). -/

namespace Sys2Proof.Machine

theorem exec_decompress_eq {s : State} (hs : Spec.Ready s) (hdrain : s.inDrain = false) :
    exec .decompress s = .next (advance (s.atHeader .decompress)) := by
  rw [exec, execDecompress, command_run hs.err (by simp [admits, hs.bw, hs.br])]
  exact congrArg _ (advance_tick (by exact hs.quantum) (if_neg (c := s.inDrain = true) (by simp [hdrain])))

theorem tick_symbols_of_hasNext {s : State} {n : Word} (hc : s.ctl = .symbols n) (h : hasNext s.br = true) :
    tick s = some (startAttempt (.stream n) s) := by
  simp only [tick, hc, tickSymbols, if_pos h]

theorem tick_symbols_of_not_hasNext {s : State} {n : Word} (hc : s.ctl = .symbols n) (h : ¬hasNext s.br = true) :
    tick s = some (complete n (outClose (brCloseSession s))) := by
  simp only [tick, hc, tickSymbols, if_neg h]

/-- An engine step at the OutWrite of a symbol (R81). -/
theorem tick_putSymbol {s : State} {v : Byte} {n : Word} (hc : s.ctl = .putSymbol v n) :
    (s.outErr = true → tick s = some (raiseError .resourceError 1 s)) ∧
    (s.outErr = false → tick s = some { s with out := s.out ++ [.byte v], ctl := .symbols (n + 1) }) := by
  have ht : tick s = some (outWrite v (.symbols (n + 1)) s) := by simp only [tick, hc]
  rw [ht]
  rcases outWrite_cases v (.symbols (n + 1)) s with ⟨h, hw⟩ | ⟨h, hw⟩ <;> rw [hw]
  · exact ⟨fun h' => absurd (h.symm.trans h') (by decide), fun _ => rfl⟩
  · exact ⟨fun _ => rfl, fun h' => absurd (h.symm.trans h') (by decide)⟩

section
variable {s : State} {e : Token} {all : List Byte} {rest : List Token} (hq : s.quantum = none)
include hq

/-- With a bit left another symbol is decoded. -/
theorem advance_symbols_bit {n : Nat} {k : Word} (h : bitsAfter s.br.pad all n ≠ []) :
    advance (s.readingAt e all rest n (.symbols k)) =
      advance (startAttempt (.stream k) (s.readingAt e all rest n (.symbols k))) :=
  advance_tick (s := s.readingAt e all rest n (.symbols k)) hq (tick_symbols_of_hasNext rfl (hasNext_readingAt.2 h))

/-- The symbols whose codes come first are written. -/
theorem advance_symbols_codes {l : List Byte} {bits : List Bool} {n : Nat} {k : Word} (hout : l ≠ [] → s.outErr = false)
    (hcodes : ∀ c ∈ l, s.tree.code c ≠ none) (h : bitsAfter s.br.pad all n = Spec.codeBits s.tree l ++ bits)
    (he : e = .eos ∨ n + (Spec.codeBits s.tree l).length < 8 * (all.length - 1)) :
    ∃ k', advance (s.readingAt e all rest n (.symbols k)) =
      advance ({ s with out := s.out ++ Spec.outBytes l }.readingAt e all rest (n + (Spec.codeBits s.tree l).length)
        (.symbols k')) := by
  induction l generalizing s n k with
  | nil => exact ⟨k, by simp [Spec.outBytes, Spec.codeBits]⟩
  | cons c l ih =>
    obtain ⟨hc, hl⟩ := List.forall_mem_cons.1 hcodes
    obtain ⟨p, hcode⟩ := Option.ne_none_iff_exists'.1 hc
    have hout := hout (List.cons_ne_nil _ _)
    have hpath : p ≠ [] := List.ne_nil_of_length_pos (Tree.one_le_path_length (Tree.mem_leaves_of_code hcode))
    rw [codeBits_cons_of_code hcode] at h he ⊢
    rw [List.append_assoc] at h
    rw [List.length_append] at he
    obtain ⟨c', hadv⟩ := advance_attempt_code (m := .stream k) (rest := rest) (c := .symbols k) hq hcode h
      (he.imp_right fun h => by omega)
    obtain ⟨k', hrest⟩ := ih (s := { s with out := s.out ++ [.byte c] }) (n := n + p.length) (k := k + 1) hq
      (fun _ => hout) hl (bitsAfter_append h) (he.imp_right fun h => Nat.add_assoc n _ _ ▸ h)
    refine ⟨k', (advance_symbols_bit hq (by simp [h, hpath])).trans (hadv.trans
      ((advance_tick (s := s.readingAt e all rest (n + p.length) (.putSymbol c k)) hq ((tick_putSymbol rfl).2 hout)).trans
        (hrest.trans ?_)))⟩
    simp only [List.append_assoc, List.length_append, Nat.add_assoc, Spec.outBytes, List.map_cons, List.singleton_append]

end

/-! ### The source is opened -/

/-- DECOMPRESS after the symbols `l`: both sessions are open. -/
def decompressedTo (s : State) (pad : Fin 8) (l : List Byte) : State :=
  { decompressOpened s pad with out := s.out ++ Spec.outBytes l }

theorem raiseError_decompressedTo (s : State) (pad : Fin 8) (l : List Byte) (q : List Token) (tm : Bool) (x : ErrName)
    (i : Word) : raiseError x i { decompressedTo s pad l with inQ := q, inTerm := tm } =
      raiseError x i { s with
        inQ := q, inOwned := true, inTerm := tm, outOwned := true, out := s.out ++ Spec.outBytes l } := by
  simp only [raiseError_closed_form, decompressedTo, decompressOpened, outOpen, inOpen]

section
variable {s : State} {h : Byte} {pad : Fin 8} {e : Token} {data : List Byte} {rest : List Token} (hs : Spec.Ready s)
  (hdrain : s.inDrain = false) (he : e = .eos ∨ 2 ≤ data.length) (hin : s.inQ = Spec.inBytes (h :: data) ++ e :: rest)
  (hpad : h.toNat = pad.val)
include hs hdrain he hin hpad

theorem exec_decompress_opened :
    exec .decompress s = .next (advance ((decompressedTo s pad []).readingAt e data rest 0 (.symbols 0))) := by
  rw [exec_decompress_eq hs hdrain, advance_atHeader_opened hs.quantum _ he hin hpad]
  simp only [decompressedTo, Spec.outBytes, List.map_nil, List.append_nil]
  rfl

/-- DECOMPRESS comes to the decode attempt after the symbols whose codes come first. -/
theorem exec_decompress_attempt {l : List Byte} {bits : List Bool} (hcodes : ∀ x ∈ l, s.tree.code x ≠ none)
    (hout : l ≠ [] → s.outErr = false) (hbits : bitsAfter pad data 0 = Spec.codeBits s.tree l ++ bits) (hne : bits ≠ [])
    (hlast : e = .eos ∨ (Spec.codeBits s.tree l).length < 8 * (data.length - 1)) :
    ∃ k, exec .decompress s = .next (advance (startAttempt (.stream k)
      ((decompressedTo s pad l).readingAt e data rest (Spec.codeBits s.tree l).length (.symbols k)))) := by
  obtain ⟨k, hadv⟩ := advance_symbols_codes (s := decompressedTo s pad []) (e := e) (rest := rest) (k := 0) hs.quantum
    hout hcodes hbits (by rwa [Nat.zero_add])
  have hleft : bitsAfter pad data (0 + (Spec.codeBits s.tree l).length) = bits := bitsAfter_append hbits
  have hopened : { decompressedTo s pad [] with out := (decompressedTo s pad []).out ++ Spec.outBytes l } =
      decompressedTo s pad l := by
    simp only [decompressedTo, Spec.outBytes, List.map_nil, List.append_nil]
  refine ⟨k, (exec_decompress_opened hs hdrain he hin hpad).trans (congrArg _ (hadv.trans ?_))⟩
  rw [hopened, ← Nat.zero_add (Spec.codeBits s.tree l).length]
  refine advance_symbols_bit (by exact hs.quantum) ?_
  rw [← hleft] at hne
  exact hne

end

end Sys2Proof.Machine
end

section
/-! PROOFS. The statements about DECOMPRESS (spec 43_translate.md R245). -/

namespace Sys2Proof.Machine

/-- A source without a data byte gives only CLOSE. -/
theorem advance_brOpened_decompress {s : State} {b : Unpacker} (hq : s.quantum = none) (hcur : b.cur = none)
    (hown : s.inOwned = true) (hterm : s.inTerm = true) (v : Word) :
    advance (brOpened .decompress v b s) = { s with
      inOwned := false, inTerm := false, out := s.out ++ [.close], outOwned := false, br := .closed, result := 0
      ctl := .idle } := by
  have hnext : ¬hasNext b = true := by simp [hasNext, hcur]
  rw [brOpened, advance_tick (by exact hq) (tick_symbols_of_not_hasNext rfl hnext), advance_of_idle rfl]
  simp [complete, outClose_closed_form, brCloseSession_closed_form, outOpen, hown, hterm]

/-- Settles O49: a packed form is decoded to its end, and a source without data bytes ends at once. -/
theorem decompressWritesTheSymbols : Obligations.DecompressWritesTheSymbols := by
  rintro s l h data rest hs hdrain hcodes hout (⟨hpacked, hin⟩ | ⟨rfl, hh, hin⟩ | ⟨rfl, hin⟩)
  · exact exec_decompress hs hdrain hcodes hout hpacked hin
  · rw [exec_decompress_eq hs hdrain, advance_atHeader_none (pad := ⟨h.toNat, by omega⟩) hs.quantum _ hin rfl,
      advance_brOpened_decompress (by exact hs.quantum) rfl rfl rfl]
    simp [Spec.outBytes, Unpacker.closed]
  · rw [exec_decompress_eq hs hdrain, advance_atHeader_eos hs.quantum _ hin,
      advance_brOpened_decompress (by exact hs.quantum) rfl rfl rfl]
    simp [Spec.outBytes, Unpacker.closed]

/-- Settles O50: the ends of the open, and of the decode attempt after the symbols whose codes come first. -/
theorem decompressErrors : Obligations.DecompressErrors := by
  refine ⟨fun s v n hc => tick_putSymbol hc, fun s l h c data q rest p a b hs hdrain => ⟨fun hin hh => ?malformed,
    fun hin => ?openError, fun hcodes hout => ⟨fun hin hnode => ⟨fun hpacked hp => ?exhausted,
      fun x more k hpacked habsent hk => ?undefined⟩, fun x hin hh h2 hbits hnode => ?readError⟩, fun hin =>
    ⟨fun x more htree hpacked => ?empty, fun more hcode hpacked hout => ?outErr⟩⟩⟩
  case malformed => rw [exec_decompress_eq hs hdrain, advance_atHeader_malformed hs.quantum _ hin hh]
  case openError => rw [exec_decompress_eq hs hdrain, advance_atHeader_err hs.quantum _ hin]
  case exhausted =>
    obtain ⟨pad, hpad⟩ : ∃ pad : Fin 8, h.toNat = pad.val := ⟨⟨h.toNat, (isPacked_iff.1 hpacked).2⟩, rfl⟩
    have hbits := bitsAfter_of_isPacked hpacked hpad
    obtain ⟨k, hexec⟩ := exec_decompress_attempt hs hdrain (.inl rfl) hin hpad hcodes (fun _ => hout) hbits hp (.inl rfl)
    rw [hexec, advance_attempt_exhausted (s := decompressedTo s pad l) hs.quantum hnode
      (Nat.zero_add (Spec.codeBits s.tree l).length ▸ bitsAfter_append hbits), raiseError_decompressedTo]
  case undefined =>
    obtain ⟨pad, hpad⟩ : ∃ pad : Fin 8, h.toNat = pad.val := ⟨⟨h.toNat, (isPacked_iff.1 hpacked).2⟩, rfl⟩
    have hbits := bitsAfter_of_isPacked hpacked hpad
    rw [List.append_assoc] at hbits
    obtain ⟨k', hexec⟩ := exec_decompress_attempt hs hdrain (.inl rfl) hin hpad hcodes (fun _ => hout) hbits (by simp)
      (.inl rfl)
    rw [hexec, advance_attempt_undefined (s := decompressedTo s pad l) hs.quantum hnode
      (Nat.zero_add (Spec.codeBits s.tree l).length ▸ bitsAfter_append hbits) habsent, raiseError_decompressedTo, hk,
      List.length_append, leftOf_eos]
  case readError =>
    obtain ⟨⟨more, hbits⟩, hlen⟩ := bitsAfter_of_dropLast (pad := ⟨h.toNat, by omega⟩) (n := 0)
      (List.ne_nil_of_length_pos (by omega)) (Nat.zero_le _) hbits
    rw [List.append_assoc, List.append_assoc] at hbits
    simp only [List.length_append, List.length_singleton, Nat.zero_add] at hlen
    obtain ⟨k, hexec⟩ := exec_decompress_attempt hs hdrain (.inr h2) hin rfl hcodes (fun _ => hout) hbits (by simp)
      (.inr (by omega))
    rw [hexec, advance_attempt_readError (s := decompressedTo s ⟨h.toNat, by omega⟩ l) hs.quantum hnode
      (Nat.zero_add (Spec.codeBits s.tree l).length ▸ bitsAfter_append hbits) h2 hlen, raiseError_decompressedTo]
  case empty =>
    obtain ⟨pad, hpad⟩ : ∃ pad : Fin 8, h.toNat = pad.val := ⟨⟨h.toNat, (isPacked_iff.1 hpacked).2⟩, rfl⟩
    obtain ⟨k, hexec⟩ := exec_decompress_attempt (l := []) hs hdrain (.inl rfl) hin hpad (by simp) (by simp)
      (bitsAfter_of_isPacked hpacked hpad) (List.cons_ne_nil _ _) (.inl rfl)
    rw [hexec, advance_attempt_empty (s := decompressedTo s pad []) htree, raiseError_decompressedTo, leftOf_eos]
    simp [Spec.codeBits, Spec.outBytes]
  case outErr =>
    obtain ⟨pad, hpad⟩ : ∃ pad : Fin 8, h.toNat = pad.val := ⟨⟨h.toNat, (isPacked_iff.1 hpacked).2⟩, rfl⟩
    have hpath : p ≠ [] := List.ne_nil_of_length_pos (Tree.one_le_path_length (Tree.mem_leaves_of_code hcode))
    have hbits := bitsAfter_of_isPacked hpacked hpad
    obtain ⟨k, hexec⟩ := exec_decompress_attempt (l := []) hs hdrain (.inl rfl) hin hpad (by simp) (by simp)
      hbits (by simp [hpath]) (.inl rfl)
    obtain ⟨c', hadv⟩ := advance_attempt_code (s := decompressedTo s pad []) (m := .stream k) (rest := rest)
      (c := .symbols k) hs.quantum hcode hbits (.inl rfl)
    have hput : symbolDecoded c (.stream k) ((decompressedTo s pad []).readingAt .eos data rest (0 + p.length) c') =
        (decompressedTo s pad []).readingAt .eos data rest p.length (.putSymbol c k) := by rw [Nat.zero_add]; rfl
    rw [hexec, Spec.codeBits, List.flatMap_nil, List.length_nil, hadv, hput,
      advance_tick (s := (decompressedTo s pad []).readingAt ..) hs.quantum ((tick_putSymbol rfl).1 hout), advance_raiseError,
      raiseError_readingAt_left, raiseError_decompressedTo, leftOf_eos]
    simp [Spec.outBytes]

end Sys2Proof.Machine
end

section
/-! PROOFS. What a running command that goes on to its end without an error ends with (spec 30_encoding.md R108). -/

namespace Sys2Proof.Machine

/-- The command has ended, and where it raised nothing `Q` holds. -/
def Ends (Q : State → Prop) (u : State) : Prop := u.ctl = .idle ∧ (u.err = none → Q u)

theorem ends_raiseError (Q : State → Prop) (e : ErrName) (i : Word) (u : State) : Ends Q (raiseError e i u) :=
  ⟨raiseError_ctl .., fun h => absurd ((raiseError_err ..).symm.trans h) (by simp)⟩

/-- A turn does not come back to the start of the command; where it comes to the end without an error, `Q` holds. -/
def TurnEnds (Q : State → Prop) (t : State) : Prop := t.ctl ≠ .accepted ∧ (t.ctl = .idle → t.err = none → Q t)

theorem TurnEnds.of_ends {Q : State → Prop} {t : State} (h : Ends Q t) : TurnEnds Q t :=
  ⟨fun hc => absurd (h.1.symm.trans hc) (by simp), fun _ => h.2⟩

/-- What holds of a running command until it ends, and gives `Q` where it does, gives `Q` at the end of its turn. -/
theorem turnEnds_advance {R Q : State → Prop} (hrun : ∀ u, R u → u.ctl ≠ .idle ∧ u.ctl ≠ .accepted)
    (hstep : ∀ u t, R u → tick u = some t → R t ∨ Ends Q t) {u : State} (h : R u ∨ Ends Q u) : TurnEnds Q (advance u) := by
  have hkeep : R (advance u) ∨ Ends Q (advance u) := by
    refine advance_keeps (P := fun t => R t ∨ Ends Q t) (fun s t hs ht => ?_) h
    rcases hs with hs | ⟨hs, -⟩
    · exact hstep s t hs ht
    · exact absurd hs (running_of_tick ht).1
  rcases hkeep with h | h
  · exact ⟨(hrun _ h).2, fun hidle => absurd hidle (hrun _ h).1⟩
  · exact .of_ends h

/-! ### An emission -/

/-- RESULT at the end of an emission (R202, R285, R244). -/
def EmitFor.result : EmitFor → Word
  | .save n => n
  | .bwClose h => h.zeroExtend 32
  | .compress n => n

theorem emitEnd_result (k : EmitFor) (s : State) : (emitEnd k s).result = k.result := by cases k <;> rfl

theorem turnEnds_emit {s : State} {r : List Byte} {k : EmitFor} (hc : s.ctl = .emit r k) :
    TurnEnds (fun t => t.result = k.result) (advance s) := by
  refine turnEnds_advance (R := fun u => ∃ r, u.ctl = .emit r k) ?_ ?_ (.inl ⟨r, hc⟩)
  · rintro u ⟨r, hr⟩
    simp [hr]
  · rintro u t ⟨r, hr⟩ ht
    simp only [tick, hr, Option.some.injEq] at ht
    subst ht
    rcases tickEmit_cases r k u with ⟨-, he⟩ | ⟨b, r', -, -, -, he⟩ | ⟨-, -, he⟩ <;> rw [he]
    · exact .inr ⟨emitEnd_ctl .., fun _ => emitEnd_result ..⟩
    · exact .inl ⟨r', rfl⟩
    · exact .inr (ends_raiseError _ _ _ _)

/-! ### COMPRESS -/

/-- OUT and RESULT of a command that wrote the bytes of one output session to an OUT `o`. -/
def WroteSession (o : List OutToken) (t : State) : Prop :=
  ∃ bytes : List Byte, t.out = o ++ bytes.map .byte ++ [.close] ∧ t.result = BitVec.ofNat 32 bytes.length

/-- COMPRESS, its number of bytes known once it emits them. -/
def CompressRun (o : List OutToken) (u : State) : Prop :=
  u.out = o ∧ (u.ctl = .openIn .compress ∨ u.outOwned = true ∧
    (u.ctl = .compress ∨ ∃ r, u.ctl = .emit r (.compress (BitVec.ofNat 32 r.length))))

theorem compressRun_bwCloseStart {o : List OutToken} {u : State} (ho : u.out = o) (hown : u.outOwned = true)
    (Q : State → Prop) : CompressRun o (bwCloseStart true u) ∨ Ends Q (bwCloseStart true u) := by
  unfold bwCloseStart
  split
  · exact .inr (ends_raiseError _ _ _ _)
  · refine .inl ⟨ho, .inr ⟨hown, .inr ⟨paddingCount u.bw.nbits :: finalData u.bw, ?_⟩⟩⟩
    rw [List.length_cons, Nat.add_comm]
    rfl

theorem wroteSession_of_emitEnd {o : List OutToken} {u : State} {r : List Byte} {n : Word} (ho : u.out = o)
    (hown : u.outOwned = true) (hn : n = BitVec.ofNat 32 r.length) :
    WroteSession o (emitEnd (.compress n) { u with out := u.out ++ Spec.outBytes r }) := by
  refine ⟨r, ?_, (emitEnd_result _ _).trans hn⟩
  simp [emitEnd, complete, bwCloseEnd, outClose_closed_form, hown, ho, Spec.outBytes]

theorem compressRun_step {o : List OutToken} {u t : State} (h : CompressRun o u) (ht : tick u = some t) :
    CompressRun o t ∨ Ends (WroteSession o) t := by
  obtain ⟨ho, hc | ⟨hown, hc | ⟨r, hc⟩⟩⟩ := h
  · simp only [tick, hc, tickOpenIn] at ht
    split at ht
    · obtain ⟨_, _, -, rfl⟩ := drainStep_cases ht
      exact .inl ⟨ho, .inl hc⟩
    · cases ht
      exact .inl ⟨ho, .inr ⟨rfl, .inl rfl⟩⟩
  · rcases tick_atInRead_cases (by rw [hc]; rfl) ht with ⟨-, rfl⟩ | ⟨q, -, -, rfl⟩ | ⟨b, q, -, -, rfl⟩ | ⟨q, -, -, rfl⟩
    · simp only [hc, atEof]
      exact compressRun_bwCloseStart ho hown _
    · simp only [hc, atEof]
      exact compressRun_bwCloseStart (u := { u with inQ := q, inTerm := true, ctl := .compress }) ho hown _
    · simp only [hc, atByte]
      rcases encodeSymbolBits_cases b { u with inQ := q, ctl := .compress } with ⟨p, -, he⟩ | ⟨-, he⟩ | ⟨p, he⟩ <;> rw [he]
      · exact .inl ⟨ho, .inr ⟨hown, .inl rfl⟩⟩
      · exact .inr (ends_raiseError _ _ _ _)
      · exact .inr (ends_raiseError _ _ _ _)
    · exact .inr (ends_raiseError _ _ _ _)
  · simp only [tick, hc, Option.some.injEq] at ht
    subst ht
    rcases tickEmit_cases r (.compress (BitVec.ofNat 32 r.length)) u with ⟨-, he⟩ | ⟨b, r', -, hk, -⟩ | ⟨-, -, he⟩
    · rw [he]
      exact .inr ⟨emitEnd_ctl .., fun _ => wroteSession_of_emitEnd ho hown rfl⟩
    · exact absurd rfl (hk _)
    · rw [he]
      exact .inr (ends_raiseError _ _ _ _)

theorem compressRun_ctl {o : List OutToken} {u : State} (h : CompressRun o u) : u.ctl ≠ .idle ∧ u.ctl ≠ .accepted := by
  obtain ⟨-, hc | ⟨-, hc | ⟨r, hc⟩⟩⟩ := h <;> simp [hc]

/-! ### The bits ahead of the unpacker -/

/-- The items that the take of a bit leaves alone. -/
def State.besideUnpacker (s : State) : Tree × List OutToken × Bool := (s.tree, s.out, s.outOwned)

/-- The bits of a byte from a place on begin with the one there. -/
theorem drop_flatMap_byteBits (c : Byte) (l : List Byte) (pos : Fin 8) : ((c :: l).flatMap byteBits).drop pos.val =
    c.getLsbD pos.val :: ((c :: l).flatMap byteBits).drop (pos.val + 1) := by
  have hlen : pos.val < ((c :: l).flatMap byteBits).length := by
    rw [length_flatMap_byteBits, List.length_cons]
    omega
  have hbit := getElem?_flatMap_byteBits (c :: l) 0 pos.isLt
  rw [Nat.mul_zero, Nat.zero_add, List.getElem?_eq_getElem hlen] at hbit
  rw [List.drop_eq_getElem_cons hlen]
  exact congrArg (· :: _) (Option.some.inj hbit)

/-- A bit is taken: it was the first ahead, and the engine goes on with the others, or first to the refill. -/
theorem takeBit_cases {s : State} (h : hasNext s.br = true) (k : RefillFor) : ∃ b u,
    s.bitsFromHere = b :: u.bitsFromHere ∧ u.besideUnpacker = s.besideUnpacker ∧
      (takeBit k s = bitTaken b k u ∨ (takeBit k s = u ∧ u.ctl = .refill b k ∧ u.br.nxt = none)) := by
  obtain ⟨c, hcur⟩ := Option.ne_none_iff_exists'.1 (hasNext_iff.1 h).1
  have hbits := drop_flatMap_byteBits c (s.br.nxt.toList ++ if s.inTerm then [] else sessionBytes s.inQ) s.br.pos
  have hhere : s.bitsFromHere = c.getLsbD s.br.pos.val ::
      ((c :: (s.br.nxt.toList ++ if s.inTerm then [] else sessionBytes s.inQ)).flatMap byteBits).drop (s.br.pos.val + 1) := by
    rw [← hbits, State.bitsFromHere, hcur]
    simp
  rw [← currentBit_of_cur hcur] at hhere
  by_cases h7 : s.br.pos = 7
  · refine ⟨_, s.refilling (currentBit s.br) k, hhere.trans (congrArg _ ?_), rfl,
      .inr ⟨takeBit_of_pos_eq_seven h7 k, rfl, rfl⟩⟩
    rw [h7, show (7 : Fin 8).val + 1 = 8 from rfl, List.flatMap_cons, List.drop_left' (length_byteBits c)]
    show _ = ((s.br.nxt.toList ++ [] ++ if s.inTerm then [] else sessionBytes s.inQ).flatMap byteBits).drop 0
    rw [List.append_nil, List.drop_zero]
  · refine ⟨_, { s with br := { s.br with pos := s.br.pos + 1 } }, hhere.trans (congrArg _ ?_), rfl,
      .inl (takeBit_of_pos_ne_seven h7 k)⟩
    simp [State.bitsFromHere, hcur, val_add_one_of_ne_seven h7]

/-- The refill leaves the bits ahead as they were. -/
theorem tick_refill_cases {u t : State} {b : Bool} {k : RefillFor} (hc : u.ctl = .refill b k) (hnxt : u.br.nxt = none)
    (ht : tick u = some t) : (∃ e i w, t = raiseError e i w) ∨
      ∃ w, t = bitTaken b k w ∧ w.bitsFromHere = u.bitsFromHere ∧ w.besideUnpacker = u.besideUnpacker := by
  rcases tick_atInRead_cases (by rw [hc]; rfl) ht with ⟨htm, rfl⟩ | ⟨q, htm, hin, rfl⟩ | ⟨c, q, htm, hin, rfl⟩ | ⟨q, -, -, rfl⟩
  · refine .inr ⟨{ u with br := { u.br with nxt := none } }, by simp only [hc, atEof], ?_, rfl⟩
    simp [State.bitsFromHere, hnxt]
  · refine .inr ⟨{ u with inQ := q, inTerm := true, br := { u.br with nxt := none } }, by simp only [hc, atEof], ?_, rfl⟩
    simp [State.bitsFromHere, hnxt, htm, hin, sessionBytes]
  · refine .inr ⟨{ u with inQ := q, br := { u.br with nxt := some c } }, by simp only [hc, atByte], ?_, rfl⟩
    simp [State.bitsFromHere, hnxt, htm, hin, sessionBytes]
  · exact .inl ⟨_, _, _, rfl⟩

/-! ### A bit, and a symbol -/

/-- RESULT of BR_NEXT (R315). -/
def NextBitOf (s t : State) : Prop := ∃ b, s.bitsFromHere.head? = some b ∧ t.result = if b then 1 else 0

theorem ends_bitTaken_brNext {s u : State} {b : Bool} (hb : s.bitsFromHere.head? = some b) :
    Ends (NextBitOf s) (bitTaken b .brNext u) :=
  ⟨rfl, fun _ => ⟨b, hb, by cases b <;> rfl⟩⟩

/-- BR_NEXT at its refill. -/
def BrNextRun (s u : State) : Prop := ∃ b, u.ctl = .refill b .brNext ∧ u.br.nxt = none ∧ s.bitsFromHere.head? = some b

theorem brNextRun_start {s : State} (h : hasNext s.br = true) :
    BrNextRun s (takeBit .brNext s) ∨ Ends (NextBitOf s) (takeBit .brNext s) := by
  obtain ⟨b, u, hbits, -, ht | ⟨ht, hc, hnxt⟩⟩ := takeBit_cases h .brNext <;> rw [ht]
  · exact .inr (ends_bitTaken_brNext (by rw [hbits]; rfl))
  · exact .inl ⟨b, hc, hnxt, by rw [hbits]; rfl⟩

theorem brNextRun_step {s u t : State} (h : BrNextRun s u) (ht : tick u = some t) :
    BrNextRun s t ∨ Ends (NextBitOf s) t := by
  obtain ⟨b, hc, hnxt, hb⟩ := h
  rcases tick_refill_cases hc hnxt ht with ⟨e, i, w, rfl⟩ | ⟨w, rfl, -, -⟩
  · exact .inr (ends_raiseError _ _ _ _)
  · exact .inr (ends_bitTaken_brNext hb)

theorem brNextRun_ctl {s u : State} (h : BrNextRun s u) : u.ctl ≠ .idle ∧ u.ctl ≠ .accepted := by
  obtain ⟨b, hc, -⟩ := h
  simp [hc]

/-- RESULT of DECODE_SYMBOL (R243). -/
def DecodedFrom (s t : State) : Prop :=
  ∃ v p, s.tree.nodeAt p = .leaf v ∧ p <+: s.bitsFromHere ∧ t.result = v.zeroExtend 32

/-- DECODE_SYMBOL below the root: the bits taken lead to the node it stands at. -/
def DecodeRun (s u : State) : Prop := u.tree = s.tree ∧ ∃ d p, s.tree.nodeAt p = .internal d.zero d.one ∧
  ((u.ctl = .decode d .single ∧ s.bitsFromHere = p ++ u.bitsFromHere) ∨
    ∃ b, u.ctl = .refill b (.decode d .single) ∧ u.br.nxt = none ∧ s.bitsFromHere = p ++ b :: u.bitsFromHere)

theorem decodeRun_bitTaken {s u : State} {d : Descent} {p : List Bool} {b : Bool} (htree : u.tree = s.tree)
    (hnode : s.tree.nodeAt p = .internal d.zero d.one) (hbits : s.bitsFromHere = p ++ b :: u.bitsFromHere) :
    DecodeRun s (bitTaken b (.decode d .single) u) ∨ Ends (DecodedFrom s) (bitTaken b (.decode d .single) u) := by
  have hchild := child_of_nodeAt_concat (b := b) hnode
  have hconcat : s.bitsFromHere = (p ++ [b]) ++ u.bitsFromHere := by rw [hbits, List.append_assoc]; rfl
  rw [bitTaken, descend]
  cases hc : (if b then d.one else d.zero) with
  | absent => exact .inr (ends_raiseError _ _ _ _)
  | leaf v => exact .inr ⟨rfl, fun _ => ⟨v, p ++ [b], hchild.trans hc, ⟨_, hconcat.symm⟩, rfl⟩⟩
  | internal l r =>
    exact .inl ⟨htree, { zero := l, one := r, depth := d.depth + 1 }, p ++ [b], hchild.trans hc, .inl ⟨rfl, hconcat⟩⟩

theorem decodeRun_step {s u t : State} (h : DecodeRun s u) (ht : tick u = some t) :
    DecodeRun s t ∨ Ends (DecodedFrom s) t := by
  obtain ⟨htree, d, p, hnode, ⟨hc, hbits⟩ | ⟨b, hc, hnxt, hbits⟩⟩ := h
  · simp only [tick, hc, tickDecode, Option.some.injEq] at ht
    subst ht
    split
    next hnext =>
      obtain ⟨b, w, hw, hsame, ht | ⟨ht, hctl, hnxt⟩⟩ := takeBit_cases hnext (.decode d .single) <;> rw [ht]
      · exact decodeRun_bitTaken ((congrArg Prod.fst hsame).trans htree) hnode (by rw [hbits, hw])
      · exact .inl ⟨(congrArg Prod.fst hsame).trans htree, d, p, hnode, .inr ⟨b, hctl, hnxt, by rw [hbits, hw]⟩⟩
    · exact .inr (ends_raiseError _ _ _ _)
  · rcases tick_refill_cases hc hnxt ht with ⟨e, i, w, rfl⟩ | ⟨w, rfl, hw, hsame⟩
    · exact .inr (ends_raiseError _ _ _ _)
    · exact decodeRun_bitTaken ((congrArg Prod.fst hsame).trans htree) hnode (by rw [hbits, hw])

theorem decodeRun_ctl {s u : State} (h : DecodeRun s u) : u.ctl ≠ .idle ∧ u.ctl ≠ .accepted := by
  obtain ⟨-, d, p, -, ⟨hc, -⟩ | ⟨b, hc, -⟩⟩ := h <;> simp [hc]

theorem decodeRun_start (s : State) :
    DecodeRun s (startAttempt .single s) ∨ Ends (DecodedFrom s) (startAttempt .single s) := by
  unfold startAttempt
  split
  · exact .inr (ends_raiseError _ _ _ _)
  next l r htree =>
    exact .inl ⟨rfl, { zero := l, one := r, depth := 0 }, [], by rw [htree]; rfl, .inl ⟨rfl, rfl⟩⟩

/-! ### DECOMPRESS -/

/-- The places of DECOMPRESS before its first bit. -/
def opensDecompress : Ctl → Bool
  | .openIn .decompress | .header .decompress | .fillCur .decompress _ | .fillNxt .decompress _ _ => true
  | _ => false

/-- The number of symbols DECOMPRESS has written, at a place in its loop. -/
def symbolsWritten : Ctl → Option Word
  | .symbols n | .putSymbol _ n | .decode _ (.stream n) | .refill _ (.decode _ (.stream n)) => some n
  | _ => none

/-- DECOMPRESS, and in its loop the bytes it has written. -/
def DecompressRun (o : List OutToken) (u : State) : Prop :=
  (opensDecompress u.ctl = true ∧ u.out = o) ∨
  ∃ bytes : List Byte, u.out = o ++ bytes.map .byte ∧ u.outOwned = true ∧
    symbolsWritten u.ctl = some (BitVec.ofNat 32 bytes.length) ∧ (∀ b k, u.ctl = .refill b k → u.br.nxt = none)

theorem opensDecompress_cases {c : Ctl} (h : opensDecompress c = true) : c = .openIn .decompress ∨ c = .header .decompress ∨
    (∃ p, c = .fillCur .decompress p) ∨ ∃ p cur, c = .fillNxt .decompress p cur := by
  unfold opensDecompress at h
  split at h <;> simp_all

theorem symbolsWritten_cases {c : Ctl} {n : Word} (h : symbolsWritten c = some n) : c = .symbols n ∨
    (∃ v, c = .putSymbol v n) ∨ (∃ d, c = .decode d (.stream n)) ∨ ∃ b d, c = .refill b (.decode d (.stream n)) := by
  unfold symbolsWritten at h
  split at h <;> simp_all

section
variable {o : List OutToken} {u : State}

theorem decompressRun_brOpened (ho : u.out = o) (v : Word) (b : Unpacker) :
    DecompressRun o (brOpened .decompress v b u) :=
  .inr ⟨[], by rw [List.map_nil, List.append_nil]; exact ho, rfl, rfl, fun b k h => (by cases h)⟩

variable {bytes : List Byte} (ho : u.out = o ++ bytes.map .byte) (hown : u.outOwned = true)
include ho hown

theorem decompressRun_bitTaken {d : Descent} {b : Bool} :
    DecompressRun o (bitTaken b (.decode d (.stream (BitVec.ofNat 32 bytes.length))) u) ∨
      Ends (WroteSession o) (bitTaken b (.decode d (.stream (BitVec.ofNat 32 bytes.length))) u) := by
  rw [bitTaken, descend]
  split
  · exact .inr (ends_raiseError _ _ _ _)
  · exact .inl (.inr ⟨bytes, ho, hown, rfl, fun b k h => (by cases h)⟩)
  · exact .inl (.inr ⟨bytes, ho, hown, rfl, fun b k h => (by cases h)⟩)

theorem decompressRun_startAttempt : DecompressRun o (startAttempt (.stream (BitVec.ofNat 32 bytes.length)) u) ∨
    Ends (WroteSession o) (startAttempt (.stream (BitVec.ofNat 32 bytes.length)) u) := by
  unfold startAttempt
  split
  · exact .inr (ends_raiseError _ _ _ _)
  · exact .inl (.inr ⟨bytes, ho, hown, rfl, fun b k h => (by cases h)⟩)

theorem decompressRun_takeBit (hnext : hasNext u.br = true) {d : Descent} :
    DecompressRun o (takeBit (.decode d (.stream (BitVec.ofNat 32 bytes.length))) u) ∨
      Ends (WroteSession o) (takeBit (.decode d (.stream (BitVec.ofNat 32 bytes.length))) u) := by
  obtain ⟨b, w, -, hsame, ht⟩ := takeBit_cases hnext (.decode d (.stream (BitVec.ofNat 32 bytes.length)))
  obtain ⟨-, hwout, hwown⟩ : w.tree = u.tree ∧ w.out = u.out ∧ w.outOwned = u.outOwned := by
    simpa [State.besideUnpacker] using hsame
  rcases ht with ht | ⟨ht, hctl, hnxt⟩ <;> rw [ht]
  · exact decompressRun_bitTaken (hwout.trans ho) (hwown.trans hown)
  · exact .inl (.inr ⟨bytes, hwout.trans ho, hwown.trans hown, by rw [hctl]; rfl, fun _ _ _ => hnxt⟩)

theorem wroteSession_of_closed : WroteSession o
    (complete (BitVec.ofNat 32 bytes.length) (outClose (brCloseSession u))) := by
  refine ⟨bytes, ?_, rfl⟩
  simp [complete, outClose_closed_form, brCloseSession_closed_form, hown, ho]

end

/-- DECOMPRESS while it opens its source. -/
theorem decompressRun_step_opening {o : List OutToken} {u t : State} (hc : opensDecompress u.ctl = true) (ho : u.out = o)
    (ht : tick u = some t) : DecompressRun o t ∨ Ends (WroteSession o) t := by
  rcases opensDecompress_cases hc with hc | hc
  · simp only [tick, hc, tickOpenIn] at ht
    split at ht
    · obtain ⟨_, _, -, rfl⟩ := drainStep_cases ht
      exact .inl (.inl ⟨by rw [hc]; rfl, ho⟩)
    · cases ht
      exact .inl (.inl ⟨rfl, ho⟩)
  · have hread : atInRead u.ctl = true := by rcases hc with hc | ⟨p, hc⟩ | ⟨p, cur, hc⟩ <;> rw [hc] <;> rfl
    have hend : ∀ w : State, w.ctl = u.ctl → w.out = o → DecompressRun o (atEof u.ctl w) := by
      intro w hw hwo
      rcases hc with hc | ⟨p, hc⟩ | ⟨p, cur, hc⟩ <;> rw [hc, atEof]
      · exact decompressRun_brOpened hwo _ _
      · exact .inl ⟨rfl, hwo⟩
      · exact decompressRun_brOpened hwo _ _
    rcases tick_atInRead_cases hread ht with ⟨-, rfl⟩ | ⟨q, -, -, rfl⟩ | ⟨b, q, -, -, rfl⟩ | ⟨q, -, -, rfl⟩
    · exact .inl (hend u rfl ho)
    · exact .inl (hend _ rfl ho)
    · rcases hc with hc | ⟨p, hc⟩ | ⟨p, cur, hc⟩ <;> simp only [hc, atByte]
      · split
        · exact .inr (ends_raiseError _ _ _ _)
        · exact .inl (.inl ⟨rfl, ho⟩)
      · exact .inl (.inl ⟨rfl, ho⟩)
      · exact .inl (decompressRun_brOpened (u := { u with inQ := q, ctl := .fillNxt .decompress p cur }) ho _ _)
    · exact .inr (ends_raiseError _ _ _ _)

/-- DECOMPRESS in its loop. -/
theorem decompressRun_step {o : List OutToken} {u t : State} (h : DecompressRun o u) (ht : tick u = some t) :
    DecompressRun o t ∨ Ends (WroteSession o) t := by
  obtain ⟨hc, ho⟩ | ⟨bytes, ho, hown, hn, hnxt⟩ := h
  · exact decompressRun_step_opening hc ho ht
  rcases symbolsWritten_cases hn with hc | ⟨v, hc⟩ | ⟨d, hc⟩ | ⟨b, d, hc⟩
  · simp only [tick, hc, tickSymbols, Option.some.injEq] at ht
    subst ht
    split
    · exact decompressRun_startAttempt ho hown
    · exact .inr ⟨rfl, fun _ => wroteSession_of_closed ho hown⟩
  · have htick := tick_putSymbol hc
    cases herr : u.outErr with
    | true =>
      rw [htick.1 herr, Option.some.injEq] at ht
      rw [← ht]
      exact .inr (ends_raiseError _ _ _ _)
    | false =>
      rw [htick.2 herr, Option.some.injEq] at ht
      rw [← ht]
      refine .inl (.inr ⟨bytes ++ [v], by rw [ho, List.map_append, List.append_assoc]; rfl, hown, ?_,
        fun b k h => (by cases h)⟩)
      rw [symbolsWritten, List.length_append, List.length_singleton]
      exact congrArg some (by bv_omega)
  · simp only [tick, hc, tickDecode, Option.some.injEq] at ht
    subst ht
    split
    next hnext => exact decompressRun_takeBit ho hown hnext
    · exact .inr (ends_raiseError _ _ _ _)
  · rcases tick_refill_cases hc (hnxt b _ hc) ht with ⟨e, i, w, rfl⟩ | ⟨w, rfl, -, hsame⟩
    · exact .inr (ends_raiseError _ _ _ _)
    · obtain ⟨-, hwout, hwown⟩ : w.tree = u.tree ∧ w.out = u.out ∧ w.outOwned = u.outOwned := by
        simpa [State.besideUnpacker] using hsame
      exact decompressRun_bitTaken (hwout.trans ho) (hwown.trans hown)

theorem decompressRun_ctl {o : List OutToken} {u : State} (h : DecompressRun o u) : u.ctl ≠ .idle ∧ u.ctl ≠ .accepted := by
  have hplace : opensDecompress u.ctl = true ∨ ∃ n, symbolsWritten u.ctl = some n := by
    obtain ⟨h, -⟩ | ⟨bytes, -, -, h, -⟩ := h
    · exact .inl h
    · exact .inr ⟨_, h⟩
  refine ⟨fun hc => ?_, fun hc => ?_⟩ <;> rw [hc] at hplace <;> obtain h | ⟨n, h⟩ := hplace <;> cases h

/-! ### BR_OPEN -/

/-- RESULT of BR_OPEN on a session with these bytes (R313). -/
def headerResult (bytes : List Byte) : Word := (bytes.head?.map fun h => h.zeroExtend 32).getD 0xFFFFFFFF

/-- BR_OPEN: the header to come, or its padding count. -/
def BrOpenRun (v : Word) (u : State) : Prop :=
  (u.ctl = .openIn .brOpen ∧ headerResult (sessionBytes u.nextSession) = v) ∨
  (u.ctl = .header .brOpen ∧ u.inTerm = false ∧ headerResult (sessionBytes u.inQ) = v) ∨
  ∃ p : Fin 8, BitVec.ofNat 32 p.val = v ∧ (u.ctl = .fillCur .brOpen p ∨ ∃ c, u.ctl = .fillNxt .brOpen p c)

/-- A drain step leaves the session that is opened next. -/
theorem nextSession_of_drainStep {u t : State} (hd : u.inDrain = true) (h : drainStep u = some t) :
    t.nextSession = u.nextSession := by
  obtain ⟨x, q, hq, rfl⟩ := drainStep_cases h
  cases x <;> simp [State.nextSession, hd, hq, afterSession, isTerminator]

end Sys2Proof.Machine
end

section
/-! PROOFS. RESULT of BR_OPEN and TREE_LOAD by the bytes of the session (spec 45_bitreader.md R313, 42_code_table.md R203,
R207). -/

namespace Sys2Proof.Machine

theorem ofNat_of_headerPad {h : Byte} {pad : Fin 8} (hh : headerPad h = some pad) :
    BitVec.ofNat 32 pad.val = h.zeroExtend 32 := by
  unfold headerPad at hh
  split at hh
  · cases hh
    exact ofNat_of_header rfl
  · cases hh

theorem brOpenRun_step {v : Word} {u t : State} (h : BrOpenRun v u) (ht : tick u = some t) :
    BrOpenRun v t ∨ Ends (fun t => t.result = v) t := by
  obtain ⟨hc, hv⟩ | ⟨hc, htm, hv⟩ | ⟨p, hv, hc⟩ := h
  · simp only [tick, hc, tickOpenIn] at ht
    split at ht
    next hd =>
      have hnext := nextSession_of_drainStep hd ht
      obtain ⟨_, _, -, rfl⟩ := drainStep_cases ht
      exact .inl (.inl ⟨hc, by rw [hnext]; exact hv⟩)
    next hd =>
      cases ht
      rw [State.nextSession, if_neg hd] at hv
      exact .inl (.inr (.inl ⟨rfl, rfl, hv⟩))
  · rcases tick_atInRead_cases (by rw [hc]; rfl) ht with ⟨htm', -⟩ | ⟨q, -, hq, rfl⟩ | ⟨b, q, -, hq, rfl⟩ | ⟨q, -, -, rfl⟩
    · exact absurd (htm.symm.trans htm') (by decide)
    · rw [hq] at hv
      rw [hc, atEof]
      exact .inr ⟨rfl, fun _ => hv⟩
    · rw [hq] at hv
      rw [hc, atByte]
      split
      · exact .inr (ends_raiseError _ _ _ _)
      next p hp => exact .inl (.inr (.inr ⟨p, (ofNat_of_headerPad hp).trans hv, .inl rfl⟩))
    · exact .inr (ends_raiseError _ _ _ _)
  · have hread : atInRead u.ctl = true := by rcases hc with hc | ⟨c, hc⟩ <;> rw [hc] <;> rfl
    have hend : ∀ w, BrOpenRun v (atEof u.ctl w) ∨ Ends (fun t => t.result = v) (atEof u.ctl w) := fun w => by
      rcases hc with hc | ⟨c, hc⟩ <;> rw [hc]
      · exact .inl (.inr (.inr ⟨p, hv, .inr ⟨none, rfl⟩⟩))
      · exact .inr ⟨rfl, fun _ => hv⟩
    rcases tick_atInRead_cases hread ht with ⟨-, rfl⟩ | ⟨q, -, -, rfl⟩ | ⟨b, q, -, -, rfl⟩ | ⟨q, -, -, rfl⟩
    · exact hend _
    · exact hend _
    · rcases hc with hc | ⟨c, hc⟩ <;> rw [hc]
      · exact .inl (.inr (.inr ⟨p, hv, .inr ⟨some b, rfl⟩⟩))
      · exact .inr ⟨rfl, fun _ => hv⟩
    · exact .inr (ends_raiseError _ _ _ _)

theorem brOpenRun_ctl {v : Word} {u : State} (h : BrOpenRun v u) : u.ctl ≠ .idle ∧ u.ctl ≠ .accepted := by
  obtain ⟨hc, -⟩ | ⟨hc, -⟩ | ⟨p, -, hc | ⟨c, hc⟩⟩ := h <;> simp [hc]

/-! ### TREE_LOAD -/

theorem lineCount_nil : lineCount [] = 0 := rfl

/-- A line that no LF ends (R203). -/
theorem lineCount_of_no_lf {l : List Byte} (h : lf ∉ l) (hne : l ≠ []) : lineCount l = 1 := by
  have hlast : l.getLast hne ≠ lf := fun he => h (he ▸ List.getLast_mem hne)
  rw [lineCount, List.count_eq_zero_of_not_mem h, List.getLast?_eq_some_getLast hne]
  simp [hlast]

/-- A line that LF ends comes before the other lines. -/
theorem lineCount_append_lf {l rest : List Byte} (h : lf ∉ l) : lineCount (l ++ lf :: rest) = 1 + lineCount rest := by
  have hlast : (l ++ lf :: rest).getLast?.all (fun c => c == lf) = rest.getLast?.all (fun c => c == lf) := by
    cases rest with
    | nil => simp
    | cons c rest => rw [List.getLast?_append, List.getLast?_cons_cons]; simp [List.getLast?_cons]
  rw [lineCount, lineCount, hlast, List.count_append, List.count_eq_zero_of_not_mem h, List.count_cons_self]
  omega

/-- The bytes of the session not yet read. -/
def State.bytesAhead (s : State) : List Byte := if s.inTerm then [] else sessionBytes s.inQ

/-- The lines read, of the pairs and of the symbol line begun (R207). -/
def LoadState.linesRead (l : LoadState) (pairs : Nat) : Nat := 2 * pairs + if l.sym.isSome then 1 else 0

/-- TREE_LOAD of a session of `n` lines: the lines read, the one begun, and those ahead. -/
def LoadRun (n : Nat) (u : State) : Prop :=
  (u.ctl = .openIn .load ∧ lineCount (sessionBytes u.nextSession) = n) ∨
  ∃ l pairs, u.ctl = .load l ∧ l.pairs = BitVec.ofNat 32 pairs ∧ lf ∉ l.line ∧
    l.linesRead pairs + lineCount (l.line ++ u.bytesAhead) = n

/-- RESULT of TREE_LOAD (R207). -/
def LoadedLines (n : Nat) (t : State) : Prop := t.result = BitVec.ofNat 32 (n / 2)

/-- A whole line is read. -/
theorem loadRun_loadLine {n : Nat} {l : LoadState} {pairs : Nat} {u : State} (hpairs : l.pairs = BitVec.ofNat 32 pairs)
    (hn : l.linesRead pairs + (1 + lineCount u.bytesAhead) = n) :
    LoadRun n (loadLine l u) ∨ Ends (LoadedLines n) (loadLine l u) := by
  rcases loadLine_cases l with ⟨v, hsym, -, hl⟩ | ⟨v, p, t, hsym, -, -, hl⟩ | ⟨e, -, hl⟩ <;> rw [hl]
  · refine .inl (.inr ⟨_, pairs, rfl, hpairs, List.not_mem_nil, ?_⟩)
    simp only [LoadState.linesRead, hsym, Option.isSome_none, Option.isSome_some, if_true] at hn ⊢
    rw [← hn]
    exact Nat.add_assoc (2 * pairs) 1 _
  · refine .inl (.inr ⟨_, pairs + 1, rfl, ?_, List.not_mem_nil, ?_⟩)
    · rw [LoadState.between, hpairs]
      bv_omega
    · simp only [LoadState.linesRead, LoadState.between, hsym, Option.isSome_none, Option.isSome_some, if_true] at hn ⊢
      rw [← hn]
      show 2 * (pairs + 1) + 0 + lineCount u.bytesAhead = 2 * pairs + 1 + (1 + lineCount u.bytesAhead)
      omega
  · exact .inr (ends_raiseError _ _ _ _)

theorem loadRun_atEof {n : Nat} {l : LoadState} {pairs : Nat} {u : State} (htm : u.inTerm = true)
    (hpairs : l.pairs = BitVec.ofNat 32 pairs) (hlf : lf ∉ l.line) (hn : l.linesRead pairs + lineCount l.line = n) :
    LoadRun n (atEof (.load l) u) ∨ Ends (LoadedLines n) (atEof (.load l) u) := by
  rw [atEof]
  split
  next hempty =>
    rw [List.isEmpty_iff.1 hempty, lineCount_nil, Nat.add_zero] at hn
    unfold loadEnd
    split
    · exact .inr (ends_raiseError _ _ _ _)
    next hsym =>
      refine .inr ⟨rfl, fun _ => hpairs.trans ?_⟩
      rw [← hn, LoadState.linesRead, hsym]
      exact congrArg _ (by simp)
  next hne =>
    rw [lineCount_of_no_lf hlf (by simpa using hne)] at hn
    refine loadRun_loadLine hpairs ?_
    rw [State.bytesAhead, if_pos htm, lineCount_nil]
    exact hn

theorem loadRun_step {n : Nat} {u t : State} (h : LoadRun n u) (ht : tick u = some t) :
    LoadRun n t ∨ Ends (LoadedLines n) t := by
  obtain ⟨hc, hn⟩ | ⟨l, pairs, hc, hpairs, hlf, hn⟩ := h
  · simp only [tick, hc, tickOpenIn] at ht
    split at ht
    next hd =>
      have hnext := nextSession_of_drainStep hd ht
      obtain ⟨_, _, -, rfl⟩ := drainStep_cases ht
      exact .inl (.inl ⟨hc, by rw [hnext]; exact hn⟩)
    next hd =>
      cases ht
      rw [State.nextSession, if_neg hd] at hn
      exact .inl (.inr ⟨.start, 0, rfl, rfl, List.not_mem_nil, by rw [← hn]; exact Nat.zero_add _⟩)
  · rcases tick_atInRead_cases (by rw [hc]; rfl) ht with ⟨htm, rfl⟩ | ⟨q, htm, hq, rfl⟩ | ⟨b, q, htm, hq, rfl⟩ | ⟨q, -, -, rfl⟩
    · rw [State.bytesAhead, if_pos htm, List.append_nil] at hn
      rw [hc]
      exact loadRun_atEof htm hpairs hlf hn
    · have hahead : u.bytesAhead = [] := by rw [State.bytesAhead, hq]; simp [sessionBytes]
      rw [hahead, List.append_nil] at hn
      simp only [hc]
      exact loadRun_atEof rfl hpairs hlf hn
    · have hahead : u.bytesAhead = b :: State.bytesAhead { u with inQ := q } := by
        simp [State.bytesAhead, hq, htm, sessionBytes]
      rw [hahead] at hn
      rw [hc, atByte]
      split
      next hb =>
        rw [hb, lineCount_append_lf hlf] at hn
        exact loadRun_loadLine hpairs hn
      next hb =>
        refine .inl (.inr ⟨_, pairs, rfl, hpairs, ?_, ?_⟩)
        · exact fun hmem => (List.mem_append.1 hmem).elim hlf fun h => hb (List.mem_singleton.1 h).symm
        · rw [← hn]
          simp [State.bytesAhead, LoadState.linesRead]
    · exact .inr (ends_raiseError _ _ _ _)

theorem loadRun_ctl {n : Nat} {u : State} (h : LoadRun n u) : u.ctl ≠ .idle ∧ u.ctl ≠ .accepted := by
  obtain ⟨hc, -⟩ | ⟨l, p, hc, -⟩ := h <;> simp [hc]

end Sys2Proof.Machine
end

section
/-! PROOFS. The statement about what every command leaves (spec 10_state.md R28, 30_encoding.md R108, 60_exceptions.md R341,
R342). -/

namespace Sys2Proof.Machine

/-! ### A command with a symbol operand -/

theorem withSym_of_err_none {body : Byte → State → State} {s : State} (h : (withSym body s).err = none) :
    withSym body s = body s.sym s := by
  unfold withSym at h ⊢
  split
  next v hv =>
    rw [symOperand] at hv
    split at hv
    · exact congrArg (fun v => body v s) (Option.some.inj hv).symm
    · cases hv
  next hv => rw [hv] at h; exact absurd ((raiseError_err ..).symm.trans h) (by simp)

theorem raiseError_err_ne_none {e : ErrName} {i : Word} {s : State} : (raiseError e i s).err ≠ none := by
  simp

theorem withSym_cases (body : Byte → State → State) (s : State) :
    (∃ v, withSym body s = body v s) ∨ withSym body s = raiseError .invalidArgument s.arg0 s := by
  unfold withSym
  split
  · exact .inl ⟨_, rfl⟩
  · exact .inr rfl

theorem withBit_cases (body : Bool → State → State) (s : State) :
    (∃ b, withBit body s = body b s) ∨ withBit body s = raiseError .invalidArgument s.arg0 s := by
  unfold withBit
  split
  · exact .inl ⟨_, rfl⟩
  · exact .inr rfl

/-- The commands that use the ports, or take a bit of the unpacker. -/
def usesPorts (i : Instr) : Prop :=
  i ∈ [Instr.treeSave, .treeLoad, .compress, .decompress, .decodeSymbol, .brOpen, .brNext, .bwClose]

theorem withSym_ctl {body : Byte → State → State} {s : State} (h : ∀ v, (body v s).ctl = .idle) :
    (withSym body s).ctl = .idle := by
  unfold withSym
  split
  · exact h _
  · exact raiseError_ctl ..

theorem Flow.finish_ctl {f : Flow} {g : State → State} (hg : ∀ u, (g u).ctl = .idle)
    (hf : ∀ t, f = .raised t → t.ctl = .idle) : (f.finish g).ctl = .idle := by
  cases f with
  | go u => exact hg u
  | raised t => exact hf t rfl

/-- The other commands have no engine step ahead. -/
theorem commandStart_ctl {i : Instr} (hi : ¬usesPorts i) (s : State) : (commandStart i s).ctl = .idle := by
  cases i with
  | treeSave | treeLoad | compress | decompress | decodeSymbol | brOpen | brNext | bwClose =>
    exact absurd (by simp [usesPorts]) hi
  | nop | clearError | softReset | freqClear | treeBuild | treeClear | bwOpen | brHasNext => rfl
  | freqWrite | freqRead => exact withSym_ctl fun v => rfl
  | codeQuery =>
    simp only [commandStart]
    refine withSym_ctl fun v => ?_
    split <;> rfl
  | codeBit =>
    simp only [commandStart]
    refine withSym_ctl fun v => ?_
    split
    · exact raiseError_ctl ..
    · split
      · exact raiseError_ctl ..
      · rfl
  | encodeSymbol =>
    simp only [commandStart]
    refine withSym_ctl fun v => ?_
    rcases encodeSymbolBits_cases v s with ⟨p, -, h⟩ | ⟨-, h⟩ | ⟨q, h⟩ <;> rw [h]
    · rfl
    · exact raiseError_ctl ..
    · exact raiseError_ctl ..
  | bwWrite =>
    simp only [commandStart, withBit]
    split
    next b _ =>
      rcases bwWriteBit_cases b s with ⟨-, h⟩ | ⟨-, -, h⟩ | ⟨-, -, h⟩ <;> rw [h]
      · rfl
      · rfl
      · exact raiseError_ctl ..
    · exact raiseError_ctl ..
  | brClose =>
    simp only [commandStart]
    split <;> rfl

/-- RESULT of a command whose rule ends at once. -/
theorem resultRule_commandStart {i : Instr} {s : State} (hi : ¬usesPorts i) (herr : (commandStart i s).err = none) :
    ResultRule i s (commandStart i s) := by
  cases i with
  | treeSave | treeLoad | compress | decompress | decodeSymbol | brOpen | brNext | bwClose =>
    exact absurd (by simp [usesPorts]) hi
  | nop | clearError | softReset | freqClear | treeClear | bwOpen | brHasNext => rfl
  | treeBuild =>
    show BitVec.ofNat 32 _ = _
    rw [length_seedQueue]
    exact congrArg _ (length_leaves_buildTree s.freq).symm
  | freqWrite | freqRead =>
    simp only [commandStart, ResultRule] at herr ⊢
    rw [withSym_of_err_none herr]
    rfl
  | codeQuery =>
    simp only [commandStart, ResultRule] at herr ⊢
    rw [withSym_of_err_none herr]
    cases s.tree.code s.sym <;> rfl
  | codeBit =>
    simp only [commandStart, ResultRule] at herr ⊢
    have hsym := withSym_of_err_none herr
    rw [hsym] at herr ⊢
    cases hcode : s.tree.code s.sym with
    | none =>
      rw [hcode] at herr
      exact absurd herr raiseError_err_ne_none
    | some p =>
      simp only [hcode] at herr ⊢
      cases hbit : p[indexOperand s]? with
      | none =>
        rw [hbit] at herr
        exact absurd herr raiseError_err_ne_none
      | some b => exact ⟨p, b, rfl, hbit, by cases b <;> rfl⟩
  | encodeSymbol =>
    simp only [commandStart, ResultRule] at herr ⊢
    have hsym := withSym_of_err_none herr
    rw [hsym] at herr ⊢
    rcases encodeSymbolBits_cases s.sym s with ⟨p, hcode, h⟩ | ⟨-, h⟩ | ⟨q, h⟩ <;> rw [h] at herr ⊢
    · exact ⟨p, hcode, by rw [hcode]; rfl⟩
    · exact absurd herr raiseError_err_ne_none
    · exact absurd herr raiseError_err_ne_none
  | bwWrite =>
    simp only [commandStart, ResultRule] at herr ⊢
    rcases withBit_cases (fun b s => (bwWriteBit b s).finish endCommand) s with ⟨b, h⟩ | h <;> rw [h] at herr ⊢
    · rcases bwWriteBit_packed_or_raised b s with hb | ⟨u, hb⟩ <;> rw [hb] at herr ⊢
      · rfl
      · exact absurd herr raiseError_err_ne_none
    · exact absurd herr raiseError_err_ne_none
  | brClose =>
    simp only [commandStart, ResultRule]
    split
    · rw [brCloseSession_closed_form]
      rfl
    · rfl

theorem turnEnds_raiseError (Q : State → Prop) (e : ErrName) (i : Word) (u : State) :
    TurnEnds Q (advance (raiseError e i u)) := by
  rw [advance_raiseError]
  exact .of_ends (ends_raiseError _ _ _ _)

/-- RESULT of a command that ended with its turn and no error. -/
theorem turnEnds_commandStart (i : Instr) (s : State) : TurnEnds (ResultRule i s) (advance (commandStart i s)) := by
  by_cases hi : usesPorts i
  case neg =>
    rw [advance_of_idle (commandStart_ctl hi s)]
    exact .of_ends ⟨commandStart_ctl hi s, resultRule_commandStart hi⟩
  case pos =>
    cases i with
    | treeSave => exact turnEnds_emit (s := treeSaveStart s) rfl
    | treeLoad =>
      exact turnEnds_advance (R := LoadRun _) (Q := LoadedLines _) (fun _ => loadRun_ctl) (fun _ _ => loadRun_step)
        (.inl (.inl ⟨rfl, rfl⟩))
    | compress =>
      exact turnEnds_advance (R := CompressRun s.out) (Q := WroteSession s.out) (fun _ => compressRun_ctl)
        (fun _ _ => compressRun_step) (.inl ⟨rfl, .inl rfl⟩)
    | decompress =>
      exact turnEnds_advance (R := DecompressRun s.out) (Q := WroteSession s.out) (fun _ => decompressRun_ctl)
        (fun _ _ => decompressRun_step) (.inl (.inl ⟨rfl, rfl⟩))
    | decodeSymbol =>
      exact turnEnds_advance (R := DecodeRun s) (Q := DecodedFrom s) (fun _ => decodeRun_ctl) (fun _ _ => decodeRun_step)
        (decodeRun_start s)
    | brOpen =>
      exact turnEnds_advance (R := BrOpenRun _) (Q := fun t => t.result = _) (fun _ => brOpenRun_ctl)
        (fun _ _ => brOpenRun_step) (.inl (.inl ⟨rfl, rfl⟩))
    | brNext =>
      simp only [commandStart]
      split
      next hnext =>
        exact turnEnds_advance (R := BrNextRun s) (Q := NextBitOf s) (fun _ => brNextRun_ctl) (fun _ _ => brNextRun_step)
          (brNextRun_start hnext)
      next => exact turnEnds_raiseError _ _ _ _
    | bwClose =>
      unfold ResultRule
      by_cases hopen : s.bw.isOpen = true
      · simp only [commandStart, hopen, if_true]
        by_cases hroom : noRoomToClose s
        · rw [bwCloseStart, if_pos hroom]
          exact turnEnds_raiseError _ _ _ _
        · rw [bwCloseStart, if_neg hroom]
          exact turnEnds_emit (s := { s with bw := _, ctl := .emit _ (.bwClose (paddingCount s.bw.nbits)) }) rfl
      · simp only [commandStart, hopen, Bool.false_eq_true, if_false]
        rw [advance_of_idle (s := endCommand s) rfl]
        exact .of_ends ⟨rfl, fun _ => rfl⟩
    | _ => simp [usesPorts] at hi

theorem sameEnv_of_raised {i : Instr} {s t : State} (h : exec i s = .next t) (herr : s.err = none) (ht : t.err ≠ none) :
    SameEnv s t := by
  rcases sameEnv_exec h with henv | ⟨hi, rfl, -⟩
  · exact henv
  · simp only [List.mem_cons, List.not_mem_nil, or_false] at hi
    rcases hi with rfl | rfl | rfl | rfl
    · exact absurd rfl ht
    · exact absurd rfl ht
    · exact absurd herr ht
    · simp only [commandStart] at ht ⊢
      rcases withSym_cases (fun v s => endCommand (setFreq v (countOperand s) s)) s with ⟨v, hv⟩ | hv <;> rw [hv] at ht ⊢
      · exact absurd herr ht
      · exact sameEnv_raiseError _ _ s

/-- Settles O17: an effect that raises is one error entry; what else it leaves is what the commands do not write. -/
theorem raisingCommandAbortsOnce : Obligations.RaisingCommandAbortsOnce := by
  refine ⟨fun s t i e herr hexec hraised => ?raised, fun s t i hq hexec hidle herr => ?completed⟩
  case raised =>
    have hne : t.err ≠ none := by rw [hraised]; simp
    have henv := sameEnv_of_raised hexec herr hne
    have heffect : Effect s t := by
      rcases effect_exec hexec with h | rfl | rfl
      · exact h
      · rw [exec_eq_advance, command_run herr rfl, advance_of_idle rfl] at hexec
        cases hexec
        exact absurd rfl hne
      · rw [exec_eq_advance, command_run herr rfl, advance_of_idle rfl] at hexec
        cases hexec
        exact absurd rfl hne
    obtain ⟨e', i', u, hgoing, rfl⟩ := heffect.raised herr hne
    refine ⟨raiseError_ctl .., (raiseError_result ..).trans hgoing.result, henv.freq, henv.diagEn, henv.arg0, henv.arg1, ?_⟩
    obtain rfl : e' = e := Option.some.inj ((raiseError_err ..).symm.trans hraised)
    rw [raiseError_closed_form]
    exact ⟨rfl, rfl, rfl, rfl, by rw [hgoing.errHistory]⟩
  case completed =>
    rcases exec_cases hexec with ⟨hne, -, rfl⟩ | ⟨-, -, rfl⟩ | ⟨-, -, rfl⟩
    · exact absurd herr hne
    · exact absurd herr raiseError_err_ne_none
    · exact (turnEnds_commandStart i s).2 hidle herr

end Sys2Proof.Machine
end

section
/-! PROOFS. The statement about the end of every command and of a run (spec 00_scope.md R7, 70_reset_and_hazards.md
R388 to R392). -/

namespace Sys2Proof.Machine

/-! ### Every command ends, or holds with IN empty -/

theorem quantum_of_exec {i : Instr} {s t : State} (h : exec i s = .next t) : t.quantum = s.quantum ∨ t.ctl = .idle := by
  rcases sameEnv_exec h with henv | ⟨-, -, hidle⟩
  · exact .inl henv.quantum
  · exact .inr hidle

theorem tick_of_idle {s : State} (h : s.ctl = .idle) : tick s = none := tick_eq_none_iff.2 (.inl h)

theorem exec_ends_or_holds {i : Instr} {s t : State} (hq : s.quantum = none) (h : exec i s = .next t) :
    t.ctl = .idle ∨ (t.inQ = [] ∧ tick t = none) := by
  rcases exec_cases h with ⟨-, -, rfl⟩ | ⟨-, -, rfl⟩ | ⟨-, -, rfl⟩
  · exact .inl rfl
  · exact .inl (raiseError_ctl ..)
  · by_cases hi : usesPorts i
    case neg =>
      rw [advance_of_idle (commandStart_ctl hi s)]
      exact .inl (commandStart_ctl hi s)
    case pos =>
      have henv : SameEnv s (commandStart i s) := sameEnv_commandStart (by
        intro hmem
        simp only [usesPorts, List.mem_cons, List.not_mem_nil, or_false] at hi hmem
        rcases hmem with rfl | rfl | rfl | rfl <;> simp at hi) s
      have htick := tick_advance (henv.quantum.trans hq)
      rcases tick_eq_none_iff.1 htick with hidle | hacc | ⟨-, -, hin⟩ | ⟨-, -, hin⟩
      · exact .inl hidle
      · exact absurd hacc (turnEnds_commandStart i s).1
      · exact .inr ⟨hin, htick⟩
      · exact .inr ⟨hin, htick⟩

/-! ### The end of a run -/

theorem ctl_of_busy_false {s : State} (h : s.busy = false) : s.ctl = .idle := by
  cases hc : s.ctl <;> simp [State.busy, hc] at h ⊢

/-- With no command in progress the units own the sessions; a host that owes nothing has closed them (R391). -/
theorem owesNothing_of_hostDone {s : State} (hinv : s.Inv) (hclosed : s.outClosed) (hdone : s.hostDone = true) :
    s.owesNothing = true := by
  simp only [State.hostDone, State.ended, State.hostOwesNothing, Bool.and_eq_true, Bool.not_eq_true'] at hdone
  obtain ⟨⟨⟨-, hbusy⟩, -⟩, ⟨-, hbw⟩, hbr⟩ := hdone
  have hidle := ctl_of_busy_false hbusy
  have hout : s.outOwned = false := by rw [hinv.out_owned, hbw, hidle]; rfl
  have hin : s.inOwned = false := by rw [hinv.in_owned, hbr, hidle]; rfl
  simp [State.owesNothing, hbusy, hout, hin, hclosed hout]

theorem DutifulRun.inv {s t : State} (run : DutifulRun s t) (h : s.Inv ∧ s.outClosed) : t.Inv ∧ t.outClosed :=
  run.keeps (P := fun s => s.Inv ∧ s.outClosed) (fun s t ⟨hinv, hclosed⟩ ht =>
    (everyStepKeepsInvariant s t hinv ht).imp_right fun hkeeps => hkeeps hclosed) h

/-- What a result is read from (R108). -/
def State.delivered (s : State) : Word × Option ErrName × List OutToken × Tree := (s.result, s.err, s.out, s.tree)

/-- A step of a quiet run leaves what a result is read from. -/
theorem delivered_of_quiet_step {s t : State} (hidle : s.ctl = .idle) (hreset : s.hostLineTaken ≠ some .powerOnReset)
    (h : step s = .next t) : t.delivered = s.delivered := by
  rcases step_cases h with ⟨l, hl, hline⟩ | ⟨ts, q, rfl | ⟨-, -, hd⟩ | ⟨hc, -⟩ | ⟨hc, -, -⟩⟩
  · rcases hostLine_cases hline with ⟨rfl, -⟩ | ⟨_, _, -, rfl⟩ | ⟨m, rfl⟩
    · exact absurd hl hreset
    · rfl
    · rfl
  · rfl
  · obtain ⟨_, q, -, rfl⟩ := drainStep_cases hd
    rfl
  · exact absurd (hidle.symm.trans hc) (by simp)
  · exact absurd hidle hc

theorem resultRule_congr {i : Instr} {s t u : State} (h : u.delivered = t.delivered) (ht : ResultRule i s t) :
    ResultRule i s u := by
  obtain ⟨hr, -, ho, htree⟩ : u.result = t.result ∧ u.err = t.err ∧ u.out = t.out ∧ u.tree = t.tree := by
    simpa [State.delivered] using h
  unfold ResultRule at ht ⊢
  rw [hr, ho, htree]
  exact ht

/-- The invariant after a command that ended, whatever word PENDING held. -/
theorem inv_of_exec_idle {i : Instr} {s t : State} (hinv : s.Inv) (hclosed : s.outClosed) (hacc : s.ctl = .accepted)
    (h : exec i s = .next t) (hidle : t.ctl = .idle) : t.Inv ∧ t.outClosed := by
  have hrun : ∀ j, runningCommand s.ctl ≠ some j := fun j hj => by rw [hacc] at hj; cases hj
  have hs : InvAs (encode i) s := { hinv with running := fun j hj => absurd hj (hrun j) }
  obtain ⟨ht, hkeeps⟩ := holds_exec hs hacc (decode_encode i) h
  exact ⟨inv_of_invAs ht (.inr hidle), hkeeps hclosed⟩

/-- Settles O57: a turn ends where the engine has no step to take; at the end of a run the invariant leaves no session to a
unit that the host has closed; and the polling after a command touches nothing that its result is read from. -/
theorem commandsEndOrWaitForInput : Obligations.CommandsEndOrWaitForInput := by
  refine ⟨fun s i hq => ?ends, fun s t run hinv hclosed hdone => ?owes,
    fun s t u i hinv hclosed hacc hq hexec hidle run hdone => ?delivered⟩
  case ends =>
    obtain ⟨t, ht⟩ := exec_total i s
    exact ⟨t, ht, exec_ends_or_holds hq ht⟩
  case owes =>
    obtain ⟨ht, hout⟩ := run.inv ⟨hinv, hclosed⟩
    exact owesNothing_of_hostDone ht hout hdone
  case delivered =>
    obtain ⟨hu, hout⟩ := run.dutifulRun.inv (inv_of_exec_idle hinv hclosed hacc hexec hidle)
    have hsame : u.delivered = t.delivered := run.keeps (P := fun u => u.delivered = t.delivered)
      (fun v w hv hvi hreset hstep => (delivered_of_quiet_step hvi hreset hstep).trans hv) hidle rfl
    obtain ⟨hresult, herr, -, -⟩ : u.result = t.result ∧ u.err = t.err ∧ u.out = t.out ∧ u.tree = t.tree := by
      simpa [State.delivered] using hsame
    have hrule := raisingCommandAbortsOnce.2 s t i hq hexec hidle
    exact ⟨⟨owesNothing_of_hostDone hu hout hdone, fun h => resultRule_congr hsame (hrule (herr.symm.trans h))⟩,
      hresult, herr, hrule⟩

end Sys2Proof.Machine
end
